-- ==== Sys2Proof/Word.lean ====
section
/-! DEFINITION. The word types of the block: a byte is a symbol or a byte of a port
(spec/00_scope.md R8, R9), a word is a control and status register (CSR_W = 32), a command word has
16 bits (CMD_W), and a bit sequence is a list of bits in stream order (R10). -/

namespace Sys2Proof

/-- A byte value 0..255 (SYM_W = 8). -/
abbrev Byte := BitVec 8

/-- The contents of a control and status register (CSR_W = 32). -/
abbrev Word := BitVec 32

/-- A command word (CMD_W = 16). -/
abbrev CmdWord := BitVec 16

/-- A bit sequence in stream order, first bit first (R10). -/
abbrev Bits := List Bool

end Sys2Proof
end

