-- ==== Sys2Proof/Syntax.lean ====
section
/-! DEFINITION. The commands of the block, one constructor per row of spec/opcode_table.json
(spec/30_encoding.md R94), with the operands of R93. -/

namespace Sys2Proof

/-- The instance number P of a command (R93): reader R0 or R1, writer W0 or W1, and with the fixed
bindings of spec/10_state.md R25 and R28 also the source or sink port of that number. -/
inductive PortNum where
  | p0
  | p1
deriving DecidableEq, Repr

/-- The 17 commands (R94). -/
inductive Instr where
  /-- RD_OPEN rP (spec/40_bitio.md R130). -/
  | rdOpen (r : PortNum)
  /-- RD_CLOSE rP (R131). -/
  | rdClose (r : PortNum)
  /-- RD_BIT rP (R132). -/
  | rdBit (r : PortNum)
  /-- RD_BYTE rP (R133). -/
  | rdByte (r : PortNum)
  /-- RD_ATEND rP (R134). -/
  | rdAtEnd (r : PortNum)
  /-- WR_OPEN wP (R135). -/
  | wrOpen (w : PortNum)
  /-- WR_CLOSE wP (R136). -/
  | wrClose (w : PortNum)
  /-- WR_BIT wP, b (R137): the operand is the whole IMM field, of which b is bit 0 (log 15). -/
  | wrBit (w : PortNum) (imm : Byte)
  /-- WR_BYTE wP, v (R138). -/
  | wrByte (w : PortNum) (v : Byte)
  /-- FREQ_COUNT rP (spec/41_tree.md R181). -/
  | freqCount (r : PortNum)
  /-- TREE_BUILD (R186). -/
  | treeBuild
  /-- TREE_SER wP (R188). -/
  | treeSer (w : PortNum)
  /-- TREE_DESER rP (R190). -/
  | treeDeser (r : PortNum)
  /-- DICT_BUILD (R192). -/
  | dictBuild
  /-- CODE_EMIT wP, v (R194). -/
  | codeEmit (w : PortNum) (v : Byte)
  /-- ENCODE (spec/42_codec.md R250). -/
  | encode
  /-- DECODE (R270). -/
  | decode
deriving DecidableEq, Repr

/-- The four formats of a command word (R92). -/
inductive Format where
  /-- No operand. -/
  | F0
  /-- P. -/
  | FP
  /-- P and IMM[0]. -/
  | FPB
  /-- P and IMM[7:0]. -/
  | FPV
deriving DecidableEq, Repr

/-- The fields of a command word (R90). -/
structure Fields where
  op : BitVec 5
  rsv : BitVec 2
  p : BitVec 1
  imm : Byte
deriving DecidableEq, Repr

end Sys2Proof
end

