-- ==== Sys2Proof/WellFormed.lean ====
section
/-! DEFINITION. Which terms of `Instr` are commands the encoding admits. The operand types leave one
thing to check: WR_BIT has format FPB, whose IMM[7:1] must be 0 (spec/30_encoding.md R92, R96). -/

namespace Sys2Proof

/-- IMM[7:1] = 0, as format FPB requires (R92). -/
def immIsBit (imm : Byte) : Bool := imm.extractLsb' 1 7 == 0

/-- The command has an encoding (R96): one line per constructor. -/
def Instr.wellFormed : Instr → Bool
  | .rdOpen _ => true
  | .rdClose _ => true
  | .rdBit _ => true
  | .rdByte _ => true
  | .rdAtEnd _ => true
  | .wrOpen _ => true
  | .wrClose _ => true
  | .wrBit _ imm => immIsBit imm
  | .wrByte _ _ => true
  | .freqCount _ => true
  | .treeBuild => true
  | .treeSer _ => true
  | .treeDeser _ => true
  | .dictBuild => true
  | .codeEmit _ _ => true
  | .encode => true
  | .decode => true

end Sys2Proof
end

