-- ==== Sys2Proof/Decode.lean ====
section
/-! DEFINITION. The decoder and the encoder of command words, both written from the opcode map of
spec/30_encoding.md R94 and the formats of R92. The decoder is total on every value a host can write
to CMD and rejects by name. -/

namespace Sys2Proof

/-- Why a CMD value is no command (R91, R96). Every one of them is IllegalCommand to the host. -/
inductive Illegal where
  /-- CMD[31:16] is not 0 (R91). -/
  | highHalf
  /-- The OP field is one of the 15 reserved opcodes (R96). -/
  | reservedOpcode
  /-- RSV is not 0 (R96). -/
  | reservedBits
  /-- A bit outside the format's pattern is not 0 (R96). -/
  | strayBits
deriving DecidableEq, Repr

/-- The fields of a command word (R90). -/
def fieldsOf (c : CmdWord) : Fields :=
  { op := c.extractLsb' 11 5, rsv := c.extractLsb' 9 2, p := c.extractLsb' 8 1, imm := c.extractLsb' 0 8 }

/-- The word with given fields (R90). -/
def wordOf (f : Fields) : CmdWord := f.op ++ f.rsv ++ f.p ++ f.imm

/-- The instance a P bit selects (R93). -/
def portOf (p : BitVec 1) : PortNum := if p = 0 then .p0 else .p1

/-- The P bit of an instance (R93). -/
def PortNum.bit : PortNum → BitVec 1
  | .p0 => 0
  | .p1 => 1

/-- Format F0: P and IMM must be 0 (R92). -/
def inF0 (f : Fields) (i : Instr) : Except Illegal Instr :=
  if f.p = 0 ∧ f.imm = 0 then .ok i else .error .strayBits

/-- Format FP: IMM must be 0 (R92). -/
def inFP (f : Fields) (k : PortNum → Instr) : Except Illegal Instr :=
  if f.imm = 0 then .ok (k (portOf f.p)) else .error .strayBits

/-- Format FPB: IMM[7:1] must be 0 (R92). -/
def inFPB (f : Fields) (k : PortNum → Byte → Instr) : Except Illegal Instr :=
  if f.imm.extractLsb' 1 7 = 0 then .ok (k (portOf f.p) f.imm) else .error .strayBits

/-- Format FPV: every value of P and IMM is an operand (R92). -/
def inFPV (f : Fields) (k : PortNum → Byte → Instr) : Except Illegal Instr :=
  .ok (k (portOf f.p) f.imm)

/-- The command whose opcode is OP, with its format's checks (R94); a reserved opcode is rejected
(R96). -/
def decodeOp (f : Fields) : Except Illegal Instr :=
  match f.op.toNat with
  | 0x01 => inFP f .rdOpen
  | 0x02 => inFP f .rdClose
  | 0x03 => inFP f .rdBit
  | 0x04 => inFP f .rdByte
  | 0x05 => inFP f .rdAtEnd
  | 0x08 => inFP f .wrOpen
  | 0x09 => inFP f .wrClose
  | 0x0A => inFPB f .wrBit
  | 0x0B => inFPV f .wrByte
  | 0x10 => inFP f .freqCount
  | 0x11 => inF0 f .treeBuild
  | 0x12 => inFP f .treeSer
  | 0x13 => inFP f .treeDeser
  | 0x14 => inF0 f .dictBuild
  | 0x15 => inFPV f .codeEmit
  | 0x18 => inF0 f .encode
  | 0x19 => inF0 f .decode
  | _ => .error .reservedOpcode

/-- Decoding a 16-bit command word (R95, R96). -/
def decodeWord (c : CmdWord) : Except Illegal Instr :=
  let f := fieldsOf c
  if f.rsv = 0 then decodeOp f else .error .reservedBits

/-- Decoding the 32-bit value a host writes to CMD: the upper half must be 0 (R91). -/
def decodeCmd (c : Word) : Except Illegal Instr :=
  if c.extractLsb' 16 16 = 0 then decodeWord (c.extractLsb' 0 16) else .error .highHalf

/-- The fields of a word of format F0. -/
def fieldsF0 (op : BitVec 5) : Fields := { op, rsv := 0, p := 0, imm := 0 }

/-- The fields of a word of format FP. -/
def fieldsFP (op : BitVec 5) (p : PortNum) : Fields := { op, rsv := 0, p := p.bit, imm := 0 }

/-- The fields of a word of format FPB or FPV. -/
def fieldsFPV (op : BitVec 5) (p : PortNum) (imm : Byte) : Fields := { op, rsv := 0, p := p.bit, imm }

/-- The fields of a command's word, from the OP column of R94. -/
def fieldsOfInstr : Instr → Fields
  | .rdOpen r => fieldsFP 0x01 r
  | .rdClose r => fieldsFP 0x02 r
  | .rdBit r => fieldsFP 0x03 r
  | .rdByte r => fieldsFP 0x04 r
  | .rdAtEnd r => fieldsFP 0x05 r
  | .wrOpen w => fieldsFP 0x08 w
  | .wrClose w => fieldsFP 0x09 w
  | .wrBit w imm => fieldsFPV 0x0A w imm
  | .wrByte w v => fieldsFPV 0x0B w v
  | .freqCount r => fieldsFP 0x10 r
  | .treeBuild => fieldsF0 0x11
  | .treeSer w => fieldsFP 0x12 w
  | .treeDeser r => fieldsFP 0x13 r
  | .dictBuild => fieldsF0 0x14
  | .codeEmit w v => fieldsFPV 0x15 w v
  | .encode => fieldsF0 0x18
  | .decode => fieldsF0 0x19

/-- The command word of a command (R94). -/
def encode (i : Instr) : CmdWord := wordOf (fieldsOfInstr i)

/-- The value a host writes to CMD to issue a command: the upper half is 0 (R91). -/
def encodeCmd (i : Instr) : Word := (encode i).setWidth 32

/-- The mask of fixed bits of a format (R92). -/
def Format.mask : Format → CmdWord
  | .F0 => 0xFFFF
  | .FP => 0xFEFF
  | .FPB => 0xFEFE
  | .FPV => 0xFE00

/-- One row of the opcode map (R94). -/
structure Row where
  mnemonic : String
  format : Format
  fixed : CmdWord
deriving DecidableEq, Repr

/-- The opcode map, its rows in the order of R94, `fixed` being the column `match`. -/
def opcodeMap : List Row :=
  [ ⟨"RD_OPEN", .FP, 0x0800⟩, ⟨"RD_CLOSE", .FP, 0x1000⟩, ⟨"RD_BIT", .FP, 0x1800⟩,
    ⟨"RD_BYTE", .FP, 0x2000⟩, ⟨"RD_ATEND", .FP, 0x2800⟩, ⟨"WR_OPEN", .FP, 0x4000⟩,
    ⟨"WR_CLOSE", .FP, 0x4800⟩, ⟨"WR_BIT", .FPB, 0x5000⟩, ⟨"WR_BYTE", .FPV, 0x5800⟩,
    ⟨"FREQ_COUNT", .FP, 0x8000⟩, ⟨"TREE_BUILD", .F0, 0x8800⟩, ⟨"TREE_SER", .FP, 0x9000⟩,
    ⟨"TREE_DESER", .FP, 0x9800⟩, ⟨"DICT_BUILD", .F0, 0xA000⟩, ⟨"CODE_EMIT", .FPV, 0xA800⟩,
    ⟨"ENCODE", .F0, 0xC000⟩, ⟨"DECODE", .F0, 0xC800⟩ ]

/-- The word c is an encoding of the row (R95). -/
def Row.admits (r : Row) (c : CmdWord) : Bool := c &&& r.format.mask == r.fixed

/-- The mnemonic of a command (R94). -/
def Instr.mnemonic : Instr → String
  | .rdOpen _ => "RD_OPEN"
  | .rdClose _ => "RD_CLOSE"
  | .rdBit _ => "RD_BIT"
  | .rdByte _ => "RD_BYTE"
  | .rdAtEnd _ => "RD_ATEND"
  | .wrOpen _ => "WR_OPEN"
  | .wrClose _ => "WR_CLOSE"
  | .wrBit _ _ => "WR_BIT"
  | .wrByte _ _ => "WR_BYTE"
  | .freqCount _ => "FREQ_COUNT"
  | .treeBuild => "TREE_BUILD"
  | .treeSer _ => "TREE_SER"
  | .treeDeser _ => "TREE_DESER"
  | .dictBuild => "DICT_BUILD"
  | .codeEmit _ _ => "CODE_EMIT"
  | .encode => "ENCODE"
  | .decode => "DECODE"

/-- The instruction the decoder reads from a word numbered as spec/opcode_table.json numbers it:
one 16-bit command word, bit 0 least significant; every CMD bit above `nbits` is 0 (R90, R98). -/
def decodeTableWord (nbits w : Nat) : Option Instr :=
  match decodeCmd (BitVec.ofNat 32 (w % 2 ^ nbits)) with
  | .ok i => some i
  | .error _ => none

end Sys2Proof
end

