-- ==== Sys2Proof/Config.lean ====
section
/-! DEFINITION. The implementation parameters of spec/00_scope.md R7. `CNT_W` and `NODE_CAP` are the two
that rule has a model take as parameters: they are the fields of `Params`, every other entry follows from
them by the rule's own words, and `Params.defaults` holds the rule's defaults. A third parameter stands for
a point on which the spec says two things (log 13). `CSR_BASE` is the one parameter the spec leaves OPEN
(spec/92_eei_decisions.md D51), so it has no value here. -/

namespace Sys2Proof.Config

/-- Number of symbols (R7). -/
abbrev N_SYM : Nat := 256

/-- The parameters of an implementation (R7): CNT_W, the width of a frequency count and of TOTAL (D11), and
NODE_CAP, the largest number of nodes the tree store holds (D12). And what a block does with the stored tree and
dictionary when TREE_BUILD raises EmptyFreq: it keeps them, as the decision D29 says, or they become invalid, as
the text of spec/41_tree.md R186 says (log 13). -/
structure Params where
  cntW : Nat
  nodeCap : Nat
  emptyFreqKeepsTree : Bool
deriving DecidableEq, Repr

/-- The defaults of R7: CNT_W = 32, NODE_CAP = 2·N_SYM − 1 = 511; and D29 for EmptyFreq (log 13). -/
def Params.defaults : Params := { cntW := 32, nodeCap := 2 * N_SYM - 1, emptyFreqKeepsTree := true }

/-- MAX_LEN: the largest input length ENCODE and FREQ_COUNT accept, 2^CNT_W − 1 (R7). -/
def Params.maxLen (P : Params) : Nat := 2 ^ P.cntW - 1

/-- MAX_LEAVES: the most leaves of a tree of NODE_CAP nodes, (NODE_CAP + 1) / 2 (R7). -/
def Params.maxLeaves (P : Params) : Nat := (P.nodeCap + 1) / 2

/-- MAX_CODE_LEN: the greatest depth of a tree of MAX_LEAVES leaves (R7). -/
def Params.maxCodeLen (P : Params) : Nat := P.maxLeaves - 1

/-- STACK_CAP: the depth of the explicit traversal stack an implementation needs (R7): no rule lets it
overflow (spec/93_implementation_defined.md I5), so no definition of the model reads it. -/
def Params.stackCap (P : Params) : Nat := P.maxCodeLen + 1

/-- The parameters fit the spec's fixed fields: the store holds every tree BuildTree returns, so R33 can hold
(R196), and NODES counts up to NODE_CAP in its 10 bits (spec/10_state.md R32, R41). -/
structure Params.Ok (P : Params) : Prop where
  holdsBuilt : 2 * N_SYM - 1 ≤ P.nodeCap
  fitsNodes : P.nodeCap < 2 ^ 10

/-- DESIGN CHOICE (log 14). The platform's address of CSR offset 0x00: OPEN in the spec (D51) and
used by no rule, so uninterpreted here and used by no definition. -/
opaque CSR_BASE : Nat

end Sys2Proof.Config
end

