-- ==== Sys2Proof/Machine/State.lean ====
section
/-! DEFINITION. The state of the block, its ports and its host, as plain data (spec/10_state.md,
spec/20_memory.md), with the reasons a step can stop and the state after reset. -/

namespace Sys2Proof.Machine

/-- STATUS.PHASE (spec/10_state.md R39). The reserved values 13 to 15 are never reported, so they
have no constructor. -/
inductive Phase where
  | idle
  | prim
  | eCount
  | eBuild
  | eSerTree
  | eDict
  | ePad
  | eEmit
  | eClose
  | dTree
  | dPad
  | dDecode
  | dClose
deriving DecidableEq, Repr

/-- The errors that end a command (spec/60_exceptions.md R301). -/
inductive Error where
  | sourceUnavailable
  | sinkUnavailable
  | truncatedTree
  | malformedPadding
  | endOfStream
  | illegalCommand
  | notOpen
  | alreadyOpen
  | noTree
  | noDict
  | noCode
  | emptyFreq
  | treeTooLarge
  | degenerateTree
  | countOverflow
deriving DecidableEq, Repr

/-- The spec's type `Tree` (spec/00_scope.md R11, spec/10_state.md R31): a leaf holds a symbol, an
internal node exactly two children. -/
inductive HTree where
  | leaf (v : Byte)
  | internal (l r : HTree)
deriving DecidableEq, Repr

/-- A bit reader (spec/10_state.md R23); `opened` is the spec's field `open`. -/
structure Reader where
  opened : Bool
  pos : Nat
  buf : Byte
  cnt : Fin 8
deriving DecidableEq, Repr

/-- A bit writer (R26); `opened` is the spec's field `open`. -/
structure Writer where
  opened : Bool
  acc : Byte
  n : Fin 8
deriving DecidableEq, Repr

/-- A source port (spec/20_memory.md R60). -/
structure Source where
  data : List Byte
  avail : Bool
deriving DecidableEq, Repr

/-- A sink port (R61). -/
structure Sink where
  data : List Byte
  avail : Bool
deriving DecidableEq, Repr

/-- The frequency table: one count per symbol (spec/10_state.md R29). A count is a natural number (R9) that
fits CNT_W bits, since CountOverflow comes first (spec/41_tree.md R180, `FreqOk`). -/
abbrev FreqTable := Vector Nat Config.N_SYM

/-- The dictionary: a partial map from symbol to code (R34). -/
abbrev Dict := Vector (Option Bits) Config.N_SYM

/-- What is left to serialize: a subtree, or the value of a leaf whose marker bit is written
(spec/41_tree.md R187). -/
inductive SerItem where
  | node (t : HTree)
  | value (v : Byte)
deriving DecidableEq, Repr

/-- An internal node being deserialized: its left child is still to come, or `l` is its left child
and the right one is to come (R189). -/
inductive Frame where
  | wantLeft
  | wantRight (l : HTree)
deriving DecidableEq, Repr

/-- The engine's position inside the running command: "the phase and the loop state of 41_tree.md
and 42_codec.md" (spec/10_state.md R46). Frames are innermost first, items next first. -/
inductive Pos where
  /-- Before the first statement of the command. -/
  | start
  /-- At the loop head of CountFreq (spec/41_tree.md R180). -/
  | count
  /-- Inside Serialize (R187). -/
  | ser (todo : List SerItem)
  /-- Inside Deserialize, before the ReadBit of a node's marker; `seen` nodes so far (R189). -/
  | desNode (frames : List Frame) (seen : Nat)
  /-- Inside Deserialize, before the ReadByte of a leaf's value. -/
  | desLeaf (frames : List Frame) (seen : Nat)
  /-- Deserialize has returned the tree and its node count. -/
  | desDone (t : HTree) (seen : Nat)
  /-- Inside EmitCode with these bits to write; with none left, at the end of CODE_EMIT (R193,
  R194) or at the loop head of E_EMIT (spec/42_codec.md R258). -/
  | emit (bits : Bits)
  /-- ENCODE, E_PAD, with these padding bits to write (R257). -/
  | pad (bits : Bits)
  /-- ENCODE, E_CLOSE, before CloseW(0) (R259). -/
  | closeW0
  /-- ENCODE, E_CLOSE, before CloseW(1). -/
  | closeW1
  /-- ENCODE or DECODE, before "end normally". -/
  | finish
  /-- DECODE, D_PAD, at the loop head (R274). -/
  | skip
  /-- DECODE, D_DECODE, at the loop head (R275). -/
  | walk
  /-- DECODE, D_DECODE, the cursor is on this leaf and WriteByte is next (R275). -/
  | write (v : Byte)
  /-- DECODE, D_CLOSE (R277). -/
  | dClose
  /-- An error was raised: the error path of spec/60_exceptions.md R306 begins. -/
  | raised (e : Error)
  /-- In Release, before CloseW(0) (R312). -/
  | relW0 (e : Error)
  /-- In Release, before CloseW(1). -/
  | relW1 (e : Error)
  /-- Release has finished, or there was none: the error end itself. -/
  | errEnd (e : Error)
deriving DecidableEq, Repr

/-- What an accepted CMD write runs (spec/60_exceptions.md R303): a command, or Illegal. -/
inductive Command where
  | legal (i : Instr)
  | illegal
deriving DecidableEq, Repr

/-- One host step (the table of spec/20_memory.md R81) or platform reset (spec/70_reset_and_hazards.md
R340). Offsets are relative to CSR_BASE; widths are in bits. -/
inductive HostStep where
  /-- "load a source": sets data and avail. -/
  | loadSource (p : PortNum) (data : List Byte) (avail : Bool)
  /-- Sets `SRCp.avail` (log 9). -/
  | setSourceAvail (p : PortNum) (b : Bool)
  /-- Sets `SNKp.avail`. -/
  | setSinkAvail (p : PortNum) (b : Bool)
  /-- "read a sink". -/
  | readSink (p : PortNum)
  /-- "copy a sink to a source": `SRCq.data <- SNKp.data`. -/
  | copySink (q p : PortNum)
  /-- A CSR write: "issue a command" at offset 0x00, "control" at 0x10. -/
  | csrWrite (offset width : Nat) (value : Word)
  /-- A CSR read. -/
  | csrRead (offset width : Nat)
  /-- A platform reset input: a power-on reset (R340, log 19). -/
  | platformReset
deriving DecidableEq, Repr

/-- Whose turn it is: host steps and engine micro-steps interleave (spec/20_memory.md R72, log 6). -/
inductive Turn where
  | engine
  | host (h : HostStep)
deriving DecidableEq, Repr

/-- What the host's last reads returned: the column "block gives back" of R81 (log 7). -/
structure Seen where
  word : Word
  bytes : List Byte
deriving DecidableEq, Repr

/-- The whole state: the block (spec/10_state.md R46), the four ports (spec/20_memory.md R60, R61), the
parameters of the implementation (spec/00_scope.md R7, log 14) and the model's own fields `turns` and `seen`.
TREE_VALID and ROOT_LEAF are views of `tree` (R46), the *_OPEN bits views of the readers and writers (R38). -/
structure State where
  r0 : Reader
  r1 : Reader
  w0 : Writer
  w1 : Writer
  freq : FreqTable
  total : Nat
  tree : Option HTree
  nodes : BitVec 10
  dict : Dict
  dictValid : Bool
  cursor : Bits
  padBits : BitVec 4
  busy : Bool
  done : Bool
  err : Bool
  empty : Bool
  partialCode : Bool
  drop : Bool
  errcode : BitVec 4
  phase : Phase
  resultValue : Byte
  resultValid : Bool
  running : Option Command
  pos : Pos
  src0 : Source
  src1 : Source
  snk0 : Sink
  snk1 : Sink
  params : Config.Params
  turns : List Turn
  seen : Seen
deriving DecidableEq, Repr

/-- Why the machine stops with a fault. No command raises one: an error of a command is a next state
with STATUS.ERR set (spec/60_exceptions.md R306). -/
inductive Fault where
  /-- Raised by the host steps loadSource and copySink on a source whose reader is open or while
  ENCODE or DECODE is BUSY: the host breaks the duty of spec/20_memory.md R75, for which the spec
  gives it no step (log 8). Safe: the model stops where a block would go on with changed data. -/
  | sourceInUse (p : PortNum)
deriving DecidableEq, Repr

/-- Why a step is refused. -/
inductive Refusal where
  /-- No meaning for the instruction yet, by mnemonic. No arm of `exec` answers it. Safe. -/
  | notModelled (mnemonic : String)
  /-- Raised by the host steps csrWrite and csrRead for an access that is not an aligned 32-bit
  access at one of the five offsets: "the model has no step for it (the host is refused)"
  (spec/20_memory.md R67, log 8). Safe. -/
  | csrAccess (offset width : Nat)
deriving DecidableEq, Repr

/-- A closed reader: its value after reset and after CloseR (spec/10_state.md R44, R24). -/
def Reader.closed : Reader := { opened := false, pos := 0, buf := 0, cnt := 0 }

/-- A closed writer: its value after reset and after CloseW (R44, R27). -/
def Writer.closed : Writer := { opened := false, acc := 0, n := 0 }

/-- The machine after power-on: the block as R44 says; the ports' contents are not in the spec (empty
and available, DESIGN CHOICE, log 5), nor are the model's own fields (log 6, log 7). -/
def State.reset : State where
  r0 := Reader.closed
  r1 := Reader.closed
  w0 := Writer.closed
  w1 := Writer.closed
  freq := Vector.replicate Config.N_SYM 0
  total := 0
  tree := none
  nodes := 0
  dict := Vector.replicate Config.N_SYM none
  dictValid := false
  cursor := []
  padBits := 0
  busy := false
  done := false
  err := false
  empty := false
  partialCode := false
  drop := false
  errcode := 0
  phase := .idle
  resultValue := 0
  resultValid := false
  running := none
  pos := .start
  src0 := { data := [], avail := true }
  src1 := { data := [], avail := true }
  snk0 := { data := [], avail := true }
  snk1 := { data := [], avail := true }
  params := Config.Params.defaults
  turns := []
  seen := { word := 0, bytes := [] }

end Sys2Proof.Machine
end

