-- ==== Sys2Proof/Machine/Flags.lean ====
section
/-! DEFINITION. What the host reads: the codes of phases and errors and the words of STATUS, RESULT
and INFO (spec/10_state.md R38 to R41, spec/60_exceptions.md R301). -/

namespace Sys2Proof.Machine

/-- The value of STATUS.PHASE (spec/10_state.md R39). -/
def Phase.code : Phase → BitVec 4
  | .idle => 0
  | .prim => 1
  | .eCount => 2
  | .eBuild => 3
  | .eSerTree => 4
  | .eDict => 5
  | .ePad => 6
  | .eEmit => 7
  | .eClose => 8
  | .dTree => 9
  | .dPad => 10
  | .dDecode => 11
  | .dClose => 12

/-- The value of STATUS.ERRCODE (spec/60_exceptions.md R301). -/
def Error.code : Error → BitVec 4
  | .sourceUnavailable => 1
  | .sinkUnavailable => 2
  | .truncatedTree => 3
  | .malformedPadding => 4
  | .endOfStream => 5
  | .illegalCommand => 6
  | .notOpen => 7
  | .alreadyOpen => 8
  | .noTree => 9
  | .noDict => 10
  | .noCode => 11
  | .emptyFreq => 12
  | .treeTooLarge => 13
  | .degenerateTree => 14
  | .countOverflow => 15

/-- TREE_VALID: TREE holds a complete tree (spec/10_state.md R32, R46). -/
def State.treeValid (s : State) : Bool := s.tree.isSome

/-- ROOT_LEAF: TREE_VALID = 1 and TREE is a leaf (R32, R46). -/
def State.rootLeaf (s : State) : Bool :=
  match s.tree with
  | some (.leaf _) => true
  | _ => false

/-- The word a read of STATUS returns (R38), bit 31 first. -/
def State.statusWord (s : State) : Word :=
  (0 : BitVec 12) ++ BitVec.ofBool s.w1.opened ++ BitVec.ofBool s.w0.opened
    ++ BitVec.ofBool s.r1.opened ++ BitVec.ofBool s.r0.opened
    ++ s.phase.code ++ s.errcode ++ (0 : BitVec 2) ++ BitVec.ofBool s.drop
    ++ BitVec.ofBool s.partialCode ++ BitVec.ofBool s.empty ++ BitVec.ofBool s.err
    ++ BitVec.ofBool s.done ++ BitVec.ofBool s.busy

/-- The word a read of RESULT returns (R40), bit 31 first. -/
def State.resultWord (s : State) : Word :=
  (0 : BitVec 23) ++ BitVec.ofBool s.resultValid ++ s.resultValue

/-- The word a read of INFO returns (R41), bit 31 first. -/
def State.infoWord (s : State) : Word :=
  (0 : BitVec 14) ++ s.nodes ++ (0 : BitVec 1) ++ BitVec.ofBool s.rootLeaf
    ++ BitVec.ofBool s.dictValid ++ BitVec.ofBool s.treeValid ++ s.padBits

end Sys2Proof.Machine
end

