-- ==== Sys2Proof/Machine/Operands.lean ====
section
/-! DEFINITION. The operands of commands (spec/30_encoding.md R93): the reader, writer and ports an
instance number names, with the fixed bindings of spec/10_state.md R25 and R28, and the bit operand
of WR_BIT. Every read and write of a reader, writer or port goes through these. -/

namespace Sys2Proof.Machine

/-- Reader Rp (R93). -/
def State.reader (s : State) : PortNum → Reader
  | .p0 => s.r0
  | .p1 => s.r1

/-- The state with reader Rp replaced. -/
def State.setReader (s : State) (p : PortNum) (r : Reader) : State :=
  match p with
  | .p0 => { s with r0 := r }
  | .p1 => { s with r1 := r }

/-- Writer Wp (R93). -/
def State.writer (s : State) : PortNum → Writer
  | .p0 => s.w0
  | .p1 => s.w1

/-- The state with writer Wp replaced. -/
def State.setWriter (s : State) (p : PortNum) (w : Writer) : State :=
  match p with
  | .p0 => { s with w0 := w }
  | .p1 => { s with w1 := w }

/-- Source port SRCp, which reader Rp reads (spec/10_state.md R25). -/
def State.source (s : State) : PortNum → Source
  | .p0 => s.src0
  | .p1 => s.src1

/-- The state with source port SRCp replaced. -/
def State.setSource (s : State) (p : PortNum) (x : Source) : State :=
  match p with
  | .p0 => { s with src0 := x }
  | .p1 => { s with src1 := x }

/-- Sink port SNKp, which writer Wp writes (spec/10_state.md R28). -/
def State.sink (s : State) : PortNum → Sink
  | .p0 => s.snk0
  | .p1 => s.snk1

/-- The state with sink port SNKp replaced. -/
def State.setSink (s : State) (p : PortNum) (x : Sink) : State :=
  match p with
  | .p0 => { s with snk0 := x }
  | .p1 => { s with snk1 := x }

/-- The bit operand b = IMM[0] of WR_BIT (spec/30_encoding.md R93, spec/40_bitio.md R137). -/
def immBit (imm : Byte) : Bool := imm.getLsbD 0

/-- `FREQ[v]` (spec/00_scope.md R12). -/
def FreqTable.count (f : FreqTable) (v : Byte) : Nat := f[v.toNat]'v.isLt

/-- `FREQ[v] <- FREQ[v] + 1` (spec/41_tree.md R180). -/
def FreqTable.bump (f : FreqTable) (v : Byte) : FreqTable := f.set v.toNat (f.count v + 1) v.isLt

/-- `DICT[v]`, or none when v is not in dom DICT (spec/00_scope.md R12). -/
def Dict.code (d : Dict) (v : Byte) : Option Bits := d[v.toNat]'v.isLt

/-- `M[v] <- path` in BuildDict (spec/41_tree.md R191). -/
def Dict.record (d : Dict) (v : Byte) (path : Bits) : Dict := d.set v.toNat (some path) v.isLt

/-- The table with every count 0 (R180). -/
def FreqTable.zero : FreqTable := Vector.replicate Config.N_SYM 0

/-- The empty map (R191). -/
def Dict.none : Dict := Vector.replicate Config.N_SYM Option.none

end Sys2Proof.Machine
end

