-- ==== Sys2Proof/Machine/Ops.lean ====
section
/-! DEFINITION. The shared operations: Pull and Push (spec/20_memory.md R62, R63), the bit-level
helpers (spec/40_bitio.md R121 to R129), the acceptance and the two ends of a command
(spec/60_exceptions.md R303, R305, R306), the reset of the block (spec/70_reset_and_hazards.md R341)
and the micro-step (spec/20_memory.md R72). -/

namespace Sys2Proof.Machine

/-- What a helper does: it returns a value, or raises an error (spec/00_scope.md R14); either way it
leaves a state. -/
inductive Res (α : Type) where
  | ok (a : α) (s : State)
  | raise (e : Error) (s : State)
deriving DecidableEq, Repr

/-! ## Ports -/

/-- `Pull(p)` (spec/20_memory.md R62): end of data is checked before availability. -/
def pull (p : PortNum) (s : State) : Res Byte :=
  match (s.source p).data[(s.reader p).pos]? with
  | none => .raise .endOfStream s
  | some v =>
    if (s.source p).avail then
      .ok v (s.setReader p { s.reader p with pos := (s.reader p).pos + 1 })
    else .raise .sourceUnavailable s

/-- `Push(p, v)` (R63). -/
def push (p : PortNum) (v : Byte) (s : State) : Res Unit :=
  if (s.sink p).avail then
    .ok () (s.setSink p { s.sink p with data := (s.sink p).data ++ [v] })
  else .raise .sinkUnavailable s

/-! ## Bit readers -/

/-- `OpenR(p)` (spec/40_bitio.md R121). -/
def openR (p : PortNum) (s : State) : Res Unit :=
  if (s.source p).avail then .ok () (s.setReader p { Reader.closed with opened := true })
  else .raise .sourceUnavailable s

/-- `CloseR(p)` (R122): it never raises. -/
def closeR (p : PortNum) (s : State) : State := s.setReader p Reader.closed

/-- `AtEnd(p)` (R123): it does not consult `avail`. -/
def atEnd (p : PortNum) (s : State) : Bool :=
  (s.reader p).cnt == 0 && (s.source p).data.length ≤ (s.reader p).pos

/-- The number of bits a byte counts down from after a bit is taken: `cnt − 1`. -/
def Reader.spend (r : Reader) : Reader := { r with cnt := r.cnt - 1 }

/-- `ReadBit(p)` (R124). With `cnt = 0` it pulls a byte, whose bit 7 it returns, leaving `cnt = 7`;
else it returns `buf[cnt − 1]`. -/
def readBit (p : PortNum) (s : State) : Res Bool :=
  if (s.reader p).cnt = 0 then
    match pull p s with
    | .raise e t => .raise e t
    | .ok v t => .ok (v.getLsbD 7) (t.setReader p { t.reader p with buf := v, cnt := 7 })
  else
    let r := s.reader p
    .ok (r.buf.getLsbD (r.cnt.val - 1)) (s.setReader p r.spend)

/-- The byte made of the low c bits of `buf` and the high 8 − c bits of v (R125). -/
def joinByte (buf : Byte) (c : Nat) (v : Byte) : Byte :=
  ((buf &&& ((1#8 <<< c) - 1#8)) <<< (8 - c)) ||| (v >>> c)

/-- `ReadByte(p)` (R125): always one Pull; `cnt` stays. -/
def readByte (p : PortNum) (s : State) : Res Byte :=
  match pull p s with
  | .raise e t => .raise e t
  | .ok v t =>
    let r := s.reader p
    .ok (joinByte r.buf r.cnt.val v) (t.setReader p { t.reader p with buf := v })

/-- ReadBit makes a Pull exactly when no buffered bit is left (spec/20_memory.md R69). -/
def bitPulls (p : PortNum) (s : State) : Bool := (s.reader p).cnt == 0

/-! ## Bit writers -/

/-- `OpenW(p)` (spec/40_bitio.md R126). -/
def openW (p : PortNum) (s : State) : Res Unit :=
  if (s.writer p).opened then .raise .alreadyOpen s
  else if (s.sink p).avail then
    .ok () ((s.setSink p { s.sink p with data := [] }).setWriter p { Writer.closed with opened := true })
  else .raise .sinkUnavailable s

/-- CloseW makes a Push exactly when 1 to 7 bits are pending (R127). -/
def closePushes (p : PortNum) (s : State) : Bool := (s.writer p).opened && (s.writer p).n != 0

/-- `CloseW(p)` (R127): the writer is closed even when the flush Push raises (log of conflicts C11). -/
def closeW (p : PortNum) (s : State) : Res Unit :=
  if (s.writer p).opened then
    let t := s.setWriter p Writer.closed
    if (s.writer p).n = 0 then .ok () t else push p (s.writer p).acc t
  else .ok () s

/-- The accumulator with bit b placed after its n bits: `acc | (b << (7 − n))` (R128). -/
def Writer.place (w : Writer) (b : Bool) : Byte :=
  w.acc ||| ((BitVec.ofBool b).setWidth 8 <<< (7 - w.n.val))

/-- WriteBit makes a Push exactly when it completes a byte (R128). -/
def bitPushes (p : PortNum) (s : State) : Bool := (s.writer p).n == 7

/-- `WriteBit(p, b)` (R128): a Push that raises leaves the writer unchanged. -/
def writeBit (p : PortNum) (b : Bool) (s : State) : Res Unit :=
  let w := s.writer p
  if w.n = 7 then
    match push p (w.place b) s with
    | .raise e t => .raise e t
    | .ok _ t => .ok () (t.setWriter p { w with acc := 0, n := 0 })
  else .ok () (s.setWriter p { w with acc := w.place b, n := w.n + 1 })

/-- `WriteByte(p, v)` (R129): always one Push; `n` stays. -/
def writeByte (p : PortNum) (v : Byte) (s : State) : Res Unit :=
  let w := s.writer p
  match push p (w.acc ||| (v >>> w.n.val)) s with
  | .raise e t => .raise e t
  | .ok _ t => .ok () (t.setWriter p { w with acc := v <<< (8 - w.n.val) })

/-! ## Acceptance and end of a command -/

/-- The phase a command starts in (spec/60_exceptions.md R303). -/
def Command.firstPhase : Command → Phase
  | .legal .encode => .eCount
  | .legal .decode => .dTree
  | _ => .prim

/-- The command a CMD value stands for (R303, spec/30_encoding.md R91, R95, R96). -/
def commandOf (c : Word) : Command :=
  match decodeCmd c with
  | .ok i => .legal i
  | .error _ => .illegal

/-- `Accept(c)` (spec/60_exceptions.md R303). -/
def accept (c : Word) (s : State) : State :=
  { s with
    busy := true, done := false, err := false, errcode := 0, empty := false, partialCode := false
    resultValue := 0, resultValid := false
    phase := (commandOf c).firstPhase, running := some (commandOf c), pos := .start }

/-- The normal end of a command (R305). -/
def normalEnd (s : State) : State :=
  { s with busy := false, done := true, phase := .idle, running := none, pos := .start }

/-- The error end of a command: the one operation by which every error is taken (R306); Release, for
ENCODE and DECODE, has run before it. There is no return from it (R316): the next CMD write is
accepted. -/
def errorEnd (e : Error) (s : State) : State :=
  { s with
    busy := false, done := true, err := true, errcode := e.code, phase := .idle
    running := none, pos := .start }

/-- A command of one micro-step ends as its helper does, with f applied to a returned value. -/
def endAs {α : Type} (f : α → State → State) : Res α → State
  | .ok a t => normalEnd (f a t)
  | .raise e t => errorEnd e t

/-- `RESULT.VALUE <- v; RESULT.VALID <- 1` (spec/40_bitio.md R120). -/
def setResult (v : Byte) (s : State) : State := { s with resultValue := v, resultValid := true }

/-- `zext_8` of a bit (R120). -/
def bitByte (b : Bool) : Byte := (BitVec.ofBool b).setWidth 8

/-- The stored tree and dictionary become invalid (spec/10_state.md R32). -/
def invalidate (s : State) : State := { s with tree := none, nodes := 0, dictValid := false }

/-- `Reset()` (spec/70_reset_and_hazards.md R341): every field of the block at its reset value; the
ports (R342), the parameters and the model's own fields stay. -/
def resetBlock (s : State) : State :=
  { State.reset with
    src0 := s.src0, src1 := s.src1, snk0 := s.snk0, snk1 := s.snk1, params := s.params, turns := s.turns
    seen := s.seen }

/-! ## Micro-steps

A command of several micro-steps is given as a function from a state to the next thing the engine
does there. The micro-step runs it. -/

/-- The next thing the engine does. -/
inductive Act where
  /-- Internal computation. -/
  | work (t : State)
  /-- Internal computation up to and with an OpenR or OpenW, returned or raised. -/
  | opens (t : State)
  /-- A Pull or a Push, returned or raised, with the helper around it (log 2). -/
  | access (t : State)
  /-- The end of the command. -/
  | ended (t : State)
deriving DecidableEq, Repr

/-- A helper that made a port access or did not. -/
def Act.of (accessed : Bool) (t : State) : Act := if accessed then .access t else .work t

/-- The engine moves to a position. -/
def State.goto (s : State) (q : Pos) : State := { s with pos := q }

/-- Go on at position q when the helper returns, on the error path when it raises. -/
def Res.goto {α : Type} (q : Pos) : Res α → State
  | .ok _ t => t.goto q
  | .raise e t => t.goto (.raised e)

/-- More than the internal computations that can follow each other without a port access (log 12,
Laws/Engine.lean). -/
def workBound : Nat := 256

/-- What follows a port access in its micro-step. If the command ends with no other access, all of it (R72: "or to
the end of the command"). Else the engine goes on through its OpenR and OpenW, if any comes before the next access,
and rests right after the last of them, `rest` being where it rests so far: what comes after belongs to the
micro-step of the next access (logs 1, 23). -/
def goOn (next : State → Act) : Nat → State → State → State
  | 0, rest, _ => rest
  | k + 1, rest, s =>
    match next s with
    | .work t => goOn next k rest t
    | .opens t => goOn next k t t
    | .access _ => rest
    | .ended t => t

/-- Internal computation up to and with the first port access, then what follows it, or up to the end of the command
when it makes no access. -/
def advance (next : State → Act) : Nat → State → State
  | 0, s => s
  | k + 1, s =>
    match next s with
    | .work t => advance next k t
    | .opens t => advance next k t
    | .access t => goOn next workBound t t
    | .ended t => t

/-- One micro-step (spec/20_memory.md R72, spec/42_codec.md opening paragraph, log 1): at most one Pull or Push.
Internal work belongs to the micro-step of the next access, but for what leads to an OpenR or OpenW: an open that
raises may end the command, so a port the host makes unavailable after it cannot make a micro-step without an access,
and a command takes `max(1, Pulls + Pushes)` of them (spec/70_reset_and_hazards.md R354, log 23). -/
def microStep (next : State → Act) (s : State) : State := advance next workBound s

end Sys2Proof.Machine
end

