-- ==== Sys2Proof/Machine/BitIO.lean ====
section
/-! DEFINITION. The reader and writer commands of spec/40_bitio.md, R130 to R138. Each takes one
micro-step, since it makes at most one Pull or Push. -/

namespace Sys2Proof.Machine

/-- A command on reader Rp that needs it open: NotOpen before any change (spec/92_eei_decisions.md
D16). -/
def onOpenReader {α : Type} (p : PortNum) (f : State → Res α) (s : State) : Res α :=
  if (s.reader p).opened then f s else .raise .notOpen s

/-- A command on writer Wp that needs it open (D16). -/
def onOpenWriter {α : Type} (p : PortNum) (f : State → Res α) (s : State) : Res α :=
  if (s.writer p).opened then f s else .raise .notOpen s

/-- RD_OPEN rP (R130). -/
def execRdOpen (r : PortNum) (s : State) : Host.Outcome State Fault Refusal :=
  .next (endAs (fun _ => id) (openR r s))

/-- RD_CLOSE rP (R131). -/
def execRdClose (r : PortNum) (s : State) : Host.Outcome State Fault Refusal :=
  .next (normalEnd (closeR r s))

/-- RD_BIT rP (R132). -/
def execRdBit (r : PortNum) (s : State) : Host.Outcome State Fault Refusal :=
  .next (endAs (fun b => setResult (bitByte b)) (onOpenReader r (readBit r) s))

/-- RD_BYTE rP (R133). -/
def execRdByte (r : PortNum) (s : State) : Host.Outcome State Fault Refusal :=
  .next (endAs setResult (onOpenReader r (readByte r) s))

/-- RD_ATEND rP (R134). -/
def execRdAtEnd (r : PortNum) (s : State) : Host.Outcome State Fault Refusal :=
  .next (endAs (fun b => setResult (bitByte b)) (onOpenReader r (fun t => .ok (atEnd r t) t) s))

/-- WR_OPEN wP (R135). -/
def execWrOpen (w : PortNum) (s : State) : Host.Outcome State Fault Refusal :=
  .next (endAs (fun _ => id) (openW w s))

/-- WR_CLOSE wP (R136). -/
def execWrClose (w : PortNum) (s : State) : Host.Outcome State Fault Refusal :=
  .next (endAs (fun _ => id) (closeW w s))

/-- WR_BIT wP, b with b = IMM[0] (R137). -/
def execWrBit (w : PortNum) (imm : Byte) (s : State) : Host.Outcome State Fault Refusal :=
  .next (endAs (fun _ => id) (onOpenWriter w (writeBit w (immBit imm)) s))

/-- WR_BYTE wP, v (R138). -/
def execWrByte (w : PortNum) (v : Byte) (s : State) : Host.Outcome State Fault Refusal :=
  .next (endAs (fun _ => id) (onOpenWriter w (writeByte w v) s))

end Sys2Proof.Machine
end

