-- ==== Sys2Proof/Machine/Streams.lean ====
section
/-! DEFINITION. Trees as values (spec/00_scope.md R11) and the two stream formats
(spec/30_encoding.md R101, R102, R104): what the streams are, apart from how the block writes and
reads them. -/

namespace Sys2Proof.Machine

/-- The number of nodes (spec/00_scope.md R11). -/
def HTree.size : HTree → Nat
  | .leaf _ => 1
  | .internal l r => 1 + l.size + r.size

/-- The leaf values in left-to-right order (R11). -/
def HTree.leaves : HTree → List Byte
  | .leaf v => [v]
  | .internal l r => l.leaves ++ r.leaves

/-- The length of the longest path from the root to a leaf: the longest code (R199). -/
def HTree.depth : HTree → Nat
  | .leaf _ => 0
  | .internal l r => 1 + max l.depth r.depth

/-- Whether the tree is a single leaf (ROOT_LEAF, spec/10_state.md R32). -/
def HTree.isLeaf : HTree → Bool
  | .leaf _ => true
  | .internal _ _ => false

/-- `node(t, p)`: left on 0, right on 1; none where the path leaves the tree (R11). -/
def HTree.node : HTree → Bits → Option HTree
  | t, [] => some t
  | .leaf _, _ :: _ => none
  | .internal l _, false :: p => l.node p
  | .internal _ r, true :: p => r.node p

/-- The leaves with their paths, in pre-order: what BuildDict visits (spec/41_tree.md R191). -/
def HTree.paths : HTree → Bits → List (Byte × Bits)
  | .leaf v, path => [(v, path)]
  | .internal l r, path => l.paths (path ++ [false]) ++ r.paths (path ++ [true])

/-- The bits of a byte, most significant first (spec/00_scope.md R10). -/
def byteBits (v : Byte) : Bits :=
  [v.getLsbD 7, v.getLsbD 6, v.getLsbD 5, v.getLsbD 4, v.getLsbD 3, v.getLsbD 2, v.getLsbD 1, v.getLsbD 0]

/-- The bits of a byte sequence in stream order (spec/20_memory.md R65). -/
def bytesBits (bs : List Byte) : Bits := bs.flatMap byteBits

/-- The byte whose first bits, most significant first, are those of the list, zeros below. -/
def bitsByte (b : Bits) : Byte :=
  BitVec.ofBool (b.getD 0 false) ++ BitVec.ofBool (b.getD 1 false) ++ BitVec.ofBool (b.getD 2 false)
    ++ BitVec.ofBool (b.getD 3 false) ++ BitVec.ofBool (b.getD 4 false) ++ BitVec.ofBool (b.getD 5 false)
    ++ BitVec.ofBool (b.getD 6 false) ++ BitVec.ofBool (b.getD 7 false)

/-- Bits packed into bytes, most significant first, the last byte completed by zero bits
(spec/30_encoding.md R102). The first argument bounds the number of bytes. -/
def packUpTo : Nat → Bits → List Byte
  | 0, _ => []
  | _, [] => []
  | k + 1, b :: bs => bitsByte ((b :: bs).take 8) :: packUpTo k ((b :: bs).drop 8)

/-- Bits packed into bytes (R102). -/
def packBits (b : Bits) : List Byte := packUpTo b.length b

/-- The serialized form `ser(t)` (R101). -/
def HTree.ser : HTree → Bits
  | .leaf v => false :: byteBits v
  | .internal l r => true :: (l.ser ++ r.ser)

/-- The tree stream of t (R102). -/
def HTree.stream (t : HTree) : List Byte := packBits t.ser

/-- `padBits = 8 − (totalBits mod 8)` (R104). -/
def padCount (totalBits : Nat) : Nat := 8 - totalBits % 8

/-- The padding: padBits − 1 ones and a zero (R104). -/
def padding (totalBits : Nat) : Bits := List.replicate (padCount totalBits - 1) true ++ [false]

/-- The codes of the input bytes, concatenated in input order (R104), for a code function. -/
def codesOf (code : Byte → Bits) (input : List Byte) : Bits := input.flatMap code

/-- The bits of the payload stream (R104). -/
def payloadBits (code : Byte → Bits) (input : List Byte) : Bits :=
  padding (codesOf code input).length ++ codesOf code input

/-- The payload stream (R104). -/
def payloadStream (code : Byte → Bits) (input : List Byte) : List Byte :=
  packBits (payloadBits code input)

end Sys2Proof.Machine
end

