-- ==== Sys2Proof/Machine/Tree.lean ====
section
/-! DEFINITION. The helpers of spec/41_tree.md (CountFreq, BuildTree, Serialize, Deserialize,
BuildDict, EmitCode) and the six commands that expose them. A helper with port accesses is given as
the next thing the engine does at its position (`Act`), with what follows it as an argument. -/

namespace Sys2Proof.Machine

/-! ## Construction -/

/-- A pending node of the construction queue with its key (spec/41_tree.md R182). -/
structure QNode where
  weight : Nat
  rank : Nat
  tree : HTree
deriving DecidableEq, Repr

/-- The order of keys (R182): lexicographic. -/
def QNode.before (a b : QNode) : Bool :=
  decide (a.weight < b.weight) || (decide (a.weight = b.weight) && decide (a.rank < b.rank))

/-- Inserting into the queue, which is kept in the order of R182, so that its head is what
`extract-min` returns. -/
def enqueue (x : QNode) : List QNode → List QNode
  | [] => [x]
  | y :: q => if x.before y then x :: y :: q else y :: enqueue x q

/-- The symbols 0..255 in order. -/
def symbols : List Byte := (List.range Config.N_SYM).map (BitVec.ofNat 8)

/-- The symbols with a non-zero count, in order of value (R184). -/
def usedSymbols (f : FreqTable) : List Byte := symbols.filter (fun v => f.count v != 0)

/-- The leaf of a symbol: weight FREQ[v], rank v (R182). -/
def leafNode (f : FreqTable) (v : Byte) : QNode :=
  { weight := f.count v, rank := v.toNat, tree := .leaf v }

/-- The queue construction starts from (R184). -/
def startQueue (f : FreqTable) : List QNode := (usedSymbols f).foldr (fun v q => enqueue (leafNode f v) q) []

/-- The k-th internal node: the first extracted is the left child (R182, R183). -/
def combine (k : Nat) (a b : QNode) : QNode :=
  { weight := a.weight + b.weight, rank := Config.N_SYM + k, tree := .internal a.tree b.tree }

/-- The combining loop (R184): the first argument bounds its rounds, the second is k. -/
def combineAll : Nat → Nat → List QNode → Option HTree
  | _, _, [] => none
  | _, _, [a] => some a.tree
  | 0, _, _ :: _ :: _ => none
  | fuel + 1, k, a :: b :: q => combineAll fuel (k + 1) (enqueue (combine k a b) q)

/-- `BuildTree()` (R184), none where it raises EmptyFreq; one symbol gives the tree of R185. -/
def buildTree (f : FreqTable) : Option HTree :=
  match usedSymbols f with
  | [] => none
  | [v] => some (.internal (.leaf v) (.leaf (v ^^^ 0x01)))
  | _ => combineAll Config.N_SYM 0 (startQueue f)

/-- The stored tree is t, with c nodes (R186, R190). -/
def storeTree (t : HTree) (c : Nat) (s : State) : State :=
  { s with tree := some t, nodes := BitVec.ofNat 10 c }

/-! ## Dictionary -/

/-- `BuildDict(t)` (R191): a later leaf with the same value replaces the entry. -/
def buildDict (t : HTree) : Dict := (t.paths []).foldl (fun m e => m.record e.1 e.2) Dict.none

/-- The dictionary of the stored tree; the empty map where there is none (log 12: no rule derives
one there). -/
def dictOf : Option HTree → Dict
  | some t => buildDict t
  | none => Dict.none

/-- `DICT <- BuildDict(TREE); DICT_VALID <- 1` (R192). -/
def storeDict (s : State) : State := { s with dict := dictOf s.tree, dictValid := true }

/-! ## Helpers with port accesses -/

/-- FREQ and TOTAL cleared (R180). -/
def clearFreq (s : State) : State := { s with freq := FreqTable.zero, total := 0 }

/-- `FREQ[v] <- FREQ[v] + 1; TOTAL <- TOTAL + 1` (R180). -/
def addCount (v : Byte) (s : State) : State := { s with freq := s.freq.bump v, total := s.total + 1 }

/-- Counting one byte: CountOverflow before the 2^CNT_W-th (R180). -/
def countByte (v : Byte) (s : State) : State :=
  if s.total = s.params.maxLen then s.goto (.raised .countOverflow)
  else addCount v s

/-- The loop of CountFreq at its head (R180). -/
def countAct (p : PortNum) (after : State → Act) (s : State) : Act :=
  if atEnd p s then after s
  else
    match readByte p s with
    | .ok v t => .access (countByte v t)
    | .raise e t => .access (t.goto (.raised e))

/-- What Serialize does with the rest of the tree to write (R187): a node's marker bit, then for a
leaf its value, for an internal node its two subtrees. -/
def serAct (p : PortNum) (todo : List SerItem) (after : State → Act) (s : State) : Act :=
  match todo with
  | [] => after s
  | .node (.leaf v) :: rest =>
    Act.of (bitPushes p s) ((writeBit p false s).goto (.ser (.value v :: rest)))
  | .node (.internal l r) :: rest =>
    Act.of (bitPushes p s) ((writeBit p true s).goto (.ser (.node l :: .node r :: rest)))
  | .value v :: rest => .access ((writeByte p v s).goto (.ser rest))

/-- A finished subtree goes into the innermost open node: either the node's right child is next, or
the node is finished too, and so on out (R189). -/
def plug (t : HTree) : List Frame → HTree ⊕ List Frame
  | [] => .inl t
  | .wantLeft :: fs => .inr (.wantRight t :: fs)
  | .wantRight l :: fs => plug (.internal l t) fs

/-- EndOfStream inside a tree is TruncatedTree; no other error is turned into another (R189,
spec/60_exceptions.md R301). -/
def inTree : Error → Error
  | .endOfStream => .truncatedTree
  | e => e

/-- Deserialize at a node's marker bit (R189): TreeTooLarge after the marker of a node too many. -/
def desNodeAct (p : PortNum) (frames : List Frame) (seen : Nat) (s : State) : Act :=
  Act.of (bitPulls p s) <|
    match readBit p s with
    | .raise e t => t.goto (.raised (inTree e))
    | .ok b t =>
      if t.params.nodeCap < seen + 1 then t.goto (.raised .treeTooLarge)
      else if b then t.goto (.desNode (.wantLeft :: frames) (seen + 1))
      else t.goto (.desLeaf frames (seen + 1))

/-- Deserialize at a leaf's value (R189). -/
def desLeafAct (p : PortNum) (frames : List Frame) (seen : Nat) (s : State) : Act :=
  .access <|
    match readByte p s with
    | .raise e t => t.goto (.raised (inTree e))
    | .ok v t =>
      match plug (.leaf v) frames with
      | .inl tree => t.goto (.desDone tree seen)
      | .inr fs => t.goto (.desNode fs seen)

/-- EmitCode with these bits left (R193). -/
def emitAct (p : PortNum) (bits : Bits) (after : State → Act) (s : State) : Act :=
  match bits with
  | [] => after s
  | b :: rest => Act.of (bitPushes p s) ((writeBit p b s).goto (.emit rest))

/-! ## Commands -/

/-- What FREQ_COUNT does next (R181). -/
def freqCountAct (p : PortNum) (s : State) : Act :=
  match s.pos with
  | .count => countAct p (fun t => .ended (normalEnd t)) s
  | .raised e => .ended (errorEnd e s)
  | _ =>
    if (s.reader p).opened then .work ((clearFreq s).goto .count)
    else .ended (errorEnd .notOpen s)

/-- FREQ_COUNT rP: one micro-step (R181). -/
def execFreqCount (r : PortNum) (s : State) : Host.Outcome State Fault Refusal :=
  .next (microStep (freqCountAct r) s)

/-- What EmptyFreq leaves: the stored tree and dictionary as they were (spec/92_eei_decisions.md D29), or invalid
(the text of R186), as the implementation's parameter says (log 13). -/
def emptyFreqState (s : State) : State := if s.params.emptyFreqKeepsTree then s else invalidate s

/-- TREE_BUILD (R186). -/
def execTreeBuild (s : State) : Host.Outcome State Fault Refusal :=
  .next <|
    match buildTree s.freq with
    | none => errorEnd .emptyFreq (emptyFreqState s)
    | some t => normalEnd (storeTree t t.size (invalidate s))

/-- What TREE_SER does next (R188). -/
def treeSerAct (p : PortNum) (s : State) : Act :=
  match s.pos with
  | .ser todo => serAct p todo (fun t => .ended (normalEnd t)) s
  | .raised e => .ended (errorEnd e s)
  | _ =>
    if (s.writer p).opened then
      match s.tree with
      | none => .ended (errorEnd .noTree s)
      | some t => .work (s.goto (.ser [.node t]))
    else .ended (errorEnd .notOpen s)

/-- TREE_SER wP: one micro-step (R188). -/
def execTreeSer (w : PortNum) (s : State) : Host.Outcome State Fault Refusal :=
  .next (microStep (treeSerAct w) s)

/-- What TREE_DESER does next (R190). -/
def treeDeserAct (p : PortNum) (s : State) : Act :=
  match s.pos with
  | .desNode frames seen => desNodeAct p frames seen s
  | .desLeaf frames seen => desLeafAct p frames seen s
  | .desDone t seen => .ended (normalEnd (storeTree t seen s))
  | .raised e => .ended (errorEnd e s)
  | _ =>
    if (s.reader p).opened then .work ((invalidate s).goto (.desNode [] 0))
    else .ended (errorEnd .notOpen s)

/-- TREE_DESER rP: one micro-step (R190). -/
def execTreeDeser (r : PortNum) (s : State) : Host.Outcome State Fault Refusal :=
  .next (microStep (treeDeserAct r) s)

/-- DICT_BUILD (R192). -/
def execDictBuild (s : State) : Host.Outcome State Fault Refusal :=
  .next (if s.treeValid then normalEnd (storeDict s) else errorEnd .noTree s)

/-- What CODE_EMIT does next (R194). -/
def codeEmitAct (p : PortNum) (v : Byte) (s : State) : Act :=
  match s.pos with
  | .emit bits => emitAct p bits (fun t => .ended (normalEnd t)) s
  | .raised e => .ended (errorEnd e s)
  | _ =>
    if (s.writer p).opened then
      if s.dictValid then
        match s.dict.code v with
        | none => .ended (errorEnd .noCode s)
        | some code => .work (s.goto (.emit code))
      else .ended (errorEnd .noDict s)
    else .ended (errorEnd .notOpen s)

/-- CODE_EMIT wP, v: one micro-step (R194). -/
def execCodeEmit (w : PortNum) (v : Byte) (s : State) : Host.Outcome State Fault Refusal :=
  .next (microStep (codeEmitAct w v) s)

end Sys2Proof.Machine
end

