-- ==== Sys2Proof/Machine/Codec.lean ====
section
/-! DEFINITION. ENCODE and DECODE (spec/42_codec.md R250 to R259, R270 to R277) and their Release
(spec/60_exceptions.md R312, R313). -/

namespace Sys2Proof.Machine

/-- STATUS.PHASE changes (spec/10_state.md R39). -/
def State.inPhase (s : State) (q : Phase) : State := { s with phase := q }

/-- `CURSOR <- c` (spec/42_codec.md R275). -/
def State.setCursor (s : State) (c : Bits) : State := { s with cursor := c }

/-- Closing one writer in Release: its error is suppressed (spec/60_exceptions.md R313). -/
def releaseWriter (p : PortNum) (next : Pos) (s : State) : Act :=
  Act.of (closePushes p s) <|
    match closeW p s with
    | .ok _ t => t.goto next
    | .raise _ t => t.goto next

/-- Closing one writer at a normal end (spec/42_codec.md R259, R277). -/
def closeWriter (p : PortNum) (next : Pos) (s : State) : Act :=
  Act.of (closePushes p s) ((closeW p s).goto next)

/-! ## ENCODE -/

/-- `Σ FREQ[v] × |DICT[v]|` over the symbols with a non-zero count (spec/42_codec.md R257); a symbol
with no code adds nothing (log 12: a built tree has a code for each of them). -/
def totalBits (f : FreqTable) (d : Dict) : Nat :=
  (symbols.map (fun v => f.count v * ((d.code v).getD []).length)).sum

/-- ENCODE up to the first pass (R250, R251, R252). The start check releases nothing (log 3). -/
def encodeStart (s : State) : Act :=
  if s.w0.opened || s.w1.opened then .ended (errorEnd .alreadyOpen s)
  else
    match openR .p0 ({ s with padBits := 0 }.inPhase .eCount) with
    | .raise e t => .opens (t.goto (.raised e))
    | .ok _ t => .opens ((clearFreq t).goto .count)

/-- ENCODE after the first pass (R253, R254, R255): the tree is built and its stream begun. -/
def encodeCounted (s : State) : Act :=
  let t := closeR .p0 s
  if t.total = 0 then .ended (normalEnd { t with empty := true })
  else
    let u := invalidate (t.inPhase .eBuild)
    match buildTree u.freq with
    | none => .work (u.goto (.raised .emptyFreq))
    | some tree =>
      .opens ((openW .p0 ((storeTree tree tree.size u).inPhase .eSerTree)).goto (.ser [.node tree]))

/-- ENCODE after the tree is serialized (R256, R257): dictionary and padding. -/
def encodeSerialized (s : State) : Act :=
  let t := (storeDict (s.inPhase .eDict)).inPhase .ePad
  let pads := padCount (totalBits t.freq t.dict)
  let u := { t with padBits := BitVec.ofNat 4 pads }
  .opens ((openW .p1 u).goto (.pad (List.replicate (pads - 1) true ++ [false])))

/-- ENCODE writing the padding, then opening R0 for the second pass (R257, R258). -/
def encodePad (bits : Bits) (s : State) : Act :=
  match bits with
  | b :: rest => Act.of (bitPushes .p1 s) ((writeBit .p1 b s).goto (.pad rest))
  | [] => .opens ((openR .p0 (s.inPhase .eEmit)).goto (.emit []))

/-- ENCODE at the loop head of the second pass (R258): NoCode for a byte with no code. -/
def encodeNext (s : State) : Act :=
  if atEnd .p0 s then .work (((closeR .p0 s).inPhase .eClose).goto .closeW0)
  else
    .access <|
      match readByte .p0 s with
      | .raise e t => t.goto (.raised e)
      | .ok v t =>
        match t.dict.code v with
        | none => t.goto (.raised .noCode)
        | some code => t.goto (.emit code)

/-- What ENCODE does next (R250). -/
def encodeAct (s : State) : Act :=
  match s.pos with
  | .count => countAct .p0 encodeCounted s
  | .ser todo => serAct .p0 todo encodeSerialized s
  | .pad bits => encodePad bits s
  | .emit bits => emitAct .p1 bits encodeNext s
  | .closeW0 => closeWriter .p0 .closeW1 s
  | .closeW1 => closeWriter .p1 .finish s
  | .finish => .ended (normalEnd s)
  | .raised e => .work ((closeR .p0 s).goto (.relW0 e))
  | .relW0 e => releaseWriter .p0 (.relW1 e) s
  | .relW1 e => releaseWriter .p1 (.errEnd e) s
  | .errEnd e => .ended (errorEnd e s)
  | _ => encodeStart s

/-- ENCODE: one micro-step (R250). -/
def execEncode (s : State) : Host.Outcome State Fault Refusal := .next (microStep encodeAct s)

/-! ## DECODE -/

/-- DECODE up to the reading of the tree (R270, R271, R272). The start check releases nothing
(log 3). -/
def decodeStart (s : State) : Act :=
  if s.w0.opened then .ended (errorEnd .alreadyOpen s)
  else
    match openW .p0 (s.inPhase .dTree) with
    | .raise e t => .opens (t.goto (.raised e))
    | .ok _ t =>
      match openR .p0 t with
      | .raise e u => .opens (u.goto (.raised e))
      | .ok _ u => .opens ((invalidate u).goto (.desNode [] 0))

/-- DECODE with the tree read (R272, R273): DegenerateTree before R1 is opened. -/
def decodeTreeRead (t : HTree) (seen : Nat) (s : State) : Act :=
  let u := closeR .p0 (storeTree t seen s)
  if t.isLeaf then .work (u.goto (.raised .degenerateTree))
  else .opens ((openR .p1 (u.inPhase .dPad)).goto .skip)

/-- DECODE skipping the padding (R274). DESIGN CHOICE (log 22): the 0 bit that ends the padding sets PHASE
D_DECODE and CURSOR [] in its own micro-step, that of its Pull when it is the first bit of a byte; R72 leaves
the place open. -/
def decodeSkip (s : State) : Act :=
  if atEnd .p1 s then .work (s.goto (.raised .malformedPadding))
  else
    Act.of (bitPulls .p1 s) <|
      match readBit .p1 s with
      | .raise e t => t.goto (.raised e)
      | .ok true t => t.goto .skip
      | .ok false t => ((t.setCursor []).inPhase .dDecode).goto .walk

/-- The cursor moves by one bit; on a leaf its value is to be written (R275). -/
def moveCursor (b : Bool) (s : State) : State :=
  let u := s.setCursor (s.cursor ++ [b])
  match u.tree.bind (fun t => t.node u.cursor) with
  | some (.leaf v) => u.goto (.write v)
  | _ => u.goto .walk

/-- DECODE at the loop head (R275, R276): PARTIAL when the payload ends inside a code. -/
def decodeWalk (s : State) : Act :=
  if atEnd .p1 s then
    .work (({ s with partialCode := s.partialCode || !s.cursor.isEmpty }.inPhase .dClose).goto .dClose)
  else
    Act.of (bitPulls .p1 s) <|
      match readBit .p1 s with
      | .raise e t => t.goto (.raised e)
      | .ok b t => moveCursor b t

/-- DECODE writing a decoded byte, then back to the root (R275), in the micro-step of the Push (log 22). -/
def decodeWrite (v : Byte) (s : State) : Act :=
  .access <|
    match writeByte .p0 v s with
    | .raise e t => t.goto (.raised e)
    | .ok _ t => (t.setCursor []).goto .walk

/-- What DECODE does next (R270). -/
def decodeAct (s : State) : Act :=
  match s.pos with
  | .desNode frames seen => desNodeAct .p0 frames seen s
  | .desLeaf frames seen => desLeafAct .p0 frames seen s
  | .desDone t seen => decodeTreeRead t seen s
  | .skip => decodeSkip s
  | .walk => decodeWalk s
  | .write v => decodeWrite v s
  | .dClose => closeWriter .p0 .finish (closeR .p1 s)
  | .finish => .ended (normalEnd s)
  | .raised e => .work ((closeR .p1 (closeR .p0 s)).goto (.relW0 e))
  | .relW0 e => releaseWriter .p0 (.errEnd e) s
  | .errEnd e => .ended (errorEnd e s)
  | _ => decodeStart s

/-- DECODE: one micro-step (R270). -/
def execDecode (s : State) : Host.Outcome State Fault Refusal := .next (microStep decodeAct s)

end Sys2Proof.Machine
end

