-- ==== Sys2Proof/Machine/Dispatch.lean ====
section
/-! DEFINITION. `exec`: one micro-step of a command. -/

namespace Sys2Proof.Machine

def exec (i : Instr) (s : State) : Host.Outcome State Fault Refusal :=
  match i with
  | .rdOpen r => Sys2Proof.Machine.execRdOpen r s
  | .rdClose r => Sys2Proof.Machine.execRdClose r s
  | .rdBit r => Sys2Proof.Machine.execRdBit r s
  | .rdByte r => Sys2Proof.Machine.execRdByte r s
  | .rdAtEnd r => Sys2Proof.Machine.execRdAtEnd r s
  | .wrOpen w => Sys2Proof.Machine.execWrOpen w s
  | .wrClose w => Sys2Proof.Machine.execWrClose w s
  | .wrBit w imm => Sys2Proof.Machine.execWrBit w imm s
  | .wrByte w v => Sys2Proof.Machine.execWrByte w v s
  | .freqCount r => Sys2Proof.Machine.execFreqCount r s
  | .treeBuild => Sys2Proof.Machine.execTreeBuild s
  | .treeSer w => Sys2Proof.Machine.execTreeSer w s
  | .treeDeser r => Sys2Proof.Machine.execTreeDeser r s
  | .dictBuild => Sys2Proof.Machine.execDictBuild s
  | .codeEmit w v => Sys2Proof.Machine.execCodeEmit w v s
  | .encode => Sys2Proof.Machine.execEncode s
  | .decode => Sys2Proof.Machine.execDecode s

end Sys2Proof.Machine
end

