-- ==== Sys2Proof/Machine/HostPort.lean ====
section
/-! DEFINITION. The host's steps: the table of spec/20_memory.md R81, the CSR accesses of
spec/10_state.md R37 to R43 and the reset events of spec/70_reset_and_hazards.md R340. -/

namespace Sys2Proof.Machine

/-- A host write to CMD (spec/60_exceptions.md R303, R304): dropped while BUSY, setting DROP. -/
def writeCmd (c : Word) (s : State) : State :=
  if s.busy then { s with drop := true } else accept c s

/-- A host write to CTRL (spec/10_state.md R42, spec/70_reset_and_hazards.md R344). -/
def writeCtrl (c : Word) (s : State) : State :=
  if c.getLsbD 0 then resetBlock s
  else if c.getLsbD 1 then { s with drop := false }
  else s

/-- A 32-bit CSR write at one of the five offsets (spec/10_state.md R37 to R42): STATUS, RESULT and
INFO ignore writes; none elsewhere (R43). -/
def csrWrite (offset : Nat) (c : Word) (s : State) : Option State :=
  match offset with
  | 0x00 => some (writeCmd c s)
  | 0x04 => some s
  | 0x08 => some s
  | 0x0C => some s
  | 0x10 => some (writeCtrl c s)
  | _ => none

/-- What a 32-bit CSR read returns (spec/10_state.md R37 to R42): CMD and CTRL read 0; none elsewhere
(R43). A read has no side effect (spec/20_memory.md R70). -/
def csrRead (offset : Nat) (s : State) : Option Word :=
  match offset with
  | 0x00 => some 0
  | 0x04 => some s.statusWord
  | 0x08 => some s.resultWord
  | 0x0C => some s.infoWord
  | 0x10 => some 0
  | _ => none

/-- ENCODE or DECODE is BUSY (spec/20_memory.md R75). -/
def codecBusy (s : State) : Bool :=
  s.busy && (s.running == some (.legal .encode) || s.running == some (.legal .decode))

/-- The host may load SRCp: Rp is closed and no ENCODE or DECODE is BUSY (spec/20_memory.md R75). -/
def maySource (p : PortNum) (s : State) : Bool := !(s.reader p).opened && !codecBusy s

/-- One host step (spec/20_memory.md R81). -/
def hostStep (h : HostStep) (s : State) : Host.Outcome State Fault Refusal :=
  match h with
  | .loadSource p data avail =>
    if maySource p s then .next (s.setSource p { data, avail }) else .fault (.sourceInUse p)
  | .setSourceAvail p b => .next (s.setSource p { s.source p with avail := b })
  | .setSinkAvail p b => .next (s.setSink p { s.sink p with avail := b })
  | .readSink p => .next { s with seen := { s.seen with bytes := (s.sink p).data } }
  | .copySink q p =>
    if maySource q s then .next (s.setSource q { s.source q with data := (s.sink p).data })
    else .fault (.sourceInUse q)
  | .csrWrite offset width c =>
    if width = 32 then
      match csrWrite offset c s with
      | some t => .next t
      | none => .refused (.csrAccess offset width)
    else .refused (.csrAccess offset width)
  | .csrRead offset width =>
    if width = 32 then
      match csrRead offset s with
      | some w => .next { s with seen := { s.seen with word := w } }
      | none => .refused (.csrAccess offset width)
    else .refused (.csrAccess offset width)
  | .platformReset => .next (resetBlock s)

/-- An illegal command's one micro-step (spec/30_encoding.md R96, spec/60_exceptions.md R303). -/
def execIllegal (s : State) : Host.Outcome State Fault Refusal := .next (errorEnd .illegalCommand s)

end Sys2Proof.Machine
end

