-- ==== Sys2Proof/Machine/Step.lean ====
section
/-! DEFINITION. One step of the machine: the turn of the engine or of the host
(spec/20_memory.md R72, log 6). -/

namespace Sys2Proof.Machine

/-- The engine's turn: a micro-step of the running command; an idle block does nothing
(spec/60_exceptions.md R323). -/
def engineStep (s : State) : Host.Outcome State Fault Refusal :=
  match s.running with
  | none => .next s
  | some .illegal => execIllegal s
  | some (.legal i) => exec i s

/-- One step: the next turn of the list, the engine's when the list is empty. -/
def step (s : State) : Host.Outcome State Fault Refusal :=
  match s.turns with
  | [] => engineStep s
  | .engine :: rest => engineStep { s with turns := rest }
  | .host h :: rest => hostStep h { s with turns := rest }

/-- The state right after the acceptance of the command word w, the engine's turn next: the block
fetches nothing, a command comes only by a CMD write (spec/20_memory.md R78, log 10). -/
def State.withFetchWord (s : State) (nbits w : Nat) : State :=
  { accept (BitVec.ofNat 32 (w % 2 ^ nbits)) s with turns := .engine :: s.turns }

end Sys2Proof.Machine
end

