-- ==== Sys2Proof/Safety.lean ====
section
/-! DEFINITION. The terms the claims are stated in: the bits a reader has left and a writer has
written, the whole run of a command, and the invariants the spec states of the block
(spec/10_state.md R24, R27, R29 to R36, R38; spec/42_codec.md R262). A run of the machine is safe when
every step of it answers a next state: no command stops it, only a host step that the spec gives the
host no right to (`Fault`, `Refusal`) does. -/

namespace Sys2Proof.Machine

/-! ## Streams seen through readers and writers -/

/-- The unread bits of reader Rp in stream order (R24): the low `cnt` bits of `buf`, then the bytes
not yet pulled. -/
def State.unread (s : State) (p : PortNum) : Bits :=
  (byteBits (s.reader p).buf).drop (8 - (s.reader p).cnt.val)
    ++ bytesBits ((s.source p).data.drop (s.reader p).pos)

/-- The bits written through writer Wp since it was opened (R27): those in the sink, then the `n`
accumulated ones. -/
def State.written (s : State) (p : PortNum) : Bits :=
  bytesBits (s.sink p).data ++ (byteBits (s.writer p).acc).take (s.writer p).n.val

/-- The unread bits of reader Rp that are already in `buf` (R23). -/
def State.buffered (s : State) (p : PortNum) : Bits := (byteBits (s.reader p).buf).drop (8 - (s.reader p).cnt.val)

/-- What TREE_SER has left to write, as bits (spec/41_tree.md R187). -/
def todoBits : List SerItem → Bits
  | [] => []
  | .node t :: rest => t.ser ++ todoBits rest
  | .value v :: rest => byteBits v ++ todoBits rest

/-- The marker bits Serialize writes one by one before it first writes the value of a leaf, which takes a
whole byte (R187). -/
def HTree.leadMarkers : HTree → Bits
  | .leaf _ => [false]
  | .internal l _ => true :: l.leadMarkers

/-- The same for what TREE_SER has left to write. -/
def leadMarkers : List SerItem → Bits
  | .node t :: _ => t.leadMarkers
  | .value _ :: _ => []
  | [] => []

/-- How many marker bits Deserialize takes from these buffered bits before it pulls a byte: all up to the
marker of a leaf, whose value always takes a Pull (R189). -/
def markerCount : Bits → Nat
  | [] => 0
  | true :: b => markerCount b + 1
  | false :: _ => 1

/-- The bits Deserialize has read when these internal nodes are open, innermost first (R189). -/
def framesBits : List Frame → Bits
  | [] => []
  | .wantLeft :: fs => framesBits fs ++ [true]
  | .wantRight l :: fs => framesBits fs ++ true :: l.ser

/-! ## Runs -/

/-- k micro-steps of a command. -/
def execTimes (i : Instr) : Nat → State → Host.Outcome State Fault Refusal
  | 0, s => .next s
  | k + 1, s =>
    match exec i s with
    | .next t => execTimes i k t
    | .fault r => .fault r
    | .refused r => .refused r

/-- The command runs from s, takes exactly k micro-steps and ends in t: the k-th ends it and none
before does. -/
def EndsAfter (i : Instr) (k : Nat) (s t : State) : Prop :=
  execTimes i k s = .next t ∧ t.running = none
    ∧ ∀ j u, j < k → execTimes i j s = .next u → u.running = some (.legal i)

/-- The command runs from s and ends with error e in the state t with the error's STATUS. -/
def EndsWithError (i : Instr) (e : Error) (s t : State) : Prop := ∃ k, EndsAfter i k s (errorEnd e t)

/-- Writer Wp after Release (spec/60_exceptions.md R312, R313): an open one is closed, its 1 to 7 pending bits
pushed as one byte if its sink takes it, else lost. -/
def flushed (p : PortNum) (s : State) : State :=
  (s.setWriter p (if (s.writer p).opened then Writer.closed else s.writer p)).setSink p { s.sink p with
    data := (s.sink p).data ++ if closePushes p s && (s.sink p).avail then [(s.writer p).acc] else [] }

/-- ENCODE's readers and writers after Release (R312): R0, then W0, then W1. -/
def releasedEncode (s : State) : State := flushed .p1 (flushed .p0 (s.setReader .p0 Reader.closed))

/-- DECODE's readers and writers after Release (R312): R0, R1, then W0; W1 is not touched. -/
def releasedDecode (s : State) : State :=
  flushed .p0 ((s.setReader .p0 Reader.closed).setReader .p1 Reader.closed)

/-- ENCODE with the dictionary of t and its PADBITS stored, W1 not yet opened (spec/42_codec.md R256, R257). -/
def padReady (t : HTree) (s : State) : State := { s with
  dict := buildDict t, dictValid := true
  padBits := BitVec.ofNat 4 (padCount (totalBits s.freq (buildDict t))) }

/-! ## What the engine does in a micro-step -/

/-- What the engine does next in a command that can take more than one micro-step; none for the others. -/
def actOf : Instr → Option (State → Act)
  | .freqCount r => some (freqCountAct r)
  | .treeSer w => some (treeSerAct w)
  | .treeDeser r => some (treeDeserAct r)
  | .codeEmit w v => some (codeEmitAct w v)
  | .encode => some encodeAct
  | .decode => some decodeAct
  | .rdOpen _ => none
  | .rdClose _ => none
  | .rdBit _ => none
  | .rdByte _ => none
  | .rdAtEnd _ => none
  | .wrOpen _ => none
  | .wrClose _ => none
  | .wrBit _ _ => none
  | .wrByte _ _ => none
  | .treeBuild => none
  | .dictBuild => none

/-- The engine, given no host step on the way, gets from s to t without ending the command. -/
inductive EngineGets (next : State → Act) : State → State → Prop where
  | refl (s : State) : EngineGets next s s
  | work {s u t : State} (h : next s = .work u) (p : EngineGets next u t) : EngineGets next s t
  | opens {s u t : State} (h : next s = .opens u) (p : EngineGets next u t) : EngineGets next s t
  | access {s u t : State} (h : next s = .access u) (p : EngineGets next u t) : EngineGets next s t

/-- The micro-step from s makes a Pull or a Push. -/
inductive Accesses (next : State → Act) : State → Prop where
  | work {s u : State} (h : next s = .work u) (p : Accesses next u) : Accesses next s
  | opens {s u : State} (h : next s = .opens u) (p : Accesses next u) : Accesses next s
  | access {s u : State} (h : next s = .access u) : Accesses next s

/-- From s the engine comes to a Pull or a Push by internal computation that opens nothing, so whatever the host
makes unavailable. -/
inductive Ahead (next : State → Act) : State → Prop where
  | work {s u : State} (h : next s = .work u) (p : Ahead next u) : Ahead next s
  | access {s u : State} (h : next s = .access u) : Ahead next s

/-- Between two micro-steps of a command a Pull or a Push is ahead (spec/70_reset_and_hazards.md R354). -/
def AccessAhead (s : State) : Prop := ∀ (i : Instr) (next : State → Act),
  s.running = some (.legal i) → actOf i = some next → s.pos ≠ .start → Ahead next s

/-- Command i has been accepted and its first micro-step is next (spec/60_exceptions.md R303). -/
structure Starts (i : Instr) (s : State) : Prop where
  running : s.running = some (.legal i)
  pos : s.pos = .start
  phase : s.phase = (Command.legal i).firstPhase
  busy : s.busy = true
  done : s.done = false
  err : s.err = false
  errcode : s.errcode = 0
  empty : s.empty = false
  partialCode : s.partialCode = false
  resultValue : s.resultValue = 0
  resultValid : s.resultValid = false

/-- Command i is issued and runs its one micro-step. -/
def perform (i : Instr) (s : State) : Host.Outcome State Fault Refusal := exec i (accept (encodeCmd i) s)

/-- The machine runs k steps from s without a stop and is then in t. -/
def Reaches (k : Nat) (s t : State) : Prop := Host.Core.run core k s = .next t

/-- ReadBit k times: the bits returned, or the first error (spec/40_bitio.md R142). -/
def readBits (p : PortNum) : Nat → State → Res Bits
  | 0, s => .ok [] s
  | k + 1, s =>
    match readBit p s with
    | .raise e t => .raise e t
    | .ok b t =>
      match readBits p k t with
      | .raise e u => .raise e u
      | .ok bs u => .ok (b :: bs) u

/-- WriteBit for each bit of the list, up to the first error (R140). -/
def writeBits (p : PortNum) : Bits → State → Res Unit
  | [], s => .ok () s
  | b :: bs, s =>
    match writeBit p b s with
    | .raise e t => .raise e t
    | .ok _ t => writeBits p bs t

/-- One write of R139: a bit or a byte. -/
inductive Item where
  | bit (b : Bool)
  | byte (v : Byte)
deriving DecidableEq, Repr

/-- The command that writes an item. -/
def Item.write (w : PortNum) : Item → Instr
  | .bit b => .wrBit w (bitByte b)
  | .byte v => .wrByte w v

/-- The command that reads an item back. -/
def Item.read (r : PortNum) : Item → Instr
  | .bit _ => .rdBit r
  | .byte _ => .rdByte r

/-- What RESULT.VALUE holds when an item has been read. -/
def Item.value : Item → Byte
  | .bit b => bitByte b
  | .byte v => v

/-- The bits an item stands for. -/
def Item.bits : Item → Bits
  | .bit b => [b]
  | .byte v => byteBits v

/-- The commands are issued one after another, each takes one micro-step and none raises. -/
def Performed : List Instr → State → State → Prop
  | [], s, t => s = t
  | i :: rest, s, t => ∃ u, perform i s = .next u ∧ u.err = false ∧ Performed rest u t

/-- As `Performed`, reading the items through reader Rp: each command returns its item's value. -/
def ReadsBack (r : PortNum) : List Item → State → State → Prop
  | [], s, t => s = t
  | x :: rest, s, t =>
    ∃ u, perform (x.read r) s = .next u ∧ u.err = false ∧ u.resultValid = true ∧ u.resultValue = x.value
      ∧ ReadsBack r rest u t

/-- The command reads through reader Rp (spec/30_encoding.md R93, spec/42_codec.md R250, R270). -/
def readsPort (p : PortNum) : Instr → Bool
  | .rdOpen r => r == p
  | .rdClose r => r == p
  | .rdBit r => r == p
  | .rdByte r => r == p
  | .rdAtEnd r => r == p
  | .freqCount r => r == p
  | .treeDeser r => r == p
  | .encode => p == .p0
  | .decode => true
  | .wrOpen _ => false
  | .wrClose _ => false
  | .wrBit _ _ => false
  | .wrByte _ _ => false
  | .treeBuild => false
  | .treeSer _ => false
  | .dictBuild => false
  | .codeEmit _ _ => false

/-- The command writes through writer Wp (R93, R250, R270). -/
def writesPort (p : PortNum) : Instr → Bool
  | .wrOpen w => w == p
  | .wrClose w => w == p
  | .wrBit w _ => w == p
  | .wrByte w _ => w == p
  | .treeSer w => w == p
  | .codeEmit w _ => w == p
  | .encode => true
  | .decode => p == .p0
  | .rdOpen _ => false
  | .rdClose _ => false
  | .rdBit _ => false
  | .rdByte _ => false
  | .rdAtEnd _ => false
  | .freqCount _ => false
  | .treeBuild => false
  | .treeDeser _ => false
  | .dictBuild => false

/-- The bytes pulled by the readers since they were opened and those now in the sinks: a Pull or a Push
adds one (spec/20_memory.md R72). -/
def State.moved (s : State) : Nat := s.r0.pos + s.r1.pos + s.snk0.data.length + s.snk1.data.length

/-- The order of construction keys (spec/41_tree.md R182). -/
def keyLt (a b : QNode) : Prop := a.weight < b.weight ∨ (a.weight = b.weight ∧ a.rank < b.rank)

/-- The loop of BuildTree (spec/41_tree.md R184) on a queue in any order, k internal nodes made so far: the node
with the lowest key and the one with the next are taken and combined, the first as the left child (R182, R183),
until one node is left, whose tree it returns. -/
inductive Rounds : Nat → List QNode → HTree → Prop where
  | last (k : Nat) (a : QNode) : Rounds k [a] a.tree
  | round {k : Nat} {queue rest : List QNode} {a b : QNode} {t : HTree} (taken : queue.Perm (a :: b :: rest))
      (lowest : keyLt a b) (second : ∀ x ∈ rest, keyLt b x)
      (more : Rounds (k + 1)
        ({ weight := a.weight + b.weight, rank := 256 + k, tree := .internal a.tree b.tree } :: rest) t) :
      Rounds k queue t

/-- The weight of a tree under a frequency table: the counts of its leaves (spec/00_scope.md R17). -/
def HTree.weight (f : FreqTable) : HTree → Nat
  | .leaf v => f.count v
  | .internal l r => l.weight f + r.weight f

/-- The code function of a dictionary. -/
def Dict.codeOf (d : Dict) (v : Byte) : Bits := (d.code v).getD []

/-- The state of the block after a reset (spec/10_state.md R44). -/
structure BlockIsReset (s : State) : Prop where
  reader : ∀ p, s.reader p = { opened := false, pos := 0, buf := 0, cnt := 0 }
  writer : ∀ p, s.writer p = { opened := false, acc := 0, n := 0 }
  freq : ∀ v, s.freq.count v = 0
  total : s.total = 0
  tree : s.tree = none
  nodes : s.nodes = 0
  dict : ∀ v, s.dict.code v = none
  dictValid : s.dictValid = false
  cursor : s.cursor = []
  padBits : s.padBits = 0
  status : s.statusWord = 0
  result : s.resultWord = 0
  info : s.infoWord = 0
  running : s.running = none

/-! ## Invariants -/

/-- Reader invariants (R24), and `buf` is the byte most recently pulled (R23). -/
structure ReaderOk (r : Reader) (data : List Byte) : Prop where
  closed : r.opened = false → r = Reader.closed
  posLe : r.pos ≤ data.length
  fresh : r.pos = 0 → r.buf = 0 ∧ r.cnt = 0
  pulled : 0 < r.pos → data[r.pos - 1]? = some r.buf

/-- Writer invariants (R27). -/
structure WriterOk (w : Writer) : Prop where
  closed : w.opened = false → w = Writer.closed
  lowZero : w.acc &&& (0xFF#8 >>> w.n.val) = 0

/-- Every reader and writer of the block keeps its invariant. -/
structure BitPortsOk (s : State) : Prop where
  reader : ∀ p, ReaderOk (s.reader p) (s.source p).data
  writer : ∀ p, WriterOk (s.writer p)

/-- The sum of all counts. -/
def FreqTable.sum (f : FreqTable) : Nat := (symbols.map (fun v => f.count v)).sum

/-- `TOTAL = Σ FREQ[v]` (R30), and TOTAL, so every count too, fits CNT_W bits (R29, R30). -/
structure FreqOk (s : State) : Prop where
  sum : s.total = s.freq.sum
  width : s.total ≤ s.params.maxLen

/-- The nodes an open internal node accounts for: itself and its left child if it has one. -/
def Frame.size : Frame → Nat
  | .wantLeft => 1
  | .wantRight l => 1 + l.size

/-- The nodes of a tree being deserialized that are complete or open. -/
def framesSize (fs : List Frame) : Nat := (fs.map Frame.size).sum

/-- What the engine's position says of the tree: inside Deserialize none is stored and the nodes read are
counted (spec/41_tree.md R189, R190); Serialize has a tree (R187); a walk's cursor is on an internal node of
a tree that is no leaf (spec/42_codec.md R273, R275). -/
def PosOk (s : State) : Prop :=
  match s.pos with
  | .desNode fs c => framesSize fs = c ∧ c ≤ s.params.nodeCap ∧ s.tree = none ∧ s.dictValid = false
  | .desLeaf fs c => framesSize fs + 1 = c ∧ c ≤ s.params.nodeCap ∧ s.tree = none ∧ s.dictValid = false
  | .desDone t c => t.size = c ∧ c ≤ s.params.nodeCap ∧ s.tree = none ∧ s.dictValid = false
  | .ser _ => ∃ t, s.tree = some t
  | .skip => ∃ l r, s.tree = some (.internal l r)
  | .walk => ∃ t l r, s.tree = some t ∧ t.node s.cursor = some (.internal l r)
  | .write v => ∃ l r, s.tree = some (.internal l r) ∧ (HTree.internal l r).node s.cursor = some (.leaf v)
  | _ => True

/-- The tree store and what describes it (R31 to R36): NODES counts the stored tree, which fits the
store; a valid DICT is that of the stored tree; CURSOR and PADBITS keep their ranges. -/
structure TablesOk (s : State) : Prop where
  params : s.params.Ok
  nodes : s.nodes.toNat = (s.tree.map HTree.size).getD 0
  fits : ∀ t, s.tree = some t → t.size ≤ s.params.nodeCap
  dict : s.dictValid = true → ∃ t, s.tree = some t ∧ s.dict = buildDict t
  cursor : s.cursor.length ≤ s.params.maxCodeLen
  pads : s.padBits.toNat ≤ 8
  pos : PosOk s

/-- DECODE's output writer stays byte-aligned (spec/42_codec.md R275, R277). -/
def DecodeAligned (s : State) : Prop :=
  match s.pos with
  | .desNode _ _ => s.w0.n = 0
  | .desLeaf _ _ => s.w0.n = 0
  | .desDone _ _ => s.w0.n = 0
  | .skip => s.w0.n = 0
  | .walk => s.w0.n = 0
  | .write _ => s.w0.n = 0
  | .dClose => s.w0.n = 0
  | _ => True

/-- STATUS and RESULT between two micro-steps (spec/10_state.md R38, R40; spec/60_exceptions.md R303 to
R306; spec/70_reset_and_hazards.md R351). -/
structure StatusOk (s : State) : Prop where
  busyIff : s.busy = s.running.isSome
  idleIff : s.phase = .idle ↔ s.busy = false
  busyClear : s.busy = true →
    s.done = false ∧ s.err = false ∧ s.empty = false ∧ s.partialCode = false ∧ s.resultValid = false
  errDone : s.err = true → s.done = true
  errCode : s.errcode = 0 ↔ s.err = false
  emptyOk : s.empty = true → s.err = false
  partialOk : s.partialCode = true → s.err = false
  validOk : s.resultValid = true → s.err = false
  valueOk : s.resultValid = false → s.resultValue = 0
  aligned : s.running = some (.legal .decode) → DecodeAligned s

/-- The engine's position and STATUS.PHASE belong together (spec/10_state.md R39): a primitive runs in
PRIM; each position of ENCODE and DECODE has its phase, and on the error path the phase is the one the
error was raised in (spec/60_exceptions.md R306). -/
def AtPhase : Command → Pos → Phase → Prop
  | .legal .encode, q, ph =>
    match q with
    | .start => ph = .eCount
    | .count => ph = .eCount
    | .ser _ => ph = .eSerTree
    | .pad _ => ph = .ePad
    | .emit _ => ph = .eEmit
    | .closeW0 => ph = .eClose
    | .closeW1 => ph = .eClose
    | .finish => ph = .eClose
    | .raised _ => 2 ≤ ph.code.toNat ∧ ph.code.toNat ≤ 8
    | .relW0 _ => 2 ≤ ph.code.toNat ∧ ph.code.toNat ≤ 8
    | .relW1 _ => 2 ≤ ph.code.toNat ∧ ph.code.toNat ≤ 8
    | .errEnd _ => 2 ≤ ph.code.toNat ∧ ph.code.toNat ≤ 8
    | _ => False
  | .legal .decode, q, ph =>
    match q with
    | .start => ph = .dTree
    | .desNode _ _ => ph = .dTree
    | .desLeaf _ _ => ph = .dTree
    | .desDone _ _ => ph = .dTree
    | .skip => ph = .dPad
    | .walk => ph = .dDecode
    | .write _ => ph = .dDecode
    | .dClose => ph = .dClose
    | .finish => ph = .dClose
    | .raised _ => 9 ≤ ph.code.toNat ∧ ph.code.toNat ≤ 12
    | .relW0 _ => 9 ≤ ph.code.toNat ∧ ph.code.toNat ≤ 12
    | .errEnd _ => 9 ≤ ph.code.toNat ∧ ph.code.toNat ≤ 12
    | _ => False
  | _, _, ph => ph = .prim

/-- STATUS.PHASE names the phase of the running command (R39). -/
def PhaseOk (s : State) : Prop := ∀ c, s.running = some c → AtPhase c s.pos s.phase

/-- The readers and writers ENCODE holds open at each of its positions, those it has closed or not yet
opened, and its padding (spec/42_codec.md R250 to R259, R261). -/
def EncodeHolds (s : State) : Prop :=
  match s.pos with
  | .count => s.r0.opened = true ∧ s.w0.opened = false ∧ s.w1.opened = false
  | .ser _ => s.r0.opened = false ∧ s.w0.opened = true ∧ s.w1.opened = false
  | .pad _ => s.r0.opened = false ∧ s.w0.opened = true ∧ s.w1.opened = true ∧ 1 ≤ s.padBits.toNat
  | .emit _ => s.r0.opened = true ∧ s.w0.opened = true ∧ s.w1.opened = true ∧ 1 ≤ s.padBits.toNat
  | .closeW0 => s.r0.opened = false ∧ s.w0.opened = true ∧ s.w1.opened = true ∧ 1 ≤ s.padBits.toNat
  | .closeW1 => s.r0.opened = false ∧ s.w0.opened = false ∧ s.w1.opened = true ∧ 1 ≤ s.padBits.toNat
  | .finish => s.r0.opened = false ∧ s.w0.opened = false ∧ s.w1.opened = false ∧ 1 ≤ s.padBits.toNat
  | .relW0 _ => s.r0.opened = false
  | .relW1 _ => s.r0.opened = false ∧ s.w0.opened = false
  | .errEnd _ => s.r0.opened = false ∧ s.w0.opened = false ∧ s.w1.opened = false
  | _ => True

/-- The readers and writers DECODE holds open at each of its positions, and those it has closed
(R270 to R277). -/
def DecodeHolds (s : State) : Prop :=
  match s.pos with
  | .desNode _ _ => s.r0.opened = true ∧ s.w0.opened = true
  | .desLeaf _ _ => s.r0.opened = true ∧ s.w0.opened = true
  | .desDone _ _ => s.r0.opened = true ∧ s.w0.opened = true
  | .skip => s.r0.opened = false ∧ s.r1.opened = true ∧ s.w0.opened = true
  | .walk => s.r0.opened = false ∧ s.r1.opened = true ∧ s.w0.opened = true
  | .write _ => s.r0.opened = false ∧ s.r1.opened = true ∧ s.w0.opened = true
  | .dClose => s.r0.opened = false ∧ s.r1.opened = true ∧ s.w0.opened = true
  | .finish => s.r0.opened = false ∧ s.r1.opened = false ∧ s.w0.opened = false
  | .relW0 _ => s.r0.opened = false ∧ s.r1.opened = false
  | .errEnd _ => s.r0.opened = false ∧ s.r1.opened = false ∧ s.w0.opened = false
  | _ => True

/-- What a running command holds open: between two of its micro-steps a port it reads or writes next is
open (R181, R188, R190, R194; R250 to R259, R270 to R277). -/
def Holds (s : State) : Instr → Prop
  | .freqCount r => s.pos = .count → (s.reader r).opened = true
  | .treeSer w => ∀ todo, s.pos = .ser todo → (s.writer w).opened = true
  | .treeDeser r =>
    (∀ fs c, s.pos = .desNode fs c → (s.reader r).opened = true)
      ∧ ∀ fs c, s.pos = .desLeaf fs c → (s.reader r).opened = true
  | .codeEmit w _ => ∀ bits, s.pos = .emit bits → (s.writer w).opened = true
  | .encode => EncodeHolds s
  | .decode => DecodeHolds s
  | .rdOpen _ => True
  | .rdClose _ => True
  | .rdBit _ => True
  | .rdByte _ => True
  | .rdAtEnd _ => True
  | .wrOpen _ => True
  | .wrClose _ => True
  | .wrBit _ _ => True
  | .wrByte _ _ => True
  | .treeBuild => True
  | .dictBuild => True

/-- The running command holds what its position says. -/
def PortsHeld (s : State) : Prop := ∀ i, s.running = some (.legal i) → Holds s i

end Sys2Proof.Machine
end

