-- ==== Sys2Proof/Certificates/Slice0/Obligations.lean ====
section
/-! DEFINITION. The statements about the model, from the numbered rules of spec/. Each is about the
whole machine or a command at every operand; the docstring says which rules it formalises. -/

open Sys2Proof Sys2Proof.Machine

/-! ## Command words -/

/-- Decoding the word of a well-formed command gives it back, and a CMD value that decodes is the word of what
it decodes to: each command has one word, and no bit of it is ignored (spec/30_encoding.md R90 to R95). -/
def Obligations.DecodingAndEncodingAreInverse : Prop :=
  (∀ i : Instr, i.wellFormed = true → decodeCmd (encodeCmd i) = .ok i)
    ∧ ∀ (c : Word) (i : Instr), decodeCmd c = .ok i → encodeCmd i = c ∧ i.wellFormed = true

/-- R95: rows with one OP are one row, every mask covers OP and RSV, and a word is the command of the one
row that admits it, or no row admits it. -/
def Obligations.OpcodeMapDecidesEveryWord : Prop :=
  (∀ a ∈ opcodeMap, ∀ b ∈ opcodeMap, a.fixed.extractLsb' 11 5 = b.fixed.extractLsb' 11 5 → a = b)
    ∧ (∀ a ∈ opcodeMap, a.format.mask &&& 0xFE00 = 0xFE00)
    ∧ ∀ c : CmdWord,
        (∀ i, decodeWord c = .ok i →
          ∃ a ∈ opcodeMap, a.mnemonic = i.mnemonic ∧ a.admits c = true ∧ ∀ b ∈ opcodeMap, b.admits c = true → b = a)
        ∧ (∀ e, decodeWord c = .error e → ∀ a ∈ opcodeMap, a.admits c = false)

/-- R96: which words are illegal, and that an illegal command is accepted and ends in its first micro-step
with IllegalCommand and no other effect. -/
def Obligations.IllegalWordsAreExactlyThese : Prop :=
  (∀ c : CmdWord,
    (∃ e, decodeWord c = .error e) ↔
      (fieldsOf c).op.toNat ∈ [0x00, 0x06, 0x07, 0x0C, 0x0D, 0x0E, 0x0F, 0x16, 0x17, 0x1A, 0x1B, 0x1C, 0x1D, 0x1E, 0x1F]
        ∨ (fieldsOf c).rsv ≠ 0
        ∨ ((fieldsOf c).op.toNat ∈ [0x01, 0x02, 0x03, 0x04, 0x05, 0x08, 0x09, 0x10, 0x12, 0x13] ∧ (fieldsOf c).imm ≠ 0)
        ∨ ((fieldsOf c).op.toNat ∈ [0x11, 0x14, 0x18, 0x19] ∧ ((fieldsOf c).p ≠ 0 ∨ (fieldsOf c).imm ≠ 0))
        ∨ ((fieldsOf c).op.toNat = 0x0A ∧ (fieldsOf c).imm.extractLsb' 1 7 ≠ 0))
  ∧ (∃ e, decodeWord 0x0000 = .error e)
  ∧ ∀ (c : CmdWord) (e : Illegal) (s : State), decodeWord c = .error e → s.busy = false →
      ∃ t, hostStep (.csrWrite 0x00 32 (c.setWidth 32)) s = .next t ∧ t.busy = true
        ∧ engineStep t = .next { t with
            busy := false, done := true, err := true, errcode := 6, phase := .idle, running := none, pos := .start }

/-- R106: the worked words, legal and illegal. -/
def Obligations.WorkedCommandWords : Prop :=
  decodeWord 0x0800 = .ok (.rdOpen .p0) ∧ decodeWord 0x0900 = .ok (.rdOpen .p1)
    ∧ decodeWord 0x1900 = .ok (.rdBit .p1) ∧ decodeWord 0x2000 = .ok (.rdByte .p0)
    ∧ decodeWord 0x2800 = .ok (.rdAtEnd .p0) ∧ decodeWord 0x4100 = .ok (.wrOpen .p1)
    ∧ decodeWord 0x4800 = .ok (.wrClose .p0) ∧ decodeWord 0x5001 = .ok (.wrBit .p0 1)
    ∧ decodeWord 0x58A5 = .ok (.wrByte .p0 0xA5) ∧ decodeWord 0x8000 = .ok (.freqCount .p0)
    ∧ decodeWord 0x8800 = .ok .treeBuild ∧ decodeWord 0x9100 = .ok (.treeSer .p1)
    ∧ decodeWord 0x9800 = .ok (.treeDeser .p0) ∧ decodeWord 0xA000 = .ok .dictBuild
    ∧ decodeWord 0xA841 = .ok (.codeEmit .p0 0x41) ∧ decodeWord 0xC000 = .ok .encode
    ∧ decodeWord 0xC800 = .ok .decode
    ∧ ∀ c ∈ [0x0000#16, 0x3000#16, 0x1801#16, 0x5002#16, 0x5A00#16, 0xC100#16], ∃ e, decodeWord c = .error e

/-! ## The host's steps -/

/-- A CMD write of a word that decodes to i starts i, and every turn of the engine is then `exec i`, until
the command ends; a turn of an idle engine changes nothing (spec/20_memory.md R72, R78;
spec/60_exceptions.md R303, R323). -/
def Obligations.StepRunsTheDecodedCommand : Prop :=
  (∀ (s : State) (c : Word) (i : Instr) (rest : List Turn), decodeCmd c = .ok i → s.busy = false →
      s.turns = .host (.csrWrite 0x00 32 c) :: rest →
      ∃ t, step s = .next t ∧ t = accept c { s with turns := rest } ∧ t.running = some (.legal i) ∧ t.pos = .start)
    ∧ (∀ (s : State) (i : Instr), s.running = some (.legal i) →
        (s.turns = [] → step s = exec i s)
        ∧ ∀ rest, s.turns = .engine :: rest → step s = exec i { s with turns := rest })
    ∧ (∀ s : State, s.running = none → engineStep s = .next s)
    ∧ ∀ (s : State) (nbits w : Nat) (i : Instr), decodeTableWord nbits w = some i →
        step (s.withFetchWord nbits w) = exec i (accept (BitVec.ofNat 32 (w % 2 ^ nbits)) s)

/-- R303: what acceptance writes, what it leaves, and the command it starts. -/
def Obligations.CommandAcceptance : Prop :=
  ∀ (c : Word) (s : State), s.busy = false →
    ∃ t, hostStep (.csrWrite 0x00 32 c) s = .next t
      ∧ t = { s with
          busy := true, done := false, err := false, errcode := 0, empty := false, partialCode := false
          resultValue := 0, resultValid := false, phase := t.phase, running := t.running, pos := .start }
      ∧ (∀ i, decodeCmd c = .ok i → t.running = some (.legal i)
          ∧ t.phase = (if i = .encode then .eCount else if i = .decode then .dTree else .prim))
      ∧ ∀ e, decodeCmd c = .error e → t.running = some .illegal ∧ t.phase = .prim
          ∧ engineStep t = .next { t with
              busy := false, done := true, err := true, errcode := 6, phase := .idle, running := none, pos := .start }

/-- R304: a CMD write while BUSY sets DROP and changes nothing else; DROP stays until CLR_DROP or a reset;
a CMD write that is not dropped starts a command. -/
def Obligations.BusyWriteIsDropped : Prop :=
  (∀ (c : Word) (s : State), s.busy = true → hostStep (.csrWrite 0x00 32 c) s = .next { s with drop := true })
    ∧ (∀ s t : State, step s = .next t → s.drop = true → t.drop = true
        ∨ (∃ rest, s.turns = .host .platformReset :: rest)
        ∨ ∃ c rest, s.turns = .host (.csrWrite 0x10 32 c) :: rest ∧ (c.getLsbD 0 = true ∨ c.getLsbD 1 = true))
    ∧ ∀ (c : Word) (s : State), s.busy = false →
        ∃ t, hostStep (.csrWrite 0x00 32 c) s = .next t ∧ t.busy = true ∧ t.running ≠ none

/-- R44, R341, R342: a soft reset, whether or not a command runs, gives every piece of block state its reset
value and changes no port, and the next CMD write is accepted; the state after power-on has the same block
state. (A platform reset at any turn: ResetMeetsTheInvariants.) -/
def Obligations.ResetGivesTheResetValues : Prop :=
  (∀ (s : State) (c : Word), c.getLsbD 0 = true →
      ∃ t, hostStep (.csrWrite 0x10 32 c) s = .next t ∧ BlockIsReset t
        ∧ (∀ p, t.source p = s.source p ∧ t.sink p = s.sink p)
        ∧ ∀ d : Word, hostStep (.csrWrite 0x00 32 d) t = .next (accept d t))
    ∧ BlockIsReset State.reset

/-- R344 (and R42): SOFT_RESET acts whatever CLR_DROP is, DROP is 0 after it; CLR_DROP alone clears DROP and
nothing else, command running or not; a write with neither has no effect; CTRL reads 0. -/
def Obligations.ControlWriteBits : Prop :=
  ∀ (c : Word) (s : State),
    (c.getLsbD 0 = true → ∃ t, hostStep (.csrWrite 0x10 32 c) s = .next t ∧ BlockIsReset t ∧ t.drop = false)
    ∧ (c.getLsbD 0 = false → c.getLsbD 1 = true → hostStep (.csrWrite 0x10 32 c) s = .next { s with drop := false })
    ∧ (c.getLsbD 0 = false → c.getLsbD 1 = false → hostStep (.csrWrite 0x10 32 c) s = .next s)
    ∧ hostStep (.csrRead 0x10 32) s = .next { s with seen := { s.seen with word := 0 } }

/-- The fields the host reads in STATUS, RESULT and INFO (spec/10_state.md R38 to R41), the reserved bits
read 0, CMD reads 0 (R37), a read changes nothing of the block or its ports (spec/20_memory.md R70), and STATUS,
RESULT and INFO ignore writes. (What a write to CMD does: CommandAcceptance, BusyWriteIsDropped.) -/
def Obligations.CsrReadsReturnTheFields : Prop :=
  ∀ s : State,
    (∃ w, hostStep (.csrRead 0x04 32) s = .next { s with seen := { s.seen with word := w } }
      ∧ w.getLsbD 0 = s.busy ∧ w.getLsbD 1 = s.done ∧ w.getLsbD 2 = s.err ∧ w.getLsbD 3 = s.empty
      ∧ w.getLsbD 4 = s.partialCode ∧ w.getLsbD 5 = s.drop ∧ w.extractLsb' 6 2 = 0
      ∧ w.extractLsb' 8 4 = s.errcode ∧ w.extractLsb' 12 4 = s.phase.code
      ∧ w.getLsbD 16 = (s.reader .p0).opened ∧ w.getLsbD 17 = (s.reader .p1).opened
      ∧ w.getLsbD 18 = (s.writer .p0).opened ∧ w.getLsbD 19 = (s.writer .p1).opened ∧ w.extractLsb' 20 12 = 0)
    ∧ (∃ w, hostStep (.csrRead 0x08 32) s = .next { s with seen := { s.seen with word := w } }
      ∧ w.extractLsb' 0 8 = s.resultValue ∧ w.getLsbD 8 = s.resultValid ∧ w.extractLsb' 9 23 = 0)
    ∧ (∃ w, hostStep (.csrRead 0x0C 32) s = .next { s with seen := { s.seen with word := w } }
      ∧ w.extractLsb' 0 4 = s.padBits ∧ w.getLsbD 4 = s.tree.isSome ∧ w.getLsbD 5 = s.dictValid
      ∧ (w.getLsbD 6 = true ↔ ∃ v, s.tree = some (.leaf v)) ∧ w.getLsbD 7 = false
      ∧ w.extractLsb' 8 10 = s.nodes ∧ w.extractLsb' 18 14 = 0)
    ∧ hostStep (.csrRead 0x00 32) s = .next { s with seen := { s.seen with word := 0 } }
    ∧ ∀ c : Word, ∀ offset ∈ [0x04, 0x08, 0x0C], hostStep (.csrWrite offset 32 c) s = .next s

/-- R67 (and R43): the host has a CSR access exactly at the five offsets and 32 bits; every other one is
refused by name. -/
def Obligations.CsrAccessesOutsideTheMapAreRefused : Prop :=
  ∀ (offset width : Nat) (c : Word) (s : State),
    (width = 32 ∧ offset ∈ [0x00, 0x04, 0x08, 0x0C, 0x10] →
      (∃ t, hostStep (.csrWrite offset width c) s = .next t) ∧ ∃ t, hostStep (.csrRead offset width) s = .next t)
    ∧ (¬ (width = 32 ∧ offset ∈ [0x00, 0x04, 0x08, 0x0C, 0x10]) →
      hostStep (.csrWrite offset width c) s = .refused (.csrAccess offset width)
        ∧ hostStep (.csrRead offset width) s = .refused (.csrAccess offset width))

/-- R75, R81: no step, of the host or of the engine, changes the data of a source while its reader is open or
while ENCODE or DECODE is BUSY, and the host's attempts stop by name; what loading, copying (log 11), making
available (log 9) and reading change otherwise, and that they change nothing else. -/
def Obligations.HostStepsOnPorts : Prop :=
  ∀ (s : State) (p : PortNum),
    ((s.reader p).opened = true ∨ codecBusy s = true →
      (∀ t, step s = .next t → (t.source p).data = (s.source p).data)
      ∧ (∀ data avail, hostStep (.loadSource p data avail) s = .fault (.sourceInUse p))
      ∧ ∀ q, hostStep (.copySink p q) s = .fault (.sourceInUse p))
    ∧ ((s.reader p).opened = false → codecBusy s = false →
      (∀ data avail, hostStep (.loadSource p data avail) s = .next (s.setSource p { data := data, avail := avail }))
      ∧ ∀ q, hostStep (.copySink p q) s = .next (s.setSource p { s.source p with data := (s.sink q).data }))
    ∧ ∀ b, hostStep (.setSourceAvail p b) s = .next (s.setSource p { s.source p with avail := b })
      ∧ hostStep (.setSinkAvail p b) s = .next (s.setSink p { s.sink p with avail := b })
      ∧ hostStep (.readSink p) s = .next { s with seen := { s.seen with bytes := (s.sink p).data } }

/-! ## Readers -/

/-- R130, R131: RD_OPEN binds the reader to the start of its source, open or not, or raises SourceUnavailable
with the reader as it was; RD_CLOSE closes its reader and discards what it held, and raises nothing. -/
def Obligations.RdOpenRewindsAndRdCloseDiscards : Prop :=
  (decodeCmd 0x0800 = .ok (.rdOpen .p0) ∧ decodeCmd 0x0900 = .ok (.rdOpen .p1)
    ∧ decodeCmd 0x1000 = .ok (.rdClose .p0) ∧ decodeCmd 0x1100 = .ok (.rdClose .p1))
  ∧ ∀ (r : PortNum) (s : State),
    ((s.source r).avail = true →
      exec (.rdOpen r) s = .next (normalEnd (s.setReader r { opened := true, pos := 0, buf := 0, cnt := 0 })))
    ∧ ((s.source r).avail = false → exec (.rdOpen r) s = .next (errorEnd .sourceUnavailable s))
    ∧ exec (.rdClose r) s = .next (normalEnd (s.setReader r { opened := false, pos := 0, buf := 0, cnt := 0 }))

/-- R132: RD_BIT returns the next unread bit in RESULT and consumes just it; its errors, in their order,
leave the reader as it was. -/
def Obligations.RdBitReturnsTheNextBit : Prop :=
  (decodeCmd 0x1800 = .ok (.rdBit .p0) ∧ decodeCmd 0x1900 = .ok (.rdBit .p1))
  ∧ ∀ (r : PortNum) (s : State), ReaderOk (s.reader r) (s.source r).data →
    ((s.reader r).opened = false → exec (.rdBit r) s = .next (errorEnd .notOpen s))
    ∧ ((s.reader r).opened = true →
      (s.unread r = [] → exec (.rdBit r) s = .next (errorEnd .endOfStream s))
      ∧ ∀ b rest, s.unread r = b :: rest →
        ((s.reader r).cnt = 0 → (s.source r).avail = false → exec (.rdBit r) s = .next (errorEnd .sourceUnavailable s))
        ∧ ((s.reader r).cnt ≠ 0 ∨ (s.source r).avail = true →
          ∃ x, exec (.rdBit r) s = .next (normalEnd { s.setReader r x with
                resultValue := if b then 1 else 0, resultValid := true })
            ∧ x.opened = true ∧ ReaderOk x (s.source r).data ∧ (s.setReader r x).unread r = rest))

/-- R133: RD_BYTE returns the next eight unread bits in RESULT, at any alignment, and consumes just them;
with fewer it raises EndOfStream and they stay readable. -/
def Obligations.RdByteReturnsTheNextEightBits : Prop :=
  (decodeCmd 0x2000 = .ok (.rdByte .p0) ∧ decodeCmd 0x2100 = .ok (.rdByte .p1))
  ∧ ∀ (r : PortNum) (s : State), ReaderOk (s.reader r) (s.source r).data →
    ((s.reader r).opened = false → exec (.rdByte r) s = .next (errorEnd .notOpen s))
    ∧ ((s.reader r).opened = true →
      ((s.unread r).length < 8 → exec (.rdByte r) s = .next (errorEnd .endOfStream s))
      ∧ ∀ v rest, s.unread r = byteBits v ++ rest →
        ((s.source r).avail = false → exec (.rdByte r) s = .next (errorEnd .sourceUnavailable s))
        ∧ ((s.source r).avail = true →
          ∃ x, exec (.rdByte r) s = .next (normalEnd { s.setReader r x with resultValue := v, resultValid := true })
            ∧ x.opened = true ∧ x.cnt = (s.reader r).cnt ∧ x.pos = (s.reader r).pos + 1
            ∧ ReaderOk x (s.source r).data ∧ (s.setReader r x).unread r = rest))

/-- R134: RD_ATEND returns 1 exactly when no bit is left; it consumes nothing and does not ask whether the
source is available. -/
def Obligations.RdAtEndTellsWhetherABitIsLeft : Prop :=
  (decodeCmd 0x2800 = .ok (.rdAtEnd .p0) ∧ decodeCmd 0x2900 = .ok (.rdAtEnd .p1))
  ∧ ∀ (r : PortNum) (s : State),
    ((s.reader r).opened = false → exec (.rdAtEnd r) s = .next (errorEnd .notOpen s))
    ∧ ((s.reader r).opened = true →
      exec (.rdAtEnd r) s = .next (normalEnd { s with
        resultValue := if s.unread r = [] then 1 else 0, resultValid := true }))

/-- R142: with eight unread bits ReadByte returns what eight ReadBits return and leaves the same state;
with fewer it raises EndOfStream and consumes nothing, whereas the ReadBits return the bits left, whether or not the
source is available. -/
def Obligations.ReadByteEqualsEightReadBits : Prop :=
  ∀ (p : PortNum) (s : State), ReaderOk (s.reader p) (s.source p).data → (s.reader p).opened = true →
    (8 ≤ (s.unread p).length → (s.source p).avail = true →
      ∃ v t, readByte p s = .ok v t ∧ readBits p 8 s = .ok (byteBits v) t ∧ (t.reader p).pos = (s.reader p).pos + 1)
    ∧ ((s.unread p).length < 8 →
      (s.reader p).pos = (s.source p).data.length ∧ (s.reader p).cnt.val < 8
      ∧ readByte p s = .raise .endOfStream s
      ∧ ∃ t, readBits p (s.reader p).cnt.val s = .ok (s.unread p) t ∧ t.unread p = [])

/-! ## Writers -/

/-- R135: WR_OPEN empties the sink and opens the writer with nothing accumulated; on an open writer it raises
AlreadyOpen, else on an unavailable sink SinkUnavailable, with nothing changed. -/
def Obligations.WrOpenStartsAFreshArtifact : Prop :=
  (decodeCmd 0x4000 = .ok (.wrOpen .p0) ∧ decodeCmd 0x4100 = .ok (.wrOpen .p1))
  ∧ ∀ (w : PortNum) (s : State),
    ((s.writer w).opened = true → exec (.wrOpen w) s = .next (errorEnd .alreadyOpen s))
    ∧ ((s.writer w).opened = false →
      ((s.sink w).avail = false → exec (.wrOpen w) s = .next (errorEnd .sinkUnavailable s))
      ∧ ((s.sink w).avail = true → exec (.wrOpen w) s = .next (normalEnd ((s.setSink w { data := [], avail := true }).setWriter w
          { opened := true, acc := 0, n := 0 }))))

/-- R136: WR_CLOSE closes the writer; 1 to 7 pending bits are pushed as one byte, zeros below them, or lost
with SinkUnavailable; a closed writer stays closed and nothing is pushed. -/
def Obligations.WrCloseFlushesPendingBits : Prop :=
  (decodeCmd 0x4800 = .ok (.wrClose .p0) ∧ decodeCmd 0x4900 = .ok (.wrClose .p1))
  ∧ ∀ (w : PortNum) (s : State),
    ((s.writer w).opened = false → exec (.wrClose w) s = .next (normalEnd s))
    ∧ ((s.writer w).opened = true →
      ((s.writer w).n = 0 → exec (.wrClose w) s = .next (normalEnd (s.setWriter w { opened := false, acc := 0, n := 0 })))
      ∧ ((s.writer w).n ≠ 0 → (s.sink w).avail = false →
        exec (.wrClose w) s = .next (errorEnd .sinkUnavailable (s.setWriter w { opened := false, acc := 0, n := 0 })))
      ∧ ((s.writer w).n ≠ 0 → (s.sink w).avail = true → WriterOk (s.writer w) →
        ∃ v, exec (.wrClose w) s = .next (normalEnd ((s.setWriter w { opened := false, acc := 0, n := 0 }).setSink w
            { s.sink w with data := (s.sink w).data ++ [v] }))
          ∧ byteBits v = (byteBits (s.writer w).acc).take (s.writer w).n.val
              ++ List.replicate (8 - (s.writer w).n.val) false))

/-- R137: WR_BIT appends its bit to the bits written; the eighth bit of a byte pushes the byte, or raises
SinkUnavailable with the writer as it was. -/
def Obligations.WrBitAppendsItsBit : Prop :=
  (decodeCmd 0x5000 = .ok (.wrBit .p0 (bitByte false)) ∧ decodeCmd 0x5001 = .ok (.wrBit .p0 (bitByte true))
    ∧ decodeCmd 0x5100 = .ok (.wrBit .p1 (bitByte false)) ∧ decodeCmd 0x5101 = .ok (.wrBit .p1 (bitByte true)))
  ∧ ∀ (w : PortNum) (b : Bool) (s : State), WriterOk (s.writer w) →
    ((s.writer w).opened = false → exec (.wrBit w (bitByte b)) s = .next (errorEnd .notOpen s))
    ∧ ((s.writer w).opened = true →
      ((s.writer w).n = 7 → (s.sink w).avail = false →
        exec (.wrBit w (bitByte b)) s = .next (errorEnd .sinkUnavailable s))
      ∧ ((s.writer w).n ≠ 7 ∨ (s.sink w).avail = true →
        ∃ x d, exec (.wrBit w (bitByte b)) s
            = .next (normalEnd ((s.setWriter w x).setSink w { s.sink w with data := d }))
          ∧ x.opened = true ∧ WriterOk x
          ∧ ((s.setWriter w x).setSink w { s.sink w with data := d }).written w = s.written w ++ [b]
          ∧ ((s.writer w).n ≠ 7 → d = (s.sink w).data)
          ∧ ((s.writer w).n = 7 → x.n = 0 ∧ d.length = (s.sink w).data.length + 1)))

/-- R138: WR_BYTE appends the eight bits of its operand at any alignment, pushing exactly one byte, or raises
SinkUnavailable with the writer as it was. -/
def Obligations.WrByteAppendsEightBits : Prop :=
  (∀ v : Byte, decodeCmd (0x5800 ||| v.setWidth 32) = .ok (.wrByte .p0 v)
    ∧ decodeCmd (0x5900 ||| v.setWidth 32) = .ok (.wrByte .p1 v))
  ∧ ∀ (w : PortNum) (v : Byte) (s : State), WriterOk (s.writer w) →
    ((s.writer w).opened = false → exec (.wrByte w v) s = .next (errorEnd .notOpen s))
    ∧ ((s.writer w).opened = true →
      ((s.sink w).avail = false → exec (.wrByte w v) s = .next (errorEnd .sinkUnavailable s))
      ∧ ((s.sink w).avail = true →
        ∃ x u, exec (.wrByte w v) s
            = .next (normalEnd ((s.setWriter w x).setSink w { s.sink w with data := (s.sink w).data ++ [u] }))
          ∧ x.opened = true ∧ WriterOk x ∧ x.n = (s.writer w).n
          ∧ ((s.setWriter w x).setSink w { s.sink w with data := (s.sink w).data ++ [u] }).written w
              = s.written w ++ byteBits v
          ∧ ((s.writer w).n = 0 → u = v)))

/-- R140: WriteByte leaves the state the eight WriteBits of its bits leave, at any alignment; so three
WriteBits and a WriteByte, then a close, push what eleven WriteBits and a close push. -/
def Obligations.WriteByteEqualsEightWriteBits : Prop :=
  ∀ (p : PortNum) (s : State), WriterOk (s.writer p) → (s.writer p).opened = true → (s.sink p).avail = true →
    (∀ v : Byte, ∃ t, writeByte p v s = .ok () t ∧ writeBits p (byteBits v) s = .ok () t)
    ∧ ∀ (a b c : Bool) (v : Byte), ∃ t u x,
        writeBits p [a, b, c] s = .ok () t ∧ writeByte p v t = .ok () u
          ∧ writeBits p ([a, b, c] ++ byteBits v) s = .ok () u ∧ closeW p u = .ok () x

/-- R141: of B bits written, B / 8 bytes are in the sink; after a close whose Push did not raise the bytes
hold the B bits and then zeros, in as few bytes as can. -/
def Obligations.WriterFraming : Prop :=
  ∀ (w : PortNum) (s : State), WriterOk (s.writer w) → (s.writer w).opened = true →
    (s.sink w).data.length = (s.written w).length / 8
    ∧ ((s.sink w).avail = true ∨ (s.writer w).n = 0 →
      ∃ t, exec (.wrClose w) s = .next t ∧ (t.writer w).opened = false
        ∧ (t.sink w).data.length = ((s.written w).length + 7) / 8
        ∧ bytesBits (t.sink w).data = s.written w ++ List.replicate ((8 - (s.written w).length % 8) % 8) false)

/-- R139: what a sequence of WR_BIT and WR_BYTE commands writes, the same sequence of RD_BIT and RD_BYTE
commands reads back from the closed sink's bytes, call for call and without error; then the reader is at end
exactly when the number of bits was a multiple of 8, else the zeros of the last byte are left. -/
def Obligations.BitStreamRoundTrip : Prop :=
  ∀ (w r : PortNum) (items : List Item) (s : State), (s.writer w).opened = false → (s.sink w).avail = true →
    ∃ t, Performed (.wrOpen w :: items.map (Item.write w) ++ [.wrClose w]) s t
      ∧ ∀ u : State, u.source r = { data := (t.sink w).data, avail := true } →
        ∃ v x, Performed [.rdOpen r] u v ∧ ReadsBack r items v x
          ∧ (atEnd r x = true ↔ (items.flatMap Item.bits).length % 8 = 0)
          ∧ x.unread r = List.replicate ((8 - (items.flatMap Item.bits).length % 8) % 8) false

/-! ## Tables -/

/-- R180, R181: FREQ_COUNT of a byte-aligned reader counts every byte left in its source, one micro-step
each; more than MAX_LEN bytes raise CountOverflow with the counts made so far, the byte too many read; a reader that
is not aligned counts its whole bytes and raises EndOfStream. With no byte left it ends so whether or not its source
is available (R62 checks the end of the data first); a byte left that cannot be pulled, in the first micro-step or
later, raises SourceUnavailable and the counts made and the reader stay. -/
def Obligations.FreqCountCountsTheBytesLeft : Prop :=
  (decodeCmd 0x8000 = .ok (.freqCount .p0) ∧ decodeCmd 0x8100 = .ok (.freqCount .p1))
  ∧ ∀ (r : PortNum) (s : State), Starts (.freqCount r) s →
    ((s.reader r).opened = false → exec (.freqCount r) s = .next (errorEnd .notOpen s))
    ∧ (ReaderOk (s.reader r) (s.source r).data → (s.reader r).opened = true →
      (s.unread r = [] → exec (.freqCount r) s = .next (normalEnd { s with freq := FreqTable.zero, total := 0 }))
      ∧ ((s.reader r).pos < (s.source r).data.length → (s.source r).avail = false →
        exec (.freqCount r) s = .next (errorEnd .sourceUnavailable { s with freq := FreqTable.zero, total := 0 }))
      ∧ ((s.source r).avail = true ∨ (s.source r).data.length ≤ (s.reader r).pos →
        ∀ (bytes : List Byte) (rest : Bits), s.unread r = bytesBits bytes ++ rest → rest.length < 8 →
        ∃ x f, x.opened = true ∧ ReaderOk x (s.source r).data
          ∧ (∀ v : Byte, FreqTable.count f v = (bytes.take s.params.maxLen).count v)
          ∧ (rest = [] → bytes.length ≤ s.params.maxLen →
            EndsAfter (.freqCount r) (max 1 bytes.length) s
                (normalEnd { s.setReader r x with freq := f, total := bytes.length })
              ∧ (s.setReader r x).unread r = [])
          ∧ (rest ≠ [] → bytes.length ≤ s.params.maxLen →
            EndsWithError (.freqCount r) .endOfStream s { s.setReader r x with freq := f, total := bytes.length }
              ∧ (s.setReader r x).unread r = rest)
          ∧ (s.params.maxLen < bytes.length →
            EndsWithError (.freqCount r) .countOverflow s
                { s.setReader r x with freq := f, total := s.params.maxLen }
              ∧ (s.setReader r x).unread r = bytesBits (bytes.drop (s.params.maxLen + 1)) ++ rest)))
    ∧ ∀ t : State, t.running = some (.legal (.freqCount r)) → t.pos = .count →
        ((t.reader r).pos < (t.source r).data.length → (t.source r).avail = false →
          exec (.freqCount r) t = .next (errorEnd .sourceUnavailable t))
        ∧ ((t.source r).data.length ≤ (t.reader r).pos →
          exec (.freqCount r) t = .next (if (t.reader r).cnt = 0 then normalEnd t else errorEnd .endOfStream t))

/-- R186 with R184, R185 and R196: TREE_BUILD raises EmptyFreq on an all-zero table, which leaves the stored tree
and dictionary as they were or invalid, by the implementation's parameter (spec/92_eei_decisions.md D29 and R186
differ: the model's choice, log 13), else stores the tree BuildTree makes of FREQ, whose leaves are the symbols with a
non-zero count, one each, or for one symbol the tree of R185; NODES is its size, the dictionary is invalid. -/
def Obligations.TreeBuildStoresTheTree : Prop :=
  (decodeCmd 0x8800 = .ok .treeBuild)
  ∧ ∀ s : State,
    ((∀ v, s.freq.count v = 0) →
      (s.params.emptyFreqKeepsTree = true → exec .treeBuild s = .next (errorEnd .emptyFreq s))
      ∧ (s.params.emptyFreqKeepsTree = false →
        exec .treeBuild s = .next (errorEnd .emptyFreq { s with tree := none, nodes := 0, dictValid := false })))
    ∧ ((∃ v, s.freq.count v ≠ 0) →
      ∃ t : HTree, buildTree s.freq = some t
        ∧ exec .treeBuild s
          = .next (normalEnd { s with tree := some t, nodes := BitVec.ofNat 10 t.size, dictValid := false })
        ∧ t.isLeaf = false ∧ t.size ≤ 511
        ∧ (∀ v, usedSymbols s.freq = [v] → t = .internal (.leaf v) (.leaf (v ^^^ 0x01)))
        ∧ (2 ≤ (usedSymbols s.freq).length → t.leaves.Perm (usedSymbols s.freq)
          ∧ t.size = 2 * (usedSymbols s.freq).length - 1)
        ∧ ∀ v, v ∈ usedSymbols s.freq ↔ s.freq.count v ≠ 0)

/-- R182, R183, with R184 and R185: the queue starts with the leaf of each symbol v with a non-zero count, of key
(FREQ[v], v); a round takes the two lowest keys, the first as the left child, and puts back their node, of the sum
of their weights and of rank 256 + k, and nothing else. It starts and stays in the order of keys, so its head is the
lowest, and no two nodes in it have the same rank. BuildTree of two or more symbols returns the one tree these rounds
make of those leaves, whatever the order they are written in (`Rounds`); of one symbol v the tree of R185, of none
no tree. -/
def Obligations.ConstructionQueueIsOrdered : Prop :=
  (∀ f : FreqTable, (startQueue f).Pairwise keyLt ∧ ((startQueue f).map QNode.rank).Nodup
      ∧ ∀ a ∈ startQueue f, a.rank < 256)
    ∧ (∀ (k : Nat) (a b : QNode) (q : List QNode), (a :: b :: q).Pairwise keyLt →
        ((a :: b :: q).map QNode.rank).Nodup → (∀ x ∈ a :: b :: q, x.rank < 256 + k) →
        (enqueue (combine k a b) q).Perm
            ({ weight := a.weight + b.weight, rank := 256 + k, tree := .internal a.tree b.tree } :: q)
          ∧ (enqueue (combine k a b) q).Pairwise keyLt ∧ ((enqueue (combine k a b) q).map QNode.rank).Nodup
          ∧ ∀ x ∈ enqueue (combine k a b) q, x.rank < 256 + (k + 1))
    ∧ ∀ f : FreqTable,
      let leaves : List QNode :=
        (usedSymbols f).map (fun v => { weight := f.count v, rank := v.toNat, tree := .leaf v })
      (usedSymbols f).Nodup ∧ (∀ v, v ∈ usedSymbols f ↔ f.count v ≠ 0)
        ∧ (startQueue f).Perm leaves
        ∧ (usedSymbols f = [] → buildTree f = none)
        ∧ (∀ v, usedSymbols f = [v] → buildTree f = some (.internal (.leaf v) (.leaf (v ^^^ 0x01))))
        ∧ (2 ≤ (usedSymbols f).length → ∃ t, buildTree f = some t ∧ ∀ u, Rounds 0 leaves u ↔ u = t)

/-- R195: a combined node weighs the sum of its children and has them as its subtrees, and a built tree of two or
more symbols weighs TOTAL. (Which node is the left child: ConstructionQueueIsOrdered.) -/
def Obligations.BuiltTreeWeighsTotal : Prop :=
  (∀ (k : Nat) (a b : QNode), (combine k a b).weight = a.weight + b.weight
      ∧ (combine k a b).tree = .internal a.tree b.tree)
    ∧ ∀ (s : State) (t : HTree), FreqOk s → 2 ≤ (usedSymbols s.freq).length → buildTree s.freq = some t →
        t.weight s.freq = s.total

/-- R188: TREE_SER appends the serialized form of the stored tree to the bits written, one micro-step for
each byte it completes, and leaves the writer open; NotOpen, then NoTree, are raised before any bit; at a
byte that cannot be pushed, at its start or later, it raises SinkUnavailable with the bits accepted so far
written and the bytes pushed kept. -/
def Obligations.TreeSerWritesTheSerializedTree : Prop :=
  (decodeCmd 0x9000 = .ok (.treeSer .p0) ∧ decodeCmd 0x9100 = .ok (.treeSer .p1))
  ∧ ∀ (w : PortNum) (s : State), Starts (.treeSer w) s → WriterOk (s.writer w) →
    ((s.writer w).opened = false → exec (.treeSer w) s = .next (errorEnd .notOpen s))
    ∧ ((s.writer w).opened = true →
      (s.tree = none → exec (.treeSer w) s = .next (errorEnd .noTree s))
      ∧ ∀ t, s.tree = some t →
        ((s.sink w).avail = true →
          ∃ x d, EndsAfter (.treeSer w) (max 1 (d.length - (s.sink w).data.length)) s
              (normalEnd ((s.setWriter w x).setSink w { s.sink w with data := d }))
            ∧ x.opened = true ∧ WriterOk x
            ∧ ((s.setWriter w x).setSink w { s.sink w with data := d }).written w = s.written w ++ t.ser)
        ∧ ((s.sink w).avail = false →
          ∃ x, exec (.treeSer w) s = .next (errorEnd .sinkUnavailable (s.setWriter w x))
            ∧ x.opened = true ∧ WriterOk x
            ∧ (s.setWriter w x).written w = s.written w ++ t.leadMarkers.take (7 - (s.writer w).n.val)))
    ∧ ∀ todo, (s.writer w).opened = true → (s.sink w).avail = false → 8 ≤ (s.writer w).n.val + (todoBits todo).length →
        ∃ x, exec (.treeSer w) (s.goto (.ser todo)) = .next (errorEnd .sinkUnavailable (s.setWriter w x))
          ∧ x.opened = true ∧ WriterOk x
          ∧ (s.setWriter w x).written w = s.written w ++ (leadMarkers todo).take (7 - (s.writer w).n.val)

/-- R190 with R189: TREE_DESER of a reader whose unread bits begin with ser(t) stores t and its node count,
reads exactly those bits, one micro-step for each byte pulled, and leaves the dictionary invalid. -/
def Obligations.TreeDeserReadsATree : Prop :=
  (decodeCmd 0x9800 = .ok (.treeDeser .p0) ∧ decodeCmd 0x9900 = .ok (.treeDeser .p1))
  ∧ ∀ (r : PortNum) (s : State), Starts (.treeDeser r) s → ReaderOk (s.reader r) (s.source r).data →
    ((s.reader r).opened = false → exec (.treeDeser r) s = .next (errorEnd .notOpen s))
    ∧ ((s.reader r).opened = true → (s.source r).avail = true →
      ∀ (t : HTree) (rest : Bits), t.size ≤ s.params.nodeCap → s.unread r = t.ser ++ rest →
        ∃ x, EndsAfter (.treeDeser r) (max 1 (x.pos - (s.reader r).pos)) s
            (normalEnd { s.setReader r x with tree := some t, nodes := BitVec.ofNat 10 t.size, dictValid := false })
          ∧ x.opened = true ∧ ReaderOk x (s.source r).data ∧ (s.setReader r x).unread r = rest)

/-- R189, R190: how TREE_DESER ends where it reads no tree. `framesBits fs ++ tail` are the unread bits, fs the
internal nodes open when tail begins. A stream that ends at a node's marker or inside a leaf's value raises
TruncatedTree, one that begins a node too many TreeTooLarge after that node's marker; the reader stays open, the
bits read are consumed, and no tree and no dictionary is stored. Every stream that does not begin with a tree the
store holds is one of these. From a first micro-step or a later one: buffered markers of more nodes than the store
holds raise TreeTooLarge before any Pull; else, after the buffered markers, a byte that cannot be pulled raises
SourceUnavailable, and where no byte is left TruncatedTree, whether or not the source is available (R62 checks the
end of the data first). -/
def Obligations.BadTreeStreamsAreRefused : Prop :=
  (∀ (r : PortNum) (s : State), Starts (.treeDeser r) s → ReaderOk (s.reader r) (s.source r).data →
    (s.reader r).opened = true → (s.source r).avail = true ∨ (s.source r).data.length ≤ (s.reader r).pos →
    ∀ (fs : List Frame) (tail : Bits), s.unread r = framesBits fs ++ tail →
    let ends (e : Error) (left : Bits) := ∃ x,
      EndsWithError (.treeDeser r) e s { s.setReader r x with tree := none, nodes := 0, dictValid := false }
        ∧ x.opened = true ∧ ReaderOk x (s.source r).data ∧ (s.setReader r x).unread r = left
    (tail = [] → framesSize fs ≤ s.params.nodeCap → ends .truncatedTree [])
      ∧ (∀ short, tail = false :: short → short.length < 8 → framesSize fs < s.params.nodeCap →
        ends .truncatedTree short)
      ∧ ∀ b rest, tail = b :: rest → framesSize fs = s.params.nodeCap → ends .treeTooLarge rest)
  ∧ (∀ (cap : Nat) (stream : Bits),
    (∃ t rest, stream = HTree.ser t ++ rest ∧ t.size ≤ cap)
      ∨ (∃ fs, stream = framesBits fs ∧ framesSize fs ≤ cap)
      ∨ (∃ fs short, stream = framesBits fs ++ false :: short ∧ short.length < 8 ∧ framesSize fs < cap)
      ∨ ∃ fs b rest, stream = framesBits fs ++ b :: rest ∧ framesSize fs = cap)
  ∧ ∀ (r : PortNum) (s : State), s.running = some (.legal (.treeDeser r)) →
    ReaderOk (s.reader r) (s.source r).data → (s.reader r).opened = true →
    let ends (e : Error) (markers : Nat) (kept : State → State) := ∃ x,
      exec (.treeDeser r) s = .next (errorEnd e (kept (s.setReader r x)))
        ∧ x.opened = true ∧ ReaderOk x (s.source r).data ∧ (s.setReader r x).unread r = (s.unread r).drop markers
    let noTree (t : State) : State := { t with tree := none, nodes := 0, dictValid := false }
    (s.pos = .start → s.params.nodeCap < markerCount (s.buffered r) →
      ends .treeTooLarge (s.params.nodeCap + 1) noTree)
    ∧ (∀ fs c, s.pos = .desNode fs c → c ≤ s.params.nodeCap → s.params.nodeCap < c + markerCount (s.buffered r) →
      ends .treeTooLarge (s.params.nodeCap - c + 1) id)
    ∧ ∀ e : Error,
      (e = .sourceUnavailable ∧ (s.source r).avail = false ∧ (s.reader r).pos < (s.source r).data.length)
        ∨ (e = .truncatedTree ∧ (s.source r).data.length ≤ (s.reader r).pos) →
      (s.pos = .start → markerCount (s.buffered r) ≤ s.params.nodeCap → ends e (markerCount (s.buffered r)) noTree)
      ∧ (∀ fs c, s.pos = .desNode fs c → c + markerCount (s.buffered r) ≤ s.params.nodeCap →
        ends e (markerCount (s.buffered r)) id)
      ∧ ∀ fs c, s.pos = .desLeaf fs c → exec (.treeDeser r) s = .next (errorEnd e s)

/-- R198: the tree stream of a tree of at most NODE_CAP nodes, whatever bytes follow it, deserializes to
exactly that tree, reading exactly |ser(t)| bits, and so to the same dictionary. -/
def Obligations.TreeStreamRoundTrip : Prop :=
  ∀ (r : PortNum) (s : State) (t : HTree) (extra : List Byte), Starts (.treeDeser r) s → t.size ≤ s.params.nodeCap →
    s.source r = { data := t.stream ++ extra, avail := true } →
    s.reader r = { opened := true, pos := 0, buf := 0, cnt := 0 } →
    ∃ k u, EndsAfter (.treeDeser r) k s u ∧ u.err = false ∧ u.tree = some t ∧ dictOf u.tree = buildDict t
      ∧ 8 * (u.reader r).pos - (u.reader r).cnt.val = t.ser.length

/-- R192, R191, R197: DICT_BUILD stores the dictionary of the stored tree, in which the last leaf of a value in
pre-order gives its code, or raises NoTree; with distinct leaf values it has one entry for each leaf, its path,
and no code is a prefix of another's; every built tree has distinct leaf values, at least two, and codes of at
least one bit. -/
def Obligations.DictBuildStoresThePaths : Prop :=
  decodeCmd 0xA000 = .ok .dictBuild
    ∧ (∀ s : State,
      (s.tree = none → exec .dictBuild s = .next (errorEnd .noTree s))
      ∧ ∀ t, s.tree = some t → exec .dictBuild s = .next (normalEnd { s with dict := buildDict t, dictValid := true }))
    ∧ (∀ (t : HTree) (v : Byte),
        (buildDict t).code v = ((t.paths []).reverse.find? (fun e => e.1 == v)).map Prod.snd)
    ∧ (∀ t : HTree, t.leaves.Nodup →
      (∀ (v : Byte) (p : Bits), (buildDict t).code v = some p ↔ t.node p = some (.leaf v))
      ∧ (∀ v : Byte, ((buildDict t).code v).isSome = true ↔ v ∈ t.leaves)
      ∧ ∀ (u v : Byte) (p q : Bits), (buildDict t).code u = some p → (buildDict t).code v = some q → u ≠ v → ¬ p <+: q)
    ∧ ∀ (f : FreqTable) (t : HTree), buildTree f = some t → t.leaves.Nodup ∧ 2 ≤ t.leaves.length
        ∧ ∀ (v : Byte) (p : Bits), (buildDict t).code v = some p → 1 ≤ p.length

/-- R199: a tree the store holds has at most 256 leaves and depth 255, so codes and the cursor of a state
that keeps the tables' invariant have at most 255 bits. -/
def Obligations.CodesFitTheDepthBound : Prop :=
  (∀ (P : Config.Params) (t : HTree), t.size ≤ P.nodeCap →
      t.leaves.length ≤ P.maxLeaves ∧ t.depth ≤ P.maxCodeLen
      ∧ ∀ (v : Byte) (p : Bits), (buildDict t).code v = some p → p.length ≤ P.maxCodeLen)
    ∧ (Config.Params.defaults.nodeCap = 511 ∧ Config.Params.defaults.maxLeaves = 256
      ∧ Config.Params.defaults.maxCodeLen = 255)
    ∧ ∀ s : State, TablesOk s → s.cursor.length ≤ s.params.maxCodeLen
        ∧ (s.dictValid = true → ∀ (v : Byte) (p : Bits), s.dict.code v = some p → p.length ≤ s.params.maxCodeLen)

/-- R194 with R193: CODE_EMIT appends the code of its symbol to the bits written, one micro-step for each byte
it completes, an empty code writing nothing; NotOpen, NoDict and NoCode come in that order before any bit; a
byte that cannot be pushed raises SinkUnavailable and the bits before it stay written. -/
def Obligations.CodeEmitWritesTheCode : Prop :=
  (∀ v : Byte, decodeCmd (0xA800 ||| v.setWidth 32) = .ok (.codeEmit .p0 v)
    ∧ decodeCmd (0xA900 ||| v.setWidth 32) = .ok (.codeEmit .p1 v))
  ∧ ∀ (w : PortNum) (v : Byte) (s : State), Starts (.codeEmit w v) s → WriterOk (s.writer w) →
    ((s.writer w).opened = false → exec (.codeEmit w v) s = .next (errorEnd .notOpen s))
    ∧ ((s.writer w).opened = true →
      (s.dictValid = false → exec (.codeEmit w v) s = .next (errorEnd .noDict s))
      ∧ (s.dictValid = true → s.dict.code v = none → exec (.codeEmit w v) s = .next (errorEnd .noCode s))
      ∧ ∀ code, s.dictValid = true → s.dict.code v = some code →
        ((s.sink w).avail = true ∨ (s.writer w).n.val + code.length < 8 →
          ∃ x d, EndsAfter (.codeEmit w v) (max 1 (d.length - (s.sink w).data.length)) s
              (normalEnd ((s.setWriter w x).setSink w { s.sink w with data := d }))
            ∧ x.opened = true ∧ WriterOk x
            ∧ ((s.setWriter w x).setSink w { s.sink w with data := d }).written w = s.written w ++ code)
        ∧ ((s.sink w).avail = false → 8 ≤ (s.writer w).n.val + code.length →
          ∃ x, exec (.codeEmit w v) s = .next (errorEnd .sinkUnavailable (s.setWriter w x))
            ∧ x.opened = true ∧ WriterOk x
            ∧ (s.setWriter w x).written w = s.written w ++ code.take (7 - (s.writer w).n.val)))
    ∧ ∀ left, (s.writer w).opened = true → (s.sink w).avail = false → 8 ≤ (s.writer w).n.val + left.length →
        ∃ x, exec (.codeEmit w v) (s.goto (.emit left)) = .next (errorEnd .sinkUnavailable (s.setWriter w x))
          ∧ x.opened = true ∧ WriterOk x
          ∧ (s.setWriter w x).written w = s.written w ++ left.take (7 - (s.writer w).n.val)

/-! ## The codec -/

/-- R260 with R250 to R259 and R354: ENCODE of a non-empty input ends normally with the tree stream of the
tree built from its counts in SNK0 and the payload stream in SNK1, PADBITS in 1 to 8, the tables valid, R0, W0
and W1 closed, after one micro-step for each Pull of its two passes and each Push. -/
def Obligations.EncodeWritesBothStreams : Prop :=
  ∀ (s : State) (input : List Byte), Starts .encode s → s.w0.opened = false → s.w1.opened = false →
    s.src0 = { data := input, avail := true } → s.snk0.avail = true → s.snk1.avail = true →
    input ≠ [] → input.length ≤ s.params.maxLen →
    ∃ (f : FreqTable) (t : HTree) (u : State), (∀ v : Byte, f.count v = input.count v) ∧ buildTree f = some t
      ∧ EndsAfter .encode (2 * input.length + t.stream.length + (payloadStream (buildDict t).codeOf input).length) s u
      ∧ u = { normalEnd s with
          r0 := Reader.closed, freq := f, total := input.length
          tree := some t, nodes := BitVec.ofNat 10 t.size, dict := buildDict t, dictValid := true
          padBits := BitVec.ofNat 4 (padCount (codesOf (buildDict t).codeOf input).length)
          w0 := Writer.closed, w1 := Writer.closed
          snk0 := { data := t.stream, avail := true }
          snk1 := { data := payloadStream (buildDict t).codeOf input, avail := true } }
      ∧ u.snk1.data.length = (codesOf (buildDict t).codeOf input).length / 8 + 1

/-- R253 (and R302): ENCODE of an empty input ends normally in one micro-step with EMPTY set; it opens no
writer, the sinks, the tree and the dictionary stay, PADBITS and the counts are 0. -/
def Obligations.EncodeOfEmptyInput : Prop :=
  ∀ s : State, Starts .encode s → s.w0.opened = false → s.w1.opened = false →
    s.src0 = { data := [], avail := true } →
    ∃ t, exec .encode s = .next t
      ∧ t = { normalEnd s with r0 := Reader.closed, freq := FreqTable.zero, total := 0, padBits := 0, empty := true }

/-- R251, R271: with a writer it needs open, ENCODE or DECODE ends in its first micro-step with AlreadyOpen and
changes nothing else. -/
def Obligations.CodecStartChecks : Prop :=
  (∀ s : State, Starts .encode s → s.w0.opened = true ∨ s.w1.opened = true →
      exec .encode s = .next (errorEnd .alreadyOpen s))
    ∧ ∀ s : State, Starts .decode s → s.w0.opened = true → exec .decode s = .next (errorEnd .alreadyOpen s)

/-- R275, R276, R280 with R270 to R277: DECODE of ser(T) and of a payload of ones, a zero, the paths of some
leaves of T and an incomplete path writes the values of those leaves and nothing for the incomplete path, and
sets PARTIAL when it is not empty; the tables, CURSOR and the closed readers and writer are as said. -/
def Obligations.DecodeWritesTheLeavesReached : Prop :=
  ∀ (s : State) (l r : HTree) (extra : Bits) (ones : Nat) (leaves : List (Bits × Byte)) (tail : Bits) (u v : HTree),
    Starts .decode s → s.w0.opened = false → s.src0.avail = true → s.src1.avail = true → s.snk0.avail = true →
    (HTree.internal l r).size ≤ s.params.nodeCap → bytesBits s.src0.data = (HTree.internal l r).ser ++ extra →
    bytesBits s.src1.data = List.replicate ones true ++ false :: (leaves.flatMap Prod.fst ++ tail) →
    (∀ e ∈ leaves, (HTree.internal l r).node e.1 = some (.leaf e.2)) →
    (HTree.internal l r).node tail = some (.internal u v) →
    EndsAfter .decode (((HTree.internal l r).ser.length + 7) / 8 + s.src1.data.length + leaves.length) s
      { normalEnd s with
        r0 := Reader.closed, r1 := Reader.closed, w0 := Writer.closed
        tree := some (.internal l r), nodes := BitVec.ofNat 10 (HTree.internal l r).size, dictValid := false
        cursor := tail, partialCode := !tail.isEmpty
        snk0 := { data := leaves.map Prod.snd, avail := true } }

/-- R273, R274, and R270 with R189: a tree that is a single leaf ends DECODE with DegenerateTree after its two
bytes are pulled, whether or not SRC1 is available, so before R1 is opened, the tree kept; a payload with no zero
bit ends it with MalformedPadding; a tree stream that ends inside the tree ends it with TruncatedTree and one
that begins a node too many with TreeTooLarge, no tree stored. SNK0 is empty and R0, R1 and W0 are closed. -/
def Obligations.DecodeRefusesLeafTreesAndUnendedPadding : Prop :=
  ∀ s : State, Starts .decode s → s.w0.opened = false → s.src0.avail = true → s.snk0.avail = true →
    (∀ (v : Byte) (extra : Bits), 1 ≤ s.params.nodeCap → bytesBits s.src0.data = (HTree.leaf v).ser ++ extra →
      EndsAfter .decode 2 s { errorEnd .degenerateTree s with
        r0 := Reader.closed, r1 := Reader.closed, w0 := Writer.closed
        tree := some (.leaf v), nodes := 1, dictValid := false, snk0 := { data := [], avail := true } })
    ∧ (∀ (l r : HTree) (extra : Bits), (HTree.internal l r).size ≤ s.params.nodeCap → s.src1.avail = true →
      bytesBits s.src0.data = (HTree.internal l r).ser ++ extra → (∀ b ∈ bytesBits s.src1.data, b = true) →
      EndsWithError .decode .malformedPadding s { s with
        r0 := Reader.closed, r1 := Reader.closed, w0 := Writer.closed
        tree := some (.internal l r), nodes := BitVec.ofNat 10 (HTree.internal l r).size, dictValid := false
        snk0 := { data := [], avail := true } })
    ∧ ∀ (fs : List Frame) (tail : Bits), bytesBits s.src0.data = framesBits fs ++ tail →
      let ends (e : Error) := EndsWithError .decode e s { s with
        r0 := Reader.closed, r1 := Reader.closed, w0 := Writer.closed
        tree := none, nodes := 0, dictValid := false, snk0 := { data := [], avail := true } }
      (tail = [] → framesSize fs ≤ s.params.nodeCap → ends .truncatedTree)
        ∧ (∀ short, tail = false :: short → short.length < 8 → framesSize fs < s.params.nodeCap → ends .truncatedTree)
        ∧ ∀ b rest, tail = b :: rest → framesSize fs = s.params.nodeCap → ends .treeTooLarge

/-- R279: from any idle state with closed readers and writers and available ports, whose parameters fit (R7), the
host loads SRC0 with a non-empty input, issues ENCODE, copies SNK0 to SRC0 and SNK1 to SRC1 and issues DECODE;
then DECODE ends normally with the input in SNK0 and PARTIAL clear. -/
def Obligations.CodecRoundTrip : Prop :=
  ∀ (s : State) (input : List Byte), s.params.Ok → s.busy = false → s.running = none → (∀ p, (s.reader p).opened = false) →
    (∀ p, (s.writer p).opened = false) → (∀ p, (s.sink p).avail = true) → s.src1.avail = true →
    input ≠ [] → input.length ≤ s.params.maxLen →
    ∃ (j k m : Nat) (t : State),
      Reaches m { s with turns :=
        [.host (.loadSource .p0 input true), .host (.csrWrite 0x00 32 0xC000)] ++ List.replicate j .engine
          ++ [.host (.copySink .p0 .p0), .host (.copySink .p1 .p1), .host (.csrWrite 0x00 32 0xC800)]
          ++ List.replicate k .engine } t
      ∧ t.turns = [] ∧ t.running = none ∧ t.done = true ∧ t.err = false ∧ t.partialCode = false
      ∧ t.snk0.data = input

/-- R200: the tree TREE_BUILD builds depends on the counts alone, and two ENCODEs of one input, from any two states
of one implementation, write the same two streams and the same tables. -/
def Obligations.EncodeIsDeterministic : Prop :=
  (∀ s s' t t' : State, s.freq = s'.freq → (∃ v, s.freq.count v ≠ 0) →
      exec .treeBuild s = .next t → exec .treeBuild s' = .next t' → t.tree = t'.tree)
    ∧ ∀ s s' : State, Starts .encode s → Starts .encode s' → s.w0.opened = false → s.w1.opened = false →
      s'.w0.opened = false → s'.w1.opened = false → s.src0.avail = true → s'.src0 = s.src0 →
      s.snk0.avail = true → s.snk1.avail = true → s'.snk0.avail = true → s'.snk1.avail = true →
      s.src0.data ≠ [] → s.src0.data.length ≤ s.params.maxLen → s'.params = s.params →
      ∃ k t t', EndsAfter .encode k s t ∧ EndsAfter .encode k s' t' ∧ t.snk0.data = t'.snk0.data
        ∧ t.snk1.data = t'.snk1.data ∧ t.tree = t'.tree ∧ t.dict = t'.dict ∧ t.freq = t'.freq ∧ t.padBits = t'.padBits

/-- R312 and R262: when ENCODE or DECODE ends, with or without error, every reader and writer it uses is
closed (log 4), but for AlreadyOpen, which changes nothing else (log 3). -/
def Obligations.CodecEndsWithItsPortsClosed : Prop :=
  ∀ s t : State, PortsHeld s → engineStep s = .next t → t.running = none →
    (s.running = some (.legal .encode) →
      t = errorEnd .alreadyOpen s ∨ (t.r0.opened = false ∧ t.w0.opened = false ∧ t.w1.opened = false))
    ∧ (s.running = some (.legal .decode) →
      t = errorEnd .alreadyOpen s ∨ (t.r0.opened = false ∧ t.r1.opened = false ∧ t.w0.opened = false))

/-- R310, R312, R313: once ENCODE or DECODE has raised an error, Release closes R0, W0 and W1, or R0, R1 and
W0, each writer's pending bits pushed as a last byte if its sink takes it and lost if not, in one micro-step for
each flush; whatever fails in Release, the command ends with that error's code, from every position of the error
path. -/
def Obligations.ReleaseKeepsTheFirstError : Prop :=
  (∀ (s : State) (e : Error), s.pos = .raised e →
    (s.running = some (.legal .encode) →
      EndsAfter .encode (max 1 ((closePushes .p0 s).toNat + (closePushes .p1 s).toNat)) s
        (errorEnd e (releasedEncode s)))
    ∧ (s.running = some (.legal .decode) →
      EndsAfter .decode (max 1 (closePushes .p0 s).toNat) s (errorEnd e (releasedDecode s))))
  ∧ ∀ (s t : State) (i : Instr) (e : Error), i = .encode ∨ i = .decode → s.running = some (.legal i) →
    s.pos = .raised e ∨ s.pos = .relW0 e ∨ s.pos = .errEnd e ∨ (i = .encode ∧ s.pos = .relW1 e) →
    exec i s = .next t →
    (t.running = none ∧ t.err = true ∧ t.errcode = e.code ∧ t.busy = false ∧ t.done = true)
      ∨ (t.running = some (.legal i) ∧ t.phase = s.phase ∧ t.busy = s.busy
        ∧ (t.pos = .relW0 e ∨ t.pos = .errEnd e ∨ (i = .encode ∧ t.pos = .relW1 e)))

/-- R307, R308 for ENCODE: at each check, open and access that can fail, wherever in a micro-step the engine is when
it comes to it (s, reached from s₀ with no step of the host on the way; s₀ may be s), what fails it, with which error,
and that the command then ends with what was done before kept and Release alone after it: the counts, the tables
built, PADBITS once E_PAD is reached, the bytes pushed, and the bits accepted (`writeBits`), which Release flushes if
the sink takes them. From a position with fewer bits to write than complete a byte the engine goes on to the access or
check after them; W1's own close never pushes (R259). -/
def Obligations.EncodeErrorsKeepWhatWasDone : Prop :=
  ∀ s₀ s : State, s₀.running = some (.legal .encode) → EngineGets encodeAct s₀ s →
    (Starts .encode s → s.w0.opened = false → s.w1.opened = false → s.src0.avail = false →
      EndsWithError .encode .sourceUnavailable s₀ (releasedEncode { s with padBits := 0 }))
    ∧ (s.pos = .count → s.r0.pos < s.src0.data.length →
      (s.src0.avail = false → EndsWithError .encode .sourceUnavailable s₀ (releasedEncode s))
      ∧ (s.src0.avail = true → s.total = s.params.maxLen → EndsWithError .encode .countOverflow s₀ (releasedEncode s)))
    ∧ (∀ t, s.pos = .count → atEnd .p0 s = true → s.total ≠ 0 → buildTree s.freq = some t → s.w0.opened = false →
      s.snk0.avail = false →
      EndsWithError .encode .sinkUnavailable s₀
        (releasedEncode { s with tree := some t, nodes := BitVec.ofNat 10 t.size, dictValid := false }))
    ∧ (∀ todo, s.pos = .ser todo → s.w0.opened = true → WriterOk s.w0 → s.snk0.avail = false →
      8 ≤ s.w0.n.val + (todoBits todo).length → EndsWithError .encode .sinkUnavailable s₀ (releasedEncode s))
    ∧ (∀ t, s.pos = .ser [] → s.tree = some t → s.w1.opened = false →
      (s.snk1.avail = false → EndsWithError .encode .sinkUnavailable s₀ (releasedEncode (padReady t s)))
      ∧ (s.snk1.avail = true → ∀ u, padCount (totalBits s.freq (buildDict t)) < 8 →
        writeBits .p1 (padding (totalBits s.freq (buildDict t))) { padReady t s with
          w1 := { opened := true, acc := 0, n := 0 }, snk1 := { data := [], avail := true } } = .ok () u →
        (s.src0.avail = false → EndsWithError .encode .sourceUnavailable s₀ (releasedEncode u))
        ∧ ∀ v rest, s.src0.avail = true → s.src0.data = v :: rest → (buildDict t).code v = none →
          EndsWithError .encode .noCode s₀ (releasedEncode u)))
    ∧ (∀ bits, s.pos = .pad bits ∨ s.pos = .emit bits → s.w1.opened = true → WriterOk s.w1 → s.snk1.avail = false →
      8 ≤ s.w1.n.val + bits.length → EndsWithError .encode .sinkUnavailable s₀ (releasedEncode s))
    ∧ (∀ bits u, s.w1.n.val + bits.length < 8 → writeBits .p1 bits s = .ok () u →
      (s.pos = .pad bits →
        (s.src0.avail = false → EndsWithError .encode .sourceUnavailable s₀ (releasedEncode u))
        ∧ ∀ v rest, s.src0.avail = true → s.src0.data = v :: rest → s.dict.code v = none →
          EndsWithError .encode .noCode s₀ (releasedEncode u))
      ∧ (s.pos = .emit bits → s.r0.pos < s.src0.data.length →
        (s.src0.avail = false → EndsWithError .encode .sourceUnavailable s₀ (releasedEncode u))
        ∧ ∀ v rest, s.src0.avail = true → ReaderOk s.r0 s.src0.data → s.r0.opened = true →
          s.unread .p0 = byteBits v ++ rest → s.dict.code v = none → EndsWithError .encode .noCode s₀ (releasedEncode u))
      ∧ (s.pos = .emit bits → atEnd .p0 s = true → s.w0.opened = true → s.w0.n ≠ 0 → s.snk0.avail = false →
        EndsWithError .encode .sinkUnavailable s₀ (releasedEncode u)))
    ∧ (s.pos = .closeW0 → s.w0.opened = true → s.w0.n ≠ 0 → s.snk0.avail = false →
      EndsWithError .encode .sinkUnavailable s₀ (releasedEncode s))

/-- R307, R308 for DECODE: at each open, Pull, Push and check that can fail, wherever in a micro-step the engine is
when it comes to it (s, reached from s₀ with no step of the host on the way; s₀ may be s), what fails it, with which
error, and that the command then ends with what was done before kept and Release alone after it: the tree once it is
read, every byte decoded, the cursor where it stood. From a position with bits buffered in a reader the engine takes
them before it pulls: they may complete a tree's last marker, end the padding or reach a leaf. -/
def Obligations.DecodeErrorsKeepWhatWasDone : Prop :=
  ∀ s₀ s : State, s₀.running = some (.legal .decode) → EngineGets decodeAct s₀ s →
    (Starts .decode s → s.w0.opened = false →
      (s.snk0.avail = false → EndsWithError .decode .sinkUnavailable s₀ (releasedDecode s))
      ∧ (s.snk0.avail = true → s.src0.avail = false →
        EndsWithError .decode .sourceUnavailable s₀ (releasedDecode { s with
          w0 := Writer.closed, snk0 := { data := [], avail := true } })))
    ∧ (∀ fs c, s.pos = .desLeaf fs c ∨ (s.pos = .desNode fs c ∧ c + markerCount (s.buffered .p0) ≤ s.params.nodeCap) →
      (s.r0.pos < s.src0.data.length → s.src0.avail = false →
        EndsWithError .decode .sourceUnavailable s₀ (releasedDecode s))
      ∧ (s.src0.data.length ≤ s.r0.pos → EndsWithError .decode .truncatedTree s₀ (releasedDecode s)))
    ∧ (∀ fs c, s.pos = .desNode fs c → c ≤ s.params.nodeCap →
      s.params.nodeCap < c + markerCount (s.buffered .p0)
        ∨ (c + (s.buffered .p0).length = s.params.nodeCap ∧ (∀ b ∈ s.buffered .p0, b = true)
          ∧ s.r0.pos < s.src0.data.length ∧ s.src0.avail = true) →
      EndsWithError .decode .treeTooLarge s₀ (releasedDecode s))
    ∧ (∀ t c, s.pos = .desDone t c →
      (t.isLeaf = true →
        EndsWithError .decode .degenerateTree s₀ (releasedDecode { s with tree := some t, nodes := BitVec.ofNat 10 c }))
      ∧ (t.isLeaf = false → s.src1.avail = false →
        EndsWithError .decode .sourceUnavailable s₀ (releasedDecode { s with tree := some t, nodes := BitVec.ofNat 10 c }))
      ∧ (t.isLeaf = false → s.src1.avail = true → s.src1.data = [] →
        EndsWithError .decode .malformedPadding s₀ (releasedDecode { s with tree := some t, nodes := BitVec.ofNat 10 c })))
    ∧ (s.pos = .skip → (∀ b ∈ s.buffered .p1, b = true) →
      (s.r1.pos < s.src1.data.length → s.src1.avail = false →
        EndsWithError .decode .sourceUnavailable s₀ (releasedDecode s))
      ∧ (s.src1.data.length ≤ s.r1.pos → EndsWithError .decode .malformedPadding s₀ (releasedDecode s)))
    ∧ (s.src1.avail = false → s.r1.pos < s.src1.data.length →
      (∀ ones code, s.pos = .skip → s.buffered .p1 = List.replicate ones true ++ false :: code →
        (∀ pre v, pre <+: code → pre ≠ [] → s.tree.bind (HTree.node · pre) ≠ some (.leaf v)) →
        EndsWithError .decode .sourceUnavailable s₀ (releasedDecode { s with cursor := code }))
      ∧ (s.pos = .walk →
        (∀ pre v, pre <+: s.buffered .p1 → pre ≠ [] → s.tree.bind (HTree.node · (s.cursor ++ pre)) ≠ some (.leaf v)) →
        EndsWithError .decode .sourceUnavailable s₀
          (releasedDecode { s with cursor := s.cursor ++ s.buffered .p1 })))
    ∧ (∀ t pre rest v, s.tree = some t → pre ≠ [] → s.snk0.avail = false →
      (∀ ones, s.pos = .skip → s.buffered .p1 = List.replicate ones true ++ false :: (pre ++ rest) →
        t.node pre = some (.leaf v) →
        EndsWithError .decode .sinkUnavailable s₀ (releasedDecode { s with cursor := pre }))
      ∧ (s.pos = .walk → s.buffered .p1 = pre ++ rest → t.node (s.cursor ++ pre) = some (.leaf v) →
        EndsWithError .decode .sinkUnavailable s₀ (releasedDecode { s with cursor := s.cursor ++ pre })))
    ∧ ∀ v, s.pos = .write v → s.snk0.avail = false → EndsWithError .decode .sinkUnavailable s₀ (releasedDecode s)

/-! ## Runs -/

/-- Every micro-step of every command answers a next state, and every command ends, from every state,
whatever its tables, sources and position: none stops the machine and none waits (R72, R316). The number of
micro-steps is finite because every source is. That none waits is the model's reading: a port that never
answers is not modelled (log 20; spec/93_implementation_defined.md I7 says that this errs toward proving), and at
positions no run reaches the definitions are the model's (log 12). -/
def Obligations.EveryCommandEnds : Prop :=
  (∀ (i : Instr) (s : State), ∃ t, exec i s = .next t)
    ∧ ∀ (i : Instr) (s : State), s.running = some (.legal i) → ∃ k t, EndsAfter i k s t ∧ 1 ≤ k

/-- R305, R306: an engine step leaves the command running, or ends it with DONE, BUSY and PHASE as said and at
most one error, of which the code is in ERRCODE and no result, EMPTY or PARTIAL beside it. -/
def Obligations.EveryEndIsReported : Prop :=
  ∀ (s t : State) (c : Command), StatusOk s → s.running = some c → engineStep s = .next t →
    (t.running = some c ∧ t.busy = true ∧ t.done = false)
    ∨ (t.running = none ∧ t.busy = false ∧ t.done = true ∧ t.phase = .idle
      ∧ ((t.err = false ∧ t.errcode = 0)
        ∨ ∃ e : Error, t.err = true ∧ t.errcode = e.code ∧ t.resultValid = false ∧ t.resultValue = 0
          ∧ t.empty = false ∧ t.partialCode = false))

/-- R72, R69 and R354: one turn of the engine makes at most one Pull or Push: the bytes pulled and pushed, counted
together, grow by at most one. A micro-step that does not end its command makes one, and leaves one ahead that no
step of the host takes away, so every micro-step but a command's first makes one: whatever the host does between
them, a command takes max(1, Pulls + Pushes) micro-steps. -/
def Obligations.OneByteMovesPerMicroStep : Prop :=
  (∀ s t : State, engineStep s = .next t → t.moved ≤ s.moved + 1)
    ∧ (∀ (i : Instr) (s t : State), actOf i = none → exec i s = .next t → t.running = none)
    ∧ ∀ (i : Instr) (next : State → Act), actOf i = some next →
      (∀ s t : State, s.running = some (.legal i) → exec i s = .next t → t.running ≠ none →
        Accesses next s ∧ AccessAhead t)
      ∧ (∀ s : State, s.running = some (.legal i) → s.pos ≠ .start → AccessAhead s → Accesses next s)
      ∧ ∀ s t : State, PortsHeld s → StatusOk s → AccessAhead s → step s = .next t → AccessAhead t

/-- R311, R61: a byte pushed through an open writer stays in its sink: an engine step only appends to it,
error or not. -/
def Obligations.PushedBytesStay : Prop :=
  ∀ (s t : State) (p : PortNum), engineStep s = .next t → (s.writer p).opened = true →
    (s.sink p).data <+: (t.sink p).data

/-- R262, R278: while ENCODE or DECODE runs its phases follow one another in the order of the spec. -/
def Obligations.CodecPhasesAdvance : Prop :=
  ∀ (s t : State) (i : Instr), i = .encode ∨ i = .decode → s.running = some (.legal i) → PhaseOk s →
    engineStep s = .next t → t.running = some (.legal i) → s.phase.code.toNat ≤ t.phase.code.toNat

/-- The runs of a command are runs of the machine: with no host turn between them, k micro-steps of `exec` are
k steps (R72). -/
def Obligations.CommandRunsAreMachineRuns : Prop :=
  ∀ (i : Instr) (k : Nat) (s t : State), EndsAfter i k s t →
    (s.turns = [] → Reaches k s t)
    ∧ ∀ rest, s.turns = List.replicate k .engine ++ rest → Reaches k s { t with turns := rest }

/-! ## Frames -/

/-- R29 to R36, R38, R40 (and R60): which command may change which table, register and status field, and that
none changes DROP, a source, the parameters, or what the host has seen. R25, R28, R93: a command changes no reader
but those it reads through, and no writer and no sink but those it writes through; none changes whether a sink is
available. -/
def Obligations.CommandsChangeOnlyWhatIsTheirs : Prop :=
  ∀ (i : Instr) (s t : State), exec i s = .next t →
    ((∀ r, i ≠ .freqCount r) → i ≠ .encode → t.freq = s.freq ∧ t.total = s.total)
    ∧ ((∀ r, i ≠ .treeDeser r) → i ≠ .treeBuild → i ≠ .encode → i ≠ .decode → t.tree = s.tree ∧ t.nodes = s.nodes)
    ∧ ((∀ r, i ≠ .treeDeser r) → i ≠ .treeBuild → i ≠ .encode → i ≠ .decode → i ≠ .dictBuild → t.dictValid = s.dictValid)
    ∧ (i ≠ .dictBuild → i ≠ .encode → t.dict = s.dict)
    ∧ (i ≠ .decode → t.cursor = s.cursor ∧ t.partialCode = s.partialCode)
    ∧ (i ≠ .encode → t.padBits = s.padBits ∧ t.empty = s.empty)
    ∧ ((∀ r, i ≠ .rdBit r ∧ i ≠ .rdByte r ∧ i ≠ .rdAtEnd r) → t.resultValue = s.resultValue ∧ t.resultValid = s.resultValid)
    ∧ t.drop = s.drop ∧ t.params = s.params ∧ t.src0 = s.src0 ∧ t.src1 = s.src1 ∧ t.turns = s.turns ∧ t.seen = s.seen
    ∧ ∀ p : PortNum,
      (readsPort p i = false → t.reader p = s.reader p)
      ∧ (writesPort p i = false → t.writer p = s.writer p ∧ t.sink p = s.sink p)
      ∧ (t.sink p).avail = (s.sink p).avail

/-! ## Invariants -/

/-- R24, R27: every step of the machine, of the host or of the engine, keeps the invariants of the readers and
writers, from states in which a running command holds open what it reads and writes next. -/
def Obligations.StepKeepsReadersAndWriters : Prop :=
  ∀ s t : State, BitPortsOk s → PortsHeld s → step s = .next t → BitPortsOk t

/-- R30, R29: every step keeps TOTAL the sum of FREQ, within MAX_LEN, so that every count fits CNT_W bits. -/
def Obligations.StepKeepsTotalTheSumOfFreq : Prop :=
  ∀ s t : State, FreqOk s → step s = .next t → FreqOk t

/-- R32 to R36, R199 and R7: every step keeps the parameters fit for the fixed fields, NODES the size of the
stored tree, the tree within the store, a valid dictionary that of the stored tree, and CURSOR and PADBITS in
their ranges. -/
def Obligations.StepKeepsTheTables : Prop :=
  ∀ s t : State, TablesOk s → step s = .next t → TablesOk t

/-- R38, R40, R351: every step keeps STATUS and RESULT consistent; while BUSY they read as acceptance set
them. -/
def Obligations.StepKeepsStatus : Prop :=
  ∀ s t : State, StatusOk s → step s = .next t → StatusOk t

/-- R39: every step keeps PHASE the phase of the running command's position (log 1). -/
def Obligations.StepKeepsThePhase : Prop :=
  ∀ s t : State, PhaseOk s → step s = .next t → PhaseOk t

/-- R181, R188, R190, R194, R250 to R277: every step keeps the readers and writers a running command holds as
its position says, and ENCODE's PADBITS at least 1 from E_PAD on (R261). -/
def Obligations.StepKeepsThePortsHeld : Prop :=
  ∀ s t : State, PortsHeld s → step s = .next t → PortsHeld t

/-- The state after power-on meets every invariant (spec/10_state.md R44; its ports and turns are the model's
choice, logs 5 to 7, its parameters the defaults of spec/00_scope.md R7). A platform reset input at any turn, a
reading of R340 (log 19), gives every piece of block state its reset value, changes no port and ends a running
command. -/
def Obligations.ResetMeetsTheInvariants : Prop :=
  (BitPortsOk State.reset ∧ FreqOk State.reset ∧ TablesOk State.reset ∧ StatusOk State.reset ∧ PhaseOk State.reset
    ∧ PortsHeld State.reset ∧ AccessAhead State.reset)
    ∧ ∀ s : State, ∃ t, hostStep .platformReset s = .next t ∧ BlockIsReset t
      ∧ (∀ p, t.source p = s.source p ∧ t.sink p = s.sink p)
      ∧ ∀ d : Word, hostStep (.csrWrite 0x00 32 d) t = .next (accept d t)
end

