-- ==== Sys2Proof/Laws/Accept.lean ====
section
/-! SUPPORT. What acceptance leaves (spec/60_exceptions.md R303). -/

namespace Sys2Proof.Machine

theorem commandOf_ok {c : Word} {i : Instr} (h : decodeCmd c = .ok i) : commandOf c = .legal i := by
  simp [commandOf, h]

theorem commandOf_error {c : Word} {e : Illegal} (h : decodeCmd c = .error e) : commandOf c = .illegal := by
  simp [commandOf, h]

/-- Acceptance of a word of command i starts i. -/
theorem accept_starts {c : Word} {i : Instr} (h : decodeCmd c = .ok i) (s : State) : Starts i (accept c s) := by
  constructor <;> simp [accept, commandOf_ok h]

end Sys2Proof.Machine
end

