-- ==== Sys2Proof/Laws/State.lean ====
section
/-! SUPPORT. One lemma per field per update of State, true by rfl: no later proof unfolds a record
update. Then the readers, writers and ports after an update of one of them. -/

namespace Sys2Proof.Machine

/-! ### setReader -/

@[simp] theorem setReader_w0 (s : State) (p : PortNum) (r : Reader) : (s.setReader p r).w0 = s.w0 := by cases p <;> rfl
@[simp] theorem setReader_w1 (s : State) (p : PortNum) (r : Reader) : (s.setReader p r).w1 = s.w1 := by cases p <;> rfl
@[simp] theorem setReader_freq (s : State) (p : PortNum) (r : Reader) : (s.setReader p r).freq = s.freq := by cases p <;> rfl
@[simp] theorem setReader_total (s : State) (p : PortNum) (r : Reader) : (s.setReader p r).total = s.total := by cases p <;> rfl
@[simp] theorem setReader_tree (s : State) (p : PortNum) (r : Reader) : (s.setReader p r).tree = s.tree := by cases p <;> rfl
@[simp] theorem setReader_nodes (s : State) (p : PortNum) (r : Reader) : (s.setReader p r).nodes = s.nodes := by cases p <;> rfl
@[simp] theorem setReader_dict (s : State) (p : PortNum) (r : Reader) : (s.setReader p r).dict = s.dict := by cases p <;> rfl
@[simp] theorem setReader_dictValid (s : State) (p : PortNum) (r : Reader) : (s.setReader p r).dictValid = s.dictValid := by cases p <;> rfl
@[simp] theorem setReader_cursor (s : State) (p : PortNum) (r : Reader) : (s.setReader p r).cursor = s.cursor := by cases p <;> rfl
@[simp] theorem setReader_padBits (s : State) (p : PortNum) (r : Reader) : (s.setReader p r).padBits = s.padBits := by cases p <;> rfl
@[simp] theorem setReader_busy (s : State) (p : PortNum) (r : Reader) : (s.setReader p r).busy = s.busy := by cases p <;> rfl
@[simp] theorem setReader_done (s : State) (p : PortNum) (r : Reader) : (s.setReader p r).done = s.done := by cases p <;> rfl
@[simp] theorem setReader_err (s : State) (p : PortNum) (r : Reader) : (s.setReader p r).err = s.err := by cases p <;> rfl
@[simp] theorem setReader_empty (s : State) (p : PortNum) (r : Reader) : (s.setReader p r).empty = s.empty := by cases p <;> rfl
@[simp] theorem setReader_partialCode (s : State) (p : PortNum) (r : Reader) : (s.setReader p r).partialCode = s.partialCode := by cases p <;> rfl
@[simp] theorem setReader_drop (s : State) (p : PortNum) (r : Reader) : (s.setReader p r).drop = s.drop := by cases p <;> rfl
@[simp] theorem setReader_errcode (s : State) (p : PortNum) (r : Reader) : (s.setReader p r).errcode = s.errcode := by cases p <;> rfl
@[simp] theorem setReader_phase (s : State) (p : PortNum) (r : Reader) : (s.setReader p r).phase = s.phase := by cases p <;> rfl
@[simp] theorem setReader_resultValue (s : State) (p : PortNum) (r : Reader) : (s.setReader p r).resultValue = s.resultValue := by cases p <;> rfl
@[simp] theorem setReader_resultValid (s : State) (p : PortNum) (r : Reader) : (s.setReader p r).resultValid = s.resultValid := by cases p <;> rfl
@[simp] theorem setReader_running (s : State) (p : PortNum) (r : Reader) : (s.setReader p r).running = s.running := by cases p <;> rfl
@[simp] theorem setReader_pos (s : State) (p : PortNum) (r : Reader) : (s.setReader p r).pos = s.pos := by cases p <;> rfl
@[simp] theorem setReader_src0 (s : State) (p : PortNum) (r : Reader) : (s.setReader p r).src0 = s.src0 := by cases p <;> rfl
@[simp] theorem setReader_src1 (s : State) (p : PortNum) (r : Reader) : (s.setReader p r).src1 = s.src1 := by cases p <;> rfl
@[simp] theorem setReader_snk0 (s : State) (p : PortNum) (r : Reader) : (s.setReader p r).snk0 = s.snk0 := by cases p <;> rfl
@[simp] theorem setReader_snk1 (s : State) (p : PortNum) (r : Reader) : (s.setReader p r).snk1 = s.snk1 := by cases p <;> rfl
@[simp] theorem setReader_params (s : State) (p : PortNum) (r : Reader) : (s.setReader p r).params = s.params := by cases p <;> rfl
@[simp] theorem setReader_turns (s : State) (p : PortNum) (r : Reader) : (s.setReader p r).turns = s.turns := by cases p <;> rfl
@[simp] theorem setReader_seen (s : State) (p : PortNum) (r : Reader) : (s.setReader p r).seen = s.seen := by cases p <;> rfl

/-! ### setWriter -/

@[simp] theorem setWriter_r0 (s : State) (p : PortNum) (w : Writer) : (s.setWriter p w).r0 = s.r0 := by cases p <;> rfl
@[simp] theorem setWriter_r1 (s : State) (p : PortNum) (w : Writer) : (s.setWriter p w).r1 = s.r1 := by cases p <;> rfl
@[simp] theorem setWriter_freq (s : State) (p : PortNum) (w : Writer) : (s.setWriter p w).freq = s.freq := by cases p <;> rfl
@[simp] theorem setWriter_total (s : State) (p : PortNum) (w : Writer) : (s.setWriter p w).total = s.total := by cases p <;> rfl
@[simp] theorem setWriter_tree (s : State) (p : PortNum) (w : Writer) : (s.setWriter p w).tree = s.tree := by cases p <;> rfl
@[simp] theorem setWriter_nodes (s : State) (p : PortNum) (w : Writer) : (s.setWriter p w).nodes = s.nodes := by cases p <;> rfl
@[simp] theorem setWriter_dict (s : State) (p : PortNum) (w : Writer) : (s.setWriter p w).dict = s.dict := by cases p <;> rfl
@[simp] theorem setWriter_dictValid (s : State) (p : PortNum) (w : Writer) : (s.setWriter p w).dictValid = s.dictValid := by cases p <;> rfl
@[simp] theorem setWriter_cursor (s : State) (p : PortNum) (w : Writer) : (s.setWriter p w).cursor = s.cursor := by cases p <;> rfl
@[simp] theorem setWriter_padBits (s : State) (p : PortNum) (w : Writer) : (s.setWriter p w).padBits = s.padBits := by cases p <;> rfl
@[simp] theorem setWriter_busy (s : State) (p : PortNum) (w : Writer) : (s.setWriter p w).busy = s.busy := by cases p <;> rfl
@[simp] theorem setWriter_done (s : State) (p : PortNum) (w : Writer) : (s.setWriter p w).done = s.done := by cases p <;> rfl
@[simp] theorem setWriter_err (s : State) (p : PortNum) (w : Writer) : (s.setWriter p w).err = s.err := by cases p <;> rfl
@[simp] theorem setWriter_empty (s : State) (p : PortNum) (w : Writer) : (s.setWriter p w).empty = s.empty := by cases p <;> rfl
@[simp] theorem setWriter_partialCode (s : State) (p : PortNum) (w : Writer) : (s.setWriter p w).partialCode = s.partialCode := by cases p <;> rfl
@[simp] theorem setWriter_drop (s : State) (p : PortNum) (w : Writer) : (s.setWriter p w).drop = s.drop := by cases p <;> rfl
@[simp] theorem setWriter_errcode (s : State) (p : PortNum) (w : Writer) : (s.setWriter p w).errcode = s.errcode := by cases p <;> rfl
@[simp] theorem setWriter_phase (s : State) (p : PortNum) (w : Writer) : (s.setWriter p w).phase = s.phase := by cases p <;> rfl
@[simp] theorem setWriter_resultValue (s : State) (p : PortNum) (w : Writer) : (s.setWriter p w).resultValue = s.resultValue := by cases p <;> rfl
@[simp] theorem setWriter_resultValid (s : State) (p : PortNum) (w : Writer) : (s.setWriter p w).resultValid = s.resultValid := by cases p <;> rfl
@[simp] theorem setWriter_running (s : State) (p : PortNum) (w : Writer) : (s.setWriter p w).running = s.running := by cases p <;> rfl
@[simp] theorem setWriter_pos (s : State) (p : PortNum) (w : Writer) : (s.setWriter p w).pos = s.pos := by cases p <;> rfl
@[simp] theorem setWriter_src0 (s : State) (p : PortNum) (w : Writer) : (s.setWriter p w).src0 = s.src0 := by cases p <;> rfl
@[simp] theorem setWriter_src1 (s : State) (p : PortNum) (w : Writer) : (s.setWriter p w).src1 = s.src1 := by cases p <;> rfl
@[simp] theorem setWriter_snk0 (s : State) (p : PortNum) (w : Writer) : (s.setWriter p w).snk0 = s.snk0 := by cases p <;> rfl
@[simp] theorem setWriter_snk1 (s : State) (p : PortNum) (w : Writer) : (s.setWriter p w).snk1 = s.snk1 := by cases p <;> rfl
@[simp] theorem setWriter_params (s : State) (p : PortNum) (w : Writer) : (s.setWriter p w).params = s.params := by cases p <;> rfl
@[simp] theorem setWriter_turns (s : State) (p : PortNum) (w : Writer) : (s.setWriter p w).turns = s.turns := by cases p <;> rfl
@[simp] theorem setWriter_seen (s : State) (p : PortNum) (w : Writer) : (s.setWriter p w).seen = s.seen := by cases p <;> rfl

/-! ### setSource -/

@[simp] theorem setSource_r0 (s : State) (p : PortNum) (x : Source) : (s.setSource p x).r0 = s.r0 := by cases p <;> rfl
@[simp] theorem setSource_r1 (s : State) (p : PortNum) (x : Source) : (s.setSource p x).r1 = s.r1 := by cases p <;> rfl
@[simp] theorem setSource_w0 (s : State) (p : PortNum) (x : Source) : (s.setSource p x).w0 = s.w0 := by cases p <;> rfl
@[simp] theorem setSource_w1 (s : State) (p : PortNum) (x : Source) : (s.setSource p x).w1 = s.w1 := by cases p <;> rfl
@[simp] theorem setSource_freq (s : State) (p : PortNum) (x : Source) : (s.setSource p x).freq = s.freq := by cases p <;> rfl
@[simp] theorem setSource_total (s : State) (p : PortNum) (x : Source) : (s.setSource p x).total = s.total := by cases p <;> rfl
@[simp] theorem setSource_tree (s : State) (p : PortNum) (x : Source) : (s.setSource p x).tree = s.tree := by cases p <;> rfl
@[simp] theorem setSource_nodes (s : State) (p : PortNum) (x : Source) : (s.setSource p x).nodes = s.nodes := by cases p <;> rfl
@[simp] theorem setSource_dict (s : State) (p : PortNum) (x : Source) : (s.setSource p x).dict = s.dict := by cases p <;> rfl
@[simp] theorem setSource_dictValid (s : State) (p : PortNum) (x : Source) : (s.setSource p x).dictValid = s.dictValid := by cases p <;> rfl
@[simp] theorem setSource_cursor (s : State) (p : PortNum) (x : Source) : (s.setSource p x).cursor = s.cursor := by cases p <;> rfl
@[simp] theorem setSource_padBits (s : State) (p : PortNum) (x : Source) : (s.setSource p x).padBits = s.padBits := by cases p <;> rfl
@[simp] theorem setSource_busy (s : State) (p : PortNum) (x : Source) : (s.setSource p x).busy = s.busy := by cases p <;> rfl
@[simp] theorem setSource_done (s : State) (p : PortNum) (x : Source) : (s.setSource p x).done = s.done := by cases p <;> rfl
@[simp] theorem setSource_err (s : State) (p : PortNum) (x : Source) : (s.setSource p x).err = s.err := by cases p <;> rfl
@[simp] theorem setSource_empty (s : State) (p : PortNum) (x : Source) : (s.setSource p x).empty = s.empty := by cases p <;> rfl
@[simp] theorem setSource_partialCode (s : State) (p : PortNum) (x : Source) : (s.setSource p x).partialCode = s.partialCode := by cases p <;> rfl
@[simp] theorem setSource_drop (s : State) (p : PortNum) (x : Source) : (s.setSource p x).drop = s.drop := by cases p <;> rfl
@[simp] theorem setSource_errcode (s : State) (p : PortNum) (x : Source) : (s.setSource p x).errcode = s.errcode := by cases p <;> rfl
@[simp] theorem setSource_phase (s : State) (p : PortNum) (x : Source) : (s.setSource p x).phase = s.phase := by cases p <;> rfl
@[simp] theorem setSource_resultValue (s : State) (p : PortNum) (x : Source) : (s.setSource p x).resultValue = s.resultValue := by cases p <;> rfl
@[simp] theorem setSource_resultValid (s : State) (p : PortNum) (x : Source) : (s.setSource p x).resultValid = s.resultValid := by cases p <;> rfl
@[simp] theorem setSource_running (s : State) (p : PortNum) (x : Source) : (s.setSource p x).running = s.running := by cases p <;> rfl
@[simp] theorem setSource_pos (s : State) (p : PortNum) (x : Source) : (s.setSource p x).pos = s.pos := by cases p <;> rfl
@[simp] theorem setSource_snk0 (s : State) (p : PortNum) (x : Source) : (s.setSource p x).snk0 = s.snk0 := by cases p <;> rfl
@[simp] theorem setSource_snk1 (s : State) (p : PortNum) (x : Source) : (s.setSource p x).snk1 = s.snk1 := by cases p <;> rfl
@[simp] theorem setSource_params (s : State) (p : PortNum) (x : Source) : (s.setSource p x).params = s.params := by cases p <;> rfl
@[simp] theorem setSource_turns (s : State) (p : PortNum) (x : Source) : (s.setSource p x).turns = s.turns := by cases p <;> rfl
@[simp] theorem setSource_seen (s : State) (p : PortNum) (x : Source) : (s.setSource p x).seen = s.seen := by cases p <;> rfl

/-! ### setSink -/

@[simp] theorem setSink_r0 (s : State) (p : PortNum) (x : Sink) : (s.setSink p x).r0 = s.r0 := by cases p <;> rfl
@[simp] theorem setSink_r1 (s : State) (p : PortNum) (x : Sink) : (s.setSink p x).r1 = s.r1 := by cases p <;> rfl
@[simp] theorem setSink_w0 (s : State) (p : PortNum) (x : Sink) : (s.setSink p x).w0 = s.w0 := by cases p <;> rfl
@[simp] theorem setSink_w1 (s : State) (p : PortNum) (x : Sink) : (s.setSink p x).w1 = s.w1 := by cases p <;> rfl
@[simp] theorem setSink_freq (s : State) (p : PortNum) (x : Sink) : (s.setSink p x).freq = s.freq := by cases p <;> rfl
@[simp] theorem setSink_total (s : State) (p : PortNum) (x : Sink) : (s.setSink p x).total = s.total := by cases p <;> rfl
@[simp] theorem setSink_tree (s : State) (p : PortNum) (x : Sink) : (s.setSink p x).tree = s.tree := by cases p <;> rfl
@[simp] theorem setSink_nodes (s : State) (p : PortNum) (x : Sink) : (s.setSink p x).nodes = s.nodes := by cases p <;> rfl
@[simp] theorem setSink_dict (s : State) (p : PortNum) (x : Sink) : (s.setSink p x).dict = s.dict := by cases p <;> rfl
@[simp] theorem setSink_dictValid (s : State) (p : PortNum) (x : Sink) : (s.setSink p x).dictValid = s.dictValid := by cases p <;> rfl
@[simp] theorem setSink_cursor (s : State) (p : PortNum) (x : Sink) : (s.setSink p x).cursor = s.cursor := by cases p <;> rfl
@[simp] theorem setSink_padBits (s : State) (p : PortNum) (x : Sink) : (s.setSink p x).padBits = s.padBits := by cases p <;> rfl
@[simp] theorem setSink_busy (s : State) (p : PortNum) (x : Sink) : (s.setSink p x).busy = s.busy := by cases p <;> rfl
@[simp] theorem setSink_done (s : State) (p : PortNum) (x : Sink) : (s.setSink p x).done = s.done := by cases p <;> rfl
@[simp] theorem setSink_err (s : State) (p : PortNum) (x : Sink) : (s.setSink p x).err = s.err := by cases p <;> rfl
@[simp] theorem setSink_empty (s : State) (p : PortNum) (x : Sink) : (s.setSink p x).empty = s.empty := by cases p <;> rfl
@[simp] theorem setSink_partialCode (s : State) (p : PortNum) (x : Sink) : (s.setSink p x).partialCode = s.partialCode := by cases p <;> rfl
@[simp] theorem setSink_drop (s : State) (p : PortNum) (x : Sink) : (s.setSink p x).drop = s.drop := by cases p <;> rfl
@[simp] theorem setSink_errcode (s : State) (p : PortNum) (x : Sink) : (s.setSink p x).errcode = s.errcode := by cases p <;> rfl
@[simp] theorem setSink_phase (s : State) (p : PortNum) (x : Sink) : (s.setSink p x).phase = s.phase := by cases p <;> rfl
@[simp] theorem setSink_resultValue (s : State) (p : PortNum) (x : Sink) : (s.setSink p x).resultValue = s.resultValue := by cases p <;> rfl
@[simp] theorem setSink_resultValid (s : State) (p : PortNum) (x : Sink) : (s.setSink p x).resultValid = s.resultValid := by cases p <;> rfl
@[simp] theorem setSink_running (s : State) (p : PortNum) (x : Sink) : (s.setSink p x).running = s.running := by cases p <;> rfl
@[simp] theorem setSink_pos (s : State) (p : PortNum) (x : Sink) : (s.setSink p x).pos = s.pos := by cases p <;> rfl
@[simp] theorem setSink_src0 (s : State) (p : PortNum) (x : Sink) : (s.setSink p x).src0 = s.src0 := by cases p <;> rfl
@[simp] theorem setSink_src1 (s : State) (p : PortNum) (x : Sink) : (s.setSink p x).src1 = s.src1 := by cases p <;> rfl
@[simp] theorem setSink_params (s : State) (p : PortNum) (x : Sink) : (s.setSink p x).params = s.params := by cases p <;> rfl
@[simp] theorem setSink_turns (s : State) (p : PortNum) (x : Sink) : (s.setSink p x).turns = s.turns := by cases p <;> rfl
@[simp] theorem setSink_seen (s : State) (p : PortNum) (x : Sink) : (s.setSink p x).seen = s.seen := by cases p <;> rfl

/-! ### goto -/

@[simp] theorem goto_r0 (s : State) (q : Pos) : (s.goto q).r0 = s.r0 := rfl
@[simp] theorem goto_r1 (s : State) (q : Pos) : (s.goto q).r1 = s.r1 := rfl
@[simp] theorem goto_w0 (s : State) (q : Pos) : (s.goto q).w0 = s.w0 := rfl
@[simp] theorem goto_w1 (s : State) (q : Pos) : (s.goto q).w1 = s.w1 := rfl
@[simp] theorem goto_freq (s : State) (q : Pos) : (s.goto q).freq = s.freq := rfl
@[simp] theorem goto_total (s : State) (q : Pos) : (s.goto q).total = s.total := rfl
@[simp] theorem goto_tree (s : State) (q : Pos) : (s.goto q).tree = s.tree := rfl
@[simp] theorem goto_nodes (s : State) (q : Pos) : (s.goto q).nodes = s.nodes := rfl
@[simp] theorem goto_dict (s : State) (q : Pos) : (s.goto q).dict = s.dict := rfl
@[simp] theorem goto_dictValid (s : State) (q : Pos) : (s.goto q).dictValid = s.dictValid := rfl
@[simp] theorem goto_cursor (s : State) (q : Pos) : (s.goto q).cursor = s.cursor := rfl
@[simp] theorem goto_padBits (s : State) (q : Pos) : (s.goto q).padBits = s.padBits := rfl
@[simp] theorem goto_busy (s : State) (q : Pos) : (s.goto q).busy = s.busy := rfl
@[simp] theorem goto_done (s : State) (q : Pos) : (s.goto q).done = s.done := rfl
@[simp] theorem goto_err (s : State) (q : Pos) : (s.goto q).err = s.err := rfl
@[simp] theorem goto_empty (s : State) (q : Pos) : (s.goto q).empty = s.empty := rfl
@[simp] theorem goto_partialCode (s : State) (q : Pos) : (s.goto q).partialCode = s.partialCode := rfl
@[simp] theorem goto_drop (s : State) (q : Pos) : (s.goto q).drop = s.drop := rfl
@[simp] theorem goto_errcode (s : State) (q : Pos) : (s.goto q).errcode = s.errcode := rfl
@[simp] theorem goto_phase (s : State) (q : Pos) : (s.goto q).phase = s.phase := rfl
@[simp] theorem goto_resultValue (s : State) (q : Pos) : (s.goto q).resultValue = s.resultValue := rfl
@[simp] theorem goto_resultValid (s : State) (q : Pos) : (s.goto q).resultValid = s.resultValid := rfl
@[simp] theorem goto_running (s : State) (q : Pos) : (s.goto q).running = s.running := rfl
@[simp] theorem goto_pos (s : State) (q : Pos) : (s.goto q).pos = q := rfl
@[simp] theorem goto_src0 (s : State) (q : Pos) : (s.goto q).src0 = s.src0 := rfl
@[simp] theorem goto_src1 (s : State) (q : Pos) : (s.goto q).src1 = s.src1 := rfl
@[simp] theorem goto_snk0 (s : State) (q : Pos) : (s.goto q).snk0 = s.snk0 := rfl
@[simp] theorem goto_snk1 (s : State) (q : Pos) : (s.goto q).snk1 = s.snk1 := rfl
@[simp] theorem goto_params (s : State) (q : Pos) : (s.goto q).params = s.params := rfl
@[simp] theorem goto_turns (s : State) (q : Pos) : (s.goto q).turns = s.turns := rfl
@[simp] theorem goto_seen (s : State) (q : Pos) : (s.goto q).seen = s.seen := rfl

/-! ### inPhase -/

@[simp] theorem inPhase_r0 (s : State) (q : Phase) : (s.inPhase q).r0 = s.r0 := rfl
@[simp] theorem inPhase_r1 (s : State) (q : Phase) : (s.inPhase q).r1 = s.r1 := rfl
@[simp] theorem inPhase_w0 (s : State) (q : Phase) : (s.inPhase q).w0 = s.w0 := rfl
@[simp] theorem inPhase_w1 (s : State) (q : Phase) : (s.inPhase q).w1 = s.w1 := rfl
@[simp] theorem inPhase_freq (s : State) (q : Phase) : (s.inPhase q).freq = s.freq := rfl
@[simp] theorem inPhase_total (s : State) (q : Phase) : (s.inPhase q).total = s.total := rfl
@[simp] theorem inPhase_tree (s : State) (q : Phase) : (s.inPhase q).tree = s.tree := rfl
@[simp] theorem inPhase_nodes (s : State) (q : Phase) : (s.inPhase q).nodes = s.nodes := rfl
@[simp] theorem inPhase_dict (s : State) (q : Phase) : (s.inPhase q).dict = s.dict := rfl
@[simp] theorem inPhase_dictValid (s : State) (q : Phase) : (s.inPhase q).dictValid = s.dictValid := rfl
@[simp] theorem inPhase_cursor (s : State) (q : Phase) : (s.inPhase q).cursor = s.cursor := rfl
@[simp] theorem inPhase_padBits (s : State) (q : Phase) : (s.inPhase q).padBits = s.padBits := rfl
@[simp] theorem inPhase_busy (s : State) (q : Phase) : (s.inPhase q).busy = s.busy := rfl
@[simp] theorem inPhase_done (s : State) (q : Phase) : (s.inPhase q).done = s.done := rfl
@[simp] theorem inPhase_err (s : State) (q : Phase) : (s.inPhase q).err = s.err := rfl
@[simp] theorem inPhase_empty (s : State) (q : Phase) : (s.inPhase q).empty = s.empty := rfl
@[simp] theorem inPhase_partialCode (s : State) (q : Phase) : (s.inPhase q).partialCode = s.partialCode := rfl
@[simp] theorem inPhase_drop (s : State) (q : Phase) : (s.inPhase q).drop = s.drop := rfl
@[simp] theorem inPhase_errcode (s : State) (q : Phase) : (s.inPhase q).errcode = s.errcode := rfl
@[simp] theorem inPhase_phase (s : State) (q : Phase) : (s.inPhase q).phase = q := rfl
@[simp] theorem inPhase_resultValue (s : State) (q : Phase) : (s.inPhase q).resultValue = s.resultValue := rfl
@[simp] theorem inPhase_resultValid (s : State) (q : Phase) : (s.inPhase q).resultValid = s.resultValid := rfl
@[simp] theorem inPhase_running (s : State) (q : Phase) : (s.inPhase q).running = s.running := rfl
@[simp] theorem inPhase_pos (s : State) (q : Phase) : (s.inPhase q).pos = s.pos := rfl
@[simp] theorem inPhase_src0 (s : State) (q : Phase) : (s.inPhase q).src0 = s.src0 := rfl
@[simp] theorem inPhase_src1 (s : State) (q : Phase) : (s.inPhase q).src1 = s.src1 := rfl
@[simp] theorem inPhase_snk0 (s : State) (q : Phase) : (s.inPhase q).snk0 = s.snk0 := rfl
@[simp] theorem inPhase_snk1 (s : State) (q : Phase) : (s.inPhase q).snk1 = s.snk1 := rfl
@[simp] theorem inPhase_params (s : State) (q : Phase) : (s.inPhase q).params = s.params := rfl
@[simp] theorem inPhase_turns (s : State) (q : Phase) : (s.inPhase q).turns = s.turns := rfl
@[simp] theorem inPhase_seen (s : State) (q : Phase) : (s.inPhase q).seen = s.seen := rfl

/-! ### setResult -/

@[simp] theorem setResult_r0 (v : Byte) (s : State) : (setResult v s).r0 = s.r0 := rfl
@[simp] theorem setResult_r1 (v : Byte) (s : State) : (setResult v s).r1 = s.r1 := rfl
@[simp] theorem setResult_w0 (v : Byte) (s : State) : (setResult v s).w0 = s.w0 := rfl
@[simp] theorem setResult_w1 (v : Byte) (s : State) : (setResult v s).w1 = s.w1 := rfl
@[simp] theorem setResult_freq (v : Byte) (s : State) : (setResult v s).freq = s.freq := rfl
@[simp] theorem setResult_total (v : Byte) (s : State) : (setResult v s).total = s.total := rfl
@[simp] theorem setResult_tree (v : Byte) (s : State) : (setResult v s).tree = s.tree := rfl
@[simp] theorem setResult_nodes (v : Byte) (s : State) : (setResult v s).nodes = s.nodes := rfl
@[simp] theorem setResult_dict (v : Byte) (s : State) : (setResult v s).dict = s.dict := rfl
@[simp] theorem setResult_dictValid (v : Byte) (s : State) : (setResult v s).dictValid = s.dictValid := rfl
@[simp] theorem setResult_cursor (v : Byte) (s : State) : (setResult v s).cursor = s.cursor := rfl
@[simp] theorem setResult_padBits (v : Byte) (s : State) : (setResult v s).padBits = s.padBits := rfl
@[simp] theorem setResult_busy (v : Byte) (s : State) : (setResult v s).busy = s.busy := rfl
@[simp] theorem setResult_done (v : Byte) (s : State) : (setResult v s).done = s.done := rfl
@[simp] theorem setResult_err (v : Byte) (s : State) : (setResult v s).err = s.err := rfl
@[simp] theorem setResult_empty (v : Byte) (s : State) : (setResult v s).empty = s.empty := rfl
@[simp] theorem setResult_partialCode (v : Byte) (s : State) : (setResult v s).partialCode = s.partialCode := rfl
@[simp] theorem setResult_drop (v : Byte) (s : State) : (setResult v s).drop = s.drop := rfl
@[simp] theorem setResult_errcode (v : Byte) (s : State) : (setResult v s).errcode = s.errcode := rfl
@[simp] theorem setResult_phase (v : Byte) (s : State) : (setResult v s).phase = s.phase := rfl
@[simp] theorem setResult_resultValue (v : Byte) (s : State) : (setResult v s).resultValue = v := rfl
@[simp] theorem setResult_resultValid (v : Byte) (s : State) : (setResult v s).resultValid = true := rfl
@[simp] theorem setResult_running (v : Byte) (s : State) : (setResult v s).running = s.running := rfl
@[simp] theorem setResult_pos (v : Byte) (s : State) : (setResult v s).pos = s.pos := rfl
@[simp] theorem setResult_src0 (v : Byte) (s : State) : (setResult v s).src0 = s.src0 := rfl
@[simp] theorem setResult_src1 (v : Byte) (s : State) : (setResult v s).src1 = s.src1 := rfl
@[simp] theorem setResult_snk0 (v : Byte) (s : State) : (setResult v s).snk0 = s.snk0 := rfl
@[simp] theorem setResult_snk1 (v : Byte) (s : State) : (setResult v s).snk1 = s.snk1 := rfl
@[simp] theorem setResult_params (v : Byte) (s : State) : (setResult v s).params = s.params := rfl
@[simp] theorem setResult_turns (v : Byte) (s : State) : (setResult v s).turns = s.turns := rfl
@[simp] theorem setResult_seen (v : Byte) (s : State) : (setResult v s).seen = s.seen := rfl

/-! ### normalEnd -/

@[simp] theorem normalEnd_r0 (s : State) : (normalEnd s).r0 = s.r0 := rfl
@[simp] theorem normalEnd_r1 (s : State) : (normalEnd s).r1 = s.r1 := rfl
@[simp] theorem normalEnd_w0 (s : State) : (normalEnd s).w0 = s.w0 := rfl
@[simp] theorem normalEnd_w1 (s : State) : (normalEnd s).w1 = s.w1 := rfl
@[simp] theorem normalEnd_freq (s : State) : (normalEnd s).freq = s.freq := rfl
@[simp] theorem normalEnd_total (s : State) : (normalEnd s).total = s.total := rfl
@[simp] theorem normalEnd_tree (s : State) : (normalEnd s).tree = s.tree := rfl
@[simp] theorem normalEnd_nodes (s : State) : (normalEnd s).nodes = s.nodes := rfl
@[simp] theorem normalEnd_dict (s : State) : (normalEnd s).dict = s.dict := rfl
@[simp] theorem normalEnd_dictValid (s : State) : (normalEnd s).dictValid = s.dictValid := rfl
@[simp] theorem normalEnd_cursor (s : State) : (normalEnd s).cursor = s.cursor := rfl
@[simp] theorem normalEnd_padBits (s : State) : (normalEnd s).padBits = s.padBits := rfl
@[simp] theorem normalEnd_busy (s : State) : (normalEnd s).busy = false := rfl
@[simp] theorem normalEnd_done (s : State) : (normalEnd s).done = true := rfl
@[simp] theorem normalEnd_err (s : State) : (normalEnd s).err = s.err := rfl
@[simp] theorem normalEnd_empty (s : State) : (normalEnd s).empty = s.empty := rfl
@[simp] theorem normalEnd_partialCode (s : State) : (normalEnd s).partialCode = s.partialCode := rfl
@[simp] theorem normalEnd_drop (s : State) : (normalEnd s).drop = s.drop := rfl
@[simp] theorem normalEnd_errcode (s : State) : (normalEnd s).errcode = s.errcode := rfl
@[simp] theorem normalEnd_phase (s : State) : (normalEnd s).phase = .idle := rfl
@[simp] theorem normalEnd_resultValue (s : State) : (normalEnd s).resultValue = s.resultValue := rfl
@[simp] theorem normalEnd_resultValid (s : State) : (normalEnd s).resultValid = s.resultValid := rfl
@[simp] theorem normalEnd_running (s : State) : (normalEnd s).running = none := rfl
@[simp] theorem normalEnd_pos (s : State) : (normalEnd s).pos = .start := rfl
@[simp] theorem normalEnd_src0 (s : State) : (normalEnd s).src0 = s.src0 := rfl
@[simp] theorem normalEnd_src1 (s : State) : (normalEnd s).src1 = s.src1 := rfl
@[simp] theorem normalEnd_snk0 (s : State) : (normalEnd s).snk0 = s.snk0 := rfl
@[simp] theorem normalEnd_snk1 (s : State) : (normalEnd s).snk1 = s.snk1 := rfl
@[simp] theorem normalEnd_params (s : State) : (normalEnd s).params = s.params := rfl
@[simp] theorem normalEnd_turns (s : State) : (normalEnd s).turns = s.turns := rfl
@[simp] theorem normalEnd_seen (s : State) : (normalEnd s).seen = s.seen := rfl

/-! ### errorEnd -/

@[simp] theorem errorEnd_r0 (e : Error) (s : State) : (errorEnd e s).r0 = s.r0 := rfl
@[simp] theorem errorEnd_r1 (e : Error) (s : State) : (errorEnd e s).r1 = s.r1 := rfl
@[simp] theorem errorEnd_w0 (e : Error) (s : State) : (errorEnd e s).w0 = s.w0 := rfl
@[simp] theorem errorEnd_w1 (e : Error) (s : State) : (errorEnd e s).w1 = s.w1 := rfl
@[simp] theorem errorEnd_freq (e : Error) (s : State) : (errorEnd e s).freq = s.freq := rfl
@[simp] theorem errorEnd_total (e : Error) (s : State) : (errorEnd e s).total = s.total := rfl
@[simp] theorem errorEnd_tree (e : Error) (s : State) : (errorEnd e s).tree = s.tree := rfl
@[simp] theorem errorEnd_nodes (e : Error) (s : State) : (errorEnd e s).nodes = s.nodes := rfl
@[simp] theorem errorEnd_dict (e : Error) (s : State) : (errorEnd e s).dict = s.dict := rfl
@[simp] theorem errorEnd_dictValid (e : Error) (s : State) : (errorEnd e s).dictValid = s.dictValid := rfl
@[simp] theorem errorEnd_cursor (e : Error) (s : State) : (errorEnd e s).cursor = s.cursor := rfl
@[simp] theorem errorEnd_padBits (e : Error) (s : State) : (errorEnd e s).padBits = s.padBits := rfl
@[simp] theorem errorEnd_busy (e : Error) (s : State) : (errorEnd e s).busy = false := rfl
@[simp] theorem errorEnd_done (e : Error) (s : State) : (errorEnd e s).done = true := rfl
@[simp] theorem errorEnd_err (e : Error) (s : State) : (errorEnd e s).err = true := rfl
@[simp] theorem errorEnd_empty (e : Error) (s : State) : (errorEnd e s).empty = s.empty := rfl
@[simp] theorem errorEnd_partialCode (e : Error) (s : State) : (errorEnd e s).partialCode = s.partialCode := rfl
@[simp] theorem errorEnd_drop (e : Error) (s : State) : (errorEnd e s).drop = s.drop := rfl
@[simp] theorem errorEnd_errcode (e : Error) (s : State) : (errorEnd e s).errcode = e.code := rfl
@[simp] theorem errorEnd_phase (e : Error) (s : State) : (errorEnd e s).phase = .idle := rfl
@[simp] theorem errorEnd_resultValue (e : Error) (s : State) : (errorEnd e s).resultValue = s.resultValue := rfl
@[simp] theorem errorEnd_resultValid (e : Error) (s : State) : (errorEnd e s).resultValid = s.resultValid := rfl
@[simp] theorem errorEnd_running (e : Error) (s : State) : (errorEnd e s).running = none := rfl
@[simp] theorem errorEnd_pos (e : Error) (s : State) : (errorEnd e s).pos = .start := rfl
@[simp] theorem errorEnd_src0 (e : Error) (s : State) : (errorEnd e s).src0 = s.src0 := rfl
@[simp] theorem errorEnd_src1 (e : Error) (s : State) : (errorEnd e s).src1 = s.src1 := rfl
@[simp] theorem errorEnd_snk0 (e : Error) (s : State) : (errorEnd e s).snk0 = s.snk0 := rfl
@[simp] theorem errorEnd_snk1 (e : Error) (s : State) : (errorEnd e s).snk1 = s.snk1 := rfl
@[simp] theorem errorEnd_params (e : Error) (s : State) : (errorEnd e s).params = s.params := rfl
@[simp] theorem errorEnd_turns (e : Error) (s : State) : (errorEnd e s).turns = s.turns := rfl
@[simp] theorem errorEnd_seen (e : Error) (s : State) : (errorEnd e s).seen = s.seen := rfl

/-! ### emptyFreqState -/

/-- EmptyFreq keeps the stored tree and dictionary, or makes them invalid (log 13). -/
theorem emptyFreqState_cases (s : State) : emptyFreqState s = s ∨ emptyFreqState s = invalidate s := by
  unfold emptyFreqState
  split
  · exact .inl rfl
  · exact .inr rfl

/-! ### invalidate -/

@[simp] theorem invalidate_r0 (s : State) : (invalidate s).r0 = s.r0 := rfl
@[simp] theorem invalidate_r1 (s : State) : (invalidate s).r1 = s.r1 := rfl
@[simp] theorem invalidate_w0 (s : State) : (invalidate s).w0 = s.w0 := rfl
@[simp] theorem invalidate_w1 (s : State) : (invalidate s).w1 = s.w1 := rfl
@[simp] theorem invalidate_freq (s : State) : (invalidate s).freq = s.freq := rfl
@[simp] theorem invalidate_total (s : State) : (invalidate s).total = s.total := rfl
@[simp] theorem invalidate_tree (s : State) : (invalidate s).tree = none := rfl
@[simp] theorem invalidate_nodes (s : State) : (invalidate s).nodes = 0 := rfl
@[simp] theorem invalidate_dict (s : State) : (invalidate s).dict = s.dict := rfl
@[simp] theorem invalidate_dictValid (s : State) : (invalidate s).dictValid = false := rfl
@[simp] theorem invalidate_cursor (s : State) : (invalidate s).cursor = s.cursor := rfl
@[simp] theorem invalidate_padBits (s : State) : (invalidate s).padBits = s.padBits := rfl
@[simp] theorem invalidate_busy (s : State) : (invalidate s).busy = s.busy := rfl
@[simp] theorem invalidate_done (s : State) : (invalidate s).done = s.done := rfl
@[simp] theorem invalidate_err (s : State) : (invalidate s).err = s.err := rfl
@[simp] theorem invalidate_empty (s : State) : (invalidate s).empty = s.empty := rfl
@[simp] theorem invalidate_partialCode (s : State) : (invalidate s).partialCode = s.partialCode := rfl
@[simp] theorem invalidate_drop (s : State) : (invalidate s).drop = s.drop := rfl
@[simp] theorem invalidate_errcode (s : State) : (invalidate s).errcode = s.errcode := rfl
@[simp] theorem invalidate_phase (s : State) : (invalidate s).phase = s.phase := rfl
@[simp] theorem invalidate_resultValue (s : State) : (invalidate s).resultValue = s.resultValue := rfl
@[simp] theorem invalidate_resultValid (s : State) : (invalidate s).resultValid = s.resultValid := rfl
@[simp] theorem invalidate_running (s : State) : (invalidate s).running = s.running := rfl
@[simp] theorem invalidate_pos (s : State) : (invalidate s).pos = s.pos := rfl
@[simp] theorem invalidate_src0 (s : State) : (invalidate s).src0 = s.src0 := rfl
@[simp] theorem invalidate_src1 (s : State) : (invalidate s).src1 = s.src1 := rfl
@[simp] theorem invalidate_snk0 (s : State) : (invalidate s).snk0 = s.snk0 := rfl
@[simp] theorem invalidate_snk1 (s : State) : (invalidate s).snk1 = s.snk1 := rfl
@[simp] theorem invalidate_params (s : State) : (invalidate s).params = s.params := rfl
@[simp] theorem invalidate_turns (s : State) : (invalidate s).turns = s.turns := rfl
@[simp] theorem invalidate_seen (s : State) : (invalidate s).seen = s.seen := rfl

/-! ### storeTree -/

@[simp] theorem storeTree_r0 (t : HTree) (c : Nat) (s : State) : (storeTree t c s).r0 = s.r0 := rfl
@[simp] theorem storeTree_r1 (t : HTree) (c : Nat) (s : State) : (storeTree t c s).r1 = s.r1 := rfl
@[simp] theorem storeTree_w0 (t : HTree) (c : Nat) (s : State) : (storeTree t c s).w0 = s.w0 := rfl
@[simp] theorem storeTree_w1 (t : HTree) (c : Nat) (s : State) : (storeTree t c s).w1 = s.w1 := rfl
@[simp] theorem storeTree_freq (t : HTree) (c : Nat) (s : State) : (storeTree t c s).freq = s.freq := rfl
@[simp] theorem storeTree_total (t : HTree) (c : Nat) (s : State) : (storeTree t c s).total = s.total := rfl
@[simp] theorem storeTree_tree (t : HTree) (c : Nat) (s : State) : (storeTree t c s).tree = some t := rfl
@[simp] theorem storeTree_nodes (t : HTree) (c : Nat) (s : State) : (storeTree t c s).nodes = BitVec.ofNat 10 c := rfl
@[simp] theorem storeTree_dict (t : HTree) (c : Nat) (s : State) : (storeTree t c s).dict = s.dict := rfl
@[simp] theorem storeTree_dictValid (t : HTree) (c : Nat) (s : State) : (storeTree t c s).dictValid = s.dictValid := rfl
@[simp] theorem storeTree_cursor (t : HTree) (c : Nat) (s : State) : (storeTree t c s).cursor = s.cursor := rfl
@[simp] theorem storeTree_padBits (t : HTree) (c : Nat) (s : State) : (storeTree t c s).padBits = s.padBits := rfl
@[simp] theorem storeTree_busy (t : HTree) (c : Nat) (s : State) : (storeTree t c s).busy = s.busy := rfl
@[simp] theorem storeTree_done (t : HTree) (c : Nat) (s : State) : (storeTree t c s).done = s.done := rfl
@[simp] theorem storeTree_err (t : HTree) (c : Nat) (s : State) : (storeTree t c s).err = s.err := rfl
@[simp] theorem storeTree_empty (t : HTree) (c : Nat) (s : State) : (storeTree t c s).empty = s.empty := rfl
@[simp] theorem storeTree_partialCode (t : HTree) (c : Nat) (s : State) : (storeTree t c s).partialCode = s.partialCode := rfl
@[simp] theorem storeTree_drop (t : HTree) (c : Nat) (s : State) : (storeTree t c s).drop = s.drop := rfl
@[simp] theorem storeTree_errcode (t : HTree) (c : Nat) (s : State) : (storeTree t c s).errcode = s.errcode := rfl
@[simp] theorem storeTree_phase (t : HTree) (c : Nat) (s : State) : (storeTree t c s).phase = s.phase := rfl
@[simp] theorem storeTree_resultValue (t : HTree) (c : Nat) (s : State) : (storeTree t c s).resultValue = s.resultValue := rfl
@[simp] theorem storeTree_resultValid (t : HTree) (c : Nat) (s : State) : (storeTree t c s).resultValid = s.resultValid := rfl
@[simp] theorem storeTree_running (t : HTree) (c : Nat) (s : State) : (storeTree t c s).running = s.running := rfl
@[simp] theorem storeTree_pos (t : HTree) (c : Nat) (s : State) : (storeTree t c s).pos = s.pos := rfl
@[simp] theorem storeTree_src0 (t : HTree) (c : Nat) (s : State) : (storeTree t c s).src0 = s.src0 := rfl
@[simp] theorem storeTree_src1 (t : HTree) (c : Nat) (s : State) : (storeTree t c s).src1 = s.src1 := rfl
@[simp] theorem storeTree_snk0 (t : HTree) (c : Nat) (s : State) : (storeTree t c s).snk0 = s.snk0 := rfl
@[simp] theorem storeTree_snk1 (t : HTree) (c : Nat) (s : State) : (storeTree t c s).snk1 = s.snk1 := rfl
@[simp] theorem storeTree_params (t : HTree) (c : Nat) (s : State) : (storeTree t c s).params = s.params := rfl
@[simp] theorem storeTree_turns (t : HTree) (c : Nat) (s : State) : (storeTree t c s).turns = s.turns := rfl
@[simp] theorem storeTree_seen (t : HTree) (c : Nat) (s : State) : (storeTree t c s).seen = s.seen := rfl

/-! ### storeDict -/

@[simp] theorem storeDict_r0 (s : State) : (storeDict s).r0 = s.r0 := rfl
@[simp] theorem storeDict_r1 (s : State) : (storeDict s).r1 = s.r1 := rfl
@[simp] theorem storeDict_w0 (s : State) : (storeDict s).w0 = s.w0 := rfl
@[simp] theorem storeDict_w1 (s : State) : (storeDict s).w1 = s.w1 := rfl
@[simp] theorem storeDict_freq (s : State) : (storeDict s).freq = s.freq := rfl
@[simp] theorem storeDict_total (s : State) : (storeDict s).total = s.total := rfl
@[simp] theorem storeDict_tree (s : State) : (storeDict s).tree = s.tree := rfl
@[simp] theorem storeDict_nodes (s : State) : (storeDict s).nodes = s.nodes := rfl
@[simp] theorem storeDict_dict (s : State) : (storeDict s).dict = dictOf s.tree := rfl
@[simp] theorem storeDict_dictValid (s : State) : (storeDict s).dictValid = true := rfl
@[simp] theorem storeDict_cursor (s : State) : (storeDict s).cursor = s.cursor := rfl
@[simp] theorem storeDict_padBits (s : State) : (storeDict s).padBits = s.padBits := rfl
@[simp] theorem storeDict_busy (s : State) : (storeDict s).busy = s.busy := rfl
@[simp] theorem storeDict_done (s : State) : (storeDict s).done = s.done := rfl
@[simp] theorem storeDict_err (s : State) : (storeDict s).err = s.err := rfl
@[simp] theorem storeDict_empty (s : State) : (storeDict s).empty = s.empty := rfl
@[simp] theorem storeDict_partialCode (s : State) : (storeDict s).partialCode = s.partialCode := rfl
@[simp] theorem storeDict_drop (s : State) : (storeDict s).drop = s.drop := rfl
@[simp] theorem storeDict_errcode (s : State) : (storeDict s).errcode = s.errcode := rfl
@[simp] theorem storeDict_phase (s : State) : (storeDict s).phase = s.phase := rfl
@[simp] theorem storeDict_resultValue (s : State) : (storeDict s).resultValue = s.resultValue := rfl
@[simp] theorem storeDict_resultValid (s : State) : (storeDict s).resultValid = s.resultValid := rfl
@[simp] theorem storeDict_running (s : State) : (storeDict s).running = s.running := rfl
@[simp] theorem storeDict_pos (s : State) : (storeDict s).pos = s.pos := rfl
@[simp] theorem storeDict_src0 (s : State) : (storeDict s).src0 = s.src0 := rfl
@[simp] theorem storeDict_src1 (s : State) : (storeDict s).src1 = s.src1 := rfl
@[simp] theorem storeDict_snk0 (s : State) : (storeDict s).snk0 = s.snk0 := rfl
@[simp] theorem storeDict_snk1 (s : State) : (storeDict s).snk1 = s.snk1 := rfl
@[simp] theorem storeDict_params (s : State) : (storeDict s).params = s.params := rfl
@[simp] theorem storeDict_turns (s : State) : (storeDict s).turns = s.turns := rfl
@[simp] theorem storeDict_seen (s : State) : (storeDict s).seen = s.seen := rfl

/-! ### addCount -/

@[simp] theorem addCount_r0 (v : Byte) (s : State) : (addCount v s).r0 = s.r0 := rfl
@[simp] theorem addCount_r1 (v : Byte) (s : State) : (addCount v s).r1 = s.r1 := rfl
@[simp] theorem addCount_w0 (v : Byte) (s : State) : (addCount v s).w0 = s.w0 := rfl
@[simp] theorem addCount_w1 (v : Byte) (s : State) : (addCount v s).w1 = s.w1 := rfl
@[simp] theorem addCount_freq (v : Byte) (s : State) : (addCount v s).freq = s.freq.bump v := rfl
@[simp] theorem addCount_total (v : Byte) (s : State) : (addCount v s).total = s.total + 1 := rfl
@[simp] theorem addCount_tree (v : Byte) (s : State) : (addCount v s).tree = s.tree := rfl
@[simp] theorem addCount_nodes (v : Byte) (s : State) : (addCount v s).nodes = s.nodes := rfl
@[simp] theorem addCount_dict (v : Byte) (s : State) : (addCount v s).dict = s.dict := rfl
@[simp] theorem addCount_dictValid (v : Byte) (s : State) : (addCount v s).dictValid = s.dictValid := rfl
@[simp] theorem addCount_cursor (v : Byte) (s : State) : (addCount v s).cursor = s.cursor := rfl
@[simp] theorem addCount_padBits (v : Byte) (s : State) : (addCount v s).padBits = s.padBits := rfl
@[simp] theorem addCount_busy (v : Byte) (s : State) : (addCount v s).busy = s.busy := rfl
@[simp] theorem addCount_done (v : Byte) (s : State) : (addCount v s).done = s.done := rfl
@[simp] theorem addCount_err (v : Byte) (s : State) : (addCount v s).err = s.err := rfl
@[simp] theorem addCount_empty (v : Byte) (s : State) : (addCount v s).empty = s.empty := rfl
@[simp] theorem addCount_partialCode (v : Byte) (s : State) : (addCount v s).partialCode = s.partialCode := rfl
@[simp] theorem addCount_drop (v : Byte) (s : State) : (addCount v s).drop = s.drop := rfl
@[simp] theorem addCount_errcode (v : Byte) (s : State) : (addCount v s).errcode = s.errcode := rfl
@[simp] theorem addCount_phase (v : Byte) (s : State) : (addCount v s).phase = s.phase := rfl
@[simp] theorem addCount_resultValue (v : Byte) (s : State) : (addCount v s).resultValue = s.resultValue := rfl
@[simp] theorem addCount_resultValid (v : Byte) (s : State) : (addCount v s).resultValid = s.resultValid := rfl
@[simp] theorem addCount_running (v : Byte) (s : State) : (addCount v s).running = s.running := rfl
@[simp] theorem addCount_pos (v : Byte) (s : State) : (addCount v s).pos = s.pos := rfl
@[simp] theorem addCount_src0 (v : Byte) (s : State) : (addCount v s).src0 = s.src0 := rfl
@[simp] theorem addCount_src1 (v : Byte) (s : State) : (addCount v s).src1 = s.src1 := rfl
@[simp] theorem addCount_snk0 (v : Byte) (s : State) : (addCount v s).snk0 = s.snk0 := rfl
@[simp] theorem addCount_snk1 (v : Byte) (s : State) : (addCount v s).snk1 = s.snk1 := rfl
@[simp] theorem addCount_params (v : Byte) (s : State) : (addCount v s).params = s.params := rfl
@[simp] theorem addCount_turns (v : Byte) (s : State) : (addCount v s).turns = s.turns := rfl
@[simp] theorem addCount_seen (v : Byte) (s : State) : (addCount v s).seen = s.seen := rfl

/-! ### setCursor -/

@[simp] theorem setCursor_r0 (s : State) (c : Bits) : (s.setCursor c).r0 = s.r0 := rfl
@[simp] theorem setCursor_r1 (s : State) (c : Bits) : (s.setCursor c).r1 = s.r1 := rfl
@[simp] theorem setCursor_w0 (s : State) (c : Bits) : (s.setCursor c).w0 = s.w0 := rfl
@[simp] theorem setCursor_w1 (s : State) (c : Bits) : (s.setCursor c).w1 = s.w1 := rfl
@[simp] theorem setCursor_freq (s : State) (c : Bits) : (s.setCursor c).freq = s.freq := rfl
@[simp] theorem setCursor_total (s : State) (c : Bits) : (s.setCursor c).total = s.total := rfl
@[simp] theorem setCursor_tree (s : State) (c : Bits) : (s.setCursor c).tree = s.tree := rfl
@[simp] theorem setCursor_nodes (s : State) (c : Bits) : (s.setCursor c).nodes = s.nodes := rfl
@[simp] theorem setCursor_dict (s : State) (c : Bits) : (s.setCursor c).dict = s.dict := rfl
@[simp] theorem setCursor_dictValid (s : State) (c : Bits) : (s.setCursor c).dictValid = s.dictValid := rfl
@[simp] theorem setCursor_cursor (s : State) (c : Bits) : (s.setCursor c).cursor = c := rfl
@[simp] theorem setCursor_padBits (s : State) (c : Bits) : (s.setCursor c).padBits = s.padBits := rfl
@[simp] theorem setCursor_busy (s : State) (c : Bits) : (s.setCursor c).busy = s.busy := rfl
@[simp] theorem setCursor_done (s : State) (c : Bits) : (s.setCursor c).done = s.done := rfl
@[simp] theorem setCursor_err (s : State) (c : Bits) : (s.setCursor c).err = s.err := rfl
@[simp] theorem setCursor_empty (s : State) (c : Bits) : (s.setCursor c).empty = s.empty := rfl
@[simp] theorem setCursor_partialCode (s : State) (c : Bits) : (s.setCursor c).partialCode = s.partialCode := rfl
@[simp] theorem setCursor_drop (s : State) (c : Bits) : (s.setCursor c).drop = s.drop := rfl
@[simp] theorem setCursor_errcode (s : State) (c : Bits) : (s.setCursor c).errcode = s.errcode := rfl
@[simp] theorem setCursor_phase (s : State) (c : Bits) : (s.setCursor c).phase = s.phase := rfl
@[simp] theorem setCursor_resultValue (s : State) (c : Bits) : (s.setCursor c).resultValue = s.resultValue := rfl
@[simp] theorem setCursor_resultValid (s : State) (c : Bits) : (s.setCursor c).resultValid = s.resultValid := rfl
@[simp] theorem setCursor_running (s : State) (c : Bits) : (s.setCursor c).running = s.running := rfl
@[simp] theorem setCursor_pos (s : State) (c : Bits) : (s.setCursor c).pos = s.pos := rfl
@[simp] theorem setCursor_src0 (s : State) (c : Bits) : (s.setCursor c).src0 = s.src0 := rfl
@[simp] theorem setCursor_src1 (s : State) (c : Bits) : (s.setCursor c).src1 = s.src1 := rfl
@[simp] theorem setCursor_snk0 (s : State) (c : Bits) : (s.setCursor c).snk0 = s.snk0 := rfl
@[simp] theorem setCursor_snk1 (s : State) (c : Bits) : (s.setCursor c).snk1 = s.snk1 := rfl
@[simp] theorem setCursor_params (s : State) (c : Bits) : (s.setCursor c).params = s.params := rfl
@[simp] theorem setCursor_turns (s : State) (c : Bits) : (s.setCursor c).turns = s.turns := rfl
@[simp] theorem setCursor_seen (s : State) (c : Bits) : (s.setCursor c).seen = s.seen := rfl

/-! ### clearFreq -/

@[simp] theorem clearFreq_r0 (s : State) : (clearFreq s).r0 = s.r0 := rfl
@[simp] theorem clearFreq_r1 (s : State) : (clearFreq s).r1 = s.r1 := rfl
@[simp] theorem clearFreq_w0 (s : State) : (clearFreq s).w0 = s.w0 := rfl
@[simp] theorem clearFreq_w1 (s : State) : (clearFreq s).w1 = s.w1 := rfl
@[simp] theorem clearFreq_freq (s : State) : (clearFreq s).freq = FreqTable.zero := rfl
@[simp] theorem clearFreq_total (s : State) : (clearFreq s).total = 0 := rfl
@[simp] theorem clearFreq_tree (s : State) : (clearFreq s).tree = s.tree := rfl
@[simp] theorem clearFreq_nodes (s : State) : (clearFreq s).nodes = s.nodes := rfl
@[simp] theorem clearFreq_dict (s : State) : (clearFreq s).dict = s.dict := rfl
@[simp] theorem clearFreq_dictValid (s : State) : (clearFreq s).dictValid = s.dictValid := rfl
@[simp] theorem clearFreq_cursor (s : State) : (clearFreq s).cursor = s.cursor := rfl
@[simp] theorem clearFreq_padBits (s : State) : (clearFreq s).padBits = s.padBits := rfl
@[simp] theorem clearFreq_busy (s : State) : (clearFreq s).busy = s.busy := rfl
@[simp] theorem clearFreq_done (s : State) : (clearFreq s).done = s.done := rfl
@[simp] theorem clearFreq_err (s : State) : (clearFreq s).err = s.err := rfl
@[simp] theorem clearFreq_empty (s : State) : (clearFreq s).empty = s.empty := rfl
@[simp] theorem clearFreq_partialCode (s : State) : (clearFreq s).partialCode = s.partialCode := rfl
@[simp] theorem clearFreq_drop (s : State) : (clearFreq s).drop = s.drop := rfl
@[simp] theorem clearFreq_errcode (s : State) : (clearFreq s).errcode = s.errcode := rfl
@[simp] theorem clearFreq_phase (s : State) : (clearFreq s).phase = s.phase := rfl
@[simp] theorem clearFreq_resultValue (s : State) : (clearFreq s).resultValue = s.resultValue := rfl
@[simp] theorem clearFreq_resultValid (s : State) : (clearFreq s).resultValid = s.resultValid := rfl
@[simp] theorem clearFreq_running (s : State) : (clearFreq s).running = s.running := rfl
@[simp] theorem clearFreq_pos (s : State) : (clearFreq s).pos = s.pos := rfl
@[simp] theorem clearFreq_src0 (s : State) : (clearFreq s).src0 = s.src0 := rfl
@[simp] theorem clearFreq_src1 (s : State) : (clearFreq s).src1 = s.src1 := rfl
@[simp] theorem clearFreq_snk0 (s : State) : (clearFreq s).snk0 = s.snk0 := rfl
@[simp] theorem clearFreq_snk1 (s : State) : (clearFreq s).snk1 = s.snk1 := rfl
@[simp] theorem clearFreq_params (s : State) : (clearFreq s).params = s.params := rfl
@[simp] theorem clearFreq_turns (s : State) : (clearFreq s).turns = s.turns := rfl
@[simp] theorem clearFreq_seen (s : State) : (clearFreq s).seen = s.seen := rfl

/-! ### Readers, writers and ports by number -/

@[simp] theorem reader_p0 (s : State) : s.reader .p0 = s.r0 := rfl
@[simp] theorem reader_p1 (s : State) : s.reader .p1 = s.r1 := rfl
@[simp] theorem writer_p0 (s : State) : s.writer .p0 = s.w0 := rfl
@[simp] theorem writer_p1 (s : State) : s.writer .p1 = s.w1 := rfl
@[simp] theorem source_p0 (s : State) : s.source .p0 = s.src0 := rfl
@[simp] theorem source_p1 (s : State) : s.source .p1 = s.src1 := rfl
@[simp] theorem sink_p0 (s : State) : s.sink .p0 = s.snk0 := rfl
@[simp] theorem sink_p1 (s : State) : s.sink .p1 = s.snk1 := rfl
@[simp] theorem setReader_p0_r0 (s : State) (r : Reader) : (s.setReader .p0 r).r0 = r := rfl
@[simp] theorem setReader_p0_r1 (s : State) (r : Reader) : (s.setReader .p0 r).r1 = s.r1 := rfl
@[simp] theorem setReader_p1_r0 (s : State) (r : Reader) : (s.setReader .p1 r).r0 = s.r0 := rfl
@[simp] theorem setReader_p1_r1 (s : State) (r : Reader) : (s.setReader .p1 r).r1 = r := rfl
@[simp] theorem setWriter_p0_w0 (s : State) (w : Writer) : (s.setWriter .p0 w).w0 = w := rfl
@[simp] theorem setWriter_p0_w1 (s : State) (w : Writer) : (s.setWriter .p0 w).w1 = s.w1 := rfl
@[simp] theorem setWriter_p1_w0 (s : State) (w : Writer) : (s.setWriter .p1 w).w0 = s.w0 := rfl
@[simp] theorem setWriter_p1_w1 (s : State) (w : Writer) : (s.setWriter .p1 w).w1 = w := rfl
@[simp] theorem setSource_p0_src0 (s : State) (x : Source) : (s.setSource .p0 x).src0 = x := rfl
@[simp] theorem setSource_p0_src1 (s : State) (x : Source) : (s.setSource .p0 x).src1 = s.src1 := rfl
@[simp] theorem setSource_p1_src0 (s : State) (x : Source) : (s.setSource .p1 x).src0 = s.src0 := rfl
@[simp] theorem setSource_p1_src1 (s : State) (x : Source) : (s.setSource .p1 x).src1 = x := rfl
@[simp] theorem setSink_p0_snk0 (s : State) (x : Sink) : (s.setSink .p0 x).snk0 = x := rfl
@[simp] theorem setSink_p0_snk1 (s : State) (x : Sink) : (s.setSink .p0 x).snk1 = s.snk1 := rfl
@[simp] theorem setSink_p1_snk0 (s : State) (x : Sink) : (s.setSink .p1 x).snk0 = s.snk0 := rfl
@[simp] theorem setSink_p1_snk1 (s : State) (x : Sink) : (s.setSink .p1 x).snk1 = x := rfl

@[simp] theorem setReader_reader (s : State) (p : PortNum) (r : Reader) :
    (s.setReader p r).reader p = r := by cases p <;> rfl
@[simp] theorem setWriter_writer (s : State) (p : PortNum) (w : Writer) :
    (s.setWriter p w).writer p = w := by cases p <;> rfl
@[simp] theorem setSource_source (s : State) (p : PortNum) (x : Source) :
    (s.setSource p x).source p = x := by cases p <;> rfl
@[simp] theorem setSink_sink (s : State) (p : PortNum) (x : Sink) :
    (s.setSink p x).sink p = x := by cases p <;> rfl

theorem setReader_reader_ne (s : State) {p q : PortNum} (r : Reader) (h : q ≠ p) :
    (s.setReader p r).reader q = s.reader q := by cases p <;> cases q <;> first | rfl | exact absurd rfl h
theorem setWriter_writer_ne (s : State) {p q : PortNum} (w : Writer) (h : q ≠ p) :
    (s.setWriter p w).writer q = s.writer q := by cases p <;> cases q <;> first | rfl | exact absurd rfl h
theorem setSink_sink_ne (s : State) {p q : PortNum} (x : Sink) (h : q ≠ p) :
    (s.setSink p x).sink q = s.sink q := by cases p <;> cases q <;> first | rfl | exact absurd rfl h

/-! ### The other groups by number -/

@[simp] theorem setReader_writer (s : State) (p q : PortNum) (r : Reader) : (s.setReader p r).writer q = s.writer q := by
  cases p <;> cases q <;> rfl
@[simp] theorem setReader_source (s : State) (p q : PortNum) (r : Reader) : (s.setReader p r).source q = s.source q := by
  cases p <;> cases q <;> rfl
@[simp] theorem setReader_sink (s : State) (p q : PortNum) (r : Reader) : (s.setReader p r).sink q = s.sink q := by
  cases p <;> cases q <;> rfl
@[simp] theorem setWriter_reader (s : State) (p q : PortNum) (w : Writer) : (s.setWriter p w).reader q = s.reader q := by
  cases p <;> cases q <;> rfl
@[simp] theorem setWriter_source (s : State) (p q : PortNum) (w : Writer) : (s.setWriter p w).source q = s.source q := by
  cases p <;> cases q <;> rfl
@[simp] theorem setWriter_sink (s : State) (p q : PortNum) (w : Writer) : (s.setWriter p w).sink q = s.sink q := by
  cases p <;> cases q <;> rfl
@[simp] theorem setSource_reader (s : State) (p q : PortNum) (x : Source) : (s.setSource p x).reader q = s.reader q := by
  cases p <;> cases q <;> rfl
@[simp] theorem setSource_writer (s : State) (p q : PortNum) (x : Source) : (s.setSource p x).writer q = s.writer q := by
  cases p <;> cases q <;> rfl
@[simp] theorem setSource_sink (s : State) (p q : PortNum) (x : Source) : (s.setSource p x).sink q = s.sink q := by
  cases p <;> cases q <;> rfl
@[simp] theorem setSink_reader (s : State) (p q : PortNum) (x : Sink) : (s.setSink p x).reader q = s.reader q := by
  cases p <;> cases q <;> rfl
@[simp] theorem setSink_writer (s : State) (p q : PortNum) (x : Sink) : (s.setSink p x).writer q = s.writer q := by
  cases p <;> cases q <;> rfl
@[simp] theorem setSink_source (s : State) (p q : PortNum) (x : Sink) : (s.setSink p x).source q = s.source q := by
  cases p <;> cases q <;> rfl
@[simp] theorem goto_reader (s : State) (x : Pos) (q : PortNum) : (s.goto x).reader q = s.reader q := by cases q <;> rfl
@[simp] theorem goto_writer (s : State) (x : Pos) (q : PortNum) : (s.goto x).writer q = s.writer q := by cases q <;> rfl
@[simp] theorem goto_source (s : State) (x : Pos) (q : PortNum) : (s.goto x).source q = s.source q := by cases q <;> rfl
@[simp] theorem goto_sink (s : State) (x : Pos) (q : PortNum) : (s.goto x).sink q = s.sink q := by cases q <;> rfl
@[simp] theorem inPhase_reader (s : State) (x : Phase) (q : PortNum) : (s.inPhase x).reader q = s.reader q := by cases q <;> rfl
@[simp] theorem inPhase_writer (s : State) (x : Phase) (q : PortNum) : (s.inPhase x).writer q = s.writer q := by cases q <;> rfl
@[simp] theorem inPhase_source (s : State) (x : Phase) (q : PortNum) : (s.inPhase x).source q = s.source q := by cases q <;> rfl
@[simp] theorem inPhase_sink (s : State) (x : Phase) (q : PortNum) : (s.inPhase x).sink q = s.sink q := by cases q <;> rfl
@[simp] theorem setResult_reader (v : Byte) (s : State) (q : PortNum) : (setResult v s).reader q = s.reader q := by cases q <;> rfl
@[simp] theorem setResult_writer (v : Byte) (s : State) (q : PortNum) : (setResult v s).writer q = s.writer q := by cases q <;> rfl
@[simp] theorem setResult_source (v : Byte) (s : State) (q : PortNum) : (setResult v s).source q = s.source q := by cases q <;> rfl
@[simp] theorem setResult_sink (v : Byte) (s : State) (q : PortNum) : (setResult v s).sink q = s.sink q := by cases q <;> rfl
@[simp] theorem normalEnd_reader (s : State) (q : PortNum) : (normalEnd s).reader q = s.reader q := by cases q <;> rfl
@[simp] theorem normalEnd_writer (s : State) (q : PortNum) : (normalEnd s).writer q = s.writer q := by cases q <;> rfl
@[simp] theorem normalEnd_source (s : State) (q : PortNum) : (normalEnd s).source q = s.source q := by cases q <;> rfl
@[simp] theorem normalEnd_sink (s : State) (q : PortNum) : (normalEnd s).sink q = s.sink q := by cases q <;> rfl
@[simp] theorem errorEnd_reader (e : Error) (s : State) (q : PortNum) : (errorEnd e s).reader q = s.reader q := by cases q <;> rfl
@[simp] theorem errorEnd_writer (e : Error) (s : State) (q : PortNum) : (errorEnd e s).writer q = s.writer q := by cases q <;> rfl
@[simp] theorem errorEnd_source (e : Error) (s : State) (q : PortNum) : (errorEnd e s).source q = s.source q := by cases q <;> rfl
@[simp] theorem errorEnd_sink (e : Error) (s : State) (q : PortNum) : (errorEnd e s).sink q = s.sink q := by cases q <;> rfl
@[simp] theorem invalidate_reader (s : State) (q : PortNum) : (invalidate s).reader q = s.reader q := by cases q <;> rfl
@[simp] theorem invalidate_writer (s : State) (q : PortNum) : (invalidate s).writer q = s.writer q := by cases q <;> rfl
@[simp] theorem invalidate_source (s : State) (q : PortNum) : (invalidate s).source q = s.source q := by cases q <;> rfl
@[simp] theorem invalidate_sink (s : State) (q : PortNum) : (invalidate s).sink q = s.sink q := by cases q <;> rfl
@[simp] theorem storeTree_reader (t : HTree) (c : Nat) (s : State) (q : PortNum) : (storeTree t c s).reader q = s.reader q := by cases q <;> rfl
@[simp] theorem storeTree_writer (t : HTree) (c : Nat) (s : State) (q : PortNum) : (storeTree t c s).writer q = s.writer q := by cases q <;> rfl
@[simp] theorem storeTree_source (t : HTree) (c : Nat) (s : State) (q : PortNum) : (storeTree t c s).source q = s.source q := by cases q <;> rfl
@[simp] theorem storeTree_sink (t : HTree) (c : Nat) (s : State) (q : PortNum) : (storeTree t c s).sink q = s.sink q := by cases q <;> rfl
@[simp] theorem storeDict_reader (s : State) (q : PortNum) : (storeDict s).reader q = s.reader q := by cases q <;> rfl
@[simp] theorem storeDict_writer (s : State) (q : PortNum) : (storeDict s).writer q = s.writer q := by cases q <;> rfl
@[simp] theorem storeDict_source (s : State) (q : PortNum) : (storeDict s).source q = s.source q := by cases q <;> rfl
@[simp] theorem storeDict_sink (s : State) (q : PortNum) : (storeDict s).sink q = s.sink q := by cases q <;> rfl
@[simp] theorem addCount_reader (v : Byte) (s : State) (q : PortNum) : (addCount v s).reader q = s.reader q := by cases q <;> rfl
@[simp] theorem addCount_writer (v : Byte) (s : State) (q : PortNum) : (addCount v s).writer q = s.writer q := by cases q <;> rfl
@[simp] theorem addCount_source (v : Byte) (s : State) (q : PortNum) : (addCount v s).source q = s.source q := by cases q <;> rfl
@[simp] theorem addCount_sink (v : Byte) (s : State) (q : PortNum) : (addCount v s).sink q = s.sink q := by cases q <;> rfl
@[simp] theorem setCursor_reader (s : State) (c : Bits) (q : PortNum) : (s.setCursor c).reader q = s.reader q := by cases q <;> rfl
@[simp] theorem setCursor_writer (s : State) (c : Bits) (q : PortNum) : (s.setCursor c).writer q = s.writer q := by cases q <;> rfl
@[simp] theorem setCursor_source (s : State) (c : Bits) (q : PortNum) : (s.setCursor c).source q = s.source q := by cases q <;> rfl
@[simp] theorem setCursor_sink (s : State) (c : Bits) (q : PortNum) : (s.setCursor c).sink q = s.sink q := by cases q <;> rfl
@[simp] theorem clearFreq_reader (s : State) (q : PortNum) : (clearFreq s).reader q = s.reader q := by cases q <;> rfl
@[simp] theorem clearFreq_writer (s : State) (q : PortNum) : (clearFreq s).writer q = s.writer q := by cases q <;> rfl
@[simp] theorem clearFreq_source (s : State) (q : PortNum) : (clearFreq s).source q = s.source q := by cases q <;> rfl
@[simp] theorem clearFreq_sink (s : State) (q : PortNum) : (clearFreq s).sink q = s.sink q := by cases q <;> rfl

end Sys2Proof.Machine
end

