-- ==== Sys2Proof/Laws/Engine.lean ====
section
/-! SUPPORT. The micro-step once and for all: what a predicate kept by every `Act` says of it, paths of
the engine with their port accesses counted, and how micro-steps group a path. -/

namespace Sys2Proof.Machine

/-- The state an `Act` leaves. -/
def Act.state : Act → State
  | .work t => t
  | .opens t => t
  | .access t => t
  | .ended t => t

@[simp] theorem Act.state_of (b : Bool) (t : State) : (Act.of b t).state = t := by cases b <;> rfl

@[simp] theorem Act.of_false (t : State) : Act.of false t = .work t := rfl
@[simp] theorem Act.of_true (t : State) : Act.of true t = .access t := rfl

/-- Internal computation, which makes no port access: the state it leaves. -/
def Act.inner : Act → Option State
  | .work t => some t
  | .opens t => some t
  | .access _ => none
  | .ended _ => none

@[simp] theorem Act.inner_work (t : State) : (Act.work t).inner = some t := rfl
@[simp] theorem Act.inner_opens (t : State) : (Act.opens t).inner = some t := rfl
@[simp] theorem Act.inner_access (t : State) : (Act.access t).inner = none := rfl
@[simp] theorem Act.inner_ended (t : State) : (Act.ended t).inner = none := rfl
@[simp] theorem Act.inner_of (b : Bool) (t : State) : (Act.of b t).inner = if b then none else some t := by cases b <;> rfl

/-! ## Predicates every act keeps -/

theorem goOn_keeps {P : State → Prop} {next : State → Act} (h : ∀ s, P s → P (next s).state) :
    ∀ k rest s, P rest → P s → P (goOn next k rest s) := by
  intro k
  induction k with
  | zero => exact fun _ _ hr _ => hr
  | succ k ih =>
    intro rest s hr hs
    have := h s hs
    unfold goOn
    split
    · next u hu => rw [hu] at this; exact ih rest u hr this
    · next u hu => rw [hu] at this; exact ih u u this this
    · exact hr
    · next u hu => rw [hu] at this; exact this

theorem advance_keeps {P : State → Prop} {next : State → Act} (h : ∀ s, P s → P (next s).state) :
    ∀ k s, P s → P (advance next k s) := by
  intro k
  induction k with
  | zero => exact fun s hs => hs
  | succ k ih =>
    intro s hs
    have := h s hs
    unfold advance
    split
    · next u hu => rw [hu] at this; exact ih u this
    · next u hu => rw [hu] at this; exact ih u this
    · next u hu => rw [hu] at this; exact goOn_keeps h _ _ _ this this
    · next u hu => rw [hu] at this; exact this

/-- What every act of a command keeps, its micro-step keeps. -/
theorem microStep_keeps {P : State → Prop} {next : State → Act} (h : ∀ s, P s → P (next s).state)
    {s : State} (hs : P s) : P (microStep next s) := advance_keeps h _ s hs

/-! ## Paths -/

/-- The engine goes from one state to another with k port accesses and no end. -/
inductive Path (next : State → Act) : State → Nat → State → Prop where
  | refl (s : State) : Path next s 0 s
  | inner {s u t : State} {k : Nat} (h : (next s).inner = some u) (p : Path next u k t) : Path next s k t
  | access {s u t : State} {k : Nat} (h : next s = .access u) (p : Path next u k t) : Path next s (k + 1) t

theorem Path.work {next : State → Act} {s u t : State} {k : Nat} (h : next s = .work u) (p : Path next u k t) :
    Path next s k t := .inner (by rw [h]; rfl) p

theorem Path.opens {next : State → Act} {s u t : State} {k : Nat} (h : next s = .opens u) (p : Path next u k t) :
    Path next s k t := .inner (by rw [h]; rfl) p

theorem Path.trans {next : State → Act} {s u t : State} {j k : Nat} (p : Path next s j u)
    (q : Path next u k t) : Path next s (j + k) t := by
  induction p with
  | refl => simpa using q
  | inner h _ ih => exact .inner h (ih q)
  | access h _ ih => rw [show ∀ a : Nat, a + 1 + k = a + k + 1 by omega]; exact .access h (ih q)

theorem EngineGets.path {next : State → Act} {s t : State} (h : EngineGets next s t) : ∃ k, Path next s k t := by
  induction h with
  | refl s => exact ⟨0, .refl s⟩
  | work h _ ih => obtain ⟨k, p⟩ := ih; exact ⟨k, .work h p⟩
  | opens h _ ih => obtain ⟨k, p⟩ := ih; exact ⟨k, .opens h p⟩
  | access h _ ih => obtain ⟨k, p⟩ := ih; exact ⟨k + 1, .access h p⟩

theorem Path.one {next : State → Act} {s t : State} (b : Bool) (h : next s = Act.of b t) :
    Path next s b.toNat t := by
  cases b
  · exact .work h (.refl t)
  · exact .access h (.refl t)

/-- The engine reaches the end of the command in t after k port accesses. -/
inductive Trace (next : State → Act) : State → Nat → State → Prop where
  | ended {s t : State} (h : next s = .ended t) : Trace next s 0 t
  | inner {s u t : State} {k : Nat} (h : (next s).inner = some u) (p : Trace next u k t) : Trace next s k t
  | access {s u t : State} {k : Nat} (h : next s = .access u) (p : Trace next u k t) : Trace next s (k + 1) t

theorem Trace.work {next : State → Act} {s u t : State} {k : Nat} (h : next s = .work u) (p : Trace next u k t) :
    Trace next s k t := .inner (by rw [h]; rfl) p

theorem Trace.opens {next : State → Act} {s u t : State} {k : Nat} (h : next s = .opens u) (p : Trace next u k t) :
    Trace next s k t := .inner (by rw [h]; rfl) p

theorem Path.trace {next : State → Act} {s u t : State} {j k : Nat} (p : Path next s j u)
    (q : Trace next u k t) : Trace next s (j + k) t := by
  induction p with
  | refl => simpa using q
  | inner h _ ih => exact .inner h (ih q)
  | access h _ ih => rw [show ∀ a : Nat, a + 1 + k = a + k + 1 by omega]; exact .access h (ih q)

/-! ## Micro-steps group a path -/

/-- Internal computation is bounded: a measure that it lowers, below the bound. -/
structure Bounded (next : State → Act) (size : State → Nat) : Prop where
  lt : ∀ s, size s < workBound
  falls : ∀ s u, (next s).inner = some u → size u < size s

theorem goOn_inner {next : State → Act} {s u : State} (h : (next s).inner = some u) (fuel : Nat) (rest : State) :
    goOn next (fuel + 1) rest s = goOn next fuel rest u ∨ goOn next (fuel + 1) rest s = goOn next fuel u u := by
  rw [goOn]
  cases hn : next s <;> rw [hn] at h <;> cases h
  · exact .inl rfl
  · exact .inr rfl

theorem advance_inner {next : State → Act} {s u : State} (h : (next s).inner = some u) (fuel : Nat) :
    advance next (fuel + 1) s = advance next fuel u := by
  rw [advance]
  cases hn : next s <;> rw [hn] at h <;> cases h <;> rfl

/-- What follows an access, when k more accesses lead to the end t: t itself when there are none, else a state on
the way with the same accesses ahead. -/
theorem goOn_trace {next : State → Act} {size : State → Nat} (hb : Bounded next size) {k : Nat}
    {s t : State} (h : Trace next s k t) :
    ∀ fuel rest, size s < fuel → Trace next rest k t →
      (k = 0 → goOn next fuel rest s = t)
        ∧ (0 < k → Trace next (goOn next fuel rest s) k t
          ∧ ∀ Q : State → Prop, (∀ v u, (next v).inner = some u ∨ next v = .access u → Q v → Q u) →
            Q rest → Q s → Q (goOn next fuel rest s)) := by
  induction h with
  | ended h =>
    intro fuel rest hf _
    obtain ⟨m, rfl⟩ : ∃ m, fuel = m + 1 := ⟨fuel - 1, by omega⟩
    exact ⟨fun _ => by simp [goOn, h], fun hk => absurd hk (by omega)⟩
  | @inner s u t k h p ih =>
    intro fuel rest hf hr
    obtain ⟨m, rfl⟩ : ∃ m, fuel = m + 1 := ⟨fuel - 1, by omega⟩
    have hm : size u < m := by have := hb.falls _ _ h; omega
    rcases goOn_inner h m rest with e | e <;> rw [e]
    · obtain ⟨h1, h2⟩ := ih m rest hm hr
      exact ⟨h1, fun hk => ⟨(h2 hk).1, fun Q hQ hr hs => (h2 hk).2 Q hQ hr (hQ _ _ (.inl h) hs)⟩⟩
    · obtain ⟨h1, h2⟩ := ih m u hm p
      exact ⟨h1, fun hk => ⟨(h2 hk).1, fun Q hQ _ hs => (h2 hk).2 Q hQ (hQ _ _ (.inl h) hs) (hQ _ _ (.inl h) hs)⟩⟩
  | access h _ _ =>
    intro fuel rest hf hr
    obtain ⟨m, rfl⟩ : ∃ m, fuel = m + 1 := ⟨fuel - 1, by omega⟩
    rw [show goOn next (m + 1) rest _ = rest by simp [goOn, h]]
    exact ⟨fun hk => absurd hk (by omega), fun _ => ⟨hr, fun Q _ hq _ => hq⟩⟩

theorem advance_trace {next : State → Act} {size : State → Nat} (hb : Bounded next size) {k : Nat}
    {s t : State} (h : Trace next s k t) :
    ∀ fuel, size s < fuel →
      if k ≤ 1 then advance next fuel s = t
      else Trace next (advance next fuel s) (k - 1) t
        ∧ ∀ Q : State → Prop, (∀ v u, (next v).inner = some u ∨ next v = .access u → Q v → Q u) →
            Q s → Q (advance next fuel s) := by
  induction h with
  | ended h =>
    intro fuel hf
    obtain ⟨m, rfl⟩ : ∃ m, fuel = m + 1 := ⟨fuel - 1, by omega⟩
    simp [advance, h]
  | inner h _ ih =>
    intro fuel hf
    obtain ⟨m, rfl⟩ : ∃ m, fuel = m + 1 := ⟨fuel - 1, by omega⟩
    rw [advance_inner h]
    have := ih m (by have := hb.falls _ _ h; omega)
    split at this
    · next hk => rw [if_pos hk]; exact this
    · next hk => rw [if_neg hk]; exact ⟨this.1, fun Q hQ hs => this.2 Q hQ (hQ _ _ (.inl h) hs)⟩
  | @access s u t k h p ih =>
    intro fuel hf
    obtain ⟨m, rfl⟩ : ∃ m, fuel = m + 1 := ⟨fuel - 1, by omega⟩
    obtain ⟨h1, h2⟩ := goOn_trace hb p workBound u (hb.lt u) p
    rw [show advance next (m + 1) s = goOn next workBound u u by simp [advance, h]]
    rcases Nat.eq_zero_or_pos k with rfl | hk
    · simpa using h1 rfl
    · rw [if_neg (by omega)]
      exact ⟨by simpa using (h2 hk).1, fun Q hQ hs => (h2 hk).2 Q hQ (hQ _ _ (.inr h) hs) (hQ _ _ (.inr h) hs)⟩

/-- The last micro-step of a command: at most one access is left. -/
theorem microStep_last {next : State → Act} {size : State → Nat} (hb : Bounded next size) {k : Nat}
    {s t : State} (h : Trace next s k t) (hk : k ≤ 1) : microStep next s = t := by
  have := advance_trace hb h workBound (hb.lt s)
  rwa [if_pos hk] at this

/-- A micro-step before the last: it makes one access. -/
theorem microStep_more {next : State → Act} {size : State → Nat} (hb : Bounded next size) {k : Nat}
    {s t : State} (h : Trace next s (k + 2) t) :
    Trace next (microStep next s) (k + 1) t
      ∧ ∀ Q : State → Prop, (∀ v u, (next v).inner = some u ∨ next v = .access u → Q v → Q u) →
          Q s → Q (microStep next s) := by
  have := advance_trace hb h workBound (hb.lt s)
  rwa [if_neg (by omega)] at this

theorem goOn_post {P Q : State → Prop} {next : State → Act} (hwork : ∀ s t, P s → next s = .work t → P t)
    (hopen : ∀ s t, P s → next s = .opens t → P t ∧ Q t) (hend : ∀ s t, P s → next s = .ended t → Q t) :
    ∀ fuel rest s, Q rest → P s → Q (goOn next fuel rest s) := by
  intro fuel
  induction fuel with
  | zero => exact fun _ _ hr _ => hr
  | succ k ih =>
    intro rest s hr hs
    unfold goOn
    split
    · next u hu => exact ih rest u hr (hwork s u hs hu)
    · next u hu => exact ih u u (hopen s u hs hu).2 (hopen s u hs hu).1
    · exact hr
    · next u hu => exact hend s u hs hu

/-- What a micro-step leaves: P holds before its port access, P' after it, Q when the micro-step is
over. -/
theorem microStep_post {P P' Q : State → Prop} {next : State → Act} {size : State → Nat} (hb : Bounded next size)
    (hwork : ∀ s t, P s → (next s).inner = some t → P t) (hwork' : ∀ s t, P' s → next s = .work t → P' t)
    (hopen' : ∀ s t, P' s → next s = .opens t → P' t ∧ Q t)
    (hacc : ∀ s t, P s → next s = .access t → P' t ∧ Q t) (hend : ∀ s t, P s → next s = .ended t → Q t)
    (hend' : ∀ s t, P' s → next s = .ended t → Q t) {s : State} (hs : P s) : Q (microStep next s) := by
  have key : ∀ fuel s, P s → size s < fuel → Q (advance next fuel s) := by
    intro fuel
    induction fuel with
    | zero => intro s _ h; omega
    | succ k ih =>
      intro s hs hk
      unfold advance
      split
      · next u hu =>
        have hi : (next s).inner = some u := by rw [hu]; rfl
        exact ih u (hwork s u hs hi) (by have := hb.falls s u hi; omega)
      · next u hu =>
        have hi : (next s).inner = some u := by rw [hu]; rfl
        exact ih u (hwork s u hs hi) (by have := hb.falls s u hi; omega)
      · next u hu =>
        obtain ⟨h1, h2⟩ := hacc s u hs hu
        exact goOn_post hwork' hopen' hend' _ u u h2 h1
      · next u hu => exact hend s u hs hu
  exact key workBound s hs (hb.lt s)

/-- What holds of the next thing the engine does: P where the micro-step may go on, Q where it may be over. -/
def Act.Post (P Q : State → Prop) : Act → Prop
  | .work t => P t
  | .opens t => P t ∧ Q t
  | .access t => P t ∧ Q t
  | .ended t => Q t

theorem Act.post_of {P Q : State → Prop} (b : Bool) {t : State} (hp : P t) (hq : Q t) : (Act.of b t).Post P Q := by
  cases b
  · exact hp
  · exact ⟨hp, hq⟩

/-- A micro-step from P is over in Q. -/
theorem microStep_inv {P Q : State → Prop} {next : State → Act} {size : State → Nat} (hb : Bounded next size)
    (h : ∀ s, P s → (next s).Post P Q) {s : State} (hs : P s) : Q (microStep next s) := by
  have hw : ∀ s t, P s → next s = .work t → P t := fun s t hs ht => by have := h s hs; rwa [ht] at this
  have ho : ∀ s t, P s → next s = .opens t → P t ∧ Q t := fun s t hs ht => by have := h s hs; rwa [ht] at this
  have he : ∀ s t, P s → next s = .ended t → Q t := fun s t hs ht => by have := h s hs; rwa [ht] at this
  refine microStep_post hb (fun s t hs ht => ?_) hw ho (fun s t hs ht => by have := h s hs; rwa [ht] at this) he he hs
  have := h s hs
  cases hn : next s <;> rw [hn] at ht this <;> cases ht
  · exact this
  · exact this.1

theorem execTimes_succ_next {i : Instr} {s u : State} (k : Nat) (h : exec i s = .next u) :
    execTimes i (k + 1) s = execTimes i k u := by rw [execTimes, h]

/-- A command of one micro-step. -/
theorem EndsAfter.single {i : Instr} {s t : State} (hr : s.running = some (.legal i))
    (h : exec i s = .next t) (ht : t.running = none) : EndsAfter i 1 s t := by
  refine ⟨by rw [execTimes_succ_next 0 h]; rfl, ht, fun j u hj hu => ?_⟩
  obtain rfl : j = 0 := by omega
  cases hu; exact hr

/-- A command with k port accesses takes max 1 k micro-steps (spec/70_reset_and_hazards.md R354). -/
theorem Trace.endsAfter {i : Instr} {next : State → Act} {size : State → Nat} (hb : Bounded next size)
    (hexec : ∀ s, exec i s = .next (microStep next s))
    (hrun : ∀ s u, (next s).inner = some u ∨ next s = .access u → u.running = s.running)
    {k : Nat} {s t : State} (hr : s.running = some (.legal i)) (h : Trace next s k t)
    (ht : t.running = none) : EndsAfter i (max 1 k) s t := by
  induction k generalizing s with
  | zero => exact .single hr (by rw [hexec, microStep_last hb h (by omega)]) ht
  | succ k ih =>
    cases k with
    | zero => exact .single hr (by rw [hexec, microStep_last hb h (by omega)]) ht
    | succ k =>
      obtain ⟨hm, hq⟩ := microStep_more hb h
      have hmr := hq (fun v => v.running = s.running) (fun v u hv hw => (hrun v u hv).trans hw) rfl
      obtain ⟨h1, h2, h3⟩ := ih (hmr.trans hr) hm
      rw [show max 1 (k + 1) = k + 1 by omega] at h1 h3
      rw [show max 1 (k + 1 + 1) = k + 1 + 1 by omega]
      refine ⟨by rw [execTimes_succ_next _ (hexec s)]; exact h1, h2, fun j u hj hu => ?_⟩
      cases j with
      | zero => cases hu; exact hr
      | succ j => rw [execTimes_succ_next _ (hexec s)] at hu; exact h3 j u (by omega) hu

end Sys2Proof.Machine
end

