-- ==== Sys2Proof/Laws/Bits.lean ====
section
/-! SUPPORT. Bits and bytes: `byteBits` and `bitsByte` are inverse, the writer's accumulator and the
reader's buffer in terms of them, and packing. -/

namespace Sys2Proof.Machine

/-! ## One byte -/

theorem byteBits_length (v : Byte) : (byteBits v).length = 8 := rfl

theorem bitsByte_octet : ∀ (a b c d e f g h : Bool) (i : Fin 8),
    (BitVec.ofBool a ++ BitVec.ofBool b ++ BitVec.ofBool c ++ BitVec.ofBool d ++ BitVec.ofBool e
      ++ BitVec.ofBool f ++ BitVec.ofBool g ++ BitVec.ofBool h).getLsbD i.val
      = [a, b, c, d, e, f, g, h].getD (7 - i.val) false := by decide

theorem getLsbD_bitsByte (b : Bits) (i : Nat) (hi : i < 8) :
    (bitsByte b).getLsbD i = b.getD (7 - i) false := by
  rw [bitsByte, bitsByte_octet _ _ _ _ _ _ _ _ ⟨i, hi⟩]
  interval_cases i <;> rfl

theorem getD_byteBits (v : Byte) (j : Nat) : (byteBits v).getD j false = (decide (j < 8) && v.getLsbD (7 - j)) := by
  by_cases h : j < 8
  · interval_cases j <;> simp [byteBits]
  · simp [h, byteBits_length]

/-- A byte is the byte of its bits. -/
theorem bitsByte_byteBits (v : Byte) : bitsByte (byteBits v) = v := by
  apply BitVec.eq_of_getLsbD_eq
  intro i hi
  rw [getLsbD_bitsByte _ _ hi, getD_byteBits, show 7 - (7 - i) = i by omega]
  simp; omega

theorem byteBits_inj {u v : Byte} (h : byteBits u = byteBits v) : u = v := by
  rw [← bitsByte_byteBits u, h, bitsByte_byteBits]

theorem byteBits_bitsByte {b : Bits} (h : b.length = 8) : byteBits (bitsByte b) = b := by
  match b, h with
  | [a0, a1, a2, a3, a4, a5, a6, a7], _ =>
    revert a0 a1 a2 a3 a4 a5 a6 a7; decide

theorem place_bitsByte (t : Bits) (hn : t.length < 8) (b : Bool) :
    bitsByte t ||| ((BitVec.ofBool b).setWidth 8 <<< (7 - t.length)) = bitsByte (t ++ [b]) := by
  apply BitVec.eq_of_getLsbD_eq
  intro i hi
  simp only [BitVec.getLsbD_or, getLsbD_bitsByte _ _ hi, BitVec.getLsbD_shiftLeft, BitVec.getLsbD_setWidth,
    BitVec.getLsbD_ofBool, List.getD_eq_getElem?_getD, List.getElem?_append]
  rcases lt_trichotomy (7 - i) t.length with h | h | h
  · simp [h]; grind
  · simp [show i = 7 - t.length by omega]; grind
  · simp [show ¬ (7 - i < t.length) by omega]; grind

theorem or_shift_bitsByte (t : Bits) (hn : t.length < 8) (v : Byte) :
    bitsByte t ||| (v >>> t.length) = bitsByte (t ++ byteBits v) := by
  apply BitVec.eq_of_getLsbD_eq
  intro i hi
  simp only [BitVec.getLsbD_or, getLsbD_bitsByte _ _ hi, BitVec.getLsbD_ushiftRight]
  by_cases h : 7 - i < t.length
  · rw [List.getD_append _ _ _ _ h, BitVec.getLsbD_of_ge _ _ (by omega)]; simp
  · rw [List.getD_append_right _ _ _ _ (by omega), List.getD_eq_default _ _ (by omega), getD_byteBits]
    simp [show 7 - i - t.length < 8 by omega, show 7 - (7 - i - t.length) = t.length + i by omega]

theorem shiftLeft_byteBits (n : Nat) (v : Byte) :
    v <<< (8 - n) = bitsByte ((byteBits v).drop (8 - n)) := by
  apply BitVec.eq_of_getLsbD_eq
  intro i hi
  rw [getLsbD_bitsByte _ _ hi, List.getD_eq_getElem?_getD, List.getElem?_drop, ← List.getD_eq_getElem?_getD, getD_byteBits]
  simp only [BitVec.getLsbD_shiftLeft]
  by_cases h : i < 8 - n
  · simp [h, show ¬ (8 - n + (7 - i) < 8) by omega]
  · simp [h, show (8 - n + (7 - i) < 8) by omega, show 7 - (8 - n + (7 - i)) = i - (8 - n) by omega, hi]

/-- Bits past the eighth do not count. -/
theorem bitsByte_take (b : Bits) : bitsByte (b.take 8) = bitsByte b := by
  apply BitVec.eq_of_getLsbD_eq
  intro i hi
  rw [getLsbD_bitsByte _ _ hi, getLsbD_bitsByte _ _ hi]
  simp [show 7 - i < 8 by omega]

theorem lowMask (c i : Fin 8) : ((1#8 <<< c.val) - 1#8).getLsbD i.val = decide (i.val < c.val) := by
  revert c i; decide

/-- Zeros after the bits of a byte change nothing. -/
theorem bitsByte_append_false (b : Bits) (k : Nat) : bitsByte (b ++ List.replicate k false) = bitsByte b := by
  apply BitVec.eq_of_getLsbD_eq
  intro i hi
  rw [getLsbD_bitsByte _ _ hi, getLsbD_bitsByte _ _ hi]
  simp only [List.getD_eq_getElem?_getD, List.getElem?_append, List.getElem?_replicate]
  grind

/-- The bits of a byte made of fewer than 8: they come first, zeros after them. -/
theorem byteBits_bitsByte_short (b : Bits) (h : b.length ≤ 8) :
    byteBits (bitsByte b) = b ++ List.replicate (8 - b.length) false := by
  rw [← bitsByte_append_false b (8 - b.length), byteBits_bitsByte (by simp; omega)]

/-- ReadByte's byte is the buffered bits followed by the head of the pulled byte (R125). -/
theorem joinByte_bits (buf v : Byte) (c : Nat) (hc : c < 8) :
    joinByte buf c v = bitsByte ((byteBits buf).drop (8 - c) ++ byteBits v) := by
  apply BitVec.eq_of_getLsbD_eq
  intro i hi
  rw [getLsbD_bitsByte _ _ hi, joinByte]
  simp only [BitVec.getLsbD_or, BitVec.getLsbD_shiftLeft, BitVec.getLsbD_ushiftRight, BitVec.getLsbD_and]
  by_cases h : 7 - i < c
  · have hm := lowMask ⟨c, hc⟩ ⟨i - (8 - c), by omega⟩
    simp only at hm
    rw [List.getD_append _ _ _ _ (by simp [byteBits_length]; omega), List.getD_eq_getElem?_getD,
      List.getElem?_drop, ← List.getD_eq_getElem?_getD, getD_byteBits, BitVec.getLsbD_of_ge v _ (by omega)]
    rw [hm]
    simp [hi, show ¬ i < 8 - c by omega, show (8 - c + (7 - i) < 8) by omega,
      show 7 - (8 - c + (7 - i)) = i - (8 - c) by omega, show i - (8 - c) < c by omega]
  · rw [List.getD_append_right _ _ _ _ (by simp [byteBits_length]; omega), getD_byteBits]
    simp [byteBits_length, show i < 8 - c by omega, show 7 - i - (8 - (8 - c)) < 8 by omega,
      show 7 - (7 - i - (8 - (8 - c))) = c + i by omega]

theorem getLsbD_seven (v : Byte) : (byteBits v)[0]? = some (v.getLsbD 7) := rfl

/-! ## Byte sequences -/

@[simp] theorem bytesBits_nil : bytesBits [] = [] := rfl
@[simp] theorem bytesBits_cons (v : Byte) (bs : List Byte) : bytesBits (v :: bs) = byteBits v ++ bytesBits bs := rfl
@[simp] theorem bytesBits_append (a b : List Byte) : bytesBits (a ++ b) = bytesBits a ++ bytesBits b := by
  simp [bytesBits]
@[simp] theorem bytesBits_length (bs : List Byte) : (bytesBits bs).length = 8 * bs.length := by
  induction bs with
  | nil => rfl
  | cons v bs ih => simp [ih, byteBits_length]; omega

theorem bytesBits_inj {a b : List Byte} (h : bytesBits a = bytesBits b) : a = b := by
  induction a generalizing b with
  | nil =>
    cases b with
    | nil => rfl
    | cons v b => simp [byteBits] at h
  | cons u a ih =>
    cases b with
    | nil => simp [byteBits] at h
    | cons v b =>
      have := List.append_inj h (by simp [byteBits_length])
      rw [byteBits_inj this.1, ih this.2]

/-! ## Packing -/

theorem packUpTo_nil (k : Nat) : packUpTo k [] = [] := by cases k <;> rfl

theorem packUpTo_succ_of_le (k : Nat) (b : Bits) (h : 1 ≤ b.length) :
    packUpTo (k + 1) b = bitsByte (b.take 8) :: packUpTo k (b.drop 8) := by
  cases b with
  | nil => simp at h
  | cons => rfl

theorem packUpTo_append (k : Nat) (b c : Bits) (h : 8 * k ≤ b.length) :
    packUpTo k (b ++ c) = packUpTo k b := by
  induction k generalizing b with
  | zero => rfl
  | succ k ih =>
    rw [packUpTo_succ_of_le _ _ (by simp; omega), packUpTo_succ_of_le _ _ (by omega),
      List.take_append_of_le_length (by omega), List.drop_append_of_le_length (by omega),
      ih _ (by simp; omega)]

theorem packUpTo_snoc (k : Nat) (b : Bits) (h : 8 * k < b.length) :
    packUpTo (k + 1) b = packUpTo k b ++ [bitsByte (b.drop (8 * k))] := by
  induction k generalizing b with
  | zero => rw [packUpTo_succ_of_le _ _ (by omega)]; simp [packUpTo, bitsByte_take]
  | succ k ih =>
    rw [packUpTo_succ_of_le _ _ (by omega), ih _ (by simp; omega), packUpTo_succ_of_le k _ (by omega)]
    simp [List.drop_drop]; congr 2; omega

theorem packUpTo_of_le {k m : Nat} (b : Bits) (hk : b.length ≤ 8 * k) (hm : k ≤ m) :
    packUpTo m b = packUpTo k b := by
  induction k generalizing b m with
  | zero => simp at hk; subst hk; rw [packUpTo_nil, packUpTo_nil]
  | succ k ih =>
    cases m with
    | zero => omega
    | succ m =>
      by_cases h : b = []
      · subst h; rw [packUpTo_nil, packUpTo_nil]
      · have : 1 ≤ b.length := by have := List.length_pos_iff.mpr h; omega
        rw [packUpTo_succ_of_le _ _ this, packUpTo_succ_of_le _ _ this, ih _ (by simp; omega) (by omega)]

theorem packUpTo_length (k : Nat) (b : Bits) (h : 8 * k ≤ b.length) : (packUpTo k b).length = k := by
  induction k generalizing b with
  | zero => rfl
  | succ k ih => rw [packUpTo_succ_of_le _ _ (by omega), List.length_cons, ih _ (by simp; omega)]

theorem bytesBits_packUpTo (k : Nat) (b : Bits) (h : 8 * k ≤ b.length) :
    bytesBits (packUpTo k b) = b.take (8 * k) := by
  induction k generalizing b with
  | zero => simp [packUpTo]
  | succ k ih =>
    rw [packUpTo_succ_of_le _ _ (by omega), bytesBits_cons, ih _ (by simp; omega),
      byteBits_bitsByte (by simp; omega), show 8 * (k + 1) = 8 + 8 * k by omega, List.take_add]

/-- The whole bytes of a bit sequence. -/
def fullBytes (b : Bits) : List Byte := packUpTo (b.length / 8) b

/-- The bits after the last whole byte. -/
def tailBits (b : Bits) : Bits := b.drop (8 * (b.length / 8))

@[simp] theorem tailBits_length (b : Bits) : (tailBits b).length = b.length % 8 := by
  simp [tailBits]; omega

@[simp] theorem fullBytes_length (b : Bits) : (fullBytes b).length = b.length / 8 :=
  packUpTo_length _ _ (by omega)

theorem bytesBits_fullBytes (b : Bits) : bytesBits (fullBytes b) = b.take (8 * (b.length / 8)) :=
  bytesBits_packUpTo _ _ (by omega)

theorem bytesBits_fullBytes_tailBits (b : Bits) : bytesBits (fullBytes b) ++ tailBits b = b := by
  rw [bytesBits_fullBytes, tailBits, List.take_append_drop]

/-- A bit that does not complete a byte. -/
theorem fullBytes_snoc_of_ne (b : Bits) (x : Bool) (h : b.length % 8 ≠ 7) :
    fullBytes (b ++ [x]) = fullBytes b ∧ tailBits (b ++ [x]) = tailBits b ++ [x] := by
  have : (b ++ [x]).length / 8 = b.length / 8 := by simp; omega
  refine ⟨by rw [fullBytes, this, packUpTo_append _ _ _ (by omega), fullBytes], ?_⟩
  rw [tailBits, this, List.drop_append_of_le_length (by omega), tailBits]

/-- A bit that completes a byte. -/
theorem fullBytes_snoc_of_eq (b : Bits) (x : Bool) (h : b.length % 8 = 7) :
    fullBytes (b ++ [x]) = fullBytes b ++ [bitsByte (tailBits b ++ [x])] ∧ tailBits (b ++ [x]) = [] := by
  have : (b ++ [x]).length / 8 = b.length / 8 + 1 := by simp; omega
  refine ⟨?_, List.eq_nil_of_length_eq_zero (by rw [tailBits_length]; simp; omega)⟩
  rw [fullBytes, this, packUpTo_snoc _ _ (by simp; omega), packUpTo_append _ _ _ (by omega),
    List.drop_append_of_le_length (by omega), fullBytes, tailBits]

/-- A byte at any alignment completes exactly one byte. -/
theorem fullBytes_append_byte (b : Bits) (v : Byte) :
    fullBytes (b ++ byteBits v) = fullBytes b ++ [bitsByte (tailBits b ++ byteBits v)]
      ∧ tailBits (b ++ byteBits v) = (byteBits v).drop (8 - b.length % 8) := by
  have : (b ++ byteBits v).length / 8 = b.length / 8 + 1 := by simp [byteBits_length]
  constructor
  · rw [fullBytes, this, packUpTo_snoc _ _ (by simp [byteBits_length]; omega), packUpTo_append _ _ _ (by omega),
      List.drop_append_of_le_length (by omega), fullBytes, tailBits]
  · rw [tailBits, this, List.drop_append, List.drop_eq_nil_of_le (by omega), List.nil_append]
    congr 1; omega

theorem packBits_eq (b : Bits) :
    packBits b = fullBytes b ++ if b.length % 8 = 0 then [] else [bitsByte (tailBits b)] := by
  split
  · next h =>
    rw [List.append_nil]
    exact packUpTo_of_le _ (by omega) (by omega)
  · next h =>
    rw [packBits, packUpTo_of_le (k := b.length / 8 + 1) _ (by omega) (by omega),
      packUpTo_snoc _ _ (by omega), fullBytes, tailBits]

/-- Packing completes the last byte with zeros (R102). -/
theorem bytesBits_packBits (b : Bits) :
    bytesBits (packBits b) = b ++ List.replicate ((8 - b.length % 8) % 8) false := by
  rw [packBits_eq]
  conv_rhs => rw [← bytesBits_fullBytes_tailBits b]
  split
  · next h =>
    have : tailBits b = [] := List.eq_nil_of_length_eq_zero (by rw [tailBits_length]; omega)
    simp [this, bytesBits_fullBytes]
    omega
  · next h =>
    rw [bytesBits_append, bytesBits_cons, bytesBits_nil, List.append_nil, byteBits_bitsByte_short _ (by simp; omega)]
    simp [bytesBits_fullBytes]
    omega

theorem packBits_bytesBits (bs : List Byte) : packBits (bytesBits bs) = bs := by
  apply bytesBits_inj
  rw [bytesBits_packBits]; simp

end Sys2Proof.Machine
end

