-- ==== Sys2Proof/Laws/Ops.lean ====
section
/-! SUPPORT. One lemma for each shared operation. A writer that is open and keeps its invariant is
determined by the bits written through it, a reader by the number of bits read: in these terms
WriteBit appends a bit, ReadBit moves by one. -/

namespace Sys2Proof.Machine

/-! ## Updates of one reader, writer or port -/

@[simp] theorem setReader_setReader (s : State) (p : PortNum) (a b : Reader) :
    (s.setReader p a).setReader p b = s.setReader p b := by cases p <;> rfl
@[simp] theorem setWriter_setWriter (s : State) (p : PortNum) (a b : Writer) :
    (s.setWriter p a).setWriter p b = s.setWriter p b := by cases p <;> rfl
@[simp] theorem setSink_setSink (s : State) (p : PortNum) (a b : Sink) :
    (s.setSink p a).setSink p b = s.setSink p b := by cases p <;> rfl
theorem setWriter_setSink (s : State) (p : PortNum) (w : Writer) (x : Sink) :
    (s.setWriter p w).setSink p x = (s.setSink p x).setWriter p w := by cases p <;> rfl
theorem setReader_self (s : State) (p : PortNum) : s.setReader p (s.reader p) = s := by cases p <;> rfl
theorem setWriter_self (s : State) (p : PortNum) : s.setWriter p (s.writer p) = s := by cases p <;> rfl
theorem setSink_self (s : State) (p : PortNum) : s.setSink p (s.sink p) = s := by cases p <;> rfl

/-! ## Writers -/

/-- The open writer through which b was written. -/
def writerAt (b : Bits) : Writer where
  opened := true
  acc := bitsByte (tailBits b)
  n := ⟨b.length % 8, Nat.mod_lt _ (by omega)⟩

/-- The state in which b, and nothing else, has been written through writer Wp since it was opened. -/
def State.wrote (s : State) (p : PortNum) (b : Bits) : State :=
  (s.setSink p { s.sink p with data := fullBytes b }).setWriter p (writerAt b)

@[simp] theorem wrote_writer (s : State) (p : PortNum) (b : Bits) : (s.wrote p b).writer p = writerAt b := by
  simp [State.wrote]
@[simp] theorem wrote_sink (s : State) (p : PortNum) (b : Bits) :
    (s.wrote p b).sink p = { s.sink p with data := fullBytes b } := by simp [State.wrote]
@[simp] theorem wrote_reader (s : State) (p q : PortNum) (b : Bits) : (s.wrote p b).reader q = s.reader q := by
  simp [State.wrote]
@[simp] theorem wrote_source (s : State) (p q : PortNum) (b : Bits) : (s.wrote p b).source q = s.source q := by
  simp [State.wrote]
@[simp] theorem wrote_wrote (s : State) (p : PortNum) (b c : Bits) : (s.wrote p b).wrote p c = s.wrote p c := by
  cases p <;> rfl
theorem wrote_goto (s : State) (p : PortNum) (b : Bits) (q : Pos) : (s.goto q).wrote p b = (s.wrote p b).goto q := by
  cases p <;> rfl

theorem push_wrote (s : State) (p : PortNum) (b : Bits) (v : Byte) (h : (s.sink p).avail = true) :
    push p v (s.wrote p b)
      = .ok () ((s.setSink p { s.sink p with data := fullBytes b ++ [v] }).setWriter p (writerAt b)) := by
  simp [push, h, State.wrote, setWriter_setSink]

theorem bitPushes_wrote (s : State) (p : PortNum) (b : Bits) :
    bitPushes p (s.wrote p b) = decide (b.length % 8 = 7) := by
  rw [Bool.eq_iff_iff]
  simp [bitPushes, writerAt, Fin.ext_iff]

/-- WriteBit appends a bit (R128). A Push is needed when the bit completes a byte. -/
theorem writeBit_wrote (s : State) (p : PortNum) (b : Bits) (x : Bool)
    (h : b.length % 8 = 7 → (s.sink p).avail = true) :
    writeBit p x (s.wrote p b) = .ok () (s.wrote p (b ++ [x])) := by
  have hplace : (writerAt b).place x = bitsByte (tailBits b ++ [x]) := by
    rw [← place_bitsByte _ (by simp; omega)]
    simp [Writer.place, writerAt]
  unfold writeBit
  by_cases h7 : b.length % 8 = 7
  · obtain ⟨hf, ht⟩ := fullBytes_snoc_of_eq b x h7
    have : (writerAt b).n = 7 := Fin.ext h7
    simp only [wrote_writer, this, if_true, push_wrote _ _ _ _ (h h7), setWriter_setWriter, hplace]
    rw [State.wrote, hf]
    congr 2
    simp [writerAt, ht, bitsByte, List.length_append, Fin.ext_iff]
    omega
  · obtain ⟨hf, ht⟩ := fullBytes_snoc_of_ne b x h7
    have : (writerAt b).n ≠ 7 := fun e => h7 (congrArg Fin.val e)
    simp only [wrote_writer, this, if_false, hplace]
    rw [State.wrote, State.wrote, hf, setWriter_setWriter]
    congr 2
    simp only [writerAt, ht, Writer.mk.injEq, true_and, List.length_append, List.length_singleton, Fin.ext_iff, Fin.val_add]
    simp

/-- WriteByte appends eight bits (R129, R140). -/
theorem writeByte_wrote (s : State) (p : PortNum) (b : Bits) (v : Byte) (h : (s.sink p).avail = true) :
    writeByte p v (s.wrote p b) = .ok () (s.wrote p (b ++ byteBits v)) := by
  obtain ⟨hf, ht⟩ := fullBytes_append_byte b v
  have hl := or_shift_bitsByte (tailBits b) (by simp; omega) v
  have hr := shiftLeft_byteBits (b.length % 8) v
  rw [tailBits_length] at hl
  unfold writeByte
  simp only [wrote_writer, push_wrote _ _ _ _ h, setWriter_setWriter]
  rw [State.wrote, hf, show (writerAt b).acc ||| (v >>> (writerAt b).n.val) = bitsByte (tailBits b ++ byteBits v) from hl]
  congr 2
  simp only [writerAt, Writer.mk.injEq, true_and, ht, Fin.ext_iff, List.length_append, byteBits_length]
  exact ⟨hr, by omega⟩

theorem writeBit_refused (s : State) (p : PortNum) (b : Bits) (x : Bool) (h7 : b.length % 8 = 7)
    (h : (s.sink p).avail = false) :
    writeBit p x (s.wrote p b) = .raise .sinkUnavailable (s.wrote p b) := by
  have : (writerAt b).n = 7 := Fin.ext h7
  simp [writeBit, this, push, h]

theorem writeByte_refused (s : State) (p : PortNum) (v : Byte) (h : (s.sink p).avail = false) :
    writeByte p v s = .raise .sinkUnavailable s := by
  simp [writeByte, push, h]

theorem closePushes_wrote (s : State) (p : PortNum) (b : Bits) :
    closePushes p (s.wrote p b) = decide (b.length % 8 ≠ 0) := by
  simp [closePushes, writerAt, Fin.ext_iff, bne, Bool.beq_eq_decide_eq]

/-- CloseW completes the last byte with zeros (R127). -/
theorem closeW_wrote (s : State) (p : PortNum) (b : Bits) (h : (s.sink p).avail = true) :
    closeW p (s.wrote p b)
      = .ok () ((s.setSink p { s.sink p with data := packBits b }).setWriter p Writer.closed) := by
  unfold closeW
  rw [packBits_eq]
  by_cases h0 : b.length % 8 = 0
  · simp [h0, State.wrote, writerAt]
  · simp [h0, State.wrote, push, h, setWriter_setSink]
    simp [writerAt, Fin.ext_iff, h0]

theorem closeW_closed (s : State) (p : PortNum) (h : (s.writer p).opened = false) : closeW p s = .ok () s := by
  simp [closeW, h]

theorem openW_closed (s : State) (p : PortNum) (h : (s.writer p).opened = false) (ha : (s.sink p).avail = true) :
    openW p s = .ok () (s.wrote p []) := by
  have : writerAt [] = { Writer.closed with opened := true } := by decide
  simp [openW, h, ha, State.wrote, this]; rfl

/-- The bits written are those of the state's name. -/
theorem written_wrote (s : State) (p : PortNum) (b : Bits) : (s.wrote p b).written p = b := by
  simp only [State.written, wrote_sink, wrote_writer]
  conv_rhs => rw [← bytesBits_fullBytes_tailBits b]
  congr 1
  rw [writerAt, byteBits_bitsByte_short _ (by simp; omega), List.take_append_of_le_length (by simp)]
  exact List.take_of_length_le (by simp)

theorem byteBits_getElem? (v : Byte) (j : Nat) (h : j < 8) : (byteBits v)[j]? = some (v.getLsbD (7 - j)) := by
  interval_cases j <;> rfl

theorem highMask (n i : Fin 8) : (0xFF#8 >>> n.val).getLsbD i.val = decide (n.val + i.val < 8) := by
  revert n i; decide

/-- The bits below the accumulated ones are zero: the byte is that of the accumulated bits (R27). -/
theorem lowZero_iff (n : Fin 8) (v : Byte) :
    v &&& (0xFF#8 >>> n.val) = 0 ↔ bitsByte ((byteBits v).take n.val) = v := by
  have hbit : ∀ i : Fin 8, (bitsByte ((byteBits v).take n.val)).getLsbD i.val
      = (decide (7 - i.val < n.val) && v.getLsbD i.val) := by
    intro i
    rw [getLsbD_bitsByte _ _ i.isLt, List.getD_eq_getElem?_getD, List.getElem?_take]
    split
    · rw [byteBits_getElem? _ _ (by omega), show 7 - (7 - i.val) = i.val by omega]; simp [*]
    · simp [*]
  constructor
  · intro h
    apply BitVec.eq_of_getLsbD_eq
    intro i hi
    have h1 := hbit ⟨i, hi⟩
    have h2 := congrArg (fun x => BitVec.getLsbD x i) h
    have h3 := highMask n ⟨i, hi⟩
    simp only [BitVec.getLsbD_and] at h1 h2 h3
    rw [h1]
    rw [h3] at h2
    by_cases hc : 7 - i < n.val
    · simp [hc]
    · have : n.val + i < 8 := by omega
      simpa [hc, this, BitVec.getLsbD_zero] using h2.symm
  · intro h
    apply BitVec.eq_of_getLsbD_eq
    intro i hi
    have h1 := hbit ⟨i, hi⟩
    have h3 := highMask n ⟨i, hi⟩
    rw [h] at h1
    simp only at h1 h3
    rw [BitVec.getLsbD_and, h3, h1]
    by_cases hc : 7 - i < n.val
    · simp [show ¬ n.val + i < 8 by omega]
    · simp [hc]

/-- An open writer that keeps its invariant is determined by the bits written through it. -/
theorem eq_wrote (s : State) (p : PortNum) (h : WriterOk (s.writer p)) (ho : (s.writer p).opened = true) :
    s = s.wrote p (s.written p) := by
  have hlen : (s.written p).length = 8 * (s.sink p).data.length + (s.writer p).n.val := by
    simp [State.written, byteBits_length]
  have htail : tailBits (s.written p) = (byteBits (s.writer p).acc).take (s.writer p).n.val := by
    rw [tailBits, hlen, show 8 * ((8 * (s.sink p).data.length + (s.writer p).n.val) / 8)
      = (bytesBits (s.sink p).data).length by simp; omega, State.written, List.drop_left]
  have hfull : fullBytes (s.written p) = (s.sink p).data := by
    apply bytesBits_inj
    rw [bytesBits_fullBytes, hlen, State.written, List.take_append_of_le_length (by simp; omega),
      List.take_of_length_le (by simp; omega)]
  have hw : writerAt (s.written p) = s.writer p := by
    simp only [writerAt, htail, (lowZero_iff _ _).1 h.lowZero]
    rcases hs : s.writer p with ⟨o, a, n⟩
    rw [hs] at ho hlen
    simp only at ho hlen
    simp only [Writer.mk.injEq, ho, true_and, Fin.ext_iff, hlen]
    omega
  rw [State.wrote, hfull, hw]
  exact ((congrArg (State.setWriter · p (s.writer p)) (setSink_self s p)).trans (setWriter_self s p)).symm

theorem writerAt_ok (b : Bits) : WriterOk (writerAt b) := by
  refine ⟨fun h => (by cases h), ?_⟩
  rw [lowZero_iff]
  simp only [writerAt]
  rw [byteBits_bitsByte_short _ (by simp; omega), List.take_append_of_le_length (by simp),
    List.take_of_length_le (by simp)]

/-! ## Readers -/

/-- The open reader that has read m bits of the data. -/
def readerAt (data : List Byte) (m : Nat) : Reader where
  opened := true
  pos := (m + 7) / 8
  buf := if m = 0 then 0 else data.getD ((m + 7) / 8 - 1) 0
  cnt := ⟨(8 - m % 8) % 8, Nat.mod_lt _ (by omega)⟩

/-- The state in which reader Rp is open and has read m bits. -/
def State.readAt (s : State) (p : PortNum) (m : Nat) : State :=
  s.setReader p (readerAt (s.source p).data m)

@[simp] theorem readAt_reader (s : State) (p : PortNum) (m : Nat) :
    (s.readAt p m).reader p = readerAt (s.source p).data m := by simp [State.readAt]
@[simp] theorem readAt_source (s : State) (p q : PortNum) (m : Nat) : (s.readAt p m).source q = s.source q := by
  simp [State.readAt]
@[simp] theorem readAt_sink (s : State) (p q : PortNum) (m : Nat) : (s.readAt p m).sink q = s.sink q := by
  simp [State.readAt]
@[simp] theorem readAt_writer (s : State) (p q : PortNum) (m : Nat) : (s.readAt p m).writer q = s.writer q := by
  simp [State.readAt]
@[simp] theorem readAt_readAt (s : State) (p : PortNum) (m k : Nat) : (s.readAt p m).readAt p k = s.readAt p k := by
  simp [State.readAt]

theorem openR_avail (s : State) (p : PortNum) (ha : (s.source p).avail = true) :
    openR p s = .ok () (s.readAt p 0) := by simp [openR, ha]; rfl

theorem bitPulls_readAt (s : State) (p : PortNum) (m : Nat) :
    bitPulls p (s.readAt p m) = decide (m % 8 = 0) := by
  simp only [bitPulls, readAt_reader, readerAt, Bool.beq_eq_decide_eq, Fin.ext_iff, Fin.val_zero]
  congr 1
  simp only [eq_iff_iff]; omega

theorem atEnd_readAt (s : State) (p : PortNum) (m : Nat) :
    atEnd p (s.readAt p m) = decide (m % 8 = 0 ∧ 8 * (s.source p).data.length ≤ m) := by
  simp only [atEnd, readAt_reader, readAt_source, readerAt, Bool.beq_eq_decide_eq, Fin.ext_iff, Fin.val_zero]
  rw [← Bool.decide_and]
  congr 1
  simp only [eq_iff_iff]
  omega

theorem pull_readAt (s : State) (p : PortNum) (m : Nat) (h : (m + 7) / 8 < (s.source p).data.length)
    (ha : (s.source p).avail = true) :
    pull p (s.readAt p m) = .ok ((s.source p).data.getD ((m + 7) / 8) 0)
      (s.setReader p { readerAt (s.source p).data m with pos := (m + 7) / 8 + 1 }) := by
  simp [pull, readerAt, h, ha, State.readAt]

theorem pull_end (s : State) (p : PortNum) (m : Nat) (h : (s.source p).data.length ≤ (m + 7) / 8) :
    pull p (s.readAt p m) = .raise .endOfStream (s.readAt p m) := by
  simp [pull, readerAt, h]

theorem bytesBits_getElem? (bs : List Byte) (m : Nat) (h : m < 8 * bs.length) :
    (bytesBits bs)[m]? = (byteBits (bs.getD (m / 8) 0))[m % 8]? := by
  induction bs generalizing m with
  | nil => simp at h
  | cons v bs ih =>
    rw [bytesBits_cons, List.getElem?_append]
    by_cases hm : m < 8
    · rw [if_pos (by simpa [byteBits_length] using hm), Nat.mod_eq_of_lt hm, Nat.div_eq_of_lt hm]; rfl
    · rw [if_neg (by simpa [byteBits_length] using hm), byteBits_length, ih _ (by simp at h; omega),
        show m / 8 = (m - 8) / 8 + 1 by omega, show (m - 8) % 8 = m % 8 by omega]
      rfl

/-- ReadBit returns the next bit and moves by one (R124). A Pull is needed when no bit is buffered. -/
theorem readBit_readAt (s : State) (p : PortNum) (m : Nat) (x : Bool)
    (hx : (bytesBits (s.source p).data)[m]? = some x) (ha : m % 8 = 0 → (s.source p).avail = true) :
    readBit p (s.readAt p m) = .ok x (s.readAt p (m + 1)) := by
  have hm : m < 8 * (s.source p).data.length := by
    have := (List.getElem?_eq_some_iff.1 hx).1
    simpa using this
  rw [bytesBits_getElem? _ _ hm, byteBits_getElem? _ _ (Nat.mod_lt _ (by omega))] at hx
  cases hx
  unfold readBit
  by_cases h0 : m % 8 = 0
  · have hc : (readerAt (s.source p).data m).cnt = 0 := Fin.ext (by simp [readerAt, h0])
    have hd : (m + 7) / 8 = m / 8 := by omega
    have hd' : (m + 8) / 8 = m / 8 + 1 := by omega
    simp only [readAt_reader, hc, if_true, pull_readAt s p m (by omega) (ha h0)]
    simp only [setReader_reader, setReader_setReader, State.readAt, hd, h0, Nat.sub_zero]
    congr 2
    simp only [readerAt, Reader.mk.injEq, true_and, Nat.succ_ne_zero, if_false, Nat.add_assoc, hd', Fin.ext_iff]
    exact ⟨by rw [Nat.add_sub_cancel], by show (7 : Nat) = (8 - (m + 1) % 8) % 8; omega⟩
  · have hc : (readerAt (s.source p).data m).cnt ≠ 0 := fun e => by
      have := congrArg Fin.val e
      simp [readerAt] at this
      omega
    have hd : (m + 7) / 8 = m / 8 + 1 := by omega
    have hd' : (m + 1 + 7) / 8 = m / 8 + 1 := by omega
    have hm0 : m ≠ 0 := by omega
    simp only [readAt_reader, hc, if_false]
    simp only [State.readAt, setReader_setReader]
    congr 2
    · simp only [readerAt, hm0, if_false, hd]
      congr 1
    · simp only [readerAt]; omega
    · simp only [readerAt, Reader.spend, Reader.mk.injEq, hd, hd', hm0, Nat.succ_ne_zero, if_false, true_and, Fin.ext_iff]
      rw [Fin.sub_val_of_le (by rw [Fin.le_def]; show 1 ≤ (8 - m % 8) % 8; omega)]
      show (8 - m % 8) % 8 - 1 = (8 - (m + 1) % 8) % 8
      omega

theorem readBit_end (s : State) (p : PortNum) (m : Nat) (h0 : m % 8 = 0)
    (h : 8 * (s.source p).data.length ≤ m) :
    readBit p (s.readAt p m) = .raise .endOfStream (s.readAt p m) := by
  have hc : (readerAt (s.source p).data m).cnt = 0 := Fin.ext (by simp [readerAt, h0])
  simp only [readBit, readAt_reader, hc, if_true, pull_end s p m (by omega)]

theorem drop_bytesBits (bs : List Byte) (k : Nat) (h : k < bs.length) :
    (bytesBits bs).drop (8 * k) = byteBits (bs.getD k 0) ++ (bytesBits bs).drop (8 * (k + 1)) := by
  induction bs generalizing k with
  | nil => simp at h
  | cons v bs ih =>
    cases k with
    | zero => simp [List.drop_append, byteBits_length]
    | succ k =>
      have := ih k (by simpa using h)
      have hd : ∀ j, (byteBits v ++ bytesBits bs).drop (8 * (j + 1)) = (bytesBits bs).drop (8 * j) := fun j => by
        rw [show 8 * (j + 1) = (byteBits v).length + 8 * j by simp [byteBits_length]; omega, List.drop_length_add_append]
      rw [bytesBits_cons, hd, hd, this]
      rfl

/-- ReadByte returns the next eight bits and moves by eight (R125). -/
theorem readByte_readAt (s : State) (p : PortNum) (m : Nat) (h : m + 8 ≤ 8 * (s.source p).data.length)
    (ha : (s.source p).avail = true) :
    readByte p (s.readAt p m) = .ok (bitsByte ((bytesBits (s.source p).data).drop m)) (s.readAt p (m + 8)) := by
  unfold readByte
  simp only [pull_readAt s p m (by omega) ha]
  simp only [setReader_reader, setReader_setReader, State.readAt]
  congr 1
  · rw [joinByte_bits _ _ _ (Fin.isLt _)]
    simp only [readerAt]
    by_cases h0 : m % 8 = 0
    · simp only [h0, Nat.sub_zero, Nat.mod_self, List.drop_of_length_le (show (byteBits _).length ≤ 8 from Nat.le_refl 8),
        List.nil_append]
      have := drop_bytesBits (s.source p).data (m / 8) (by omega)
      rw [show 8 * (m / 8) = m by omega] at this
      rw [this, ← bitsByte_take (byteBits _ ++ _), List.take_append_of_le_length (by simp [byteBits_length]),
        List.take_of_length_le (by simp [byteBits_length]), show (m + 7) / 8 = m / 8 by omega]
    · have h1 := drop_bytesBits (s.source p).data (m / 8) (by omega)
      have h2 := drop_bytesBits (s.source p).data (m / 8 + 1) (by omega)
      have h3 : (bytesBits (s.source p).data).drop m
          = ((bytesBits (s.source p).data).drop (8 * (m / 8))).drop (m % 8) := by
        rw [List.drop_drop]; congr 1; omega
      rw [h3, h1, h2, List.drop_append_of_le_length (by simp [byteBits_length]; omega), ← List.append_assoc,
        ← bitsByte_take (_ ++ _ ++ _), List.take_append_of_le_length (by simp only [List.length_append, List.length_drop, byteBits_length]; omega), bitsByte_take]
      simp only [show m ≠ 0 by omega, if_false, show (m + 7) / 8 = m / 8 + 1 by omega, Nat.add_sub_cancel,
        show 8 - (8 - m % 8) % 8 = m % 8 by omega]
  · congr 1
    simp only [readerAt, Reader.mk.injEq, true_and, Fin.ext_iff, show m + 8 ≠ 0 by omega, if_false,
      show (m + 8 + 7) / 8 = (m + 7) / 8 + 1 by omega, Nat.add_sub_cancel]
    omega

theorem readByte_end (s : State) (p : PortNum) (m : Nat) (h : 8 * (s.source p).data.length < m + 8) :
    readByte p (s.readAt p m) = .raise .endOfStream (s.readAt p m) := by
  simp only [readByte, pull_end s p m (by omega)]

/-- An open reader that keeps its invariant is determined by the number of bits read. -/
theorem eq_readAt (s : State) (p : PortNum) (h : ReaderOk (s.reader p) (s.source p).data)
    (ho : (s.reader p).opened = true) :
    s = s.readAt p (8 * (s.reader p).pos - (s.reader p).cnt.val) := by
  have : readerAt (s.source p).data (8 * (s.reader p).pos - (s.reader p).cnt.val) = s.reader p := by
    rcases hr : s.reader p with ⟨o, k, b, c⟩
    rw [hr] at h ho
    obtain ⟨-, -, hfresh, hpull⟩ := h
    simp only at ho hfresh hpull ⊢
    have hc := c.isLt
    simp only [readerAt, Reader.mk.injEq, ho, true_and, Fin.ext_iff]
    rcases Nat.eq_zero_or_pos k with rfl | hk
    · obtain ⟨rfl, rfl⟩ := hfresh rfl
      simp
    · refine ⟨by omega, ?_, by omega⟩
      rw [if_neg (by omega), show (8 * k - c.val + 7) / 8 = k by omega, List.getD_eq_getElem?_getD, hpull hk]
      rfl
  rw [State.readAt, this, setReader_self]

/-- The unread bits are those after the bits read. -/
theorem unread_readAt (s : State) (p : PortNum) (m : Nat) (h : m ≤ 8 * (s.source p).data.length) :
    (s.readAt p m).unread p = (bytesBits (s.source p).data).drop m := by
  have hdrop : ∀ (bs : List Byte) (k : Nat), bytesBits (bs.drop k) = (bytesBits bs).drop (8 * k) := by
    intro bs k
    conv_rhs => rw [← List.take_append_drop k bs, bytesBits_append]
    by_cases hk : k ≤ bs.length
    · rw [show 8 * k = (bytesBits (bs.take k)).length + 0 by simp; omega, List.drop_length_add_append]; rfl
    · rw [List.drop_eq_nil_of_le (by omega), List.drop_eq_nil_of_le (by simp), bytesBits_nil]
  simp only [State.unread, readAt_reader, readAt_source, readerAt, hdrop]
  by_cases h0 : m % 8 = 0
  · rw [List.drop_eq_nil_of_le (by rw [h0]; exact Nat.le_refl 8), List.nil_append]
    congr 1; omega
  · have := drop_bytesBits (s.source p).data (m / 8) (by omega)
    conv_rhs => rw [show m = 8 * (m / 8) + m % 8 by omega, ← List.drop_drop, this]
    rw [List.drop_append_of_le_length (by simp only [byteBits_length]; omega), if_neg (by omega),
      show (m + 7) / 8 = m / 8 + 1 by omega, Nat.add_sub_cancel, show 8 - (8 - m % 8) % 8 = m % 8 by omega]

theorem readerAt_ok (data : List Byte) (m : Nat) (h : m ≤ 8 * data.length) : ReaderOk (readerAt data m) data := by
  refine ⟨fun h => (by cases h), by simp [readerAt]; omega, fun h0 => ?_, fun hp => ?_⟩
  · have : m = 0 := by simp [readerAt] at h0; omega
    subst this
    simp [readerAt]
  · simp only [readerAt] at hp ⊢
    rw [if_neg (by omega), List.getD_eq_getElem?_getD, List.getElem?_eq_getElem (by omega)]
    rfl

end Sys2Proof.Machine
end

