-- ==== Sys2Proof/Laws/Runs.lean ====
section
/-! SUPPORT. The internal computation of every command of several micro-steps is bounded, and the paths
of the loops: writing bits, serializing, deserializing, counting. -/

namespace Sys2Proof.Machine

/-! ## Acts that make no access -/

theorem Act.of_inner {b : Bool} {t u : State} : (Act.of b t).inner = some u ↔ b = false ∧ t = u := by
  cases b <;> simp [Act.of]

theorem Act.of_eq_access {b : Bool} {t u : State} : Act.of b t = .access u ↔ b = true ∧ t = u := by
  cases b <;> simp [Act.of]

@[simp] theorem Act.of_ne_ended {b : Bool} {t u : State} : Act.of b t ≠ .ended u := by
  cases b <;> simp [Act.of]

/-- WriteBit of a bit that completes no byte changes the writer alone, whatever the rest of the state (R128). -/
theorem writeBit_room {p : PortNum} {s : State} (b : Bool) (h : (s.writer p).n.val < 7) :
    bitPushes p s = false
      ∧ writeBit p b s = .ok () (s.setWriter p
        { s.writer p with acc := (s.writer p).place b, n := (s.writer p).n + 1 })
      ∧ ((s.writer p).n + 1).val = (s.writer p).n.val + 1 := by
  have h7 : (s.writer p).n ≠ 7 := fun e => by rw [e] at h; exact absurd h (by decide)
  refine ⟨by simpa [bitPushes] using h7, by rw [writeBit, if_neg h7], ?_⟩
  rw [Fin.val_add]
  simp only [Fin.val_one]
  omega

/-- WriteBit without a Push only fills the accumulator (R128). -/
theorem writeBit_fill {p : PortNum} {b : Bool} {s : State} (h : bitPushes p s = false) :
    ∃ t, writeBit p b s = .ok () t ∧ (t.writer p).n.val = (s.writer p).n.val + 1 := by
  have h7 : (s.writer p).n.val ≠ 7 := fun e => (by simpa [bitPushes] using h : (s.writer p).n ≠ 7) (Fin.ext e)
  obtain ⟨-, hw, hn⟩ := writeBit_room (s := s) (p := p) b (by have := (s.writer p).n.isLt; omega)
  exact ⟨_, hw, by rw [setWriter_writer]; exact hn⟩

/-- ReadBit without a Pull only spends a buffered bit (R124). -/
theorem readBit_spend {p : PortNum} {s : State} (h : bitPulls p s = false) :
    ∃ b t, readBit p s = .ok b t ∧ (t.reader p).cnt.val + 1 = (s.reader p).cnt.val := by
  have h0 : (s.reader p).cnt ≠ 0 := by simpa [bitPulls] using h
  refine ⟨_, _, by rw [readBit, if_neg h0], ?_⟩
  have : (s.reader p).cnt.val ≠ 0 := fun e => h0 (Fin.ext e)
  simp only [setReader_reader, Reader.spend]
  rw [Fin.sub_val_of_le (by rw [Fin.le_def]; show 1 ≤ _; omega)]
  show _ - 1 + 1 = _
  omega

/-! ## Bounds -/

/-- A measure of FREQ_COUNT's internal work. -/
def freqCountSize (s : State) : Nat :=
  match s.pos with
  | .count => 1
  | .raised _ => 1
  | _ => 2

theorem freqCount_bounded (p : PortNum) : Bounded (freqCountAct p) freqCountSize := by
  refine ⟨fun s => by unfold freqCountSize workBound; split <;> omega, fun s u h => ?_⟩
  rcases hp : s.pos <;> simp only [freqCountAct, hp] at h <;> simp only [freqCountSize, hp] <;>
    first
    | (split at h <;> cases h; simp)
    | (unfold countAct at h; split at h
       · cases h
       · split at h <;> cases h)
    | cases h

/-- A measure of TREE_SER's internal work. -/
def treeSerSize (p : PortNum) (s : State) : Nat :=
  match s.pos with
  | .ser _ => 7 - (s.writer p).n.val
  | .raised _ => 0
  | _ => 16

/-- A measure of CODE_EMIT's internal work. -/
def codeEmitSize (p : PortNum) (s : State) : Nat :=
  match s.pos with
  | .emit _ => 7 - (s.writer p).n.val
  | .raised _ => 0
  | _ => 16

theorem serAct_inner {p : PortNum} {todo : List SerItem} {after : State → Act} {s u : State} (hne : todo ≠ [])
    (h : (serAct p todo after s).inner = some u) :
    (∃ l, u.pos = .ser l) ∧ (u.writer p).n.val = (s.writer p).n.val + 1 := by
  match todo, hne with
  | .node (.leaf v) :: rest, _ =>
    obtain ⟨hb, rfl⟩ := Act.of_inner.1 h
    obtain ⟨t, ht, hn⟩ := writeBit_fill (b := false) hb
    rw [ht]; exact ⟨⟨_, rfl⟩, by simpa [Res.goto] using hn⟩
  | .node (.internal l r) :: rest, _ =>
    obtain ⟨hb, rfl⟩ := Act.of_inner.1 h
    obtain ⟨t, ht, hn⟩ := writeBit_fill (b := true) hb
    rw [ht]; exact ⟨⟨_, rfl⟩, by simpa [Res.goto] using hn⟩
  | .value v :: rest, _ => cases h

theorem treeSer_bounded (p : PortNum) : Bounded (treeSerAct p) (treeSerSize p) := by
  refine ⟨fun s => by unfold treeSerSize workBound; split <;> omega, fun s u h => ?_⟩
  rcases hp : s.pos with _ | _ | todo | _ | _ | _ | _ | _ | _ | _ | _ | _ | _ | _ | _ | _ | _ | _ | _ <;>
    simp only [treeSerAct, hp] at h <;> simp only [treeSerSize, hp]
  case ser =>
    by_cases hne : todo = []
    · subst hne; cases h
    · obtain ⟨⟨l, hl⟩, hn⟩ := serAct_inner hne h
      have := (u.writer p).n.isLt
      rw [hl]; dsimp only; omega
  all_goals
    first
    | cases h
    | split at h
      · split at h
        · cases h
        · cases h; show 7 - _ < 16; omega
      · cases h

theorem emitAct_inner {p : PortNum} {bits : Bits} {after : State → Act} {s u : State} (hne : bits ≠ [])
    (h : (emitAct p bits after s).inner = some u) :
    (∃ l, u.pos = .emit l) ∧ (u.writer p).n.val = (s.writer p).n.val + 1 := by
  match bits, hne with
  | b :: rest, _ =>
    obtain ⟨hb, rfl⟩ := Act.of_inner.1 h
    obtain ⟨t, ht, hn⟩ := writeBit_fill (b := b) hb
    rw [ht]; exact ⟨⟨_, rfl⟩, by simpa [Res.goto] using hn⟩

theorem codeEmit_bounded (p : PortNum) (v : Byte) : Bounded (codeEmitAct p v) (codeEmitSize p) := by
  refine ⟨fun s => by unfold codeEmitSize workBound; split <;> omega, fun s u h => ?_⟩
  rcases hp : s.pos with _ | _ | _ | _ | _ | _ | bits | _ | _ | _ | _ | _ | _ | _ | _ | _ | _ | _ | _ <;>
    simp only [codeEmitAct, hp] at h <;> simp only [codeEmitSize, hp]
  case emit =>
    by_cases hne : bits = []
    · subst hne; cases h
    · obtain ⟨⟨l, hl⟩, hn⟩ := emitAct_inner hne h
      have := (u.writer p).n.isLt
      rw [hl]; dsimp only; omega
  all_goals
    first
    | cases h
    | split at h
      · split at h
        · split at h
          · cases h
          · cases h; show 7 - _ < 16; omega
        · cases h
      · cases h

/-- A measure of TREE_DESER's internal work. -/
def treeDeserSize (p : PortNum) (s : State) : Nat :=
  match s.pos with
  | .desNode _ _ => 32 + (s.reader p).cnt.val
  | .desLeaf _ _ => 31
  | .desDone _ _ => 30
  | .raised _ => 0
  | _ => 48

theorem desNodeAct_inner {p : PortNum} {fs : List Frame} {c : Nat} {s u : State} (h : (desNodeAct p fs c s).inner = some u) :
    (∃ e, u.pos = .raised e) ∨ (∃ l d, u.pos = .desLeaf l d)
      ∨ ((∃ l d, u.pos = .desNode l d) ∧ (u.reader p).cnt.val + 1 = (s.reader p).cnt.val) := by
  obtain ⟨hb, rfl⟩ := Act.of_inner.1 h
  obtain ⟨b, t, ht, hn⟩ := readBit_spend hb
  rw [ht]; dsimp only
  split
  · exact .inl ⟨_, rfl⟩
  · split
    · exact .inr (.inr ⟨⟨_, _, rfl⟩, by simpa using hn⟩)
    · exact .inr (.inl ⟨_, _, rfl⟩)

theorem treeDeser_bounded (p : PortNum) : Bounded (treeDeserAct p) (treeDeserSize p) := by
  refine ⟨fun s => by unfold treeDeserSize workBound; split <;> omega, fun s u h => ?_⟩
  rcases hp : s.pos with _ | _ | _ | ⟨fs, c⟩ | _ | _ | _ | _ | _ | _ | _ | _ | _ | _ | _ | _ | _ | _ | _ <;>
    simp only [treeDeserAct, hp] at h <;> simp only [treeDeserSize, hp]
  case desNode =>
    rcases desNodeAct_inner h with ⟨e, he⟩ | ⟨l, d, he⟩ | ⟨⟨l, d, he⟩, hn⟩ <;> rw [he] <;> dsimp only <;> omega
  all_goals
    first
    | cases h
    | split at h
      · cases h
        simp only [goto_pos]; omega
      · cases h

/-- A measure of ENCODE's internal work. -/
def encodeSize (s : State) : Nat :=
  match s.pos with
  | .count => 176
  | .ser _ => 160 + (7 - s.w0.n.val)
  | .pad _ => 144 + (7 - s.w1.n.val)
  | .emit _ => 128 + (7 - s.w1.n.val)
  | .closeW0 => 112
  | .closeW1 => 96
  | .finish => 80
  | .raised _ => 64
  | .relW0 _ => 48
  | .relW1 _ => 32
  | .errEnd _ => 16
  | _ => 192

theorem Res.goto_pos {α : Type} (q : Pos) (r : Res α) : (r.goto q).pos = q ∨ ∃ e, (r.goto q).pos = .raised e := by
  cases r with
  | ok => exact .inl rfl
  | raise e => exact .inr ⟨e, rfl⟩

theorem releaseWriter_inner {p : PortNum} {q : Pos} {s u : State} (h : (releaseWriter p q s).inner = some u) : u.pos = q := by
  obtain ⟨-, rfl⟩ := Act.of_inner.1 h
  split <;> rfl

theorem closeWriter_inner {p : PortNum} {q : Pos} {s u : State} (h : (closeWriter p q s).inner = some u) :
    u.pos = q ∨ ∃ e, u.pos = .raised e := by
  obtain ⟨-, rfl⟩ := Act.of_inner.1 h
  exact Res.goto_pos _ _

theorem encodeStart_inner {s u : State} (h : (encodeStart s).inner = some u) : u.pos = .count ∨ ∃ e, u.pos = .raised e := by
  unfold encodeStart at h
  split at h
  · cases h
  · split at h <;> cases h
    · exact .inr ⟨_, rfl⟩
    · exact .inl rfl

theorem encodeCounted_inner {s u : State} (h : (encodeCounted s).inner = some u) :
    (∃ l, u.pos = .ser l) ∨ ∃ e, u.pos = .raised e := by
  simp only [encodeCounted] at h
  split at h
  · cases h
  · split at h <;> cases h
    · exact .inr ⟨_, rfl⟩
    · exact (Res.goto_pos _ _).imp (fun h => ⟨_, h⟩) id

theorem encode_bounded : Bounded encodeAct encodeSize := by
  refine ⟨fun s => by unfold encodeSize workBound; split <;> omega, fun s u h => ?_⟩
  rcases hp : s.pos with _ | _ | todo | _ | _ | _ | bits | bits | _ | _ | _ | _ | _ | _ | _ | _ | _ | _ | _ <;>
    simp only [encodeAct, hp] at h <;> simp only [encodeSize, hp]
  case ser =>
    by_cases hne : todo = []
    · subst hne
      simp only [serAct, encodeSerialized, Act.inner_opens, Option.some.injEq] at h
      rw [← h]
      rcases Res.goto_pos (.pad _) (openW .p1 _) with he | ⟨e, he⟩ <;> rw [he] <;> dsimp only <;> omega
    · obtain ⟨⟨l, hl⟩, hn⟩ := serAct_inner hne h
      have := (u.writer .p0).n.isLt
      rw [hl]; dsimp only
      simp only [State.writer] at *
      omega
  case pad =>
    match bits with
    | [] =>
      simp only [encodePad, Act.inner_opens, Option.some.injEq] at h
      rw [← h]
      rcases Res.goto_pos (.emit []) (openR .p0 (s.inPhase .eEmit)) with he | ⟨e, he⟩ <;> rw [he] <;> dsimp only <;> omega
    | b :: rest =>
      obtain ⟨hb, rfl⟩ := Act.of_inner.1 h
      obtain ⟨t, ht, hn⟩ := writeBit_fill (b := b) hb
      rw [ht]
      have := (t.writer .p1).n.isLt
      simp only [Res.goto, State.goto, State.writer] at *
      omega
  case emit =>
    by_cases hne : bits = []
    · subst hne
      simp only [emitAct, encodeNext] at h
      split at h <;> cases h
      simp only [goto_pos]; omega
    · obtain ⟨⟨l, hl⟩, hn⟩ := emitAct_inner hne h
      have := (u.writer .p1).n.isLt
      rw [hl]; dsimp only
      simp only [State.writer] at *
      omega
  case count =>
    unfold countAct at h
    split at h
    · rcases encodeCounted_inner h with ⟨l, he⟩ | ⟨e, he⟩ <;> rw [he] <;> dsimp only <;> omega
    · split at h <;> cases h
  case closeW0 => rcases closeWriter_inner h with he | ⟨e, he⟩ <;> rw [he] <;> dsimp only <;> omega
  case closeW1 => rcases closeWriter_inner h with he | ⟨e, he⟩ <;> rw [he] <;> dsimp only <;> omega
  case relW0 => rw [releaseWriter_inner h]; dsimp only; omega
  case relW1 => rw [releaseWriter_inner h]; dsimp only; omega
  case raised => cases h; simp only [goto_pos]; omega
  all_goals
    first
    | cases h
    | rcases encodeStart_inner h with he | ⟨e, he⟩ <;> rw [he] <;> dsimp only <;> omega

/-- A measure of DECODE's internal work. -/
def decodeSize (s : State) : Nat :=
  match s.pos with
  | .desNode _ _ => 176 + s.r0.cnt.val
  | .desLeaf _ _ => 160
  | .desDone _ _ => 144
  | .skip => 128 + s.r1.cnt.val
  | .walk => 112 + s.r1.cnt.val
  | .write _ => 96
  | .dClose => 80
  | .raised _ => 64
  | .relW0 _ => 48
  | .finish => 32
  | .errEnd _ => 16
  | _ => 192

theorem decodeStart_inner {s u : State} (h : (decodeStart s).inner = some u) :
    (∃ l d, u.pos = .desNode l d) ∨ ∃ e, u.pos = .raised e := by
  unfold decodeStart at h
  split at h
  · cases h
  · split at h
    · cases h; exact .inr ⟨_, rfl⟩
    · split at h <;> cases h
      · exact .inr ⟨_, rfl⟩
      · exact .inl ⟨_, _, rfl⟩

theorem moveCursor_pos (b : Bool) (s : State) :
    ((∃ v, (moveCursor b s).pos = .write v) ∨ (moveCursor b s).pos = .walk) ∧ (moveCursor b s).r1 = s.r1 := by
  unfold moveCursor
  dsimp only
  split
  · exact ⟨.inl ⟨_, rfl⟩, rfl⟩
  · exact ⟨.inr rfl, rfl⟩

theorem decode_bounded : Bounded decodeAct decodeSize := by
  refine ⟨fun s => by unfold decodeSize workBound; split <;> omega, fun s u h => ?_⟩
  rcases hp : s.pos with _ | _ | _ | ⟨fs, c⟩ | _ | ⟨t, c⟩ | _ | _ | _ | _ | _ | _ | _ | v | _ | _ | _ | _ | _ <;>
    simp only [decodeAct, hp] at h <;> simp only [decodeSize, hp]
  case desNode =>
    rcases desNodeAct_inner h with ⟨e, he⟩ | ⟨l, d, he⟩ | ⟨⟨l, d, he⟩, hn⟩ <;> rw [he] <;> dsimp only
    · omega
    · omega
    · simp only [State.reader] at hn; omega
  case desDone =>
    simp only [decodeTreeRead] at h
    split at h
    · cases h; simp only [goto_pos]; omega
    · simp only [Act.inner_opens, Option.some.injEq] at h
      rw [← h]
      rcases hr : openR .p1 ((closeR .p0 (storeTree t c s)).inPhase .dPad) with ⟨a, w⟩ | ⟨e, w⟩
      · have : w.r1.cnt = 0 := by
          unfold openR at hr
          split at hr <;> cases hr
          rfl
        simp only [Res.goto, State.goto, this]
        decide
      · simp only [Res.goto, State.goto]; omega
  case skip =>
    simp only [decodeSkip] at h
    split at h
    · cases h; simp only [goto_pos]; omega
    · obtain ⟨hb, rfl⟩ := Act.of_inner.1 h
      obtain ⟨b, t, ht, hn⟩ := readBit_spend hb
      rw [ht]
      have := (t.reader .p1).cnt.isLt
      cases b <;> simp only [State.goto, State.inPhase, State.reader] at * <;> omega
  case walk =>
    simp only [decodeWalk] at h
    split at h
    · cases h; simp only [goto_pos]; omega
    · obtain ⟨hb, rfl⟩ := Act.of_inner.1 h
      obtain ⟨b, t, ht, hn⟩ := readBit_spend hb
      rw [ht]
      dsimp only
      obtain ⟨hpos, hr⟩ := moveCursor_pos b t
      simp only [State.reader] at hn
      rcases hpos with ⟨v, hv⟩ | hv <;> rw [hv] <;> dsimp only
      · omega
      · rw [hr]; omega
  case dClose => rcases closeWriter_inner h with he | ⟨e, he⟩ <;> rw [he] <;> dsimp only <;> omega
  case relW0 => rw [releaseWriter_inner h]; dsimp only; omega
  case raised => cases h; simp only [goto_pos]; omega
  all_goals
    first
    | cases h
    | rcases decodeStart_inner h with ⟨l, d, he⟩ | ⟨e, he⟩
      · have := u.r0.cnt.isLt
        rw [he]; dsimp only; omega
      · rw [he]; dsimp only; omega

end Sys2Proof.Machine
end

