-- ==== Sys2Proof/Laws/Frames.lean ====
section
/-! SUPPORT. What each command leaves unchanged: the effects a command may have, said once for each
command, and that every micro-step of it has no other. -/

namespace Sys2Proof.Machine

/-- What a command may change. The position, the phase and the running command's own end are not
listed: `ends` says whether the command ends. -/
structure Effects where
  reads : PortNum → Bool
  writes : PortNum → Bool
  freq : Bool
  tree : Bool
  dict : Bool
  dictValid : Bool
  cursor : Bool
  padBits : Bool
  empty : Bool
  partialCode : Bool
  result : Bool
  ends : Bool

/-- t differs from s by these effects only. -/
structure Same (e : Effects) (s t : State) : Prop where
  reader : ∀ p, e.reads p = false → t.reader p = s.reader p
  writer : ∀ p, e.writes p = false → t.writer p = s.writer p ∧ t.sink p = s.sink p
  avail : ∀ p, (t.sink p).avail = (s.sink p).avail
  freq : e.freq = false → t.freq = s.freq ∧ t.total = s.total
  tree : e.tree = false → t.tree = s.tree ∧ t.nodes = s.nodes
  dict : e.dict = false → t.dict = s.dict
  dictValid : e.dictValid = false → t.dictValid = s.dictValid
  cursor : e.cursor = false → t.cursor = s.cursor
  padBits : e.padBits = false → t.padBits = s.padBits
  empty : e.empty = false → t.empty = s.empty
  partialCode : e.partialCode = false → t.partialCode = s.partialCode
  result : e.result = false → t.resultValue = s.resultValue ∧ t.resultValid = s.resultValid
  ends : e.ends = false → t.running = s.running ∧ t.busy = s.busy ∧ t.done = s.done ∧ t.err = s.err ∧ t.errcode = s.errcode
  drop : t.drop = s.drop
  src0 : t.src0 = s.src0
  src1 : t.src1 = s.src1
  turns : t.turns = s.turns
  seen : t.seen = s.seen

theorem Same.refl (e : Effects) (s : State) : Same e s s := by constructor <;> simp

theorem Same.trans {e : Effects} {s t u : State} (a : Same e s t) (b : Same e t u) : Same e s u where
  reader p h := (b.reader p h).trans (a.reader p h)
  writer p h := ⟨(b.writer p h).1.trans (a.writer p h).1, (b.writer p h).2.trans (a.writer p h).2⟩
  avail p := (b.avail p).trans (a.avail p)
  freq h := ⟨(b.freq h).1.trans (a.freq h).1, (b.freq h).2.trans (a.freq h).2⟩
  tree h := ⟨(b.tree h).1.trans (a.tree h).1, (b.tree h).2.trans (a.tree h).2⟩
  dict h := (b.dict h).trans (a.dict h)
  dictValid h := (b.dictValid h).trans (a.dictValid h)
  cursor h := (b.cursor h).trans (a.cursor h)
  padBits h := (b.padBits h).trans (a.padBits h)
  empty h := (b.empty h).trans (a.empty h)
  partialCode h := (b.partialCode h).trans (a.partialCode h)
  result h := ⟨(b.result h).1.trans (a.result h).1, (b.result h).2.trans (a.result h).2⟩
  ends h := by
    obtain ⟨h1, h2, h3, h4, h5⟩ := a.ends h
    obtain ⟨g1, g2, g3, g4, g5⟩ := b.ends h
    exact ⟨g1.trans h1, g2.trans h2, g3.trans h3, g4.trans h4, g5.trans h5⟩
  drop := b.drop.trans a.drop
  src0 := b.src0.trans a.src0
  src1 := b.src1.trans a.src1
  turns := b.turns.trans a.turns
  seen := b.seen.trans a.seen

/-- The same effects, with the end of the command. -/
def Effects.ended (e : Effects) : Effects := { e with ends := true }

theorem Same.toEnded {e : Effects} {s t : State} (a : Same e s t) : Same e.ended s t :=
  { reader := a.reader, writer := a.writer, avail := a.avail, freq := a.freq, tree := a.tree, dict := a.dict,
    dictValid := a.dictValid, cursor := a.cursor, padBits := a.padBits, empty := a.empty,
    partialCode := a.partialCode, result := a.result, ends := fun h => (by cases h), drop := a.drop, src0 := a.src0,
    src1 := a.src1, turns := a.turns, seen := a.seen }

/-! ## Single updates -/

theorem same_goto (e : Effects) (s : State) (q : Pos) : Same e s (s.goto q) := by constructor <;> simp
theorem same_inPhase (e : Effects) (s : State) (q : Phase) : Same e s (s.inPhase q) := by constructor <;> simp
theorem same_setReader {e : Effects} {p : PortNum} (h : e.reads p = true) (s : State) (x : Reader) :
    Same e s (s.setReader p x) := by
  constructor <;> first | (intro q hq; cases p <;> cases q <;> simp_all) | simp
theorem same_setWriter {e : Effects} {p : PortNum} (h : e.writes p = true) (s : State) (x : Writer) :
    Same e s (s.setWriter p x) := by
  constructor <;> first | (intro q hq; cases p <;> cases q <;> simp_all) | simp
theorem same_setSink {e : Effects} {p : PortNum} (h : e.writes p = true) (s : State) (d : List Byte) :
    Same e s (s.setSink p { s.sink p with data := d }) := by
  constructor <;> first | (intro q hq; cases p <;> cases q <;> simp_all) | (intro q; cases p <;> cases q <;> simp) | simp
theorem same_clearFreq {e : Effects} (h : e.freq = true) (s : State) : Same e s (clearFreq s) := by
  constructor <;> simp [h]
theorem same_addCount {e : Effects} (h : e.freq = true) (v : Byte) (s : State) : Same e s (addCount v s) := by
  constructor <;> simp [h]
theorem same_invalidate {e : Effects} (h : e.tree = true) (h' : e.dictValid = true) (s : State) : Same e s (invalidate s) := by
  constructor <;> simp [h, h']
theorem same_storeTree {e : Effects} (h : e.tree = true) (t : HTree) (c : Nat) (s : State) : Same e s (storeTree t c s) := by
  constructor <;> simp [h]
theorem same_storeDict {e : Effects} (h : e.dict = true) (h' : e.dictValid = true) (s : State) : Same e s (storeDict s) := by
  constructor <;> simp [h, h']
theorem same_setCursor {e : Effects} (h : e.cursor = true) (s : State) (c : Bits) : Same e s (s.setCursor c) := by
  constructor <;> simp [h]
theorem same_setResult {e : Effects} (h : e.result = true) (v : Byte) (s : State) : Same e s (setResult v s) := by
  constructor <;> simp [h]
theorem same_normalEnd (e : Effects) (s : State) : Same e.ended s (normalEnd s) := by
  constructor <;> first | (intro h; cases h; done) | simp
theorem same_errorEnd (e : Effects) (x : Error) (s : State) : Same e.ended s (errorEnd x s) := by
  constructor <;> first | (intro h; cases h; done) | simp
theorem same_padBits {e : Effects} (h : e.padBits = true) (s : State) (b : BitVec 4) : Same e s { s with padBits := b } := by
  constructor <;> first | (intro q; cases q <;> simp_all) | simp [h]
theorem same_empty {e : Effects} (h : e.empty = true) (s : State) (b : Bool) : Same e s { s with empty := b } := by
  constructor <;> first | (intro q; cases q <;> simp_all) | simp [h]
theorem same_partialCode {e : Effects} (h : e.partialCode = true) (s : State) (b : Bool) :
    Same e s { s with partialCode := b } := by
  constructor <;> first | (intro q; cases q <;> simp_all) | simp [h]

/-! ## Helpers -/

/-- The state a helper leaves. -/
def Res.state {α : Type} : Res α → State
  | .ok _ t => t
  | .raise _ t => t

theorem same_res_goto {α : Type} {e : Effects} {s : State} {r : Res α} (h : Same e s r.state) (q : Pos) :
    Same e s (r.goto q) := by
  cases r <;> exact h.trans (same_goto e _ _)

theorem same_pull {e : Effects} {p : PortNum} (h : e.reads p = true) (s : State) : Same e s (pull p s).state := by
  unfold pull
  split
  · exact Same.refl e s
  · split
    · exact same_setReader h s _
    · exact Same.refl e s

theorem same_push {e : Effects} {p : PortNum} (h : e.writes p = true) (v : Byte) (s : State) :
    Same e s (push p v s).state := by
  unfold push
  split
  · exact same_setSink h s _
  · exact Same.refl e s

theorem same_openR {e : Effects} {p : PortNum} (h : e.reads p = true) (s : State) : Same e s (openR p s).state := by
  unfold openR
  split
  · exact same_setReader h s _
  · exact Same.refl e s

theorem same_closeR {e : Effects} {p : PortNum} (h : e.reads p = true) (s : State) : Same e s (closeR p s) :=
  same_setReader h s _

theorem same_readBit {e : Effects} {p : PortNum} (h : e.reads p = true) (s : State) : Same e s (readBit p s).state := by
  unfold readBit
  split
  · have := same_pull h s
    split
    · next hp => rw [hp] at this; exact this
    · next hp => rw [hp] at this; exact this.trans (same_setReader h _ _)
  · exact same_setReader h s _

theorem same_readByte {e : Effects} {p : PortNum} (h : e.reads p = true) (s : State) : Same e s (readByte p s).state := by
  unfold readByte
  have := same_pull h s
  split
  · next hp => rw [hp] at this; exact this
  · next hp => rw [hp] at this; exact this.trans (same_setReader h _ _)

theorem same_openW {e : Effects} {p : PortNum} (h : e.writes p = true) (s : State) : Same e s (openW p s).state := by
  unfold openW
  split
  · exact Same.refl e s
  · split
    · exact (same_setSink h s _).trans (same_setWriter h _ _)
    · exact Same.refl e s

theorem same_closeW {e : Effects} {p : PortNum} (h : e.writes p = true) (s : State) : Same e s (closeW p s).state := by
  unfold closeW
  split
  · dsimp only
    split
    · exact same_setWriter h s _
    · exact (same_setWriter h s _).trans (same_push h _ _)
  · exact Same.refl e s

theorem same_writeBit {e : Effects} {p : PortNum} (h : e.writes p = true) (b : Bool) (s : State) :
    Same e s (writeBit p b s).state := by
  unfold writeBit
  dsimp only
  split
  · have := same_push h ((s.writer p).place b) s
    split
    · next hp => rw [hp] at this; exact this
    · next hp => rw [hp] at this; exact this.trans (same_setWriter h _ _)
  · exact same_setWriter h s _

theorem same_writeByte {e : Effects} {p : PortNum} (h : e.writes p = true) (v : Byte) (s : State) :
    Same e s (writeByte p v s).state := by
  unfold writeByte
  dsimp only
  have := same_push h ((s.writer p).acc ||| (v >>> (s.writer p).n.val)) s
  split
  · next hp => rw [hp] at this; exact this
  · next hp => rw [hp] at this; exact this.trans (same_setWriter h _ _)

/-! ## Acts -/

/-- An act has these effects, and only an end ends the command. -/
def Act.Keeps (e : Effects) (s : State) : Act → Prop
  | .work t => Same e s t
  | .opens t => Same e s t
  | .access t => Same e s t
  | .ended t => Same e.ended s t

theorem keeps_of {e : Effects} {s t : State} (b : Bool) (h : Same e s t) : (Act.of b t).Keeps e s := by
  cases b <;> exact h

theorem Act.Keeps.trans {e : Effects} {s t : State} {a : Act} (h : Same e s t) (k : a.Keeps e t) : a.Keeps e s := by
  cases a with
  | work => exact Same.trans h k
  | opens => exact Same.trans h k
  | access => exact Same.trans h k
  | ended => exact h.toEnded.trans k

theorem keeps_normalEnd {e : Effects} {s t : State} (h : Same e s t) : (Act.ended (normalEnd t)).Keeps e s :=
  h.toEnded.trans (same_normalEnd e t)
theorem keeps_errorEnd {e : Effects} {s t : State} (x : Error) (h : Same e s t) : (Act.ended (errorEnd x t)).Keeps e s :=
  h.toEnded.trans (same_errorEnd e x t)

/-- A micro-step has the effects its acts have. -/
theorem microStep_same {e : Effects} {next : State → Act} (h : ∀ s, (next s).Keeps e s) (s : State) :
    Same e.ended s (microStep next s) := by
  refine microStep_keeps (P := fun t => Same e.ended s t) (fun t ht => ?_) (Same.refl _ s)
  have := h t
  cases hn : next t with
  | work u => rw [hn] at this; exact ht.trans this.toEnded
  | opens u => rw [hn] at this; exact ht.trans this.toEnded
  | access u => rw [hn] at this; exact ht.trans this.toEnded
  | ended u => rw [hn] at this; exact ht.trans this

theorem keeps_running {e : Effects} (he : e.ends = false) {next : State → Act} (h : ∀ s, (next s).Keeps e s) (s u : State)
    (hu : (next s).inner = some u ∨ next s = .access u) : u.running = s.running := by
  have := h s
  cases hn : next s <;> rw [hn] at hu this <;> rcases hu with hu | hu <;> cases hu <;> exact (this.ends he).1

theorem keeps_countAct {e : Effects} {p : PortNum} (hr : e.reads p = true) (hf : e.freq = true) {after : State → Act} (s : State)
    (ha : (after s).Keeps e s) : (countAct p after s).Keeps e s := by
  unfold countAct
  split
  · exact ha
  · have := same_readByte hr s
    split
    · next v t hp =>
      rw [hp] at this
      refine Same.trans this ?_
      unfold countByte
      split
      · exact same_goto e _ _
      · exact same_addCount hf v t
    · next x t hp => rw [hp] at this; exact Same.trans this (same_goto e _ _)

theorem keeps_serAct {e : Effects} {p : PortNum} (hw : e.writes p = true) {after : State → Act} (todo : List SerItem) (s : State)
    (ha : (after s).Keeps e s) : (serAct p todo after s).Keeps e s := by
  unfold serAct
  split
  · exact ha
  · exact keeps_of _ (same_res_goto (same_writeBit hw _ s) _)
  · exact keeps_of _ (same_res_goto (same_writeBit hw _ s) _)
  · exact same_res_goto (same_writeByte hw _ s) _

theorem keeps_emitAct {e : Effects} {p : PortNum} (hw : e.writes p = true) {after : State → Act} (bits : Bits) (s : State)
    (ha : (after s).Keeps e s) : (emitAct p bits after s).Keeps e s := by
  unfold emitAct
  split
  · exact ha
  · exact keeps_of _ (same_res_goto (same_writeBit hw _ s) _)

theorem keeps_desNodeAct {e : Effects} {p : PortNum} (hr : e.reads p = true) (fs : List Frame) (c : Nat) (s : State) :
    (desNodeAct p fs c s).Keeps e s := by
  refine keeps_of _ ?_
  have := same_readBit hr s
  split
  · next hp => rw [hp] at this; exact this.trans (same_goto e _ _)
  · next hp =>
    rw [hp] at this
    split
    · exact this.trans (same_goto e _ _)
    · split <;> exact this.trans (same_goto e _ _)

theorem keeps_desLeafAct {e : Effects} {p : PortNum} (hr : e.reads p = true) (fs : List Frame) (c : Nat) (s : State) :
    (desLeafAct p fs c s).Keeps e s := by
  have := same_readByte hr s
  show Same e s _
  split
  · next hp => rw [hp] at this; exact this.trans (same_goto e _ _)
  · next hp =>
    rw [hp] at this
    split <;> exact this.trans (same_goto e _ _)

theorem keeps_closeWriter {e : Effects} {p : PortNum} (hw : e.writes p = true) (q : Pos) (s : State) :
    (closeWriter p q s).Keeps e s := keeps_of _ (same_res_goto (same_closeW hw s) _)

theorem keeps_releaseWriter {e : Effects} {p : PortNum} (hw : e.writes p = true) (q : Pos) (s : State) :
    (releaseWriter p q s).Keeps e s := by
  refine keeps_of _ ?_
  have := same_closeW hw s
  split <;> (next hp => rw [hp] at this; exact this.trans (same_goto e _ _))

/-! ## Commands -/

/-- The effects of a command on its ports, and no other. -/
def portEffects (i : Instr) : Effects where
  reads p := readsPort p i
  writes p := writesPort p i
  freq := false
  tree := false
  dict := false
  dictValid := false
  cursor := false
  padBits := false
  empty := false
  partialCode := false
  result := false
  ends := false

/-- The effects of a command. -/
def effectsOf : Instr → Effects
  | .rdBit r => { portEffects (.rdBit r) with result := true }
  | .rdByte r => { portEffects (.rdByte r) with result := true }
  | .rdAtEnd r => { portEffects (.rdAtEnd r) with result := true }
  | .freqCount r => { portEffects (.freqCount r) with freq := true }
  | .treeBuild => { portEffects .treeBuild with tree := true, dictValid := true }
  | .treeDeser r => { portEffects (.treeDeser r) with tree := true, dictValid := true }
  | .dictBuild => { portEffects .dictBuild with dict := true, dictValid := true }
  | .encode => { portEffects .encode with
      freq := true, tree := true, dict := true, dictValid := true, padBits := true, empty := true }
  | .decode => { portEffects .decode with tree := true, dictValid := true, cursor := true, partialCode := true }
  | .rdOpen r => portEffects (.rdOpen r)
  | .rdClose r => portEffects (.rdClose r)
  | .wrOpen w => portEffects (.wrOpen w)
  | .wrClose w => portEffects (.wrClose w)
  | .wrBit w b => portEffects (.wrBit w b)
  | .wrByte w v => portEffects (.wrByte w v)
  | .treeSer w => portEffects (.treeSer w)
  | .codeEmit w v => portEffects (.codeEmit w v)

theorem keeps_freqCount (p : PortNum) (s : State) : (freqCountAct p s).Keeps (effectsOf (.freqCount p)) s := by
  have hr : (effectsOf (.freqCount p)).reads p = true := by cases p <;> rfl
  unfold freqCountAct
  split
  · exact keeps_countAct hr rfl s (keeps_normalEnd (Same.refl _ s))
  · exact keeps_errorEnd _ (Same.refl _ s)
  · split
    · exact (same_clearFreq rfl s).trans (same_goto _ _ _)
    · exact keeps_errorEnd _ (Same.refl _ s)

theorem keeps_treeSer (p : PortNum) (s : State) : (treeSerAct p s).Keeps (effectsOf (.treeSer p)) s := by
  have hw : (effectsOf (.treeSer p)).writes p = true := by cases p <;> rfl
  unfold treeSerAct
  split
  · exact keeps_serAct hw _ s (keeps_normalEnd (Same.refl _ s))
  · exact keeps_errorEnd _ (Same.refl _ s)
  · split
    · split
      · exact keeps_errorEnd _ (Same.refl _ s)
      · exact same_goto _ _ _
    · exact keeps_errorEnd _ (Same.refl _ s)

theorem keeps_treeDeser (p : PortNum) (s : State) : (treeDeserAct p s).Keeps (effectsOf (.treeDeser p)) s := by
  have hr : (effectsOf (.treeDeser p)).reads p = true := by cases p <;> rfl
  unfold treeDeserAct
  split
  · exact keeps_desNodeAct hr _ _ s
  · exact keeps_desLeafAct hr _ _ s
  · exact keeps_normalEnd (same_storeTree rfl _ _ s)
  · exact keeps_errorEnd _ (Same.refl _ s)
  · split
    · exact (same_invalidate rfl rfl s).trans (same_goto _ _ _)
    · exact keeps_errorEnd _ (Same.refl _ s)

theorem keeps_codeEmit (p : PortNum) (v : Byte) (s : State) : (codeEmitAct p v s).Keeps (effectsOf (.codeEmit p v)) s := by
  have hw : (effectsOf (.codeEmit p v)).writes p = true := by cases p <;> rfl
  unfold codeEmitAct
  split
  · exact keeps_emitAct hw _ s (keeps_normalEnd (Same.refl _ s))
  · exact keeps_errorEnd _ (Same.refl _ s)
  · split
    · split
      · split
        · exact keeps_errorEnd _ (Same.refl _ s)
        · exact same_goto _ _ _
      · exact keeps_errorEnd _ (Same.refl _ s)
    · exact keeps_errorEnd _ (Same.refl _ s)

theorem keeps_encodeStart (s : State) : (encodeStart s).Keeps (effectsOf .encode) s := by
  unfold encodeStart
  split
  · exact keeps_errorEnd _ (Same.refl _ s)
  · have h1 : Same (effectsOf .encode) s ({ s with padBits := 0 }.inPhase .eCount) :=
      (same_padBits rfl s 0).trans (same_inPhase _ _ _)
    have h2 := h1.trans (same_openR (p := .p0) rfl _)
    split
    · next hp => rw [hp] at h2; exact h2.trans (same_goto _ _ _)
    · next hp => rw [hp] at h2; exact (h2.trans (same_clearFreq rfl _)).trans (same_goto _ _ _)

theorem keeps_encodeCounted (s : State) : (encodeCounted s).Keeps (effectsOf .encode) s := by
  have h1 : Same (effectsOf .encode) s (closeR .p0 s) := same_closeR rfl s
  unfold encodeCounted
  dsimp only
  split
  · exact keeps_normalEnd (h1.trans (same_empty rfl _ true))
  · have h2 := (h1.trans (same_inPhase _ _ .eBuild)).trans (same_invalidate rfl rfl _)
    split
    · exact h2.trans (same_goto _ _ _)
    · exact same_res_goto ((h2.trans ((same_storeTree rfl _ _ _).trans (same_inPhase _ _ _))).trans (same_openW rfl _)) _

theorem keeps_encode (s : State) : (encodeAct s).Keeps (effectsOf .encode) s := by
  unfold encodeAct
  split
  · exact keeps_countAct rfl rfl s (keeps_encodeCounted s)
  · refine keeps_serAct rfl _ s ?_
    unfold encodeSerialized
    exact same_res_goto ((((same_inPhase _ s .eDict).trans (same_storeDict rfl rfl _)).trans (same_inPhase _ _ .ePad)).trans
      ((same_padBits rfl _ _).trans (same_openW rfl _))) _
  · unfold encodePad
    split
    · exact keeps_of _ (same_res_goto (same_writeBit rfl _ s) _)
    · exact same_res_goto ((same_inPhase _ s .eEmit).trans (same_openR rfl _)) _
  · refine keeps_emitAct rfl _ s ?_
    unfold encodeNext
    split
    · exact ((same_closeR rfl s).trans (same_inPhase _ _ _)).trans (same_goto _ _ _)
    · have := same_readByte (e := effectsOf .encode) (p := .p0) rfl s
      show Same _ s _
      split
      · next hp => rw [hp] at this; exact this.trans (same_goto _ _ _)
      · next hp =>
        rw [hp] at this
        split <;> exact this.trans (same_goto _ _ _)
  · exact keeps_closeWriter rfl _ s
  · exact keeps_closeWriter rfl _ s
  · exact keeps_normalEnd (Same.refl _ s)
  · exact (same_closeR rfl s).trans (same_goto _ _ _)
  · exact keeps_releaseWriter rfl _ s
  · exact keeps_releaseWriter rfl _ s
  · exact keeps_errorEnd _ (Same.refl _ s)
  · exact keeps_encodeStart s

theorem keeps_decodeStart (s : State) : (decodeStart s).Keeps (effectsOf .decode) s := by
  unfold decodeStart
  split
  · exact keeps_errorEnd _ (Same.refl _ s)
  · have h1 := (same_inPhase (effectsOf .decode) s .dTree).trans (same_openW (p := .p0) rfl _)
    split
    · next hp => rw [hp] at h1; exact h1.trans (same_goto _ _ _)
    · next hp =>
      rw [hp] at h1
      have h2 := Same.trans h1 (same_openR (p := .p0) rfl _)
      dsimp only [Res.state] at h2
      split
      · next hq => rw [hq] at h2; exact h2.trans (same_goto _ _ _)
      · next hq => rw [hq] at h2; exact (h2.trans (same_invalidate rfl rfl _)).trans (same_goto _ _ _)

theorem keeps_decode (s : State) : (decodeAct s).Keeps (effectsOf .decode) s := by
  unfold decodeAct
  split
  · exact keeps_desNodeAct rfl _ _ s
  · exact keeps_desLeafAct rfl _ _ s
  · next t c _ =>
    unfold decodeTreeRead
    have h1 := (same_storeTree (e := effectsOf .decode) rfl t c s).trans (same_closeR (p := .p0) rfl _)
    dsimp only
    split
    · exact h1.trans (same_goto _ _ _)
    · exact same_res_goto (h1.trans ((same_inPhase _ _ .dPad).trans (same_openR rfl _))) _
  · unfold decodeSkip
    split
    · exact same_goto _ s _
    · refine keeps_of _ ?_
      have := same_readBit (e := effectsOf .decode) (p := .p1) rfl s
      split
      · next hp => rw [hp] at this; exact this.trans (same_goto _ _ _)
      · next hp => rw [hp] at this; exact this.trans (same_goto _ _ _)
      · next hp =>
        rw [hp] at this
        exact this.trans (((same_setCursor rfl _ _).trans (same_inPhase _ _ _)).trans (same_goto _ _ _))
  · unfold decodeWalk
    split
    · exact ((same_partialCode rfl s _).trans (same_inPhase _ _ _)).trans (same_goto _ _ _)
    · refine keeps_of _ ?_
      have := same_readBit (e := effectsOf .decode) (p := .p1) rfl s
      split
      · next hp => rw [hp] at this; exact this.trans (same_goto _ _ _)
      · next hp =>
        rw [hp] at this
        unfold moveCursor
        dsimp only
        split <;> exact this.trans ((same_setCursor rfl _ _).trans (same_goto _ _ _))
  · next v _ =>
    unfold decodeWrite
    have := same_writeByte (e := effectsOf .decode) (p := .p0) rfl v s
    show Same _ s _
    split
    · next hp => rw [hp] at this; exact this.trans (same_goto _ _ _)
    · next hp => rw [hp] at this; exact this.trans ((same_setCursor rfl _ _).trans (same_goto _ _ _))
  · exact Act.Keeps.trans (same_closeR rfl s) (keeps_closeWriter rfl _ _)
  · exact keeps_normalEnd (Same.refl _ s)
  · exact ((same_closeR rfl s).trans (same_closeR rfl _)).trans (same_goto _ _ _)
  · exact keeps_releaseWriter rfl _ s
  · exact keeps_errorEnd _ (Same.refl _ s)
  · exact keeps_decodeStart s

theorem same_endAs {α : Type} {e : Effects} {s : State} {r : Res α} (h : Same e s r.state) {f : α → State → State}
    (hf : ∀ a t, Same e t (f a t)) : Same e.ended s (endAs f r) := by
  cases r with
  | ok a t => exact (Same.trans h (hf a t)).toEnded.trans (same_normalEnd e _)
  | raise x t => exact h.toEnded.trans (same_errorEnd e x t)

/-- Every command has its effects and no other. -/
theorem exec_same {i : Instr} {s t : State} (h : exec i s = .next t) : Same (effectsOf i).ended s t := by
  have onR : ∀ {α : Type} {e : Effects} {p : PortNum} (f : State → Res α), Same e s (f s).state →
      Same e s (onOpenReader p f s).state := by
    intro α e p f hf
    unfold onOpenReader
    split
    · exact hf
    · exact Same.refl e s
  have onW : ∀ {α : Type} {e : Effects} {p : PortNum} (f : State → Res α), Same e s (f s).state →
      Same e s (onOpenWriter p f s).state := by
    intro α e p f hf
    unfold onOpenWriter
    split
    · exact hf
    · exact Same.refl e s
  cases i with
  | rdOpen r => cases h; exact same_endAs (same_openR (by cases r <;> rfl) s) (fun _ t => Same.refl _ t)
  | rdClose r => cases h; exact (same_closeR (by cases r <;> rfl) s).toEnded.trans (same_normalEnd _ _)
  | rdBit r => cases h; exact same_endAs (onR _ (same_readBit (by cases r <;> rfl) s)) (fun _ t => same_setResult rfl _ t)
  | rdByte r => cases h; exact same_endAs (onR _ (same_readByte (by cases r <;> rfl) s)) (fun _ t => same_setResult rfl _ t)
  | rdAtEnd r => cases h; exact same_endAs (onR _ (Same.refl _ s)) (fun _ t => same_setResult rfl _ t)
  | wrOpen w => cases h; exact same_endAs (same_openW (by cases w <;> rfl) s) (fun _ t => Same.refl _ t)
  | wrClose w => cases h; exact same_endAs (same_closeW (by cases w <;> rfl) s) (fun _ t => Same.refl _ t)
  | wrBit w b => cases h; exact same_endAs (onW _ (same_writeBit (by cases w <;> rfl) _ s)) (fun _ t => Same.refl _ t)
  | wrByte w v => cases h; exact same_endAs (onW _ (same_writeByte (by cases w <;> rfl) _ s)) (fun _ t => Same.refl _ t)
  | freqCount r => cases h; exact microStep_same (keeps_freqCount r) s
  | treeBuild =>
    cases h
    have h1 : Same (effectsOf .treeBuild) s (invalidate s) := same_invalidate rfl rfl s
    split
    · refine Same.trans (Same.toEnded ?_) (same_errorEnd _ _ _)
      obtain h | h := emptyFreqState_cases s <;> rw [h]
      · exact Same.refl _ s
      · exact h1
    · exact (h1.trans (same_storeTree rfl _ _ _)).toEnded.trans (same_normalEnd _ _)
  | treeSer w => cases h; exact microStep_same (keeps_treeSer w) s
  | treeDeser r => cases h; exact microStep_same (keeps_treeDeser r) s
  | dictBuild =>
    cases h
    split
    · exact (same_storeDict rfl rfl s).toEnded.trans (same_normalEnd _ _)
    · exact same_errorEnd _ _ _
  | codeEmit w v => cases h; exact microStep_same (keeps_codeEmit w v) s
  | encode => cases h; exact microStep_same keeps_encode s
  | decode => cases h; exact microStep_same keeps_decode s

end Sys2Proof.Machine
end

