-- ==== Sys2Proof/Laws/Ahead.lean ====
section
/-! SUPPORT. Between two micro-steps a port access is ahead, whatever the host does (spec/70_reset_and_hazards.md
R354): a micro-step that does not end its command makes an access and rests where the next one is ahead, and what
the host may change decides nothing on the way to it. -/

namespace Sys2Proof.Machine

/-! ## A micro-step rests before an access -/

/-- After an access the engine ends the command or rests where an access is ahead. -/
theorem goOn_ahead {next : State → Act} {size : State → Nat} (hb : Bounded next size) :
    ∀ fuel rest s, size s < fuel → (Ahead next s → Ahead next rest) →
      Ahead next (goOn next fuel rest s) ∨ ∃ u, next u = .ended (goOn next fuel rest s) := by
  intro fuel
  induction fuel with
  | zero => intro _ _ h; omega
  | succ k ih =>
    intro rest s hk hr
    unfold goOn
    split
    · next u hu => exact ih rest u (by have := hb.falls s u (by rw [hu]; rfl); omega) (fun h => hr (.work hu h))
    · next u hu => exact ih u u (by have := hb.falls s u (by rw [hu]; rfl); omega) id
    · next u hu => exact .inl (hr (.access hu))
    · next u hu => exact .inr ⟨s, hu⟩

/-- A micro-step ends the command, or makes an access and rests where the next one is ahead. -/
theorem microStep_ahead {next : State → Act} {size : State → Nat} (hb : Bounded next size) (s : State) :
    (∃ u, next u = .ended (microStep next s)) ∨ (Accesses next s ∧ Ahead next (microStep next s)) := by
  have key : ∀ fuel s, size s < fuel → (∃ u, next u = .ended (advance next fuel s))
      ∨ (Accesses next s ∧ Ahead next (advance next fuel s)) := by
    intro fuel
    induction fuel with
    | zero => intro _ h; omega
    | succ k ih =>
      intro s hk
      unfold advance
      split
      · next u hu => exact (ih u (by have := hb.falls s u (by rw [hu]; rfl); omega)).imp id (.imp (.work hu) id)
      · next u hu => exact (ih u (by have := hb.falls s u (by rw [hu]; rfl); omega)).imp id (.imp (.opens hu) id)
      · next u hu => exact (goOn_ahead hb _ u u (hb.lt u) id).elim (fun h => .inr ⟨.access hu, h⟩) .inl
      · next u hu => exact .inl ⟨s, hu⟩
  exact key workBound s (hb.lt s)

theorem Ahead.accesses {next : State → Act} {s : State} (h : Ahead next s) : Accesses next s := by
  induction h with
  | work h _ ih => exact .work h ih
  | access h => exact .access h

/-! ## What the host may change -/

/-- The state without what a host step may change: whether ports are available, the sinks, DROP, the turns, what
the host has seen, and the data of the sources that are not kept. -/
def State.hide (keep : PortNum → Bool) (s : State) : State := { s with
  src0 := { data := if keep .p0 then s.src0.data else [], avail := false }
  src1 := { data := if keep .p1 then s.src1.data else [], avail := false }
  snk0 := { data := [], avail := false }, snk1 := { data := [], avail := false }
  drop := false, turns := [], seen := State.reset.seen }

@[simp] theorem hide_pos (f : PortNum → Bool) (s : State) : (s.hide f).pos = s.pos := rfl
@[simp] theorem hide_params (f : PortNum → Bool) (s : State) : (s.hide f).params = s.params := rfl
@[simp] theorem hide_freq (f : PortNum → Bool) (s : State) : (s.hide f).freq = s.freq := rfl
@[simp] theorem hide_total (f : PortNum → Bool) (s : State) : (s.hide f).total = s.total := rfl
@[simp] theorem hide_tree (f : PortNum → Bool) (s : State) : (s.hide f).tree = s.tree := rfl
@[simp] theorem hide_dict (f : PortNum → Bool) (s : State) : (s.hide f).dict = s.dict := rfl
@[simp] theorem hide_dictValid (f : PortNum → Bool) (s : State) : (s.hide f).dictValid = s.dictValid := rfl
@[simp] theorem hide_cursor (f : PortNum → Bool) (s : State) : (s.hide f).cursor = s.cursor := rfl
@[simp] theorem hide_reader (f : PortNum → Bool) (s : State) (p : PortNum) : (s.hide f).reader p = s.reader p := by
  cases p <;> rfl
@[simp] theorem hide_writer (f : PortNum → Bool) (s : State) (p : PortNum) : (s.hide f).writer p = s.writer p := by
  cases p <;> rfl
@[simp] theorem hide_w0 (f : PortNum → Bool) (s : State) : (s.hide f).w0 = s.w0 := rfl
@[simp] theorem hide_w1 (f : PortNum → Bool) (s : State) : (s.hide f).w1 = s.w1 := rfl

theorem hide_goto (f : PortNum → Bool) (s : State) (q : Pos) : (s.hide f).goto q = (s.goto q).hide f := rfl
theorem hide_setReader (f : PortNum → Bool) (s : State) (p : PortNum) (x : Reader) :
    (s.hide f).setReader p x = (s.setReader p x).hide f := by cases p <;> rfl
theorem hide_setWriter (f : PortNum → Bool) (s : State) (p : PortNum) (x : Writer) :
    (s.hide f).setWriter p x = (s.setWriter p x).hide f := by cases p <;> rfl

theorem hide_atEnd {f : PortNum → Bool} {p : PortNum} (h : f p = true) (s : State) :
    atEnd p (s.hide f) = atEnd p s := by
  cases p <;> simp [atEnd, State.hide, State.source, State.reader, h] <;> rfl
@[simp] theorem hide_bitPulls (f : PortNum → Bool) (p : PortNum) (s : State) : bitPulls p (s.hide f) = bitPulls p s := by
  simp [bitPulls]
@[simp] theorem hide_bitPushes (f : PortNum → Bool) (p : PortNum) (s : State) :
    bitPushes p (s.hide f) = bitPushes p s := by simp [bitPushes]
@[simp] theorem hide_closePushes (f : PortNum → Bool) (p : PortNum) (s : State) :
    closePushes p (s.hide f) = closePushes p s := by simp [closePushes]

@[simp] theorem hide_hide (f : PortNum → Bool) (s : State) : (s.hide f).hide f = s.hide f := by
  unfold State.hide
  cases f .p0 <;> cases f .p1 <;> rfl

/-- What an act says without what the host may change: its kind, and where internal computation leads. -/
def Act.shape (f : PortNum → Bool) : Act → Act
  | .work t => .work (t.hide f)
  | .opens _ => .opens State.reset
  | .access _ => .access State.reset
  | .ended _ => .ended State.reset

/-- The next thing the engine does does not depend on what the host may change. -/
def HostFree (f : PortNum → Bool) (next : State → Act) : Prop :=
  ∀ s, (next (s.hide f)).shape f = (next s).shape f

theorem shape_of (f : PortNum → Bool) (b : Bool) {t u : State} (h : b = false → t.hide f = u.hide f) :
    (Act.of b t).shape f = (Act.of b u).shape f := by
  cases b
  · exact congrArg Act.work (h rfl)
  · rfl


theorem Ahead.hide {f : PortNum → Bool} {next : State → Act} (hf : HostFree f next) {s : State} (h : Ahead next s) :
    ∀ u, u.hide f = s.hide f → Ahead next u := by
  induction h with
  | @work s v h _ ih =>
    intro u hu
    have e : (next u).shape f = (next s).shape f := by rw [← hf u, hu, hf s]
    rw [h] at e
    cases hn : next u <;> rw [hn] at e <;> simp [Act.shape] at e
    exact .work hn (ih _ e)
  | @access s v h =>
    intro u hu
    have e : (next u).shape f = (next s).shape f := by rw [← hf u, hu, hf s]
    rw [h] at e
    cases hn : next u <;> rw [hn] at e <;> simp [Act.shape] at e
    exact .access hn

/-! ## The host decides nothing before an access -/

/-- WriteBit without a Push, and ReadBit without a Pull, as one register update (spec/40_bitio.md R124, R128). -/
theorem writeBit_inner {p : PortNum} {b : Bool} {s : State} (h : bitPushes p s = false) :
    writeBit p b s = .ok () (s.setWriter p { s.writer p with acc := (s.writer p).place b, n := (s.writer p).n + 1 }) := by
  rw [writeBit, if_neg (by simpa [bitPushes] using h)]

theorem readBit_inner {p : PortNum} {s : State} (h : bitPulls p s = false) :
    readBit p s = .ok ((s.reader p).buf.getLsbD ((s.reader p).cnt.val - 1)) (s.setReader p (s.reader p).spend) := by
  rw [readBit, if_neg (by simpa [bitPulls] using h)]

theorem hide_writeBit {f : PortNum → Bool} {p : PortNum} {b : Bool} {s : State} (q : Pos) (h : bitPushes p s = false) :
    ((writeBit p b (s.hide f)).goto q).hide f = ((writeBit p b s).goto q).hide f := by
  rw [writeBit_inner h, writeBit_inner (by rw [hide_bitPushes]; exact h), hide_writer, hide_setWriter]
  simp [Res.goto, hide_goto]

theorem hostFree_bits (f : PortNum → Bool) (p : PortNum) (b : Bool) (q : Pos) (s : State) :
    (Act.of (bitPushes p (s.hide f)) ((writeBit p b (s.hide f)).goto q)).shape f
      = (Act.of (bitPushes p s) ((writeBit p b s).goto q)).shape f := by
  rw [hide_bitPushes]
  exact shape_of f _ (hide_writeBit q)

theorem hostFree_serAct {f : PortNum → Bool} (p : PortNum) (todo : List SerItem) {after : State → Act} (s : State)
    (h : (after (s.hide f)).shape f = (after s).shape f) :
    (serAct p todo after (s.hide f)).shape f = (serAct p todo after s).shape f := by
  unfold serAct
  split
  · exact h
  · exact hostFree_bits f p _ _ s
  · exact hostFree_bits f p _ _ s
  · rfl

theorem hostFree_emitAct {f : PortNum → Bool} (p : PortNum) (bits : Bits) {after : State → Act} (s : State)
    (h : (after (s.hide f)).shape f = (after s).shape f) :
    (emitAct p bits after (s.hide f)).shape f = (emitAct p bits after s).shape f := by
  unfold emitAct
  split
  · exact h
  · exact hostFree_bits f p _ _ s

theorem hostFree_countAct {f : PortNum → Bool} {p : PortNum} (hp : f p = true) {after : State → Act} (s : State)
    (h : (after (s.hide f)).shape f = (after s).shape f) :
    (countAct p after (s.hide f)).shape f = (countAct p after s).shape f := by
  unfold countAct
  rw [hide_atEnd hp]
  split
  · exact h
  · cases readByte p (s.hide f) <;> cases readByte p s <;> rfl

theorem hostFree_desNodeAct (f : PortNum → Bool) (p : PortNum) (fs : List Frame) (c : Nat) (s : State) :
    (desNodeAct p fs c (s.hide f)).shape f = (desNodeAct p fs c s).shape f := by
  unfold desNodeAct
  rw [hide_bitPulls]
  refine shape_of f _ (fun h => ?_)
  rw [readBit_inner h, readBit_inner (by rw [hide_bitPulls]; exact h), hide_reader, hide_setReader]
  dsimp only
  by_cases hc : (s.setReader p (s.reader p).spend).params.nodeCap < c + 1
  · rw [if_pos (by exact hc), if_pos hc, hide_goto, hide_hide]
  · rw [if_neg (by exact hc), if_neg hc]
    split <;> rw [hide_goto, hide_hide]

theorem hostFree_release (f : PortNum → Bool) (p : PortNum) (q : Pos) (s : State) :
    (releaseWriter p q (s.hide f)).shape f = (releaseWriter p q s).shape f := by
  unfold releaseWriter
  rw [hide_closePushes]
  refine shape_of f _ (fun h => ?_)
  have key : ∀ t : State, closePushes p t = false → ∃ u, closeW p t = .ok () u
      ∧ u = if (t.writer p).opened then t.setWriter p Writer.closed else t := by
    intro t ht
    unfold closeW
    split
    · next ho => simp [closePushes, ho] at ht; simp [ht]
    · exact ⟨_, rfl, rfl⟩
  obtain ⟨u, hu, rfl⟩ := key s h
  obtain ⟨v, hv, rfl⟩ := key (s.hide f) (by rw [hide_closePushes]; exact h)
  rw [hu, hv, hide_writer, hide_setWriter]
  by_cases ho : (s.writer p).opened = true
  · simp only [if_pos ho, hide_goto, hide_hide]
  · simp only [if_neg ho, hide_goto, hide_hide]

theorem hostFree_close (f : PortNum → Bool) (p : PortNum) (q : Pos) (s : State) :
    (closeWriter p q (s.hide f)).shape f = (closeWriter p q s).shape f := by
  have key : ∀ t : State, (closeWriter p q t).shape f = (releaseWriter p q t).shape f := by
    intro t
    refine shape_of f _ (fun h => ?_)
    unfold closeW
    split
    · next ho => simp [closePushes, ho] at h; simp [h]; rfl
    · rfl
  rw [key, key, hostFree_release]

theorem hostFree_treeSer (f : PortNum → Bool) (p : PortNum) : HostFree f (treeSerAct p) := by
  intro s
  unfold treeSerAct
  rw [hide_pos]
  split
  · exact hostFree_serAct p _ s rfl
  · rfl
  · rw [hide_writer, hide_tree]
    split
    · cases s.tree <;> simp [Act.shape, hide_goto]
    · rfl

theorem hostFree_codeEmit (f : PortNum → Bool) (p : PortNum) (v : Byte) : HostFree f (codeEmitAct p v) := by
  intro s
  unfold codeEmitAct
  rw [hide_pos]
  split
  · exact hostFree_emitAct p _ s rfl
  · rfl
  · rw [hide_writer, hide_dictValid, hide_dict]
    split
    · split
      · cases s.dict.code v <;> simp [Act.shape, hide_goto]
      · rfl
    · rfl

theorem hostFree_treeDeser (f : PortNum → Bool) (p : PortNum) : HostFree f (treeDeserAct p) := by
  intro s
  unfold treeDeserAct
  rw [hide_pos]
  split
  · exact hostFree_desNodeAct f p _ _ s
  · rfl
  · rfl
  · rfl
  · rw [hide_reader]
    split
    · have : ((invalidate (s.hide f)).goto (.desNode [] 0)) = ((invalidate s).goto (.desNode [] 0)).hide f := rfl
      rw [this]; simp [Act.shape]
    · rfl

theorem hostFree_freqCount {f : PortNum → Bool} {p : PortNum} (hp : f p = true) : HostFree f (freqCountAct p) := by
  intro s
  unfold freqCountAct
  rw [hide_pos]
  split
  · exact hostFree_countAct hp s rfl
  · rfl
  · rw [hide_reader]
    split
    · have : ((clearFreq (s.hide f)).goto .count) = ((clearFreq s).goto .count).hide f := rfl
      rw [this]; simp [Act.shape]
    · rfl

theorem hostFree_encode {f : PortNum → Bool} (hp : f .p0 = true) : HostFree f encodeAct := by
  have hnext : ∀ s, (encodeNext (s.hide f)).shape f = (encodeNext s).shape f := by
    intro s
    unfold encodeNext
    rw [hide_atEnd hp]
    split
    · have : ((closeR .p0 (s.hide f)).inPhase .eClose).goto .closeW0
          = (((closeR .p0 s).inPhase .eClose).goto .closeW0).hide f := rfl
      rw [this]; simp [Act.shape]
    · rfl
  have hcounted : ∀ s, (encodeCounted (s.hide f)).shape f = (encodeCounted s).shape f := by
    intro s
    have hz : (closeR .p0 (s.hide f)).total = (closeR .p0 s).total := rfl
    have hf : (invalidate ((closeR .p0 (s.hide f)).inPhase .eBuild)).freq
        = (invalidate ((closeR .p0 s).inPhase .eBuild)).freq := rfl
    unfold encodeCounted
    simp only [hz, hf]
    split
    · rfl
    · cases buildTree (invalidate ((closeR .p0 s).inPhase .eBuild)).freq with
      | none =>
        have : (invalidate ((closeR .p0 (s.hide f)).inPhase .eBuild)).goto (.raised .emptyFreq)
            = ((invalidate ((closeR .p0 s).inPhase .eBuild)).goto (.raised .emptyFreq)).hide f := rfl
        simp only [this]; simp [Act.shape]
      | some t => rfl
  have hpad : ∀ bits s, (encodePad bits (s.hide f)).shape f = (encodePad bits s).shape f := by
    intro bits s
    cases bits with
    | nil => rfl
    | cons b rest => exact hostFree_bits f .p1 _ _ s
  have hstart : ∀ s, (encodeStart (s.hide f)).shape f = (encodeStart s).shape f := by
    intro s
    have key : ∀ t : State, (encodeStart t).shape f
        = if t.w0.opened || t.w1.opened then .ended State.reset else .opens State.reset := by
      intro t
      unfold encodeStart
      split
      · rfl
      · split <;> rfl
    rw [key, key]; rfl
  intro s
  unfold encodeAct
  rw [hide_pos]
  split
  · exact hostFree_countAct hp s (hcounted s)
  · exact hostFree_serAct _ _ s rfl
  · exact hpad _ s
  · exact hostFree_emitAct _ _ s (hnext s)
  · exact hostFree_close f _ _ s
  · exact hostFree_close f _ _ s
  · rfl
  · next e _ =>
    have : (closeR .p0 (s.hide f)).goto (.relW0 e) = ((closeR .p0 s).goto (.relW0 e)).hide f := rfl
    rw [this]; simp [Act.shape]
  · exact hostFree_release f _ _ s
  · exact hostFree_release f _ _ s
  · rfl
  · exact hstart s

theorem hostFree_decode {f : PortNum → Bool} (hp : f .p1 = true) : HostFree f decodeAct := by
  have hread : ∀ t c s, (decodeTreeRead t c (s.hide f)).shape f = (decodeTreeRead t c s).shape f := by
    intro t c s
    unfold decodeTreeRead
    dsimp only
    split
    · have : (closeR .p0 (storeTree t c (s.hide f))).goto (.raised .degenerateTree)
          = ((closeR .p0 (storeTree t c s)).goto (.raised .degenerateTree)).hide f := rfl
      rw [this]; simp [Act.shape]
    · rfl
  have hskip : ∀ s, (decodeSkip (s.hide f)).shape f = (decodeSkip s).shape f := by
    intro s
    unfold decodeSkip
    rw [hide_atEnd hp, hide_bitPulls]
    split
    · simp [Act.shape, hide_goto]
    · refine shape_of f _ (fun h => ?_)
      rw [readBit_inner h, readBit_inner (by rw [hide_bitPulls]; exact h), hide_reader, hide_setReader]
      cases (s.reader .p1).buf.getLsbD ((s.reader .p1).cnt.val - 1)
      · exact hide_hide f (((((s.setReader .p1 (s.reader .p1).spend)).setCursor []).inPhase .dDecode).goto .walk)
      · exact hide_hide f ((s.setReader .p1 (s.reader .p1).spend).goto .skip)
  have hmove : ∀ (b : Bool) (s : State), moveCursor b (s.hide f) = (moveCursor b s).hide f := by
    intro b s
    have : ((s.hide f).setCursor ((s.hide f).cursor ++ [b])) = (s.setCursor (s.cursor ++ [b])).hide f := rfl
    unfold moveCursor
    rw [this]
    simp only [hide_tree, hide_cursor]
    split <;> rfl
  have hwalk : ∀ s, (decodeWalk (s.hide f)).shape f = (decodeWalk s).shape f := by
    intro s
    unfold decodeWalk
    rw [hide_atEnd hp, hide_bitPulls]
    split
    · have : (({ s.hide f with partialCode := (s.hide f).partialCode || !(s.hide f).cursor.isEmpty }.inPhase .dClose).goto .dClose)
          = (({ s with partialCode := s.partialCode || !s.cursor.isEmpty }.inPhase .dClose).goto .dClose).hide f := rfl
      rw [this]; simp [Act.shape]
    · refine shape_of f _ (fun h => ?_)
      rw [readBit_inner h, readBit_inner (by rw [hide_bitPulls]; exact h), hide_reader, hide_setReader]
      simp only [hmove, hide_hide]
  have hstart : ∀ s, (decodeStart (s.hide f)).shape f = (decodeStart s).shape f := by
    intro s
    have key : ∀ t : State, (decodeStart t).shape f
        = if t.w0.opened then .ended State.reset else .opens State.reset := by
      intro t
      unfold decodeStart
      split
      · rfl
      · split
        · rfl
        · split <;> rfl
    rw [key, key]; rfl
  intro s
  unfold decodeAct
  rw [hide_pos]
  split
  · exact hostFree_desNodeAct f _ _ _ s
  · rfl
  · exact hread _ _ s
  · exact hskip s
  · exact hwalk s
  · rfl
  · have : closeR .p1 (s.hide f) = (closeR .p1 s).hide f := rfl
    rw [this]; exact hostFree_close f _ _ _
  · rfl
  · next e _ =>
    have : (closeR .p1 (closeR .p0 (s.hide f))).goto (.relW0 e) = ((closeR .p1 (closeR .p0 s)).goto (.relW0 e)).hide f := rfl
    rw [this]; simp [Act.shape]
  · exact hostFree_release f _ _ s
  · rfl
  · exact hstart s

/-! ## Every command of several micro-steps -/

/-- An end ends the command. -/
theorem actOf_ended {i : Instr} {next : State → Act} (hi : actOf i = some next) {s t : State} (h : next s = .ended t) :
    t.running = none := by
  cases i <;> simp only [actOf, Option.some.injEq, reduceCtorEq] at hi <;> subst hi
  · revert h
    simp only [freqCountAct, countAct]
    repeat' split
    all_goals first | (rintro ⟨⟩; rfl) | (intro h; cases h)
  · revert h
    simp only [treeSerAct, serAct]
    repeat' split
    all_goals first | (rintro ⟨⟩; rfl) | (intro h; exact absurd h (by simp))
  · revert h
    simp only [treeDeserAct, desNodeAct, desLeafAct]
    repeat' split
    all_goals first | (rintro ⟨⟩; rfl) | (intro h; exact absurd h (by simp))
  · revert h
    simp only [codeEmitAct, emitAct]
    repeat' split
    all_goals first | (rintro ⟨⟩; rfl) | (intro h; exact absurd h (by simp))
  · revert h
    simp only [encodeAct, countAct, encodeCounted, serAct, encodeSerialized, encodePad, emitAct, encodeNext, encodeStart, closeWriter, releaseWriter]
    repeat' split
    all_goals first | (rintro ⟨⟩; rfl) | (intro h; exact absurd h (by simp))
  · revert h
    simp only [decodeAct, desNodeAct, desLeafAct, decodeTreeRead, decodeSkip, decodeWalk, decodeWrite, decodeStart, closeWriter, releaseWriter]
    repeat' split
    all_goals first | (rintro ⟨⟩; rfl) | (intro h; exact absurd h (by simp))

theorem actOf_bounded {i : Instr} {next : State → Act} (hi : actOf i = some next) :
    ∃ size, Bounded next size ∧ ∀ s, exec i s = .next (microStep next s) := by
  cases i <;> simp only [actOf, Option.some.injEq, reduceCtorEq] at hi <;> subst hi
  · exact ⟨_, freqCount_bounded _, fun s => rfl⟩
  · exact ⟨_, treeSer_bounded _, fun s => rfl⟩
  · exact ⟨_, treeDeser_bounded _, fun s => rfl⟩
  · exact ⟨_, codeEmit_bounded _ _, fun s => rfl⟩
  · exact ⟨_, encode_bounded, fun s => rfl⟩
  · exact ⟨_, decode_bounded, fun s => rfl⟩

/-- A micro-step that does not end its command makes an access and leaves one ahead (R354). -/
theorem exec_ahead {i : Instr} {next : State → Act} (hi : actOf i = some next) {s t : State} (h : exec i s = .next t)
    (hr : t.running ≠ none) : Accesses next s ∧ Ahead next t := by
  obtain ⟨size, hb, he⟩ := actOf_bounded hi
  rw [he] at h; cases h
  rcases microStep_ahead hb s with ⟨u, hu⟩ | h
  · exact absurd (actOf_ended hi hu) hr
  · exact h

theorem actOf_keeps {i : Instr} {next : State → Act} (hi : actOf i = some next) (s : State) :
    (next s).Keeps (effectsOf i) s := by
  cases i <;> simp only [actOf, Option.some.injEq, reduceCtorEq] at hi <;> subst hi
  · exact keeps_freqCount _ s
  · exact keeps_treeSer _ s
  · exact keeps_treeDeser _ s
  · exact keeps_codeEmit _ _ s
  · exact keeps_encode s
  · exact keeps_decode s

/-- A command runs on or has ended. -/
theorem actOf_running {i : Instr} {next : State → Act} (hi : actOf i = some next) {s t : State} (h : exec i s = .next t) :
    t.running = s.running ∨ t.running = none := by
  obtain ⟨size, hb, he⟩ := actOf_bounded hi
  rw [he] at h; cases h
  refine microStep_keeps (P := fun t => t.running = s.running ∨ t.running = none) (fun v hv => ?_) (.inl rfl)
  have hk := keeps_running (e := effectsOf i) (by cases i <;> rfl) (actOf_keeps hi) v
  cases hn : next v with
  | work u => rw [show (Act.work u).state.running = v.running from hk u (.inl (by rw [hn]; rfl))]; exact hv
  | opens u => rw [show (Act.opens u).state.running = v.running from hk u (.inl (by rw [hn]; rfl))]; exact hv
  | access u => rw [show (Act.access u).state.running = v.running from hk u (.inr hn)]; exact hv
  | ended u => exact .inr (actOf_ended hi hn)

/-- What a host step may change while a command runs (spec/20_memory.md R75, R81): no data of a source that is in
use, and nothing that is not hidden, unless it ends the command. -/
theorem hostStep_hide {f : PortNum → Bool} {h : HostStep} {s t : State} (hs : hostStep h s = .next t) (hb : s.busy = true)
    (hr : t.running ≠ none) (hf : ∀ p, f p = true → maySource p s = false) :
    t.hide f = s.hide f ∧ t.pos = s.pos ∧ t.running = s.running := by
  have hset : ∀ p x, (f p = true → x.data = (s.source p).data) → (s.setSource p x).hide f = s.hide f := by
    intro p x hx
    cases p <;> simp only [State.hide, State.setSource, State.source] at * <;> congr 2 <;> (split <;> simp_all)
  cases h with
  | loadSource p d a =>
    simp only [hostStep] at hs
    split at hs
    · next hm => cases hs; exact ⟨hset _ _ (fun h => by rw [hf p h] at hm; cases hm), by cases p <;> rfl, by cases p <;> rfl⟩
    · cases hs
  | setSourceAvail p b => cases hs; exact ⟨hset _ _ (fun h => rfl), by cases p <;> rfl, by cases p <;> rfl⟩
  | setSinkAvail p b => cases hs; exact ⟨by cases p <;> rfl, by cases p <;> rfl, by cases p <;> rfl⟩
  | readSink p => cases hs; exact ⟨rfl, rfl, rfl⟩
  | copySink q p =>
    simp only [hostStep] at hs
    split at hs
    · next hm => cases hs; exact ⟨hset _ _ (fun h => by rw [hf q h] at hm; cases hm), by cases q <;> rfl, by cases q <;> rfl⟩
    · cases hs
  | csrWrite o w c =>
    simp only [hostStep] at hs
    split at hs
    · split at hs
      · next u hu =>
        cases hs
        unfold csrWrite at hu
        split at hu <;> cases hu
        · rw [writeCmd, if_pos hb]; exact ⟨rfl, rfl, rfl⟩
        · exact ⟨rfl, rfl, rfl⟩
        · exact ⟨rfl, rfl, rfl⟩
        · exact ⟨rfl, rfl, rfl⟩
        · revert hr
          unfold writeCtrl
          split
          · intro hr; exact absurd rfl hr
          · intro _; split <;> exact ⟨rfl, rfl, rfl⟩
      · cases hs
    · cases hs
  | csrRead o w =>
    simp only [hostStep] at hs
    split at hs
    · split at hs
      · cases hs; exact ⟨rfl, rfl, rfl⟩
      · cases hs
    · cases hs
  | platformReset => cases hs; exact absurd rfl hr

end Sys2Proof.Machine
end

