-- ==== Sys2Proof/Laws/Trees.lean ====
section
/-! SUPPORT. Trees and dictionaries as values: paths and leaves, the shape of a built tree
(spec/41_tree.md R196), prefix-freedom (R197), the depth bound (R199). -/

namespace Sys2Proof.Machine

/-! ## Leaves, sizes, depths -/

theorem HTree.size_pos (t : HTree) : 1 ≤ t.size := by cases t <;> simp [HTree.size]; omega

theorem HTree.leaves_pos (t : HTree) : 1 ≤ t.leaves.length := by
  induction t with
  | leaf v => simp [HTree.leaves]
  | internal l r ihl ihr => simp [HTree.leaves]; omega

/-- L leaves, L − 1 internal nodes, 2L − 1 nodes (R196). -/
theorem HTree.size_eq (t : HTree) : t.size + 1 = 2 * t.leaves.length := by
  induction t with
  | leaf v => rfl
  | internal l r ihl ihr => simp [HTree.size, HTree.leaves]; omega

theorem HTree.depth_lt_leaves (t : HTree) : t.depth + 1 ≤ t.leaves.length := by
  induction t with
  | leaf v => simp [HTree.depth, HTree.leaves]
  | internal l r ihl ihr =>
    have := l.leaves_pos; have := r.leaves_pos
    simp [HTree.depth, HTree.leaves]; omega

theorem HTree.depth_le {P : Config.Params} (t : HTree) (h : t.size ≤ P.nodeCap) : t.depth ≤ P.maxCodeLen := by
  have := t.size_eq; have := t.depth_lt_leaves
  simp only [Config.Params.maxCodeLen, Config.Params.maxLeaves]; omega

/-- `|ser(t)| = 10·L − 1` (spec/30_encoding.md R103). -/
theorem HTree.ser_length (t : HTree) : t.ser.length + 1 = 10 * t.leaves.length := by
  induction t with
  | leaf v => simp [HTree.ser, HTree.leaves, byteBits]
  | internal l r ihl ihr => simp [HTree.ser, HTree.leaves]; omega

/-! ## Paths -/

theorem HTree.node_length {t u : HTree} {p : Bits} (h : t.node p = some u) : p.length + u.depth ≤ t.depth := by
  induction t generalizing p with
  | leaf v => cases p <;> simp [HTree.node] at h; subst h; simp
  | internal l r ihl ihr =>
    cases p with
    | nil => simp [HTree.node] at h; subst h; simp
    | cons b p =>
      cases b
      · have := ihl h; simp [HTree.depth]; omega
      · have := ihr h; simp [HTree.depth]; omega

theorem HTree.node_append (t : HTree) (p q : Bits) : t.node (p ++ q) = (t.node p).bind (fun u => u.node q) := by
  induction t generalizing p with
  | leaf v => cases p <;> simp [HTree.node]
  | internal l r ihl ihr =>
    cases p with
    | nil => simp [HTree.node]
    | cons b p => cases b <;> simp [HTree.node, ihl, ihr]

/-- No path goes on below a leaf. -/
theorem HTree.node_leaf_append {t : HTree} {p q : Bits} {v : Byte} (h : t.node p = some (.leaf v))
    {u : HTree} (hq : t.node (p ++ q) = some u) : q = [] := by
  rw [HTree.node_append, h] at hq
  cases q with
  | nil => rfl
  | cons b q => simp [HTree.node] at hq

/-- BuildDict visits the leaf v with path p exactly when p leads to it. -/
theorem HTree.mem_paths (t : HTree) (pre p : Bits) (v : Byte) :
    (v, pre ++ p) ∈ t.paths pre ↔ t.node p = some (.leaf v) := by
  induction t generalizing pre p with
  | leaf w => cases p <;> simp [HTree.paths, HTree.node, eq_comm]
  | internal l r ihl ihr =>
    have key : ∀ (u : HTree) (c : Bits) (x : Byte × Bits), x ∈ u.paths c → c <+: x.2 := by
      intro u
      induction u with
      | leaf w => intro c x hx; simp [HTree.paths] at hx; subst hx; simp
      | internal a b iha ihb =>
        intro c x hx
        simp only [HTree.paths, List.mem_append] at hx
        rcases hx with hx | hx
        · exact (List.prefix_append c _).trans (iha _ _ hx)
        · exact (List.prefix_append c _).trans (ihb _ _ hx)
    simp only [HTree.paths, List.mem_append]
    cases p with
    | nil =>
      simp only [HTree.node, List.append_nil, Option.some.injEq, reduceCtorEq, iff_false, not_or]
      constructor <;> intro h <;> have := (key _ _ _ h).length_le <;> simp at this
    | cons b p =>
      have hno : ∀ (u : HTree) (x y : Bool), x ≠ y → (v, pre ++ x :: p) ∉ u.paths (pre ++ [y]) := by
        intro u x y hxy h
        obtain ⟨z, hz⟩ := key _ _ _ h
        simp only [List.append_assoc, List.append_cancel_left_eq, List.singleton_append, List.cons.injEq] at hz
        exact hxy hz.1.symm
      cases b
      · have := ihl (pre ++ [false]) p
        simp only [List.append_assoc, List.singleton_append] at this
        simp [this, hno r false true (by decide), HTree.node]
      · have := ihr (pre ++ [true]) p
        simp only [List.append_assoc, List.singleton_append] at this
        simp [this, hno l true false (by decide), HTree.node]

theorem HTree.paths_leaves (t : HTree) (pre : Bits) : (t.paths pre).map Prod.fst = t.leaves := by
  induction t generalizing pre with
  | leaf v => rfl
  | internal l r ihl ihr => simp [HTree.paths, HTree.leaves, ihl, ihr]

theorem HTree.mem_leaves_iff (t : HTree) (v : Byte) : v ∈ t.leaves ↔ ∃ p, t.node p = some (.leaf v) := by
  rw [← t.paths_leaves [], List.mem_map]
  constructor
  · rintro ⟨⟨w, p⟩, hm, rfl⟩
    exact ⟨p, (t.mem_paths [] p w).1 hm⟩
  · rintro ⟨p, hp⟩
    exact ⟨(v, p), (t.mem_paths [] p v).2 hp, rfl⟩

/-! ## Dictionaries -/

@[simp] theorem Dict.code_record (d : Dict) (v w : Byte) (p : Bits) :
    (d.record v p).code w = if w = v then some p else d.code w := by
  simp only [Dict.code, Dict.record, Vector.getElem_set, BitVec.toNat_inj]
  by_cases h : v = w
  · simp [h]
  · simp [h, Ne.symm h]

@[simp] theorem Dict.code_none (w : Byte) : Dict.none.code w = Option.none := by
  simp [Dict.code, Dict.none]

theorem foldl_record (l : List (Byte × Bits)) (d : Dict) (w : Byte) :
    (l.foldl (fun m e => m.record e.1 e.2) d).code w
      = ((l.reverse.find? (fun e => e.1 == w)).map Prod.snd).or (d.code w) := by
  induction l generalizing d with
  | nil => simp
  | cons e l ih =>
    rw [List.foldl_cons, ih, Dict.code_record, List.reverse_cons, List.find?_append]
    cases h : l.reverse.find? (fun e => e.1 == w) with
    | some x => simp
    | none =>
      by_cases hw : w = e.1
      · simp [hw]
      · simp [hw, Ne.symm hw]

/-- A code of the dictionary is the path of a leaf with that value (R191). -/
theorem buildDict_node {t : HTree} {v : Byte} {p : Bits} (h : (buildDict t).code v = some p) :
    t.node p = some (.leaf v) := by
  rw [buildDict, foldl_record] at h
  simp only [Dict.code_none, Option.or_none, Option.map_eq_some_iff] at h
  obtain ⟨⟨w, q⟩, hf, rfl⟩ := h
  have hv := List.find?_some hf
  have hm := List.mem_of_find?_eq_some hf
  simp only [beq_iff_eq] at hv
  subst hv
  exact (t.mem_paths [] q w).1 (List.mem_reverse.1 hm)

/-- The dictionary's keys are the leaf values (R197). -/
theorem buildDict_dom (t : HTree) (v : Byte) : ((buildDict t).code v).isSome ↔ v ∈ t.leaves := by
  rw [buildDict, foldl_record, ← t.paths_leaves [], List.mem_map]
  simp only [Dict.code_none, Option.or_none, Option.isSome_map, List.find?_isSome, List.mem_reverse, beq_iff_eq]

/-- No code is a prefix of another symbol's code (R197). -/
theorem buildDict_prefixFree {t : HTree} {u v : Byte} {p q : Bits} (hp : (buildDict t).code u = some p)
    (hq : (buildDict t).code v = some q) (h : p <+: q) : u = v := by
  obtain ⟨r, rfl⟩ := h
  have h1 := buildDict_node hp
  have h2 := buildDict_node hq
  obtain rfl := HTree.node_leaf_append h1 h2
  rw [List.append_nil, h1] at h2
  simpa using h2

theorem buildDict_code_length {t : HTree} {v : Byte} {p : Bits} (h : (buildDict t).code v = some p) :
    p.length ≤ t.depth := by
  have := HTree.node_length (buildDict_node h)
  simp only [HTree.depth] at this
  omega

/-! ## Construction -/

theorem enqueue_perm (x : QNode) (q : List QNode) : (enqueue x q).Perm (x :: q) := by
  induction q with
  | nil => exact .refl _
  | cons y q ih =>
    unfold enqueue
    split
    · exact .refl _
    · exact (ih.cons y).trans (.swap x y q)

/-- The leaves of a queue. -/
def queueLeaves (q : List QNode) : List Byte := q.flatMap (fun n => n.tree.leaves)

theorem queueLeaves_perm {a b : List QNode} (h : a.Perm b) : (queueLeaves a).Perm (queueLeaves b) :=
  h.flatMap_right _

/-- Combining keeps the leaves and gives an internal node. -/
theorem combineAll_spec (fuel : Nat) : ∀ (k : Nat) (q : List QNode), q ≠ [] → q.length ≤ fuel + 1 →
    ∃ t, combineAll fuel k q = some t ∧ t.leaves.Perm (queueLeaves q) ∧ (2 ≤ q.length → t.isLeaf = false) := by
  induction fuel with
  | zero =>
    intro k q hne hlen
    match q, hne, hlen with
    | [a], _, _ => exact ⟨a.tree, rfl, by simp [queueLeaves], by simp⟩
  | succ fuel ih =>
    intro k q hne hlen
    match q, hne, hlen with
    | [a], _, _ => exact ⟨a.tree, rfl, by simp [queueLeaves], by simp⟩
    | a :: b :: q, _, hlen =>
      have hp := enqueue_perm (combine k a b) q
      obtain ⟨t, ht, hl, hi⟩ := ih (k + 1) (enqueue (combine k a b) q)
        (by intro h; rw [h] at hp; simpa using hp.length_eq) (by rw [hp.length_eq]; simp at hlen ⊢; omega)
      refine ⟨t, ht, hl.trans ((queueLeaves_perm hp).trans ?_), fun _ => ?_⟩
      · simp [queueLeaves, combine, HTree.leaves]
      · cases q with
        | nil =>
          simp only [enqueue] at ht
          cases fuel <;> (simp only [combineAll, Option.some.injEq] at ht; subst ht; rfl)
        | cons c q => exact hi (by rw [hp.length_eq]; simp)

theorem mem_symbols (v : Byte) : v ∈ symbols := by
  simp only [symbols, List.mem_map, List.mem_range]
  exact ⟨v.toNat, v.isLt, by simp⟩

theorem symbols_nodup : symbols.Nodup := by
  refine List.Nodup.map_on ?_ List.nodup_range
  intro a ha b hb h
  have := congrArg BitVec.toNat h
  simp only [List.mem_range, Config.N_SYM] at ha hb
  simpa [BitVec.toNat_ofNat, Nat.mod_eq_of_lt ha, Nat.mod_eq_of_lt hb] using this

theorem mem_usedSymbols (f : FreqTable) (v : Byte) : v ∈ usedSymbols f ↔ f.count v ≠ 0 := by
  simp [usedSymbols, mem_symbols]

theorem usedSymbols_nodup (f : FreqTable) : (usedSymbols f).Nodup := symbols_nodup.filter _

theorem usedSymbols_length (f : FreqTable) : (usedSymbols f).length ≤ 256 := by
  have := List.length_filter_le (fun v => f.count v != 0) symbols
  simpa [usedSymbols, symbols] using this

theorem startQueue_perm (f : FreqTable) (l : List Byte) :
    (l.foldr (fun v q => enqueue (leafNode f v) q) []).Perm (l.map (leafNode f)) := by
  induction l with
  | nil => exact .refl _
  | cons v l ih => exact (enqueue_perm _ _).trans (ih.cons _)

/-- The shape of a built tree (R196): at least two symbols. -/
theorem buildTree_many (f : FreqTable) (h : 2 ≤ (usedSymbols f).length) :
    ∃ t, buildTree f = some t ∧ t.leaves.Perm (usedSymbols f) ∧ t.isLeaf = false := by
  have hp := startQueue_perm f (usedSymbols f)
  have hlen : (startQueue f).length = (usedSymbols f).length := by
    rw [startQueue, hp.length_eq, List.length_map]
  have hb : buildTree f = combineAll Config.N_SYM 0 (startQueue f) := by
    unfold buildTree
    split
    · next h0 => simp [h0] at h
    · next h1 => simp [h1] at h
    · rfl
  obtain ⟨t, ht, hl, hi⟩ := combineAll_spec Config.N_SYM 0 (startQueue f)
    (by intro h0; rw [h0] at hlen; simp at hlen; omega) (by have := usedSymbols_length f; simp only [Config.N_SYM]; omega)
  refine ⟨t, hb.trans ht, hl.trans ((queueLeaves_perm hp).trans ?_), hi (by omega)⟩
  have : queueLeaves ((usedSymbols f).map (leafNode f)) = usedSymbols f := by
    simp only [queueLeaves, List.flatMap_map, leafNode, HTree.leaves]
    exact List.flatMap_singleton' _
  rw [this]

theorem xor_one_ne (v : Byte) : v ^^^ 0x01 ≠ v := by
  intro h
  have := congrArg (fun x => BitVec.getLsbD x 0) h
  simp at this

/-- Every built tree (R196, R197): internal root, distinct leaves, a leaf for every used symbol, and
it fits the store. -/
theorem buildTree_spec {f : FreqTable} {t : HTree} (h : buildTree f = some t) :
    t.isLeaf = false ∧ t.leaves.Nodup ∧ (∀ v, f.count v ≠ 0 → v ∈ t.leaves) ∧ t.size ≤ 511 := by
  have hs := t.size_eq
  rcases Nat.lt_or_ge (usedSymbols f).length 2 with h2 | h2
  · unfold buildTree at h
    split at h
    · cases h
    · next v hv =>
      cases h
      refine ⟨rfl, ?_, ?_, by simp [HTree.size]⟩
      · simpa [HTree.leaves] using (xor_one_ne v).symm
      · intro w hw
        have := (mem_usedSymbols f w).2 hw
        rw [hv] at this
        simp only [List.mem_singleton] at this
        simp [HTree.leaves, this]
    · next h0 h1 =>
      match hu : usedSymbols f with
      | [] => exact absurd hu h0
      | [v] => exact absurd hu (h1 v)
      | a :: b :: l => rw [hu] at h2; simp at h2
  · obtain ⟨t', ht', hl, hi⟩ := buildTree_many f h2
    rw [h] at ht'
    cases ht'
    refine ⟨hi, hl.nodup_iff.2 (usedSymbols_nodup f), fun v hv => hl.mem_iff.2 ((mem_usedSymbols f v).2 hv), ?_⟩
    have := usedSymbols_length f
    rw [← hl.length_eq] at this
    omega

/-- BuildTree raises EmptyFreq exactly on an all-zero table (R184). -/
theorem buildTree_eq_none (f : FreqTable) : buildTree f = none ↔ ∀ v, f.count v = 0 := by
  constructor
  · intro h v
    by_contra hv
    have hm := (mem_usedSymbols f v).2 hv
    rcases Nat.lt_or_ge (usedSymbols f).length 2 with h2 | h2
    · match hu : usedSymbols f with
      | [] => rw [hu] at hm; cases hm
      | [a] => rw [buildTree, hu] at h; cases h
      | a :: b :: l => rw [hu] at h2; simp at h2
    · obtain ⟨t, ht, -⟩ := buildTree_many f h2
      rw [h] at ht; cases ht
  · intro h
    have : usedSymbols f = [] := List.eq_nil_iff_forall_not_mem.2 fun v hv => (mem_usedSymbols f v).1 hv (h v)
    rw [buildTree, this]

end Sys2Proof.Machine
end

