-- ==== Sys2Proof/Laws/Counts.lean ====
section
/-! SUPPORT. Frequency tables as counts of a byte sequence, and the total length of its codes. -/

namespace Sys2Proof.Machine

@[simp] theorem FreqTable.count_zero (v : Byte) : FreqTable.zero.count v = 0 := by
  simp [FreqTable.count, FreqTable.zero]

theorem FreqTable.count_bump (f : FreqTable) (v w : Byte) :
    (f.bump v).count w = if w = v then f.count v + 1 else f.count w := by
  simp only [FreqTable.count, FreqTable.bump, Vector.getElem_set, BitVec.toNat_inj]
  by_cases h : v = w
  · simp [h]
  · simp [h, Ne.symm h]

theorem count_foldl (xs : List Byte) (f : FreqTable) (w : Byte) :
    (xs.foldl FreqTable.bump f).count w = f.count w + xs.count w := by
  induction xs generalizing f with
  | nil => simp
  | cons x xs ih =>
    rw [List.foldl_cons, ih, FreqTable.count_bump, List.count_cons]
    by_cases h : w = x
    · subst h; simp; omega
    · have : ¬ x = w := fun e => h e.symm
      simp [h, this]

/-- The table that counts a byte sequence (R180). -/
def countsOf (xs : List Byte) : FreqTable := xs.foldl FreqTable.bump FreqTable.zero

theorem countsOf_count (xs : List Byte) (v : Byte) : (countsOf xs).count v = xs.count v := by
  rw [countsOf, count_foldl, FreqTable.count_zero, Nat.zero_add]

theorem foldl_addCount (xs : List Byte) (s : State) :
    xs.foldl (fun t v => addCount v t) s
      = { s with freq := xs.foldl FreqTable.bump s.freq, total := s.total + xs.length } := by
  induction xs generalizing s with
  | nil => simp
  | cons x xs ih =>
    rw [List.foldl_cons, ih]
    have : s.total + 1 + xs.length = s.total + (xs.length + 1) := by omega
    simp only [addCount, List.foldl_cons, List.length_cons, this]

/-- Counting from a cleared table (R180). -/
theorem foldl_addCount_clear (xs : List Byte) (s : State) :
    xs.foldl (fun t v => addCount v t) (clearFreq s)
      = { s with freq := countsOf xs, total := xs.length } := by
  rw [foldl_addCount]
  simp [clearFreq, countsOf]

theorem sum_single (l : List Byte) (hn : l.Nodup) (x : Byte) (hx : x ∈ l) (g : Byte → Nat) :
    (l.map (fun v => if x == v then g v else 0)).sum = g x := by
  induction l with
  | nil => simp at hx
  | cons a l ih =>
    rw [List.nodup_cons] at hn
    rw [List.map_cons, List.sum_cons]
    by_cases h : x = a
    · subst h
      have : (l.map (fun v => if x == v then g v else 0)).sum = 0 := by
        apply List.sum_eq_zero
        intro y hy
        obtain ⟨v, hv, rfl⟩ := List.mem_map.1 hy
        have : x ≠ v := fun e => hn.1 (e ▸ hv)
        simp [this]
      rw [this]; simp
    · rw [ih hn.2 (by simpa [h] using hx)]
      simp [h]

/-- A sum over an input is the sum over the symbols of their counts. -/
theorem sum_counts (xs : List Byte) (g : Byte → Nat) :
    (symbols.map (fun v => xs.count v * g v)).sum = (xs.map g).sum := by
  induction xs with
  | nil => simp
  | cons x xs ih =>
    rw [List.map_cons, List.sum_cons, ← ih, ← sum_single symbols symbols_nodup x (mem_symbols x) g, ← List.sum_map_add]
    refine congrArg List.sum (List.map_congr_left fun v _ => ?_)
    rw [List.count_cons]
    by_cases h : x = v
    · simp [h, Nat.add_mul, Nat.add_comm]
    · simp [h]

/-- TOTAL's worth of codes is as long as the codes of the input (spec/42_codec.md R257). -/
theorem totalBits_eq (xs : List Byte) (d : Dict) :
    totalBits (countsOf xs) d = (codesOf d.codeOf xs).length := by
  rw [totalBits, codesOf, List.length_flatMap, ← sum_counts xs]
  refine congrArg List.sum (List.map_congr_left fun v _ => ?_)
  rw [countsOf_count xs]
  rfl

theorem countsOf_sum (xs : List Byte) : (countsOf xs).sum = xs.length := by
  rw [FreqTable.sum]
  have := sum_counts xs (fun _ => 1)
  simp only [Nat.mul_one, List.map_const', List.sum_replicate, smul_eq_mul, Nat.mul_one] at this
  rw [← this]
  refine congrArg List.sum (List.map_congr_left fun v _ => ?_)
  exact countsOf_count xs v

end Sys2Proof.Machine
end

