-- ==== Sys2Proof/Laws/Ends.lean ====
section
/-! SUPPORT. From a command's trace to its micro-steps (spec/20_memory.md R72). -/

namespace Sys2Proof.Machine

theorem freqCount_ends {p : PortNum} {s t : State} {k : Nat} (hr : s.running = some (.legal (.freqCount p)))
    (h : Trace (freqCountAct p) s k t) (ht : t.running = none) : EndsAfter (.freqCount p) (max 1 k) s t :=
  h.endsAfter (freqCount_bounded p) (fun _ => rfl) (keeps_running (by rfl) (keeps_freqCount p)) hr ht

theorem treeSer_ends {p : PortNum} {s t : State} {k : Nat} (hr : s.running = some (.legal (.treeSer p)))
    (h : Trace (treeSerAct p) s k t) (ht : t.running = none) : EndsAfter (.treeSer p) (max 1 k) s t :=
  h.endsAfter (treeSer_bounded p) (fun _ => rfl) (keeps_running (by rfl) (keeps_treeSer p)) hr ht

theorem treeDeser_ends {p : PortNum} {s t : State} {k : Nat} (hr : s.running = some (.legal (.treeDeser p)))
    (h : Trace (treeDeserAct p) s k t) (ht : t.running = none) : EndsAfter (.treeDeser p) (max 1 k) s t :=
  h.endsAfter (treeDeser_bounded p) (fun _ => rfl) (keeps_running (by rfl) (keeps_treeDeser p)) hr ht

theorem codeEmit_ends {p : PortNum} {v : Byte} {s t : State} {k : Nat} (hr : s.running = some (.legal (.codeEmit p v)))
    (h : Trace (codeEmitAct p v) s k t) (ht : t.running = none) : EndsAfter (.codeEmit p v) (max 1 k) s t :=
  h.endsAfter (codeEmit_bounded p v) (fun _ => rfl) (keeps_running (by rfl) (keeps_codeEmit p v)) hr ht

theorem encode_ends {s t : State} {k : Nat} (hr : s.running = some (.legal .encode)) (h : Trace encodeAct s k t)
    (ht : t.running = none) : EndsAfter .encode (max 1 k) s t :=
  h.endsAfter encode_bounded (fun _ => rfl) (keeps_running (by rfl) keeps_encode) hr ht

theorem decode_ends {s t : State} {k : Nat} (hr : s.running = some (.legal .decode)) (h : Trace decodeAct s k t)
    (ht : t.running = none) : EndsAfter .decode (max 1 k) s t :=
  h.endsAfter decode_bounded (fun _ => rfl) (keeps_running (by rfl) keeps_decode) hr ht

end Sys2Proof.Machine
end

