-- ==== Sys2Proof/Laws/Paths.lean ====
section
/-! SUPPORT. The paths of the loops: writing bits, serializing, deserializing, counting, walking. In
each, the engine's position is set on a fixed state of which one reader has read a number of bits and
one writer has written a bit sequence. -/

namespace Sys2Proof.Machine

/-! ## Fields after reading and writing -/

@[simp] theorem readAt_w0 (s : State) (p : PortNum) (m : Nat) : (s.readAt p m).w0 = s.w0 := by cases p <;> rfl
@[simp] theorem readAt_w1 (s : State) (p : PortNum) (m : Nat) : (s.readAt p m).w1 = s.w1 := by cases p <;> rfl
@[simp] theorem readAt_freq (s : State) (p : PortNum) (m : Nat) : (s.readAt p m).freq = s.freq := by cases p <;> rfl
@[simp] theorem readAt_total (s : State) (p : PortNum) (m : Nat) : (s.readAt p m).total = s.total := by cases p <;> rfl
@[simp] theorem readAt_params (s : State) (p : PortNum) (m : Nat) : (s.readAt p m).params = s.params := by cases p <;> rfl
@[simp] theorem readAt_tree (s : State) (p : PortNum) (m : Nat) : (s.readAt p m).tree = s.tree := by cases p <;> rfl
@[simp] theorem readAt_nodes (s : State) (p : PortNum) (m : Nat) : (s.readAt p m).nodes = s.nodes := by cases p <;> rfl
@[simp] theorem readAt_dict (s : State) (p : PortNum) (m : Nat) : (s.readAt p m).dict = s.dict := by cases p <;> rfl
@[simp] theorem readAt_dictValid (s : State) (p : PortNum) (m : Nat) : (s.readAt p m).dictValid = s.dictValid := by cases p <;> rfl
@[simp] theorem readAt_cursor (s : State) (p : PortNum) (m : Nat) : (s.readAt p m).cursor = s.cursor := by cases p <;> rfl
@[simp] theorem readAt_padBits (s : State) (p : PortNum) (m : Nat) : (s.readAt p m).padBits = s.padBits := by cases p <;> rfl
@[simp] theorem readAt_busy (s : State) (p : PortNum) (m : Nat) : (s.readAt p m).busy = s.busy := by cases p <;> rfl
@[simp] theorem readAt_done (s : State) (p : PortNum) (m : Nat) : (s.readAt p m).done = s.done := by cases p <;> rfl
@[simp] theorem readAt_err (s : State) (p : PortNum) (m : Nat) : (s.readAt p m).err = s.err := by cases p <;> rfl
@[simp] theorem readAt_empty (s : State) (p : PortNum) (m : Nat) : (s.readAt p m).empty = s.empty := by cases p <;> rfl
@[simp] theorem readAt_partialCode (s : State) (p : PortNum) (m : Nat) : (s.readAt p m).partialCode = s.partialCode := by cases p <;> rfl
@[simp] theorem readAt_drop (s : State) (p : PortNum) (m : Nat) : (s.readAt p m).drop = s.drop := by cases p <;> rfl
@[simp] theorem readAt_errcode (s : State) (p : PortNum) (m : Nat) : (s.readAt p m).errcode = s.errcode := by cases p <;> rfl
@[simp] theorem readAt_phase (s : State) (p : PortNum) (m : Nat) : (s.readAt p m).phase = s.phase := by cases p <;> rfl
@[simp] theorem readAt_resultValue (s : State) (p : PortNum) (m : Nat) : (s.readAt p m).resultValue = s.resultValue := by cases p <;> rfl
@[simp] theorem readAt_resultValid (s : State) (p : PortNum) (m : Nat) : (s.readAt p m).resultValid = s.resultValid := by cases p <;> rfl
@[simp] theorem readAt_running (s : State) (p : PortNum) (m : Nat) : (s.readAt p m).running = s.running := by cases p <;> rfl
@[simp] theorem readAt_pos (s : State) (p : PortNum) (m : Nat) : (s.readAt p m).pos = s.pos := by cases p <;> rfl
@[simp] theorem readAt_src0 (s : State) (p : PortNum) (m : Nat) : (s.readAt p m).src0 = s.src0 := by cases p <;> rfl
@[simp] theorem readAt_src1 (s : State) (p : PortNum) (m : Nat) : (s.readAt p m).src1 = s.src1 := by cases p <;> rfl
@[simp] theorem readAt_snk0 (s : State) (p : PortNum) (m : Nat) : (s.readAt p m).snk0 = s.snk0 := by cases p <;> rfl
@[simp] theorem readAt_snk1 (s : State) (p : PortNum) (m : Nat) : (s.readAt p m).snk1 = s.snk1 := by cases p <;> rfl
@[simp] theorem readAt_turns (s : State) (p : PortNum) (m : Nat) : (s.readAt p m).turns = s.turns := by cases p <;> rfl
@[simp] theorem readAt_seen (s : State) (p : PortNum) (m : Nat) : (s.readAt p m).seen = s.seen := by cases p <;> rfl
@[simp] theorem wrote_r0 (s : State) (p : PortNum) (b : Bits) : (s.wrote p b).r0 = s.r0 := by cases p <;> rfl
@[simp] theorem wrote_r1 (s : State) (p : PortNum) (b : Bits) : (s.wrote p b).r1 = s.r1 := by cases p <;> rfl
@[simp] theorem wrote_freq (s : State) (p : PortNum) (b : Bits) : (s.wrote p b).freq = s.freq := by cases p <;> rfl
@[simp] theorem wrote_total (s : State) (p : PortNum) (b : Bits) : (s.wrote p b).total = s.total := by cases p <;> rfl
@[simp] theorem wrote_params (s : State) (p : PortNum) (b : Bits) : (s.wrote p b).params = s.params := by cases p <;> rfl
@[simp] theorem wrote_tree (s : State) (p : PortNum) (b : Bits) : (s.wrote p b).tree = s.tree := by cases p <;> rfl
@[simp] theorem wrote_nodes (s : State) (p : PortNum) (b : Bits) : (s.wrote p b).nodes = s.nodes := by cases p <;> rfl
@[simp] theorem wrote_dict (s : State) (p : PortNum) (b : Bits) : (s.wrote p b).dict = s.dict := by cases p <;> rfl
@[simp] theorem wrote_dictValid (s : State) (p : PortNum) (b : Bits) : (s.wrote p b).dictValid = s.dictValid := by cases p <;> rfl
@[simp] theorem wrote_cursor (s : State) (p : PortNum) (b : Bits) : (s.wrote p b).cursor = s.cursor := by cases p <;> rfl
@[simp] theorem wrote_padBits (s : State) (p : PortNum) (b : Bits) : (s.wrote p b).padBits = s.padBits := by cases p <;> rfl
@[simp] theorem wrote_busy (s : State) (p : PortNum) (b : Bits) : (s.wrote p b).busy = s.busy := by cases p <;> rfl
@[simp] theorem wrote_done (s : State) (p : PortNum) (b : Bits) : (s.wrote p b).done = s.done := by cases p <;> rfl
@[simp] theorem wrote_err (s : State) (p : PortNum) (b : Bits) : (s.wrote p b).err = s.err := by cases p <;> rfl
@[simp] theorem wrote_empty (s : State) (p : PortNum) (b : Bits) : (s.wrote p b).empty = s.empty := by cases p <;> rfl
@[simp] theorem wrote_partialCode (s : State) (p : PortNum) (b : Bits) : (s.wrote p b).partialCode = s.partialCode := by cases p <;> rfl
@[simp] theorem wrote_drop (s : State) (p : PortNum) (b : Bits) : (s.wrote p b).drop = s.drop := by cases p <;> rfl
@[simp] theorem wrote_errcode (s : State) (p : PortNum) (b : Bits) : (s.wrote p b).errcode = s.errcode := by cases p <;> rfl
@[simp] theorem wrote_phase (s : State) (p : PortNum) (b : Bits) : (s.wrote p b).phase = s.phase := by cases p <;> rfl
@[simp] theorem wrote_resultValue (s : State) (p : PortNum) (b : Bits) : (s.wrote p b).resultValue = s.resultValue := by cases p <;> rfl
@[simp] theorem wrote_resultValid (s : State) (p : PortNum) (b : Bits) : (s.wrote p b).resultValid = s.resultValid := by cases p <;> rfl
@[simp] theorem wrote_running (s : State) (p : PortNum) (b : Bits) : (s.wrote p b).running = s.running := by cases p <;> rfl
@[simp] theorem wrote_pos (s : State) (p : PortNum) (b : Bits) : (s.wrote p b).pos = s.pos := by cases p <;> rfl
@[simp] theorem wrote_src0 (s : State) (p : PortNum) (b : Bits) : (s.wrote p b).src0 = s.src0 := by cases p <;> rfl
@[simp] theorem wrote_src1 (s : State) (p : PortNum) (b : Bits) : (s.wrote p b).src1 = s.src1 := by cases p <;> rfl
@[simp] theorem wrote_turns (s : State) (p : PortNum) (b : Bits) : (s.wrote p b).turns = s.turns := by cases p <;> rfl
@[simp] theorem wrote_seen (s : State) (p : PortNum) (b : Bits) : (s.wrote p b).seen = s.seen := by cases p <;> rfl
@[simp] theorem readAt_p0_r1 (s : State) (m : Nat) : (s.readAt .p0 m).r1 = s.r1 := rfl
@[simp] theorem wrote_p0_w1 (s : State) (b : Bits) : (s.wrote .p0 b).w1 = s.w1 := rfl
@[simp] theorem wrote_p0_snk1 (s : State) (b : Bits) : (s.wrote .p0 b).snk1 = s.snk1 := rfl
@[simp] theorem readAt_p1_r0 (s : State) (m : Nat) : (s.readAt .p1 m).r0 = s.r0 := rfl
@[simp] theorem wrote_p1_w0 (s : State) (b : Bits) : (s.wrote .p1 b).w0 = s.w0 := rfl
@[simp] theorem wrote_p1_snk0 (s : State) (b : Bits) : (s.wrote .p1 b).snk0 = s.snk0 := rfl

/-! ## Updates that commute -/

@[simp] theorem goto_goto (s : State) (q r : Pos) : (s.goto q).goto r = s.goto r := rfl
theorem wrote_goto' (s : State) (p : PortNum) (b : Bits) (q : Pos) : (s.wrote p b).goto q = (s.goto q).wrote p b := by
  cases p <;> rfl
theorem readAt_goto (s : State) (p : PortNum) (m : Nat) (q : Pos) : (s.readAt p m).goto q = (s.goto q).readAt p m := by
  cases p <;> rfl
theorem wrote_readAt (s : State) (p q : PortNum) (m : Nat) (b : Bits) :
    (s.wrote p b).readAt q m = (s.readAt q m).wrote p b := by
  cases p <;> cases q <;> rfl

theorem Path.congr {next : State → Act} {s t : State} {j k : Nat} (p : Path next s j t) (h : j = k) :
    Path next s k t := h ▸ p

theorem Trace.congr {next : State → Act} {s t : State} {j k : Nat} (p : Trace next s j t) (h : j = k) :
    Trace next s k t := h ▸ p

/-! ## Writing -/

/-- The bytes completed when a writer goes from a to b bits written (R141). -/
def pushesTo (a b : Nat) : Nat := b / 8 - a / 8

/-- Writing bits one by one at positions `here bits`. -/
theorem path_bits {next : State → Act} {p : PortNum} {here : Bits → Pos}
    (hnext : ∀ b rest t, t.pos = here (b :: rest) → next t = Act.of (bitPushes p t) ((writeBit p b t).goto (here rest)))
    (s : State) :
    ∀ (bits done : Bits), ((s.sink p).avail = true ∨ done.length % 8 + bits.length < 8) →
      Path next ((s.goto (here bits)).wrote p done) (pushesTo done.length (done ++ bits).length)
      ((s.goto (here [])).wrote p (done ++ bits)) := by
  intro bits
  induction bits with
  | nil => intro done _; simpa [pushesTo] using Path.refl _
  | cons b rest ih =>
    intro done ha
    have h := hnext b rest ((s.goto (here (b :: rest))).wrote p done) (by simp)
    rw [writeBit_wrote _ _ _ _ (fun h7 => by
      rcases ha with ha | ha
      · simpa using ha
      · simp only [List.length_cons] at ha; omega), bitPushes_wrote, Res.goto, wrote_goto', goto_goto] at h
    have := (Path.one _ h).trans (ih (done ++ [b]) (by
      rcases ha with ha | ha
      · exact .inl ha
      · right; simp only [List.length_append, List.length_cons, List.length_nil] at ha ⊢; omega))
    rw [List.append_assoc, List.singleton_append] at this
    refine this.congr ?_
    by_cases h7 : done.length % 8 = 7 <;> simp [pushesTo, h7] <;> omega

/-- Writing bits to an unavailable sink stops at the first bit that completes a byte (R128). -/
theorem path_bits_refused {next : State → Act} {p : PortNum} {here : Bits → Pos}
    (hnext : ∀ b rest t, t.pos = here (b :: rest) → next t = Act.of (bitPushes p t) ((writeBit p b t).goto (here rest)))
    (s : State) (ha : (s.sink p).avail = false) :
    ∀ (bits done : Bits), 8 ≤ done.length % 8 + bits.length →
      Path next ((s.goto (here bits)).wrote p done) 1
        ((s.goto (.raised .sinkUnavailable)).wrote p (done ++ bits.take (7 - done.length % 8))) := by
  intro bits
  induction bits with
  | nil => intro done h; simp at h; omega
  | cons b rest ih =>
    intro done hlen
    have h := hnext b rest ((s.goto (here (b :: rest))).wrote p done) (by simp)
    by_cases h7 : done.length % 8 = 7
    · rw [writeBit_refused _ _ _ _ h7 (by simpa using ha), bitPushes_wrote, Res.goto, wrote_goto', goto_goto,
        decide_eq_true h7] at h
      simpa [h7] using Path.access h (.refl _)
    · rw [writeBit_wrote _ _ _ _ (fun h => absurd h h7), bitPushes_wrote, Res.goto, wrote_goto', goto_goto,
        decide_eq_false h7] at h
      have hp := ih (done ++ [b]) (by simp only [List.length_append, List.length_cons, List.length_nil] at hlen ⊢; omega)
      rw [List.append_assoc, List.singleton_append, ← List.take_succ_cons, List.length_append, List.length_singleton,
        show 7 - (done.length + 1) % 8 + 1 = 7 - done.length % 8 by omega] at hp
      exact Path.work h hp

/-- Serializing one subtree (R187). -/
theorem path_node {next : State → Act} {p : PortNum} {after : State → Act}
    (hnext : ∀ todo t, todo ≠ [] → t.pos = .ser todo → next t = serAct p todo after t)
    (s : State) (ha : (s.sink p).avail = true) :
    ∀ (t : HTree) (rest : List SerItem) (done : Bits),
      Path next ((s.goto (.ser (.node t :: rest))).wrote p done) (pushesTo done.length (done ++ t.ser).length)
        ((s.goto (.ser rest)).wrote p (done ++ t.ser)) := by
  intro t
  induction t with
  | leaf v =>
    intro rest done
    have h1 := hnext (.node (.leaf v) :: rest) ((s.goto (.ser (.node (.leaf v) :: rest))).wrote p done) (by simp) (by simp)
    rw [serAct, writeBit_wrote _ _ _ _ (fun _ => by simpa using ha), bitPushes_wrote, Res.goto, wrote_goto', goto_goto] at h1
    have h2 := hnext (.value v :: rest) ((s.goto (.ser (.value v :: rest))).wrote p (done ++ [false])) (by simp) (by simp)
    rw [serAct, writeByte_wrote _ _ _ _ (by simpa using ha), Res.goto, wrote_goto', goto_goto] at h2
    have := (Path.one _ h1).trans (Path.access h2 (.refl _))
    rw [List.append_assoc] at this
    refine this.congr ?_
    by_cases h7 : done.length % 8 = 7 <;> simp [pushesTo, HTree.ser, byteBits_length, h7] <;> omega
  | internal l r ihl ihr =>
    intro rest done
    have h1 := hnext (.node (.internal l r) :: rest) ((s.goto (.ser (.node (.internal l r) :: rest))).wrote p done) (by simp) (by simp)
    rw [serAct, writeBit_wrote _ _ _ _ (fun _ => by simpa using ha), bitPushes_wrote, Res.goto, wrote_goto', goto_goto] at h1
    have := ((Path.one _ h1).trans (ihl (.node r :: rest) (done ++ [true]))).trans (ihr rest (done ++ [true] ++ l.ser))
    rw [List.append_assoc, List.append_assoc, List.singleton_append] at this
    refine this.congr ?_
    by_cases h7 : done.length % 8 = 7 <;> simp [pushesTo, HTree.ser, h7] <;> omega

/-- Serializing to an unavailable sink stops at the first byte completed, that of a leaf's value at the latest
(R188). -/
theorem path_ser_refused {next : State → Act} {p : PortNum} {after : State → Act}
    (hnext : ∀ todo t, todo ≠ [] → t.pos = .ser todo → next t = serAct p todo after t)
    (s : State) (ha : (s.sink p).avail = false) :
    ∀ (n : Nat) (todo : List SerItem) (done : Bits), 8 - done.length % 8 ≤ n → 8 ≤ done.length % 8 + (todoBits todo).length →
      Path next ((s.goto (.ser todo)).wrote p done) 1
        ((s.goto (.raised .sinkUnavailable)).wrote p (done ++ (leadMarkers todo).take (7 - done.length % 8))) := by
  intro n
  induction n with
  | zero => intro todo done hn; omega
  | succ n ih =>
    intro todo done hn hlen
    have bit : ∀ (b : Bool) (todo' : List SerItem), todoBits todo = b :: todoBits todo' →
        leadMarkers todo = b :: leadMarkers todo' →
        next ((s.goto (.ser todo)).wrote p done)
          = Act.of (bitPushes p ((s.goto (.ser todo)).wrote p done))
              ((writeBit p b ((s.goto (.ser todo)).wrote p done)).goto (.ser todo')) →
        Path next ((s.goto (.ser todo)).wrote p done) 1
          ((s.goto (.raised .sinkUnavailable)).wrote p (done ++ (leadMarkers todo).take (7 - done.length % 8))) := by
      intro b todo' hbits hlead h
      by_cases h7 : done.length % 8 = 7
      · rw [writeBit_refused _ _ _ _ h7 (by simpa using ha), bitPushes_wrote, Res.goto, wrote_goto', goto_goto,
          decide_eq_true h7] at h
        simpa [h7] using Path.access h (.refl _)
      · rw [writeBit_wrote _ _ _ _ (fun h => absurd h h7), bitPushes_wrote, Res.goto, wrote_goto', goto_goto,
          decide_eq_false h7] at h
        rw [hbits, List.length_cons] at hlen
        have hp := ih todo' (done ++ [b])
          (by simp only [List.length_append, List.length_cons, List.length_nil]; omega)
          (by simp only [List.length_append, List.length_cons, List.length_nil]; omega)
        rw [List.append_assoc, List.singleton_append, ← List.take_succ_cons, List.length_append, List.length_singleton,
          show 7 - (done.length + 1) % 8 + 1 = 7 - done.length % 8 by omega, ← hlead] at hp
        exact Path.work h hp
    match todo, bit with
    | [], _ => simp [todoBits] at hlen; omega
    | .node (.leaf v) :: rest, bit =>
      exact bit false (.value v :: rest) rfl rfl (by rw [hnext (.node (.leaf v) :: rest) _ (by simp) (by simp)]; rfl)
    | .node (.internal l r) :: rest, bit =>
      exact bit true (.node l :: .node r :: rest) (by simp [todoBits, HTree.ser]) rfl
        (by rw [hnext (.node (.internal l r) :: rest) _ (by simp) (by simp)]; rfl)
    | .value v :: rest, _ =>
      have h := hnext (.value v :: rest) ((s.goto (.ser (.value v :: rest))).wrote p done) (by simp) (by simp)
      rw [serAct, writeByte_refused _ _ _ (by simpa using ha), Res.goto, wrote_goto', goto_goto] at h
      simpa [leadMarkers] using Path.access h (.refl _)

/-! ## Reading -/

/-- The bytes pulled when a reader goes from a to b bits read (R69). -/
def pullsTo (a b : Nat) : Nat := (b + 7) / 8 - (a + 7) / 8

theorem getElem?_of_drop {l : Bits} {m : Nat} {x : Bool} {r : Bits} (h : l.drop m = x :: r) : l[m]? = some x := by
  have := congrArg (fun y => y[0]?) h
  simpa using this

theorem drop_of_drop {l : Bits} {m : Nat} {a r : Bits} (h : l.drop m = a ++ r) : l.drop (m + a.length) = r := by
  rw [← List.drop_drop, h, List.drop_left]

theorem le_of_drop {l : Bits} {m : Nat} {a r : Bits} (h : l.drop m = a ++ r) (hne : a ≠ []) : m + a.length ≤ l.length := by
  have h1 := congrArg List.length h
  have := List.length_pos_iff.mpr hne
  simp only [List.length_drop, List.length_append] at h1
  omega

/-- A reader with a bit left is not at end (R123). -/
theorem atEnd_drop (s : State) (p : PortNum) {m : Nat} {x : Bool} {r : Bits}
    (hx : (bytesBits (s.source p).data).drop m = x :: r) : atEnd p (s.readAt p m) = false := by
  have hl := le_of_drop (a := [x]) hx (by simp)
  rw [bytesBits_length, List.length_singleton] at hl
  rw [atEnd_readAt]
  exact decide_eq_false (by omega)

/-- A reader that has read every bit is at end (R123). -/
theorem atEnd_all (s : State) (p : PortNum) : atEnd p (s.readAt p (8 * (s.source p).data.length)) = true := by
  rw [atEnd_readAt]
  exact decide_eq_true ⟨by omega, by omega⟩

/-- ReadBit on a known next bit. -/
theorem readBit_drop (s : State) (p : PortNum) {m : Nat} {x : Bool} {r : Bits}
    (hx : (bytesBits (s.source p).data).drop m = x :: r) (ha : (s.source p).avail = true) :
    readBit p (s.readAt p m) = .ok x (s.readAt p (m + 1)) :=
  readBit_readAt s p m x (getElem?_of_drop hx) (fun _ => ha)

/-- ReadByte on known next bits. -/
theorem readByte_drop (s : State) (p : PortNum) {m : Nat} {v : Byte} {r : Bits}
    (hx : (bytesBits (s.source p).data).drop m = byteBits v ++ r) (ha : (s.source p).avail = true) :
    readByte p (s.readAt p m) = .ok v (s.readAt p (m + 8)) := by
  have hl := le_of_drop hx (by simp [byteBits])
  rw [byteBits_length, bytesBits_length] at hl
  rw [readByte_readAt s p m hl ha, hx, ← bitsByte_take, List.take_append_of_le_length (by simp [byteBits_length]),
    List.take_of_length_le (by simp [byteBits_length]), bitsByte_byteBits]

/-- Where Deserialize goes on after the subtree t (R189). -/
def plugPos (t : HTree) (fs : List Frame) (c : Nat) : Pos :=
  match plug t fs with
  | .inl u => .desDone u c
  | .inr gs => .desNode gs c

/-- Deserializing one subtree (R189). -/
theorem path_subtree {next : State → Act} {p : PortNum}
    (hnode : ∀ fs c t, t.pos = .desNode fs c → next t = desNodeAct p fs c t)
    (hleaf : ∀ fs c t, t.pos = .desLeaf fs c → next t = desLeafAct p fs c t)
    (s : State) (ha : (s.source p).avail = true) :
    ∀ (t : HTree) (fs : List Frame) (c m : Nat) (rest : Bits),
      (bytesBits (s.source p).data).drop m = t.ser ++ rest → c + t.size ≤ s.params.nodeCap →
      Path next ((s.goto (.desNode fs c)).readAt p m) (pullsTo m (m + t.ser.length))
        ((s.goto (plugPos t fs (c + t.size))).readAt p (m + t.ser.length)) := by
  intro t
  induction t with
  | leaf v =>
    intro fs c m rest hd hc
    simp only [HTree.size] at hc
    simp only [HTree.ser, List.cons_append] at hd
    have h1 := hnode fs c ((s.goto (.desNode fs c)).readAt p m) (by simp)
    have hd2 : (bytesBits (s.source p).data).drop (m + 1) = byteBits v ++ rest := drop_of_drop (a := [false]) hd
    rw [desNodeAct, readBit_drop _ p (by simpa using hd) (by simpa using ha), bitPulls_readAt] at h1
    simp only [readAt_params, goto_params, show ¬ s.params.nodeCap < c + 1 by omega, if_false, Bool.false_eq_true, readAt_goto, goto_goto] at h1
    have h2 := hleaf fs (c + 1) ((s.goto (.desLeaf fs (c + 1))).readAt p (m + 1)) (by simp)
    rw [desLeafAct, readByte_drop (v := v) _ p (by simpa using hd2) (by simpa using ha)] at h2
    have h3 : next ((s.goto (.desLeaf fs (c + 1))).readAt p (m + 1))
        = .access ((s.goto (plugPos (.leaf v) fs (c + 1))).readAt p (m + 1 + 8)) := by
      rw [h2]
      dsimp only
      unfold plugPos
      split <;> simp [readAt_goto, *]
    refine ((Path.one _ h1).trans (Path.access h3 (.refl _))).congr ?_
    by_cases h0 : m % 8 = 0 <;> simp [pullsTo, HTree.ser, byteBits_length, h0] <;> omega
  | internal l r ihl ihr =>
    intro fs c m rest hd hc
    simp only [HTree.size] at hc
    simp only [HTree.ser, List.cons_append, List.append_assoc] at hd
    have h1 := hnode fs c ((s.goto (.desNode fs c)).readAt p m) (by simp)
    have hd2 := drop_of_drop (a := [true]) hd
    rw [desNodeAct, readBit_drop _ p (by simpa using hd) (by simpa using ha), bitPulls_readAt] at h1
    simp only [readAt_params, goto_params, show ¬ s.params.nodeCap < c + 1 by omega, if_false, if_true, readAt_goto, goto_goto] at h1
    have hl := ihl (.wantLeft :: fs) (c + 1) (m + 1) (r.ser ++ rest) hd2 (by omega)
    have hr := ihr (.wantRight l :: fs) (c + 1 + l.size) (m + 1 + l.ser.length) rest (drop_of_drop hd2) (by omega)
    have := ((Path.one _ h1).trans hl).trans hr
    rw [show c + 1 + l.size + r.size = c + (1 + l.size + r.size) by omega,
      show m + 1 + l.ser.length + r.ser.length = m + (l.ser.length + r.ser.length + 1) by omega] at this
    have he : (HTree.internal l r).ser.length = l.ser.length + r.ser.length + 1 := by simp [HTree.ser]
    rw [he]
    refine Path.congr this ?_
    by_cases h0 : m % 8 = 0 <;> simp [pullsTo, h0] <;> omega

/-- Deserializing the marker of a node the store still holds (R189). -/
theorem path_marker {next : State → Act} {p : PortNum} (hnode : ∀ fs c t, t.pos = .desNode fs c → next t = desNodeAct p fs c t)
    (s : State) (ha : (s.source p).avail = true) (fs : List Frame) {c m : Nat} {b : Bool} {r : Bits}
    (hd : (bytesBits (s.source p).data).drop m = b :: r) (hc : c < s.params.nodeCap) :
    Path next ((s.goto (.desNode fs c)).readAt p m) (pullsTo m (m + 1))
      ((s.goto (if b then .desNode (.wantLeft :: fs) (c + 1) else .desLeaf fs (c + 1))).readAt p (m + 1)) := by
  have h := hnode fs c ((s.goto (.desNode fs c)).readAt p m) (by simp)
  rw [desNodeAct, readBit_drop (x := b) (r := r) _ p (by simpa using hd) (by simpa using ha), bitPulls_readAt] at h
  simp only [readAt_params, goto_params, show ¬ s.params.nodeCap < c + 1 by omega, if_false, readAt_goto, goto_goto] at h
  have hk : (decide (m % 8 = 0)).toNat = pullsTo m (m + 1) := by
    by_cases h0 : m % 8 = 0 <;> simp [pullsTo, h0] <;> omega
  cases b <;> exact (Path.one _ h).congr hk

/-- Deserializing the marker of a node too many (R189). -/
theorem path_tooLarge {next : State → Act} {p : PortNum} (hnode : ∀ fs c t, t.pos = .desNode fs c → next t = desNodeAct p fs c t)
    (s : State) (ha : (s.source p).avail = true) (fs : List Frame) {c m : Nat} {b : Bool} {r : Bits}
    (hd : (bytesBits (s.source p).data).drop m = b :: r) (hc : s.params.nodeCap < c + 1) :
    Path next ((s.goto (.desNode fs c)).readAt p m) (decide (m % 8 = 0)).toNat
      ((s.goto (.raised .treeTooLarge)).readAt p (m + 1)) := by
  have h := hnode fs c ((s.goto (.desNode fs c)).readAt p m) (by simp)
  rw [desNodeAct, readBit_drop (x := b) (r := r) _ p (by simpa using hd) (by simpa using ha), bitPulls_readAt] at h
  simp only [readAt_params, goto_params, hc, if_true, readAt_goto, goto_goto] at h
  exact Path.one _ h

/-- A stream that ends at a node's marker (R189). -/
theorem path_noMarker {next : State → Act} {p : PortNum} (hnode : ∀ fs c t, t.pos = .desNode fs c → next t = desNodeAct p fs c t)
    (s : State) (fs : List Frame) {c m : Nat} (hm : m = 8 * (s.source p).data.length) :
    Path next ((s.goto (.desNode fs c)).readAt p m) 1 ((s.goto (.raised .truncatedTree)).readAt p m) := by
  have h := hnode fs c ((s.goto (.desNode fs c)).readAt p m) (by simp)
  rw [desNodeAct, readBit_end _ p m (by omega) (by simp [hm]), bitPulls_readAt] at h
  simp only [inTree, readAt_goto, goto_goto] at h
  exact (Path.one _ h).congr (by simp [hm])

/-- A stream that ends inside a leaf's value (R189). -/
theorem path_noValue {next : State → Act} {p : PortNum} (hleaf : ∀ fs c t, t.pos = .desLeaf fs c → next t = desLeafAct p fs c t)
    (s : State) (fs : List Frame) {c m : Nat} (hm : 8 * (s.source p).data.length < m + 8) :
    Path next ((s.goto (.desLeaf fs c)).readAt p m) 1 ((s.goto (.raised .truncatedTree)).readAt p m) := by
  have h := hleaf fs c ((s.goto (.desLeaf fs c)).readAt p m) (by simp)
  rw [desLeafAct, readByte_end _ p _ (by simpa using hm)] at h
  simp only [inTree, readAt_goto, goto_goto] at h
  exact .access h (.refl _)

/-- Deserializing as far as some open internal nodes (R189). -/
theorem path_frames {next : State → Act} {p : PortNum}
    (hnode : ∀ fs c t, t.pos = .desNode fs c → next t = desNodeAct p fs c t)
    (hleaf : ∀ fs c t, t.pos = .desLeaf fs c → next t = desLeafAct p fs c t)
    (s : State) (ha : (s.source p).avail = true) :
    ∀ (fs : List Frame) (m : Nat) (rest : Bits), (bytesBits (s.source p).data).drop m = framesBits fs ++ rest →
      framesSize fs ≤ s.params.nodeCap →
      Path next ((s.goto (.desNode [] 0)).readAt p m) (pullsTo m (m + (framesBits fs).length))
        ((s.goto (.desNode fs (framesSize fs))).readAt p (m + (framesBits fs).length)) := by
  intro fs
  induction fs with
  | nil => intro m rest _ _; simpa [pullsTo, framesBits, framesSize] using Path.refl _
  | cons f fs ih =>
    intro m rest hd hc
    have hsize : framesSize (f :: fs) = f.size + framesSize fs := by simp [framesSize]
    match f with
    | .wantLeft =>
      simp only [framesBits, List.append_assoc, List.singleton_append, List.length_append, List.length_singleton] at hd ⊢
      simp only [Frame.size] at hsize
      have h1 := ih m (true :: rest) hd (by omega)
      have h2 := path_marker hnode s ha fs (drop_of_drop hd) (show framesSize fs < s.params.nodeCap by omega)
      rw [if_pos rfl, show framesSize fs + 1 = framesSize (.wantLeft :: fs) by omega] at h2
      refine (h1.trans h2).congr ?_
      simp only [pullsTo]; omega
    | .wantRight l =>
      simp only [framesBits, List.append_assoc, List.cons_append, List.length_append, List.length_cons] at hd ⊢
      simp only [Frame.size] at hsize
      have h1 := ih m (true :: (l.ser ++ rest)) hd (by omega)
      have hd1 := drop_of_drop hd
      have h2 := path_marker hnode s ha fs hd1 (show framesSize fs < s.params.nodeCap by omega)
      have h3 := path_subtree hnode hleaf s ha l (.wantLeft :: fs) (framesSize fs + 1) _ rest
        (drop_of_drop (a := [true]) hd1) (by omega)
      rw [show plugPos l (.wantLeft :: fs) (framesSize fs + 1 + l.size) = .desNode (.wantRight l :: fs) (framesSize (.wantRight l :: fs)) by
        rw [show framesSize (.wantRight l :: fs) = framesSize fs + 1 + l.size by omega]; rfl] at h3
      rw [if_pos rfl] at h2
      have := (h1.trans h2).trans h3
      rw [show m + (framesBits fs).length + [true].length + l.ser.length = m + ((framesBits fs).length + (l.ser.length + 1)) by
        simp only [List.length_singleton]; omega] at this
      refine this.congr ?_
      simp only [pullsTo, List.length_singleton]; omega

/-- A finished subtree and the bits read for it (R189). -/
theorem plug_bits (t : HTree) (fs : List Frame) :
    match plug t fs with
    | .inl u => u.ser = framesBits fs ++ t.ser ∧ u.size = framesSize fs + t.size
    | .inr gs => framesBits gs = framesBits fs ++ t.ser ∧ framesSize gs = framesSize fs + t.size := by
  induction fs generalizing t with
  | nil => simp [plug, framesBits, framesSize]
  | cons f fs ih =>
    match f with
    | .wantLeft => simp [plug, framesBits, framesSize, Frame.size]; omega
    | .wantRight l =>
      have := ih (.internal l t)
      rw [plug]
      split at this <;> simp_all [framesBits, HTree.ser, framesSize, Frame.size, HTree.size] <;> omega

/-- Every stream begins with a tree of at most cap nodes, ends inside one, or begins a node too many (R189). -/
theorem stream_cases (cap : Nat) : ∀ (n : Nat) (fs : List Frame) (q : Bits), q.length ≤ n → framesSize fs ≤ cap →
    (∃ t rest, framesBits fs ++ q = HTree.ser t ++ rest ∧ t.size ≤ cap)
      ∨ (∃ gs, framesBits fs ++ q = framesBits gs ∧ framesSize gs ≤ cap)
      ∨ (∃ gs short, framesBits fs ++ q = framesBits gs ++ false :: short ∧ short.length < 8 ∧ framesSize gs < cap)
      ∨ ∃ gs b rest, framesBits fs ++ q = framesBits gs ++ b :: rest ∧ framesSize gs = cap := by
  intro n
  induction n with
  | zero =>
    intro fs q hq hc
    obtain rfl : q = [] := List.length_eq_zero_iff.1 (by omega)
    exact .inr (.inl ⟨fs, by simp, hc⟩)
  | succ n ih =>
    intro fs q hq hc
    match q with
    | [] => exact .inr (.inl ⟨fs, by simp, hc⟩)
    | b :: r =>
      rw [List.length_cons] at hq
      rcases Nat.lt_or_ge (framesSize fs) cap with hlt | hge
      · match b with
        | true =>
          have := ih (.wantLeft :: fs) r (by omega) (by simp [framesSize, Frame.size] at hlt ⊢; omega)
          simpa [framesBits] using this
        | false =>
          rcases Nat.lt_or_ge r.length 8 with h8 | h8
          · exact .inr (.inr (.inl ⟨fs, r, rfl, h8, hlt⟩))
          · obtain ⟨v, r', rfl⟩ : ∃ v r', r = byteBits v ++ r' :=
              ⟨bitsByte (r.take 8), r.drop 8, by rw [byteBits_bitsByte (by simp; omega), List.take_append_drop]⟩
            have hp := plug_bits (.leaf v) fs
            simp only [HTree.ser, HTree.size] at hp
            split at hp
            · next u _ => exact .inl ⟨u, r', by rw [hp.1]; simp, by omega⟩
            · next gs _ =>
              have := ih gs r' (by simp [byteBits_length] at hq; omega) (by omega)
              rw [hp.1] at this
              simpa using this
      · exact .inr (.inr (.inr ⟨fs, b, r, rfl, by omega⟩))

theorem addCount_readAt (v : Byte) (s : State) (p : PortNum) (m : Nat) :
    addCount v (s.readAt p m) = (addCount v s).readAt p m := by cases p <;> rfl
theorem addCount_goto (v : Byte) (s : State) (q : Pos) : addCount v (s.goto q) = (addCount v s).goto q := rfl

/-- Counting bytes (R180). -/
theorem path_count {next : State → Act} {p : PortNum} {after : State → Act}
    (hnext : ∀ t, t.pos = .count → next t = countAct p after t) :
    ∀ (bs : List Byte) (s : State) (m : Nat) (rest : Bits), (s.source p).avail = true →
      (bytesBits (s.source p).data).drop m = bytesBits bs ++ rest → s.total + bs.length ≤ s.params.maxLen →
      Path next ((s.goto .count).readAt p m) bs.length
        (((bs.foldl (fun t v => addCount v t) s).goto .count).readAt p (m + 8 * bs.length)) := by
  intro bs
  induction bs with
  | nil => intro s m rest ha hd hlen; simpa using Path.refl _
  | cons v bs ih =>
    intro s m rest ha hd hlen
    rw [bytesBits_cons, List.append_assoc] at hd
    simp only [List.length_cons] at hlen
    have h1 := hnext ((s.goto .count).readAt p m) (by simp)
    rw [countAct, atEnd_drop (x := v.getLsbD 7) _ p (by rw [goto_source]; exact hd), readByte_drop (v := v) _ p (by simpa using hd) (by simpa using ha)] at h1
    simp only [Bool.false_eq_true, if_false, countByte, readAt_total, goto_total, readAt_params, goto_params] at h1
    rw [if_neg (by omega), addCount_readAt, addCount_goto] at h1
    have := ih (addCount v s) (m + 8) rest (by simpa using ha)
      (by rw [addCount_source]; exact drop_of_drop hd) (by rw [addCount_total, addCount_params]; omega)
    rw [List.foldl_cons, List.length_cons, show m + 8 * (bs.length + 1) = m + 8 + 8 * bs.length by omega]
    exact Path.access h1 this

theorem setCursor_readAt (s : State) (p : PortNum) (m : Nat) (c : Bits) :
    (s.readAt p m).setCursor c = (s.setCursor c).readAt p m := by cases p <;> rfl
theorem setCursor_wrote (s : State) (p : PortNum) (b : Bits) (c : Bits) :
    (s.wrote p b).setCursor c = (s.setCursor c).wrote p b := by cases p <;> rfl
theorem setCursor_goto (s : State) (q : Pos) (c : Bits) : (s.goto q).setCursor c = (s.setCursor c).goto q := rfl
@[simp] theorem setCursor_setCursor (s : State) (c d : Bits) : (s.setCursor c).setCursor d = s.setCursor d := rfl
theorem phase_readAt (s : State) (p : PortNum) (m : Nat) (q : Phase) :
    (s.readAt p m).inPhase q = (s.inPhase q).readAt p m := by cases p <;> rfl
theorem phase_wrote (s : State) (p : PortNum) (b : Bits) (q : Phase) :
    (s.wrote p b).inPhase q = (s.inPhase q).wrote p b := by cases p <;> rfl

/-- Skipping the ones of the padding (spec/42_codec.md R274). -/
theorem path_skip (s : State) (ha : s.src1.avail = true) :
    ∀ (k m : Nat) (rest : Bits), (bytesBits s.src1.data).drop m = List.replicate k true ++ rest →
      Path decodeAct ((s.goto .skip).readAt .p1 m) (pullsTo m (m + k)) ((s.goto .skip).readAt .p1 (m + k)) := by
  intro k
  induction k with
  | zero => intro m rest hd; simpa [pullsTo] using Path.refl _
  | succ k ih =>
    intro m rest hd
    rw [List.replicate_succ, List.cons_append] at hd
    have hd1 := drop_of_drop (a := [true]) hd
    have h1 : decodeAct ((s.goto .skip).readAt .p1 m) = decodeSkip ((s.goto .skip).readAt .p1 m) := by
      simp [decodeAct]
    rw [decodeSkip, atEnd_drop _ .p1 (by simpa using hd), readBit_drop _ .p1 (by simpa using hd) (by simpa using ha),
      bitPulls_readAt] at h1
    simp only [Bool.false_eq_true, if_false, readAt_goto, goto_goto] at h1
    have h := (Path.one _ h1).trans (ih (m + 1) rest hd1)
    rw [show m + 1 + k = m + (k + 1) by omega] at h
    refine h.congr ?_
    by_cases h0 : m % 8 = 0 <;> simp [pullsTo, h0] <;> omega

/-- Walking along a path to a leaf (R275). -/
theorem path_walk (s : State) (ha : s.src1.avail = true) {t : HTree} (ht : s.tree = some t) {v : Byte} (done : Bits) :
    ∀ (q c : Bits) (m : Nat) (rest : Bits), q ≠ [] → t.node (c ++ q) = some (.leaf v) →
      (bytesBits s.src1.data).drop m = q ++ rest →
      Path decodeAct ((((s.setCursor c).goto .walk).readAt .p1 m).wrote .p0 done)
        (pullsTo m (m + q.length))
        ((((s.setCursor (c ++ q)).goto (.write v)).readAt .p1 (m + q.length)).wrote .p0 done) := by
  intro q
  induction q with
  | nil => intro c m rest h; exact absurd rfl h
  | cons b q ih =>
    intro c m rest _ hleaf hd
    have hd1 := drop_of_drop (a := [b]) hd
    rw [List.length_singleton] at hd1
    have h1 : decodeAct ((((s.setCursor c).goto .walk).readAt .p1 m).wrote .p0 done)
        = decodeWalk ((((s.setCursor c).goto .walk).readAt .p1 m).wrote .p0 done) := by
      simp [decodeAct]
    rw [← wrote_readAt, decodeWalk, atEnd_drop (x := b) _ .p1 (by simpa using hd),
      readBit_drop _ .p1 (by simpa using hd) (by simpa using ha), bitPulls_readAt] at h1
    simp only [Bool.false_eq_true, if_false, moveCursor, setCursor_tree, readAt_tree, wrote_tree, goto_tree,
      setCursor_cursor, readAt_cursor, wrote_cursor, goto_cursor, ht, Option.bind_some] at h1
    have hk : (decide (m % 8 = 0)).toNat + pullsTo (m + 1) (m + 1 + q.length) = pullsTo m (m + (q.length + 1)) := by
      by_cases h0 : m % 8 = 0 <;> simp [pullsTo, h0] <;> omega
    rcases Classical.em (q = []) with rfl | hq
    · rw [hleaf] at h1
      simp only [wrote_readAt, readAt_goto, wrote_goto', setCursor_readAt, setCursor_wrote, setCursor_goto, goto_goto,
        setCursor_setCursor] at h1
      exact (Path.one _ h1).congr (by simpa [pullsTo] using hk)
    · obtain ⟨u, w, hn⟩ : ∃ u w, t.node (c ++ [b]) = some (.internal u w) := by
        have := hleaf
        rw [List.append_cons, HTree.node_append] at this
        cases hx : t.node (c ++ [b]) with
        | none => rw [hx] at this; cases this
        | some x =>
          cases x with
          | internal u w => exact ⟨u, w, rfl⟩
          | leaf z =>
            rw [hx] at this
            cases q with
            | nil => exact absurd rfl hq
            | cons d q => simp [HTree.node] at this
      rw [hn] at h1
      simp only [wrote_readAt, readAt_goto, wrote_goto', setCursor_readAt, setCursor_wrote, setCursor_goto, goto_goto,
        setCursor_setCursor] at h1
      have h2 := ih (c ++ [b]) (m + 1) rest hq (by simpa using hleaf) hd1
      have h := (Path.one _ h1).trans h2
      rw [hk, List.append_assoc, List.singleton_append, show m + 1 + q.length = m + (q.length + 1) by omega] at h
      exact h

/-- Writing a decoded byte (R275). -/
theorem path_write (s : State) (ha : s.snk0.avail = true) (v : Byte) (done : Bits) (m : Nat) :
    Path decodeAct (((s.goto (.write v)).readAt .p1 m).wrote .p0 done) 1
      ((((s.setCursor []).goto .walk).readAt .p1 m).wrote .p0 (done ++ byteBits v)) := by
  have h1 : decodeAct (((s.goto (.write v)).readAt .p1 m).wrote .p0 done)
      = decodeWrite v (((s.goto (.write v)).readAt .p1 m).wrote .p0 done) := by simp [decodeAct]
  rw [decodeWrite, writeByte_wrote _ _ _ _ (by simpa using ha)] at h1
  simp only [readAt_goto, wrote_goto', setCursor_readAt, setCursor_wrote, setCursor_goto, goto_goto] at h1
  exact .access h1 (.refl _)

/-- Walking along the paths of some leaves (R275, R280). -/
theorem path_leaves (s : State) (ha : s.src1.avail = true) (hs : s.snk0.avail = true) {t : HTree} (ht : s.tree = some t) :
    ∀ (xs : List (Bits × Byte)) (done : Bits) (m : Nat) (rest : Bits),
      (∀ x ∈ xs, x.1 ≠ [] ∧ t.node x.1 = some (.leaf x.2)) →
      (bytesBits s.src1.data).drop m = xs.flatMap Prod.fst ++ rest →
      Path decodeAct ((((s.setCursor []).goto .walk).readAt .p1 m).wrote .p0 done)
        (pullsTo m (m + (xs.flatMap Prod.fst).length) + xs.length)
        ((((s.setCursor []).goto .walk).readAt .p1 (m + (xs.flatMap Prod.fst).length)).wrote .p0
          (done ++ bytesBits (xs.map Prod.snd))) := by
  intro xs
  induction xs with
  | nil => intro done m rest _ _; simpa [pullsTo] using Path.refl _
  | cons x xs ih =>
    intro done m rest hc hd
    have hcons : (x :: xs).flatMap Prod.fst = x.1 ++ xs.flatMap Prod.fst := rfl
    rw [hcons, List.append_assoc] at hd
    obtain ⟨hne, hleaf⟩ := hc x (by simp)
    have h1 := path_walk s ha ht done x.1 [] m _ hne (by simpa using hleaf) hd
    have h2 := path_write (s.setCursor ([] ++ x.1)) (by simpa using hs) x.2 done (m + x.1.length)
    rw [setCursor_setCursor] at h2
    have h3 := ih (done ++ byteBits x.2) (m + x.1.length) rest (fun y hy => hc y (by simp [hy])) (drop_of_drop hd)
    have h := (h1.trans h2).trans h3
    rw [hcons, List.length_append, ← Nat.add_assoc, List.map_cons, bytesBits_cons, ← List.append_assoc]
    refine h.congr ?_
    simp only [pullsTo, List.length_cons]
    omega

/-- Walking along bits that reach no leaf (R276). -/
theorem path_tail (s : State) (ha : s.src1.avail = true) {t : HTree} (ht : s.tree = some t) (done : Bits) :
    ∀ (q c : Bits) (m : Nat) (rest : Bits), (∃ u v, t.node (c ++ q) = some (.internal u v)) →
      (bytesBits s.src1.data).drop m = q ++ rest →
      Path decodeAct ((((s.setCursor c).goto .walk).readAt .p1 m).wrote .p0 done) (pullsTo m (m + q.length))
        ((((s.setCursor (c ++ q)).goto .walk).readAt .p1 (m + q.length)).wrote .p0 done) := by
  intro q
  induction q with
  | nil => intro c m rest _ _; simpa [pullsTo] using Path.refl _
  | cons b q ih =>
    intro c m rest hin hd
    have hd1 := drop_of_drop (a := [b]) hd
    rw [List.length_singleton] at hd1
    have h1 : decodeAct ((((s.setCursor c).goto .walk).readAt .p1 m).wrote .p0 done)
        = decodeWalk ((((s.setCursor c).goto .walk).readAt .p1 m).wrote .p0 done) := by
      simp [decodeAct]
    rw [← wrote_readAt, decodeWalk, atEnd_drop (x := b) _ .p1 (by simpa using hd),
      readBit_drop _ .p1 (by simpa using hd) (by simpa using ha), bitPulls_readAt] at h1
    simp only [Bool.false_eq_true, if_false, moveCursor, setCursor_tree, readAt_tree, wrote_tree, goto_tree,
      setCursor_cursor, readAt_cursor, wrote_cursor, goto_cursor, ht, Option.bind_some] at h1
    have hnl : ∀ v, t.node (c ++ [b]) ≠ some (.leaf v) := by
      intro v hv
      obtain ⟨u, w, hn⟩ := hin
      rw [List.append_cons, HTree.node_append, hv] at hn
      cases q <;> simp [HTree.node] at hn
    have h2 : decodeAct ((((s.setCursor c).goto .walk).readAt .p1 m).wrote .p0 done)
        = Act.of (decide (m % 8 = 0)) ((((s.setCursor (c ++ [b])).goto .walk).readAt .p1 (m + 1)).wrote .p0 done) := by
      rw [← wrote_readAt, h1]
      congr 1
      split
      · next v hv => exact absurd hv (hnl v)
      · simp only [wrote_readAt, readAt_goto, wrote_goto', setCursor_readAt, setCursor_wrote, setCursor_goto, goto_goto,
          setCursor_setCursor]
    have h3 := ih (c ++ [b]) (m + 1) rest (by simpa using hin) hd1
    have h := (Path.one _ h2).trans h3
    rw [List.append_assoc, List.singleton_append, show m + 1 + q.length = m + (q.length + 1) by omega] at h
    refine h.congr ?_
    by_cases h0 : m % 8 = 0 <;> simp [pullsTo, h0] <;> omega

end Sys2Proof.Machine
end

