-- ==== Sys2Proof/Laws/Forms.lean ====
section
/-! SUPPORT. The forms of an open reader and an open writer that keep their invariants, and the bit loops of
spec/40_bitio.md R140 and R142 in those terms. -/

namespace Sys2Proof.Machine

/-- An open reader has read some number of bits, and the unread bits are the rest. -/
theorem reader_form {s : State} {p : PortNum} (h : ReaderOk (s.reader p) (s.source p).data)
    (ho : (s.reader p).opened = true) :
    ∃ m, m ≤ 8 * (s.source p).data.length ∧ s = s.readAt p m ∧ s.unread p = (bytesBits (s.source p).data).drop m
      ∧ (s.reader p).pos = (m + 7) / 8 ∧ (s.reader p).cnt.val = (8 - m % 8) % 8 := by
  have hs := eq_readAt s p h ho
  have hr : s.reader p = readerAt (s.source p).data (8 * (s.reader p).pos - (s.reader p).cnt.val) := by
    conv_lhs => rw [hs]
    simp
  refine ⟨_, ?_, hs, ?_, congrArg Reader.pos hr, congrArg (fun x => x.cnt.val) hr⟩
  · have := h.posLe; omega
  · conv_lhs => rw [eq_readAt s p h ho]
    rw [unread_readAt]
    have := h.posLe; omega

theorem readBits_readAt (p : PortNum) (k : Nat) : ∀ (s : State) (m : Nat), m + k ≤ 8 * (s.source p).data.length →
    (s.source p).avail = true →
    readBits p k (s.readAt p m) = .ok (((bytesBits (s.source p).data).drop m).take k) (s.readAt p (m+k)) := by
  induction k with
  | zero => intro s m _ _; simp [readBits]
  | succ k ih =>
    intro s m h ha
    have hx : (bytesBits (s.source p).data)[m]? = some ((bytesBits (s.source p).data)[m]'(by simp; omega)) := List.getElem?_eq_getElem _
    rw [readBits, readBit_readAt s p m _ hx (fun _ => ha)]
    simp only []
    rw [ih s (m+1) (by omega) ha]
    simp only []
    congr 1
    · rw [List.drop_eq_getElem_cons (i := m) (by simp; omega), List.take_succ_cons]
    · congr 1; omega

theorem written_length (s : State) (w : PortNum) : (s.written w).length = 8 * (s.sink w).data.length + (s.writer w).n.val := by
  simp [State.written, byteBits_length]

/-- The sink holds the whole bytes of the bits written. -/
theorem full_written {s : State} {w : PortNum} (h : s = s.wrote w (s.written w)) : fullBytes (s.written w) = (s.sink w).data := by
  have := congrArg (fun x => (x.sink w).data) h
  simp at this; exact this.symm

theorem wrote_eq_set (s : State) (w : PortNum) (b : Bits) :
   s.wrote w b = (s.setWriter w (writerAt b)).setSink w { s.sink w with data := fullBytes b } := by
  rw [State.wrote, setWriter_setSink]

/-- Bits that complete no byte leave the sink as it was. -/
theorem wrote_eq_setWriter {s : State} {w : PortNum} (h : s = s.wrote w (s.written w)) (pre : Bits)
    (hf : ((s.written w).length + pre.length) / 8 = (s.written w).length / 8) :
    s.wrote w (s.written w ++ pre) = s.setWriter w (writerAt (s.written w ++ pre)) := by
  have h1 : fullBytes (s.written w ++ pre) = (s.sink w).data := by
    rw [← full_written h]
    unfold fullBytes
    rw [List.length_append, hf, packUpTo_append _ _ _ (by omega)]
  rw [State.wrote, h1]
  cases w <;> rfl

theorem writeBits_wrote (p : PortNum) (bs : Bits) : ∀ (s : State) (b : Bits), (s.sink p).avail = true →
    writeBits p bs (s.wrote p b) = .ok () (s.wrote p (b ++ bs)) := by
  induction bs with
  | nil => intro s b _; simp [writeBits]
  | cons x bs ih =>
    intro s b ha
    rw [writeBits, writeBit_wrote s p b x (fun _ => ha)]
    simp only []
    rw [ih s _ ha, List.append_assoc]; rfl

theorem immBit_bitByte (b : Bool) : immBit (bitByte b) = b := by cases b <;> rfl

end Sys2Proof.Machine
end

