-- ==== Sys2Proof/Laws/Traces.lean ====
section
/-! SUPPORT. Commands of several micro-steps, from their start to their end: what each leaves and how many
port accesses it makes. -/

namespace Sys2Proof.Machine

/-! ## One shape of start -/

theorem freqCountAct_count (p : PortNum) (t : State) (h : t.pos = .count) :
    freqCountAct p t = countAct p (fun u => .ended (normalEnd u)) t := by simp [freqCountAct, h]
theorem treeSerAct_ser (p : PortNum) (todo : List SerItem) (t : State) (_ : todo ≠ []) (h : t.pos = .ser todo) :
    treeSerAct p t = serAct p todo (fun u => .ended (normalEnd u)) t := by simp [treeSerAct, h]
theorem treeDeserAct_node (p : PortNum) (fs : List Frame) (c : Nat) (t : State) (h : t.pos = .desNode fs c) :
    treeDeserAct p t = desNodeAct p fs c t := by simp [treeDeserAct, h]
theorem treeDeserAct_leaf (p : PortNum) (fs : List Frame) (c : Nat) (t : State) (h : t.pos = .desLeaf fs c) :
    treeDeserAct p t = desLeafAct p fs c t := by simp [treeDeserAct, h]
theorem codeEmitAct_emit (p : PortNum) (v : Byte) (b : Bool) (rest : Bits) (t : State) (h : t.pos = .emit (b :: rest)) :
    codeEmitAct p v t = Act.of (bitPushes p t) ((writeBit p b t).goto (.emit rest)) := by
  simp [codeEmitAct, h, emitAct]
theorem encodeAct_count (t : State) (h : t.pos = .count) : encodeAct t = countAct .p0 encodeCounted t := by
  simp [encodeAct, h]
theorem encodeAct_ser (todo : List SerItem) (t : State) (_ : todo ≠ []) (h : t.pos = .ser todo) :
    encodeAct t = serAct .p0 todo encodeSerialized t := by simp [encodeAct, h]
theorem encodeAct_pad (b : Bool) (rest : Bits) (t : State) (h : t.pos = .pad (b :: rest)) :
    encodeAct t = Act.of (bitPushes .p1 t) ((writeBit .p1 b t).goto (.pad rest)) := by
  simp [encodeAct, h, encodePad]
theorem encodeAct_emit (b : Bool) (rest : Bits) (t : State) (h : t.pos = .emit (b :: rest)) :
    encodeAct t = Act.of (bitPushes .p1 t) ((writeBit .p1 b t).goto (.emit rest)) := by
  simp [encodeAct, h, emitAct]
theorem decodeAct_node (fs : List Frame) (c : Nat) (t : State) (h : t.pos = .desNode fs c) :
    decodeAct t = desNodeAct .p0 fs c t := by simp [decodeAct, h]
theorem decodeAct_leaf (fs : List Frame) (c : Nat) (t : State) (h : t.pos = .desLeaf fs c) :
    decodeAct t = desLeafAct .p0 fs c t := by simp [decodeAct, h]

/-! ## FREQ_COUNT -/

theorem normalEnd_goto (s : State) (q : Pos) : normalEnd (s.goto q) = normalEnd s := rfl
theorem errorEnd_goto (e : Error) (s : State) (q : Pos) : errorEnd e (s.goto q) = errorEnd e s := rfl
theorem clearFreq_readAt (s : State) (p : PortNum) (m : Nat) :
    (clearFreq (s.readAt p m)) = (clearFreq s).readAt p m := by cases p <;> rfl
theorem invalidate_readAt (s : State) (p : PortNum) (m : Nat) :
    (invalidate (s.readAt p m)) = (invalidate s).readAt p m := by cases p <;> rfl
theorem storeTree_readAt (t : HTree) (c : Nat) (s : State) (p : PortNum) (m : Nat) :
    (storeTree t c (s.readAt p m)) = (storeTree t c s).readAt p m := by cases p <;> rfl

/-- FREQ_COUNT's table after counting xs. -/
def State.countedAs (s : State) (xs : List Byte) : State :=
  { s with freq := countsOf xs, total := xs.length }

@[simp] theorem countedAs_source (s : State) (xs : List Byte) (p : PortNum) : (s.countedAs xs).source p = s.source p := by
  cases p <;> rfl

/-- FREQ_COUNT as far as its loop head after counting xs. -/
theorem freqCount_path (p : PortNum) (s : State) (hp : s.pos = .start) (ha : (s.source p).avail = true) (m : Nat)
    (xs : List Byte) (rest : Bits) (hd : (bytesBits (s.source p).data).drop m = bytesBits xs ++ rest)
    (hlen : xs.length ≤ s.params.maxLen) :
    Path (freqCountAct p) (s.readAt p m) xs.length (((s.countedAs xs).goto .count).readAt p (m + 8 * xs.length)) := by
  have h1 : freqCountAct p (s.readAt p m) = .work (((clearFreq s).goto .count).readAt p m) := by
    simp only [freqCountAct, readAt_pos, hp, readAt_reader, readerAt, if_true, clearFreq_readAt, readAt_goto]
  have h2 := path_count (freqCountAct_count p) xs (clearFreq s) m rest (by simpa using ha) (by simpa using hd)
    (by simpa using hlen)
  rw [foldl_addCount_clear] at h2
  exact Path.work h1 h2

/-- FREQ_COUNT of a byte-aligned reader. -/
theorem freqCount_trace (p : PortNum) (s : State) (hp : s.pos = .start) (ha : (s.source p).avail = true) (m : Nat)
    (xs : List Byte) (hd : (bytesBits (s.source p).data).drop m = bytesBits xs)
    (hm : m ≤ 8 * (s.source p).data.length) (hlen : xs.length ≤ s.params.maxLen) :
    Trace (freqCountAct p) (s.readAt p m) xs.length (normalEnd ((s.countedAs xs).readAt p (m + 8 * xs.length))) := by
  have h1 := freqCount_path p s hp ha m xs [] (by simpa using hd) hlen
  have hend : m + 8 * xs.length = 8 * (s.source p).data.length := by
    have := congrArg List.length hd
    simp only [List.length_drop, bytesBits_length] at this
    omega
  refine (h1.trace (.ended ?_)).congr (by omega)
  rw [freqCountAct_count _ _ (by simp), countAct]
  have := atEnd_all ((s.countedAs xs).goto .count) p
  simp only [goto_source, countedAs_source] at this
  rw [hend, this, if_pos rfl, ← readAt_goto, normalEnd_goto]

/-- FREQ_COUNT of a reader that is not byte-aligned. -/
theorem freqCount_trace_unaligned (p : PortNum) (s : State) (hp : s.pos = .start) (ha : (s.source p).avail = true)
    (m : Nat) (xs : List Byte) (rest : Bits) (hd : (bytesBits (s.source p).data).drop m = bytesBits xs ++ rest)
    (hne : rest ≠ []) (hrest : rest.length < 8) (hlen : xs.length ≤ s.params.maxLen) :
    Trace (freqCountAct p) (s.readAt p m) (xs.length + 1)
      (errorEnd .endOfStream ((s.countedAs xs).readAt p (m + 8 * xs.length))) := by
  have h1 := freqCount_path p s hp ha m xs rest hd hlen
  have hd2 := drop_of_drop hd
  rw [bytesBits_length] at hd2
  have hl := congrArg List.length hd
  simp only [List.length_drop, bytesBits_length, List.length_append] at hl
  have hpos := List.length_pos_iff.mpr hne
  obtain ⟨b, r, rfl⟩ := List.exists_cons_of_ne_nil hne
  have h2 : freqCountAct p (((s.countedAs xs).goto .count).readAt p (m + 8 * xs.length))
      = .access (((s.countedAs xs).goto (.raised .endOfStream)).readAt p (m + 8 * xs.length)) := by
    rw [freqCountAct_count _ _ (by simp), countAct, atEnd_drop (x := b) (r := r) _ p (by simpa using hd2),
      readByte_end _ p _ (by simp; omega)]
    simp [readAt_goto]
  refine h1.trace (.access h2 (.ended ?_))
  simp only [freqCountAct, goto_pos, ← readAt_goto, errorEnd_goto]

/-- FREQ_COUNT of more than MAX_LEN bytes. -/
theorem freqCount_trace_overflow (p : PortNum) (s : State) (hp : s.pos = .start) (ha : (s.source p).avail = true)
    (m : Nat) (xs : List Byte) (v : Byte) (rest : Bits)
    (hd : (bytesBits (s.source p).data).drop m = bytesBits xs ++ (byteBits v ++ rest))
    (hlen : xs.length = s.params.maxLen) :
    Trace (freqCountAct p) (s.readAt p m) (xs.length + 1)
      (errorEnd .countOverflow ((s.countedAs xs).readAt p (m + 8 * xs.length + 8))) := by
  have h1 := freqCount_path p s hp ha m xs _ hd (by omega)
  have hd2 := drop_of_drop hd
  rw [bytesBits_length] at hd2
  have ht : (s.countedAs xs).total = (s.countedAs xs).params.maxLen := hlen
  have h2 : freqCountAct p (((s.countedAs xs).goto .count).readAt p (m + 8 * xs.length))
      = .access (((s.countedAs xs).goto (.raised .countOverflow)).readAt p (m + 8 * xs.length + 8)) := by
    rw [freqCountAct_count _ _ (by simp), countAct,
      atEnd_drop (x := v.getLsbD 7) _ p (by rw [goto_source, countedAs_source]; exact hd2),
      readByte_drop (v := v) _ p (by rw [goto_source, countedAs_source]; exact hd2) (by simpa using ha)]
    simp only [Bool.false_eq_true, if_false, countByte, readAt_total, goto_total, readAt_params, goto_params, ht, if_true, readAt_goto, goto_goto]
  refine h1.trace (.access h2 (.ended ?_))
  simp only [freqCountAct, goto_pos, ← readAt_goto, errorEnd_goto]

/-! ## TREE_SER, CODE_EMIT -/

theorem treeSer_start (p : PortNum) (s : State) (hp : s.pos = .start) {t : HTree} (ht : s.tree = some t) (done : Bits) :
    treeSerAct p (s.wrote p done) = .work ((s.goto (.ser [.node t])).wrote p done) := by
  simp [treeSerAct, hp, ht, writerAt, wrote_goto']

/-- TREE_SER on an available sink. -/
theorem treeSer_trace (p : PortNum) (s : State) (hp : s.pos = .start) {t : HTree} (ht : s.tree = some t)
    (ha : (s.sink p).avail = true) (done : Bits) :
    Trace (treeSerAct p) (s.wrote p done) (pushesTo done.length (done ++ t.ser).length)
      (normalEnd (s.wrote p (done ++ t.ser))) := by
  have h2 := path_node (treeSerAct_ser p) s ha t [] done
  refine .work (treeSer_start p s hp ht done) ((h2.trace (.ended ?_)).congr (by omega))
  simp [treeSerAct, serAct, ← wrote_goto', normalEnd_goto]

/-- TREE_SER on an unavailable sink, from its start. -/
theorem treeSer_trace_refused (p : PortNum) (s : State) (hp : s.pos = .start) {t : HTree} (ht : s.tree = some t)
    (ha : (s.sink p).avail = false) (done : Bits) :
    Trace (treeSerAct p) (s.wrote p done) 1
      (errorEnd .sinkUnavailable (s.wrote p (done ++ t.leadMarkers.take (7 - done.length % 8)))) := by
  have hl := t.ser_length
  have hv := t.leaves_pos
  have h := path_ser_refused (treeSerAct_ser p) s ha 8 [.node t] done (by omega)
    (by simp only [todoBits, List.append_nil]; omega)
  refine .work (treeSer_start p s hp ht done) ((h.trace (.ended ?_)).congr (by omega))
  simp [treeSerAct, ← wrote_goto', errorEnd_goto, leadMarkers]

theorem codeEmit_start (p : PortNum) (v : Byte) (s : State) (hp : s.pos = .start) (hd : s.dictValid = true) {code : Bits}
    (hc : s.dict.code v = some code) (done : Bits) :
    codeEmitAct p v (s.wrote p done) = .work ((s.goto (.emit code)).wrote p done) := by
  simp [codeEmitAct, hp, hd, hc, writerAt, wrote_goto']

/-- CODE_EMIT where every byte it completes can be pushed. -/
theorem codeEmit_trace (p : PortNum) (v : Byte) (s : State) (hp : s.pos = .start) (hd : s.dictValid = true) {code : Bits}
    (hc : s.dict.code v = some code) (done : Bits)
    (ha : (s.sink p).avail = true ∨ done.length % 8 + code.length < 8) :
    Trace (codeEmitAct p v) (s.wrote p done) (pushesTo done.length (done ++ code).length)
      (normalEnd (s.wrote p (done ++ code))) := by
  have h2 := path_bits (here := .emit) (codeEmitAct_emit p v) s code done ha
  refine .work (codeEmit_start p v s hp hd hc done) ((h2.trace (.ended ?_)).congr (by omega))
  simp [codeEmitAct, emitAct, ← wrote_goto', normalEnd_goto]

/-- CODE_EMIT where a byte it completes cannot be pushed. -/
theorem codeEmit_trace_refused (p : PortNum) (v : Byte) (s : State) (hp : s.pos = .start) (hd : s.dictValid = true)
    {code : Bits} (hc : s.dict.code v = some code) (done : Bits) (ha : (s.sink p).avail = false)
    (hl : 8 ≤ done.length % 8 + code.length) :
    Trace (codeEmitAct p v) (s.wrote p done) 1
      (errorEnd .sinkUnavailable (s.wrote p (done ++ code.take (7 - done.length % 8)))) := by
  have h := path_bits_refused (here := .emit) (codeEmitAct_emit p v) s ha code done hl
  refine .work (codeEmit_start p v s hp hd hc done) ((h.trace (.ended ?_)).congr (by omega))
  simp [codeEmitAct, ← wrote_goto', errorEnd_goto]

/-! ## TREE_DESER -/

theorem treeDeser_start (p : PortNum) (s : State) (hp : s.pos = .start) (m : Nat) :
    treeDeserAct p (s.readAt p m) = .work (((invalidate s).goto (.desNode [] 0)).readAt p m) := by
  simp [treeDeserAct, hp, readerAt, invalidate_readAt, readAt_goto]

/-- TREE_DESER of a tree the store holds. -/
theorem treeDeser_trace (p : PortNum) (s : State) (hp : s.pos = .start) (ha : (s.source p).avail = true) (m : Nat)
    (t : HTree) (rest : Bits) (hd : (bytesBits (s.source p).data).drop m = t.ser ++ rest) (hc : t.size ≤ s.params.nodeCap) :
    Trace (treeDeserAct p) (s.readAt p m) (pullsTo m (m + t.ser.length))
      (normalEnd ((storeTree t t.size (invalidate s)).readAt p (m + t.ser.length))) := by
  have h2 := path_subtree (treeDeserAct_node p) (treeDeserAct_leaf p) (invalidate s) (by simpa using ha) t [] 0 m rest
    (by simpa using hd) (by rw [invalidate_params]; omega)
  refine .work (treeDeser_start p s hp m) ((h2.trace (.ended ?_)).congr (by omega))
  rw [show plugPos t [] (0 + t.size) = .desDone t t.size by simp [plugPos, plug], ← storeTree_readAt, ← readAt_goto]
  simp only [treeDeserAct, goto_pos]
  rfl

/-- TREE_DESER of a stream that ends at a node's marker. -/
theorem treeDeser_trace_noMarker (p : PortNum) (s : State) (hp : s.pos = .start) (ha : (s.source p).avail = true)
    (m : Nat) (hm : m ≤ 8 * (s.source p).data.length) (fs : List Frame)
    (hd : (bytesBits (s.source p).data).drop m = framesBits fs) (hc : framesSize fs ≤ s.params.nodeCap) :
    ∃ k, Trace (treeDeserAct p) (s.readAt p m) k
      (errorEnd .truncatedTree ((invalidate s).readAt p (m + (framesBits fs).length))) := by
  have h2 := path_frames (treeDeserAct_node p) (treeDeserAct_leaf p) (invalidate s) (by simpa using ha) fs m []
    (by simpa using hd) (by simpa using hc)
  have hl := congrArg List.length hd
  have h3 := path_noMarker (treeDeserAct_node p) (invalidate s) fs (c := framesSize fs)
    (m := m + (framesBits fs).length) (by simp at hl ⊢; omega)
  refine ⟨_, .work (treeDeser_start p s hp m) ((h2.trans h3).trace (.ended ?_))⟩
  simp [treeDeserAct, ← readAt_goto, errorEnd_goto]

/-- TREE_DESER of a stream that ends inside a leaf's value. -/
theorem treeDeser_trace_noValue (p : PortNum) (s : State) (hp : s.pos = .start) (ha : (s.source p).avail = true)
    (m : Nat) (hm : m ≤ 8 * (s.source p).data.length) (fs : List Frame) (short : Bits)
    (hd : (bytesBits (s.source p).data).drop m = framesBits fs ++ false :: short) (hs : short.length < 8)
    (hc : framesSize fs < s.params.nodeCap) :
    ∃ k, Trace (treeDeserAct p) (s.readAt p m) k
      (errorEnd .truncatedTree ((invalidate s).readAt p (m + (framesBits fs).length + 1))) := by
  have h2 := path_frames (treeDeserAct_node p) (treeDeserAct_leaf p) (invalidate s) (by simpa using ha) fs m _
    (by simpa using hd) (by simpa using Nat.le_of_lt hc)
  have hl := congrArg List.length hd
  have h3 := path_marker (treeDeserAct_node p) (invalidate s) (by simpa using ha) fs
    (by rw [invalidate_source]; exact drop_of_drop hd) (show framesSize fs < (invalidate s).params.nodeCap by simpa using hc)
  have h4 := path_noValue (treeDeserAct_leaf p) (invalidate s) fs (c := framesSize fs + 1)
    (m := m + (framesBits fs).length + 1) (by simp at hl ⊢; omega)
  refine ⟨_, .work (treeDeser_start p s hp m) (((h2.trans h3).trans h4).trace (.ended ?_))⟩
  simp [treeDeserAct, ← readAt_goto, errorEnd_goto]

/-- TREE_DESER of a stream that begins a node too many. -/
theorem treeDeser_trace_tooLarge (p : PortNum) (s : State) (hp : s.pos = .start) (ha : (s.source p).avail = true)
    (m : Nat) (fs : List Frame) (b : Bool) (rest : Bits)
    (hd : (bytesBits (s.source p).data).drop m = framesBits fs ++ b :: rest) (hc : framesSize fs = s.params.nodeCap) :
    ∃ k, Trace (treeDeserAct p) (s.readAt p m) k
      (errorEnd .treeTooLarge ((invalidate s).readAt p (m + (framesBits fs).length + 1))) := by
  have h2 := path_frames (treeDeserAct_node p) (treeDeserAct_leaf p) (invalidate s) (by simpa using ha) fs m _
    (by simpa using hd) (by simpa using Nat.le_of_eq hc)
  have h3 := path_tooLarge (treeDeserAct_node p) (invalidate s) (by simpa using ha) fs
    (by rw [invalidate_source]; exact drop_of_drop hd) (show (invalidate s).params.nodeCap < framesSize fs + 1 by simp [hc])
  refine ⟨_, .work (treeDeser_start p s hp m) ((h2.trans h3).trace (.ended ?_))⟩
  simp [treeDeserAct, ← readAt_goto, errorEnd_goto]

/-! ## ENCODE -/

theorem closeR_readAt (s : State) (p : PortNum) (m : Nat) : closeR p (s.readAt p m) = closeR p s := by cases p <;> rfl

/-- ENCODE's tables, ports and readers when its tree is built (spec/42_codec.md R250 to R255). -/
def State.encodedTree (s : State) (input : List Byte) (t : HTree) : State :=
  (storeTree t t.size (invalidate ((closeR .p0 ({ s with padBits := 0 }.countedAs input)).inPhase .eBuild))).inPhase .eSerTree

/-- ENCODE's first pass and its tree. -/
theorem encode_path_count (s : State) (hp : s.pos = .start) (h0 : s.w0.opened = false) (h1 : s.w1.opened = false)
    (ha : s.src0.avail = true) (hs : s.snk0.avail = true) (input : List Byte) (hi : s.src0.data = input) (hne : input ≠ [])
    (hlen : input.length ≤ s.params.maxLen) {t : HTree} (ht : buildTree (countsOf input) = some t) :
    Path encodeAct s input.length (((s.encodedTree input t).goto (.ser [.node t])).wrote .p0 []) := by
  have e1 : encodeAct s = .opens (((clearFreq ({ s with padBits := 0 }.inPhase .eCount)).goto .count).readAt .p0 0) := by
    have : encodeAct s = encodeStart s := by simp [encodeAct, hp]
    rw [this]
    simp only [encodeStart, h0, h1, Bool.or_self, Bool.false_eq_true, if_false]
    rw [openR_avail _ _ (by exact ha)]
    rfl
  have e2 := path_count encodeAct_count input (clearFreq ({ s with padBits := 0 }.inPhase .eCount)) 0 [] (by exact ha)
    (by show (bytesBits s.src0.data).drop 0 = _; simp [hi]) (by simpa using hlen)
  rw [foldl_addCount_clear] at e2
  have hT0 : input.length ≠ 0 := fun h => hne (List.length_eq_zero_iff.1 h)
  let u : State := { ({ s with padBits := 0 }.inPhase .eCount) with
    freq := countsOf input, total := input.length }
  have e3 : encodeAct ((u.goto .count).readAt .p0 (0 + 8 * input.length))
      = .opens (((s.encodedTree input t).goto (.ser [.node t])).wrote .p0 []) := by
    rw [encodeAct_count _ (by simp), countAct]
    have he : atEnd .p0 ((u.goto .count).readAt .p0 (0 + 8 * input.length)) = true := by
      have := atEnd_all (u.goto .count) .p0
      rwa [show ((u.goto .count).source .p0).data = input from hi, ← Nat.zero_add (8 * input.length)] at this
    rw [he, if_pos rfl, encodeCounted]
    simp only [closeR_readAt]
    rw [if_neg (by exact hT0)]
    have hb : buildTree (invalidate ((closeR .p0 (u.goto .count)).inPhase .eBuild)).freq = some t := ht
    simp only [hb]
    rw [openW_closed _ _ (by exact h0) (by exact hs)]
    rfl
  exact (Path.opens e1 e2).trans (.opens e3 (.refl _)) |>.congr (by omega)

/-- ENCODE's tables and ports when its padding begins (R256, R257). -/
def State.encodedDict (s : State) (input : List Byte) (t : HTree) : State :=
  { (storeDict (s.encodedTree input t)).inPhase .ePad with
    padBits := BitVec.ofNat 4 (padCount (codesOf (buildDict t).codeOf input).length) }

/-- ENCODE's tree stream, dictionary and padding. -/
theorem encode_path_tree (s : State) (h1 : s.w1.opened = false) (hs : s.snk0.avail = true) (hs1 : s.snk1.avail = true)
    (ha : s.src0.avail = true) (input : List Byte) (t : HTree) :
    Path encodeAct (((s.encodedTree input t).goto (.ser [.node t])).wrote .p0 [])
      (pushesTo 0 t.ser.length + pushesTo 0 (padding (codesOf (buildDict t).codeOf input).length).length)
      (((((s.encodedDict input t).inPhase .eEmit).goto (.emit [])).readAt .p0 0).wrote .p0 t.ser |>.wrote .p1
        (padding (codesOf (buildDict t).codeOf input).length)) := by
  have e1 := path_node encodeAct_ser (s.encodedTree input t) (by exact hs) t [] []
  rw [List.nil_append] at e1
  have hpos : ∀ q, (((s.encodedTree input t).goto q).wrote .p0 t.ser).w1.opened = false := fun q => h1
  have e2 : encodeAct (((s.encodedTree input t).goto (.ser [])).wrote .p0 t.ser)
      = .opens ((((s.encodedDict input t).wrote .p0 t.ser).goto (.pad (padding (codesOf (buildDict t).codeOf input).length))).wrote .p1 []) := by
    have : encodeAct (((s.encodedTree input t).goto (.ser [])).wrote .p0 t.ser)
        = encodeSerialized (((s.encodedTree input t).goto (.ser [])).wrote .p0 t.ser) := by simp [encodeAct, serAct]
    rw [this, encodeSerialized]
    rw [openW_closed _ _ (by exact h1) (by exact hs1)]
    have hb : totalBits (countsOf input) (buildDict t) = _ := totalBits_eq input (buildDict t)
    simp only [Res.goto, wrote_goto', State.encodedDict, padding, ← hb]
    rfl
  have e3 := path_bits (here := .pad) encodeAct_pad ((s.encodedDict input t).wrote .p0 t.ser)
    (padding (codesOf (buildDict t).codeOf input).length) [] (.inl (by exact hs1))
  rw [List.nil_append] at e3
  have e4 : encodeAct ((((s.encodedDict input t).wrote .p0 t.ser).goto (.pad [])).wrote .p1
        (padding (codesOf (buildDict t).codeOf input).length))
      = .opens (((((s.encodedDict input t).inPhase .eEmit).goto (.emit [])).readAt .p0 0).wrote .p0 t.ser |>.wrote .p1
        (padding (codesOf (buildDict t).codeOf input).length)) := by
    have : encodeAct ((((s.encodedDict input t).wrote .p0 t.ser).goto (.pad [])).wrote .p1
          (padding (codesOf (buildDict t).codeOf input).length))
        = encodePad [] ((((s.encodedDict input t).wrote .p0 t.ser).goto (.pad [])).wrote .p1
          (padding (codesOf (buildDict t).codeOf input).length)) := by simp [encodeAct]
    rw [this, encodePad, openR_avail _ _ (by exact ha)]
    rfl
  exact ((e1.trans (.opens e2 e3)).trans (.opens e4 (.refl _))).congr (by simp)

/-- One byte of ENCODE's second pass, then the rest (R258). -/
theorem encode_path_emit (u : State) (ha : u.src0.avail = true) (hs : u.snk1.avail = true) (treeBits : Bits) :
    ∀ (xs : List Byte) (done : Bits) (m : Nat) (rest : Bits), (∀ x ∈ xs, ∃ c, u.dict.code x = some c) →
      (bytesBits u.src0.data).drop m = bytesBits xs ++ rest →
      Path encodeAct ((((u.goto (.emit [])).readAt .p0 m).wrote .p0 treeBits).wrote .p1 done)
        (xs.length + pushesTo done.length (done ++ codesOf u.dict.codeOf xs).length)
        ((((u.goto (.emit [])).readAt .p0 (m + 8 * xs.length)).wrote .p0 treeBits).wrote .p1
          (done ++ codesOf u.dict.codeOf xs)) := by
  intro xs
  induction xs with
  | nil => intro done m rest _ _; simpa [codesOf, pushesTo] using Path.refl _
  | cons x xs ih =>
    intro done m rest hc hd
    rw [bytesBits_cons, List.append_assoc] at hd
    obtain ⟨c, hx⟩ := hc x (by simp)
    have e1 : encodeAct ((((u.goto (.emit [])).readAt .p0 m).wrote .p0 treeBits).wrote .p1 done)
        = .access ((((u.goto (.emit c)).readAt .p0 (m + 8)).wrote .p0 treeBits).wrote .p1 done) := by
      have : encodeAct ((((u.goto (.emit [])).readAt .p0 m).wrote .p0 treeBits).wrote .p1 done)
          = encodeNext ((((u.goto (.emit [])).readAt .p0 m).wrote .p0 treeBits).wrote .p1 done) := by
        simp [encodeAct, emitAct]
      rw [this, ← wrote_readAt, ← wrote_readAt, encodeNext, atEnd_drop (x := x.getLsbD 7) _ .p0 (by exact hd),
        readByte_drop (v := x) _ .p0 (by exact hd) (by exact ha)]
      simp only [Bool.false_eq_true, if_false]
      rw [show (((((u.goto (.emit [])).wrote .p0 treeBits).wrote .p1 done).readAt .p0 (m + 8)).dict.code x) = some c from hx]
      rfl
    have e2 := path_bits (here := .emit) encodeAct_emit ((u.readAt .p0 (m + 8)).wrote .p0 treeBits) c done (.inl (by exact hs))
    have hd2 := drop_of_drop hd
    rw [byteBits_length] at hd2
    have e3 := ih (done ++ c) (m + 8) rest (fun y hy => hc y (by simp [hy])) hd2
    have hcode : codesOf u.dict.codeOf (x :: xs) = c ++ codesOf u.dict.codeOf xs := by
      simp [codesOf, Dict.codeOf, hx]
    rw [hcode, List.length_cons, show m + 8 * (xs.length + 1) = m + 8 + 8 * xs.length by omega, ← List.append_assoc]
    refine ((Path.access e1 e2).trans e3).congr ?_
    simp only [pushesTo, List.length_append]
    omega

/-- ENCODE's end: both writers closed (R259). -/
theorem encode_trace_close (u : State) (hs : u.snk0.avail = true) (hs1 : u.snk1.avail = true) (treeBits bits : Bits) (n : Nat)
    (hn : u.src0.data.length = n) (hb : bits.length % 8 = 0) :
    Trace encodeAct ((((u.goto (.emit [])).readAt .p0 (8 * n)).wrote .p0 treeBits).wrote .p1 bits)
      (decide (treeBits.length % 8 ≠ 0)).toNat
      (normalEnd { u with
        r0 := Reader.closed, w0 := Writer.closed, w1 := Writer.closed
        snk0 := { data := packBits treeBits, avail := true }, snk1 := { data := packBits bits, avail := true } }) := by
  have e1 : encodeAct ((((u.goto (.emit [])).readAt .p0 (8 * n)).wrote .p0 treeBits).wrote .p1 bits)
      = .work ((((closeR .p0 u).inPhase .eClose).goto .closeW0).wrote .p1 bits |>.wrote .p0 treeBits) := by
    have : encodeAct ((((u.goto (.emit [])).readAt .p0 (8 * n)).wrote .p0 treeBits).wrote .p1 bits)
        = encodeNext ((((u.goto (.emit [])).readAt .p0 (8 * n)).wrote .p0 treeBits).wrote .p1 bits) := by
      simp [encodeAct, emitAct]
    have he := atEnd_all (((u.goto (.emit [])).wrote .p0 treeBits).wrote .p1 bits) .p0
    rw [show ((((u.goto (.emit [])).wrote .p0 treeBits).wrote .p1 bits).source .p0).data.length = n from hn] at he
    rw [this, ← wrote_readAt, ← wrote_readAt, encodeNext, he, if_pos rfl]
    rfl
  let v : State := { (((closeR .p0 u).inPhase .eClose)) with w0 := Writer.closed, snk0 := { u.snk0 with data := packBits treeBits } }
  have e2 : encodeAct ((((closeR .p0 u).inPhase .eClose).goto .closeW0).wrote .p1 bits |>.wrote .p0 treeBits)
      = Act.of (decide (treeBits.length % 8 ≠ 0)) ((v.goto .closeW1).wrote .p1 bits) := by
    have : encodeAct ((((closeR .p0 u).inPhase .eClose).goto .closeW0).wrote .p1 bits |>.wrote .p0 treeBits)
        = closeWriter .p0 .closeW1 ((((closeR .p0 u).inPhase .eClose).goto .closeW0).wrote .p1 bits |>.wrote .p0 treeBits) := by
      simp [encodeAct]
    rw [this, closeWriter, closePushes_wrote, closeW_wrote _ _ _ (by exact hs)]
    rfl
  have e3 : encodeAct ((v.goto .closeW1).wrote .p1 bits)
      = .work ({ v with w1 := Writer.closed, snk1 := { u.snk1 with data := packBits bits } }.goto .finish) := by
    have : encodeAct ((v.goto .closeW1).wrote .p1 bits) = closeWriter .p1 .finish ((v.goto .closeW1).wrote .p1 bits) := by
      simp [encodeAct]
    rw [this, closeWriter, closePushes_wrote, closeW_wrote _ _ _ (by exact hs1), decide_eq_false (by simp [hb])]
    rfl
  refine .work e1 (((Path.one _ e2).trace (.work e3 (.ended ?_))).congr (by omega))
  have : encodeAct ({ v with w1 := Writer.closed, snk1 := { u.snk1 with data := packBits bits } }.goto .finish)
      = .ended (normalEnd ({ v with w1 := Writer.closed, snk1 := { u.snk1 with data := packBits bits } }.goto .finish)) := by
    simp [encodeAct]
  rw [this]
  congr 1
  simp only [normalEnd, v, hs, hs1]
  rfl

theorem padding_length (n : Nat) : (padding n).length = padCount n := by
  have : 1 ≤ padCount n := by simp only [padCount]; omega
  simp [padding]
  omega

theorem payloadBits_length (code : Byte → Bits) (xs : List Byte) :
    (payloadBits code xs).length = 8 * ((codesOf code xs).length / 8 + 1) := by
  rw [payloadBits, List.length_append, padding_length, padCount]
  omega

theorem packBits_length (b : Bits) : (packBits b).length = (b.length + 7) / 8 := by
  rw [packBits_eq, List.length_append, fullBytes_length]
  split <;> simp <;> omega

/-- ENCODE of a non-empty input (R250 to R260). -/
theorem encode_trace (s : State) (hp : s.pos = .start) (h0 : s.w0.opened = false) (h1 : s.w1.opened = false)
    (ha : s.src0.avail = true) (hs : s.snk0.avail = true) (hs1 : s.snk1.avail = true) (input : List Byte)
    (hi : s.src0.data = input) (hne : input ≠ []) (hlen : input.length ≤ s.params.maxLen) {t : HTree}
    (ht : buildTree (countsOf input) = some t) :
    Trace encodeAct s (2 * input.length + t.stream.length + (payloadStream (buildDict t).codeOf input).length)
      { normalEnd s with
        r0 := Reader.closed, freq := countsOf input, total := input.length
        tree := some t, nodes := BitVec.ofNat 10 t.size, dict := buildDict t, dictValid := true
        padBits := BitVec.ofNat 4 (padCount (codesOf (buildDict t).codeOf input).length)
        w0 := Writer.closed, w1 := Writer.closed
        snk0 := { data := t.stream, avail := true }
        snk1 := { data := payloadStream (buildDict t).codeOf input, avail := true } } := by
  have e1 := encode_path_count s hp h0 h1 ha hs input hi hne hlen ht
  have e2 := encode_path_tree s h1 hs hs1 ha input t
  have hcodes : ∀ x ∈ input, ∃ c, (buildDict t).code x = some c := by
    intro x hx
    have hcount : (countsOf input).count x ≠ 0 := by
      intro h
      have h2 := countsOf_count input x
      rw [h] at h2
      exact absurd (List.count_pos_iff.2 hx) (by rw [← h2]; decide)
    have := (buildDict_dom t x).2 ((buildTree_spec ht).2.2.1 x hcount)
    exact Option.isSome_iff_exists.1 this
  have e3 := encode_path_emit ((s.encodedDict input t).inPhase .eEmit) (by exact ha) (by exact hs1) t.ser input
    (padding (codesOf (buildDict t).codeOf input).length) 0 [] hcodes
    (by show (bytesBits s.src0.data).drop 0 = _; simp [hi])
  have e4 := encode_trace_close ((s.encodedDict input t).inPhase .eEmit) (by exact hs) (by exact hs1) t.ser
    (payloadBits (buildDict t).codeOf input) input.length (by exact congrArg List.length hi)
    (by rw [payloadBits_length]; omega)
  rw [Nat.zero_add] at e3
  have h := ((e1.trans e2).trans e3).trace e4
  have hp2 := payloadBits_length (buildDict t).codeOf input
  rw [payloadBits, List.length_append, padding_length] at hp2
  refine h.congr ?_
  show input.length + (pushesTo 0 t.ser.length + pushesTo 0 (padding (codesOf (buildDict t).codeOf input).length).length)
    + (input.length + pushesTo (padding (codesOf (buildDict t).codeOf input).length).length
        (padding (codesOf (buildDict t).codeOf input).length ++ codesOf (buildDict t).codeOf input).length)
    + (decide (t.ser.length % 8 ≠ 0)).toNat = _
  rw [HTree.stream, payloadStream, packBits_length, packBits_length, payloadBits_length, List.length_append, padding_length]
  by_cases h8 : t.ser.length % 8 = 0 <;> simp [pushesTo, h8] <;> omega

/-! ## DECODE -/

/-- DECODE's ports when its tree is being read (R272). -/
def State.decodeOpen (s : State) : State := (invalidate (s.inPhase .dTree)).wrote .p0 []

/-- DECODE up to its first node (R270 to R272). -/
theorem decode_start (s : State) (hp : s.pos = .start) (h0 : s.w0.opened = false) (ha : s.src0.avail = true)
    (hs : s.snk0.avail = true) :
    decodeAct s = .opens ((s.decodeOpen.goto (.desNode [] 0)).readAt .p0 0) := by
  have : decodeAct s = decodeStart s := by simp [decodeAct, hp]
  rw [this, decodeStart]
  simp only [h0, Bool.false_eq_true, if_false]
  rw [openW_closed _ _ (by exact h0) (by exact hs)]
  simp only
  rw [openR_avail _ _ (by exact ha)]
  rfl

/-- DECODE's tree (R272). -/
theorem decode_path_tree (s : State) (hp : s.pos = .start) (h0 : s.w0.opened = false) (ha : s.src0.avail = true)
    (hs : s.snk0.avail = true) (t : HTree) (extra : Bits) (hd : bytesBits s.src0.data = t.ser ++ extra)
    (hc : t.size ≤ s.params.nodeCap) :
    Path decodeAct s (pullsTo 0 t.ser.length) ((s.decodeOpen.goto (.desDone t t.size)).readAt .p0 t.ser.length) := by
  have e2 := path_subtree decodeAct_node decodeAct_leaf s.decodeOpen (by exact ha) t [] 0 0 extra
    (by show (bytesBits s.src0.data).drop 0 = _; simpa using hd) (by rw [Nat.zero_add]; exact hc)
  rw [Nat.zero_add, Nat.zero_add, show plugPos t [] t.size = .desDone t t.size by simp [plugPos, plug]] at e2
  exact .opens (decode_start s hp h0 ha hs) e2

/-- DECODE's error path when its writer holds no bit (spec/60_exceptions.md R306, R312). -/
theorem decode_trace_raised (u : State) (e : Error) (bs : List Byte) (hs : u.snk0.avail = true) :
    Trace decodeAct ((u.goto (.raised e)).wrote .p0 (bytesBits bs)) 0
      { errorEnd e u with
        r0 := Reader.closed, r1 := Reader.closed, w0 := Writer.closed, snk0 := { data := bs, avail := true } } := by
  have e1 : decodeAct ((u.goto (.raised e)).wrote .p0 (bytesBits bs))
      = .work (((closeR .p1 (closeR .p0 u)).goto (.relW0 e)).wrote .p0 (bytesBits bs)) := by
    simp [decodeAct]; rfl
  have e2 : decodeAct (((closeR .p1 (closeR .p0 u)).goto (.relW0 e)).wrote .p0 (bytesBits bs))
      = .work ({ closeR .p1 (closeR .p0 u) with w0 := Writer.closed, snk0 := { u.snk0 with data := bs } }.goto (.errEnd e)) := by
    have : decodeAct (((closeR .p1 (closeR .p0 u)).goto (.relW0 e)).wrote .p0 (bytesBits bs))
        = releaseWriter .p0 (.errEnd e) (((closeR .p1 (closeR .p0 u)).goto (.relW0 e)).wrote .p0 (bytesBits bs)) := by
      simp [decodeAct]
    rw [this, releaseWriter, closePushes_wrote, closeW_wrote _ _ _ (by exact hs), decide_eq_false (by simp),
      packBits_bytesBits]
    rfl
  refine .work e1 (.work e2 (.ended ?_))
  rw [show ({ data := bs, avail := true } : Sink) = { u.snk0 with data := bs } by rw [← hs]]
  simp [decodeAct]
  rfl

/-- DECODE of a tree that is a single leaf (R273). -/
theorem decode_trace_leaf (s : State) (hp : s.pos = .start) (h0 : s.w0.opened = false) (ha : s.src0.avail = true)
    (hs : s.snk0.avail = true) (hc : 1 ≤ s.params.nodeCap) (v : Byte) (extra : Bits) (hd : bytesBits s.src0.data = (HTree.leaf v).ser ++ extra) :
    Trace decodeAct s (pullsTo 0 (HTree.leaf v).ser.length)
      { errorEnd .degenerateTree s with
        r0 := Reader.closed, r1 := Reader.closed, w0 := Writer.closed
        tree := some (.leaf v), nodes := 1, dictValid := false, snk0 := { data := [], avail := true } } := by
  have e1 := decode_path_tree s hp h0 ha hs (.leaf v) extra hd (by simpa [HTree.size] using hc)
  have e2 : decodeAct ((s.decodeOpen.goto (.desDone (.leaf v) (HTree.leaf v).size)).readAt .p0 (HTree.leaf v).ser.length)
      = .work (((closeR .p0 (storeTree (.leaf v) 1 (invalidate (s.inPhase .dTree)))).goto (.raised .degenerateTree)).wrote .p0 (bytesBits [])) := by
    rfl
  exact (e1.trace (.work e2 (decode_trace_raised _ _ [] (by exact hs)))).congr (by omega)

/-- DECODE's tables and ports when the padding begins (R272, R274). -/
def State.decodeTree (s : State) (t : HTree) : State :=
  (closeR .p0 (storeTree t t.size (invalidate (s.inPhase .dTree)))).inPhase .dPad

/-- DECODE up to its padding (R270 to R274). -/
theorem decode_path_skip (s : State) (hp : s.pos = .start) (h0 : s.w0.opened = false) (ha : s.src0.avail = true)
    (ha1 : s.src1.avail = true) (hs : s.snk0.avail = true) (l r : HTree) (extra : Bits)
    (hd : bytesBits s.src0.data = (HTree.internal l r).ser ++ extra) (hc : (HTree.internal l r).size ≤ s.params.nodeCap) :
    Path decodeAct s (pullsTo 0 (HTree.internal l r).ser.length)
      ((((s.decodeTree (.internal l r)).wrote .p0 []).goto .skip).readAt .p1 0) := by
  have e1 := decode_path_tree s hp h0 ha hs (.internal l r) extra hd hc
  have e2 : decodeAct ((s.decodeOpen.goto (.desDone (.internal l r) (HTree.internal l r).size)).readAt .p0
        (HTree.internal l r).ser.length)
      = .opens ((((s.decodeTree (.internal l r)).wrote .p0 []).goto .skip).readAt .p1 0) := by
    have : decodeAct ((s.decodeOpen.goto (.desDone (.internal l r) (HTree.internal l r).size)).readAt .p0
          (HTree.internal l r).ser.length)
        = decodeTreeRead (.internal l r) (HTree.internal l r).size
            ((s.decodeOpen.goto (.desDone (.internal l r) (HTree.internal l r).size)).readAt .p0 (HTree.internal l r).ser.length) := by
      simp [decodeAct]
    rw [this, decodeTreeRead]
    simp only [HTree.isLeaf, Bool.false_eq_true, if_false]
    rw [openR_avail _ _ (by exact ha1)]
    rfl
  exact (e1.trans (.opens e2 (.refl _))).congr (by omega)

/-- DECODE of a payload with no zero bit (R274). -/
theorem decode_trace_padding (s : State) (hp : s.pos = .start) (h0 : s.w0.opened = false) (ha : s.src0.avail = true)
    (ha1 : s.src1.avail = true) (hs : s.snk0.avail = true) (l r : HTree) (extra : Bits)
    (hd : bytesBits s.src0.data = (HTree.internal l r).ser ++ extra) (hc : (HTree.internal l r).size ≤ s.params.nodeCap)
    (hone : ∀ b ∈ bytesBits s.src1.data, b = true) :
    Trace decodeAct s (pullsTo 0 (HTree.internal l r).ser.length + s.src1.data.length)
      { errorEnd .malformedPadding s with
        r0 := Reader.closed, r1 := Reader.closed, w0 := Writer.closed
        tree := some (.internal l r), nodes := BitVec.ofNat 10 (HTree.internal l r).size, dictValid := false
        snk0 := { data := [], avail := true } } := by
  have e1 := decode_path_skip s hp h0 ha ha1 hs l r extra hd hc
  have e2 := path_skip ((s.decodeTree (.internal l r)).wrote .p0 []) (by exact ha1) (8 * s.src1.data.length) 0 []
    (by
      show (bytesBits s.src1.data).drop 0 = _
      rw [List.drop_zero, List.append_nil]
      exact List.eq_replicate_iff.2 ⟨by simp, hone⟩)
  rw [Nat.zero_add] at e2
  have e3 : decodeAct ((((s.decodeTree (.internal l r)).wrote .p0 []).goto .skip).readAt .p1 (8 * s.src1.data.length))
      = .work (((((s.decodeTree (.internal l r)).readAt .p1 (8 * s.src1.data.length))).goto (.raised .malformedPadding)).wrote .p0 (bytesBits [])) := by
    have : decodeAct ((((s.decodeTree (.internal l r)).wrote .p0 []).goto .skip).readAt .p1 (8 * s.src1.data.length))
        = decodeSkip ((((s.decodeTree (.internal l r)).wrote .p0 []).goto .skip).readAt .p1 (8 * s.src1.data.length)) := by
      simp [decodeAct]
    have he := atEnd_all (((s.decodeTree (.internal l r)).wrote .p0 []).goto .skip) .p1
    rw [show ((((s.decodeTree (.internal l r)).wrote .p0 []).goto .skip).source .p1).data.length = s.src1.data.length from rfl] at he
    rw [this, decodeSkip, he, if_pos rfl]
    rfl
  refine ((e1.trans e2).trace (.work e3 (decode_trace_raised _ _ [] (by exact hs)))).congr ?_
  simp only [pullsTo]
  omega

/-- DECODE of a payload of padding, the paths of some leaves and an incomplete path (R274 to R277). -/
theorem decode_trace (s : State) (hp : s.pos = .start) (h0 : s.w0.opened = false) (ha : s.src0.avail = true)
    (ha1 : s.src1.avail = true) (hs : s.snk0.avail = true) (hpart : s.partialCode = false) (l r : HTree) (extra : Bits)
    (hd : bytesBits s.src0.data = (HTree.internal l r).ser ++ extra) (hc : (HTree.internal l r).size ≤ s.params.nodeCap)
    (ones : Nat) (leaves : List (Bits × Byte)) (tail : Bits)
    (hd1 : bytesBits s.src1.data = List.replicate ones true ++ false :: (leaves.flatMap Prod.fst ++ tail))
    (hl : ∀ e ∈ leaves, (HTree.internal l r).node e.1 = some (.leaf e.2))
    (ht : ∃ u v, (HTree.internal l r).node tail = some (.internal u v)) :
    Trace decodeAct s (((HTree.internal l r).ser.length + 7) / 8 + s.src1.data.length + leaves.length)
      { normalEnd s with
        r0 := Reader.closed, r1 := Reader.closed, w0 := Writer.closed
        tree := some (.internal l r), nodes := BitVec.ofNat 10 (HTree.internal l r).size, dictValid := false
        cursor := tail, partialCode := !tail.isEmpty
        snk0 := { data := leaves.map Prod.snd, avail := true } } := by
  have e1 := decode_path_skip s hp h0 ha ha1 hs l r extra hd hc
  have e2 := path_skip ((s.decodeTree (.internal l r)).wrote .p0 []) (by exact ha1) ones 0
    (false :: (leaves.flatMap Prod.fst ++ tail)) (by show (bytesBits s.src1.data).drop 0 = _; simpa using hd1)
  rw [Nat.zero_add] at e2
  have hdz : (bytesBits s.src1.data).drop ones = false :: (leaves.flatMap Prod.fst ++ tail) := by
    rw [hd1]
    have := List.drop_left (l₁ := List.replicate ones true) (l₂ := false :: (leaves.flatMap Prod.fst ++ tail))
    rwa [List.length_replicate] at this
  let u : State := (s.decodeTree (.internal l r)).inPhase .dDecode
  have e3 : decodeAct ((((s.decodeTree (.internal l r)).wrote .p0 []).goto .skip).readAt .p1 ones)
      = Act.of (decide (ones % 8 = 0)) ((((u.setCursor []).goto .walk).readAt .p1 (ones + 1)).wrote .p0 []) := by
    have : decodeAct ((((s.decodeTree (.internal l r)).wrote .p0 []).goto .skip).readAt .p1 ones)
        = decodeSkip ((((s.decodeTree (.internal l r)).wrote .p0 []).goto .skip).readAt .p1 ones) := by
      simp [decodeAct]
    rw [this, decodeSkip, atEnd_drop (x := false) _ .p1 (by exact hdz), readBit_drop (x := false) _ .p1 (by exact hdz) (by exact ha1),
      bitPulls_readAt]
    rfl
  have hd2 := drop_of_drop (a := [false]) hdz
  rw [List.length_singleton] at hd2
  have e4 := path_leaves u (by exact ha1) (by exact hs) (by rfl : u.tree = some (.internal l r)) leaves [] (ones + 1) tail
    (fun e he => ⟨fun h => by have := hl e he; rw [h] at this; simp [HTree.node] at this, hl e he⟩) hd2
  rw [List.nil_append] at e4
  have hd3 := drop_of_drop hd2
  have e5 := path_tail u (by exact ha1) (by rfl : u.tree = some (.internal l r)) (bytesBits (leaves.map Prod.snd)) tail []
    (ones + 1 + (leaves.flatMap Prod.fst).length) [] (by simpa using ht) (by rw [List.append_nil]; exact hd3)
  rw [List.nil_append] at e5
  have hend : ones + 1 + (leaves.flatMap Prod.fst).length + tail.length = 8 * s.src1.data.length := by
    have := congrArg List.length hd1
    simp only [bytesBits_length, List.length_append, List.length_replicate, List.length_cons] at this
    omega
  rw [hend] at e5
  let w : State := { (u.setCursor tail).inPhase .dClose with partialCode := !tail.isEmpty }
  have e6 : decodeAct ((((u.setCursor tail).goto .walk).readAt .p1 (8 * s.src1.data.length)).wrote .p0 (bytesBits (leaves.map Prod.snd)))
      = .work (((w.goto .dClose).readAt .p1 (8 * s.src1.data.length)).wrote .p0 (bytesBits (leaves.map Prod.snd))) := by
    have : decodeAct ((((u.setCursor tail).goto .walk).readAt .p1 (8 * s.src1.data.length)).wrote .p0 (bytesBits (leaves.map Prod.snd)))
        = decodeWalk ((((u.setCursor tail).goto .walk).readAt .p1 (8 * s.src1.data.length)).wrote .p0 (bytesBits (leaves.map Prod.snd))) := by
      simp [decodeAct]
    have he := atEnd_all (((u.setCursor tail).goto .walk).wrote .p0 (bytesBits (leaves.map Prod.snd))) .p1
    rw [show ((((u.setCursor tail).goto .walk).wrote .p0 (bytesBits (leaves.map Prod.snd))).source .p1).data.length
      = s.src1.data.length from rfl] at he
    rw [this, ← wrote_readAt, decodeWalk, he, if_pos rfl]
    have hp2 : (!tail.isEmpty) = (s.partialCode || !tail.isEmpty) := by rw [hpart, Bool.false_or]
    simp only [w]
    rw [hp2]
    rfl
  have e7 : decodeAct (((w.goto .dClose).readAt .p1 (8 * s.src1.data.length)).wrote .p0 (bytesBits (leaves.map Prod.snd)))
      = .work ({ closeR .p1 w with w0 := Writer.closed, snk0 := { u.snk0 with data := leaves.map Prod.snd } }.goto .finish) := by
    have : decodeAct (((w.goto .dClose).readAt .p1 (8 * s.src1.data.length)).wrote .p0 (bytesBits (leaves.map Prod.snd)))
        = closeWriter .p0 .finish (((closeR .p1 w).goto .dClose).wrote .p0 (bytesBits (leaves.map Prod.snd))) := by
      simp [decodeAct]; rfl
    rw [this, closeWriter, closePushes_wrote, closeW_wrote _ _ _ (by exact hs), decide_eq_false (by simp), packBits_bytesBits]
    rfl
  have hfin : decodeAct ({ closeR .p1 w with w0 := Writer.closed, snk0 := { u.snk0 with data := leaves.map Prod.snd } }.goto .finish)
      = .ended { normalEnd s with
          r0 := Reader.closed, r1 := Reader.closed, w0 := Writer.closed
          tree := some (.internal l r), nodes := BitVec.ofNat 10 (HTree.internal l r).size, dictValid := false
          cursor := tail, partialCode := !tail.isEmpty
          snk0 := { data := leaves.map Prod.snd, avail := true } } := by
    rw [show ({ data := leaves.map Prod.snd, avail := true } : Sink) = { s.snk0 with data := leaves.map Prod.snd } by rw [← hs]]
    rfl
  have h := ((((e1.trans e2).trans (Path.one _ e3)).trans e4).trans e5).trace (.work e6 (.work e7 (.ended hfin)))
  refine h.congr ?_
  simp only [pullsTo]
  generalize (leaves.flatMap Prod.fst).length = n at *
  by_cases h8 : ones % 8 = 0 <;> simp [h8] <;> omega

end Sys2Proof.Machine
end

