-- ==== Sys2Proof/Laws/Failures.lean ====
section
/-! SUPPORT. Release once and for all (spec/60_exceptions.md R312, R313): what the error path of ENCODE and of
DECODE leaves, and how a command ends whose engine reaches it. -/

namespace Sys2Proof.Machine

theorem goto_self {s : State} {q : Pos} (h : s.pos = q) : s.goto q = s := by cases h; rfl

/-! ## Accesses that fail -/

theorem openR_refused {p : PortNum} {s : State} (h : (s.source p).avail = false) :
    openR p s = .raise .sourceUnavailable s := by simp [openR, h]

theorem openW_refused {p : PortNum} {s : State} (h0 : (s.writer p).opened = false) (h : (s.sink p).avail = false) :
    openW p s = .raise .sinkUnavailable s := by simp [openW, h0, h]

theorem pull_refused {p : PortNum} {s : State} (hl : (s.reader p).pos < (s.source p).data.length)
    (h : (s.source p).avail = false) : pull p s = .raise .sourceUnavailable s := by
  simp [pull, List.getElem?_eq_getElem hl, h]

theorem pull_exhausted {p : PortNum} {s : State} (hl : (s.source p).data.length ≤ (s.reader p).pos) :
    pull p s = .raise .endOfStream s := by
  simp [pull, List.getElem?_eq_none hl]

theorem pull_raise_goto {p : PortNum} {s : State} {e : Error} (h : pull p s = .raise e s) (q : Pos) :
    pull p (s.goto q) = .raise e (s.goto q) := by
  unfold pull at h ⊢
  rw [goto_source, goto_reader]
  revert h
  split
  · rintro ⟨⟩; rfl
  · split
    · rintro ⟨⟩
    · rintro ⟨⟩; rfl

/-- Whether a Pull raises depends on the reader's position alone (R62). -/
theorem pull_raise_setReader {p : PortNum} {s : State} {e : Error} (h : pull p s = .raise e s) {x : Reader}
    (hx : x.pos = (s.reader p).pos) : pull p (s.setReader p x) = .raise e (s.setReader p x) := by
  unfold pull at h ⊢
  simp only [setReader_reader, setReader_source, hx]
  revert h
  split
  · rintro ⟨⟩; rfl
  · split
    · rintro ⟨⟩
    · rintro ⟨⟩; rfl

theorem readByte_raise {p : PortNum} {s : State} {e : Error} (h : pull p s = .raise e s) : readByte p s = .raise e s := by
  simp [readByte, h]

theorem readBit_raise {p : PortNum} {s : State} {e : Error} (hc : (s.reader p).cnt = 0) (h : pull p s = .raise e s) :
    readBit p s = .raise e s := by
  simp [readBit, hc, h]

theorem readByte_refused {p : PortNum} {s : State} (hl : (s.reader p).pos < (s.source p).data.length)
    (h : (s.source p).avail = false) : readByte p s = .raise .sourceUnavailable s := readByte_raise (pull_refused hl h)

theorem readBit_refused {p : PortNum} {s : State} (hc : (s.reader p).cnt = 0)
    (hl : (s.reader p).pos < (s.source p).data.length) (h : (s.source p).avail = false) :
    readBit p s = .raise .sourceUnavailable s := readBit_raise hc (pull_refused hl h)

/-- A byte left that ReadByte can pull (R125). -/
theorem readByte_pulled {p : PortNum} {s : State} (hl : (s.reader p).pos < (s.source p).data.length)
    (h : (s.source p).avail = true) : ∃ v x, readByte p s = .ok v (s.setReader p x) := by
  simp [readByte, pull, List.getElem?_eq_getElem hl, h]

theorem atEnd_more {p : PortNum} {s : State} (hl : (s.reader p).pos < (s.source p).data.length) :
    atEnd p s = false := by
  simp [atEnd]; intro; omega

/-! ## Buffered bits -/

theorem unread_buffered (s : State) (p : PortNum) :
    s.unread p = s.buffered p ++ bytesBits ((s.source p).data.drop (s.reader p).pos) := rfl

theorem buffered_nil {p : PortNum} {s : State} (h : s.buffered p = []) : (s.reader p).cnt = 0 := by
  have := congrArg List.length h
  simp only [State.buffered, List.length_drop, byteBits_length, List.length_nil] at this
  exact Fin.ext (show (s.reader p).cnt.val = 0 by have := (s.reader p).cnt.isLt; omega)

/-- ReadBit takes a buffered bit without a Pull (R124). -/
theorem readBit_buffered {p : PortNum} {s : State} {b : Bool} {rest : Bits} (h : s.buffered p = b :: rest) :
    bitPulls p s = false ∧ readBit p s = .ok b (s.setReader p (s.reader p).spend)
      ∧ (s.setReader p (s.reader p).spend).buffered p = rest := by
  have key : ∀ (v : Byte) (c : Fin 8), (byteBits v).drop (8 - c.val) = b :: rest →
      c ≠ 0 ∧ v.getLsbD (c.val - 1) = b ∧ (byteBits v).drop (8 - (c - 1).val) = rest := by
    intro v c
    fin_cases c <;> simp [byteBits]
  obtain ⟨hc, hb, hr⟩ := key _ _ h
  refine ⟨by simpa [bitPulls] using hc, by rw [readBit, if_neg hc]; simp only [hb], ?_⟩
  simpa [State.buffered, Reader.spend] using hr

theorem atEnd_buffered {p : PortNum} {s : State} {b : Bool} {rest : Bits} (h : s.buffered p = b :: rest) :
    atEnd p s = false := by
  have hc := (readBit_buffered h).1
  simp only [bitPulls] at hc
  simp [atEnd, hc]

/-- Taking a buffered bit keeps the reader's invariants (spec/10_state.md R24). -/
theorem ReaderOk.spend {p : PortNum} {s : State} {b : Bool} {rest : Bits} {data : List Byte}
    (h : ReaderOk (s.reader p) data) (hb : s.buffered p = b :: rest) : ReaderOk (s.reader p).spend data := by
  have hc : (s.reader p).cnt ≠ 0 := by simpa [bitPulls] using (readBit_buffered hb).1
  have hp : (s.reader p).pos ≠ 0 := fun e => hc (h.fresh e).2
  exact ⟨fun e => absurd (h.closed e) (fun e => hc (by rw [e]; rfl)), h.posLe, fun e => absurd e hp, h.pulled⟩

theorem setReader_buffered {p : PortNum} {s : State} (q : Pos) (x : Reader) :
    ((s.setReader p x).goto q).buffered p = (s.setReader p x).buffered p := by cases p <;> rfl

/-- Deserialize takes a buffered marker without a Pull: the node is one too many, or an internal node or a leaf is
begun (R189). -/
theorem desNodeAct_buffered {p : PortNum} {s : State} {b : Bool} {rest : Bits} (h : s.buffered p = b :: rest)
    (fs : List Frame) (c : Nat) : desNodeAct p fs c s = .work ((s.setReader p (s.reader p).spend).goto
      (if s.params.nodeCap < c + 1 then .raised .treeTooLarge
        else if b then .desNode (.wantLeft :: fs) (c + 1) else .desLeaf fs (c + 1))) := by
  obtain ⟨h1, h2, -⟩ := readBit_buffered h
  rw [desNodeAct, h1, h2]
  simp only [setReader_params, Act.of_false]
  split
  · rfl
  · cases b <;> rfl

/-- Deserializing the markers still buffered when no byte can be pulled (R189, R307). -/
theorem path_markers_raised {next : State → Act} {p : PortNum} {e : Error}
    (hnode : ∀ fs c t, t.pos = .desNode fs c → next t = desNodeAct p fs c t)
    (hleaf : ∀ fs c t, t.pos = .desLeaf fs c → next t = desLeafAct p fs c t) :
    ∀ (bits : Bits) (s : State) (fs : List Frame) (c : Nat), s.buffered p = bits → pull p s = .raise e s →
      c + markerCount bits ≤ s.params.nodeCap →
      ∃ x, Path next (s.goto (.desNode fs c)) 1 ((s.setReader p x).goto (.raised (inTree e)))
        ∧ x.opened = (s.reader p).opened ∧ (∀ data, ReaderOk (s.reader p) data → ReaderOk x data)
        ∧ (s.setReader p x).unread p = (s.unread p).drop (markerCount bits) := by
  intro bits
  induction bits with
  | nil =>
    intro s fs c hb ha hc
    refine ⟨s.reader p, .access ?_ (.refl _), rfl, fun _ h => h, by rw [setReader_self]; rfl⟩
    have hz := buffered_nil hb
    have ha' : pull p (s.goto (.desNode fs c)) = .raise e (s.goto (.desNode fs c)) := pull_raise_goto ha _
    rw [hnode fs c _ rfl, desNodeAct, readBit_raise (by simpa using hz) ha']
    rw [setReader_self]
    simp [bitPulls, hz]
  | cons b bits ih =>
    intro s fs c hb ha hc
    have hstep := hnode fs c (s.goto (.desNode fs c)) rfl
    have hm : 1 ≤ markerCount (b :: bits) := by cases b <;> simp [markerCount]
    have h3 := (readBit_buffered hb).2.2
    rw [desNodeAct_buffered (rest := bits) (b := b) (by cases p <;> exact hb), if_neg (by rw [goto_params]; omega)] at hstep
    have hs : ∀ q, ((s.goto (.desNode fs c)).setReader p ((s.goto (.desNode fs c)).reader p).spend).goto q
        = (s.setReader p (s.reader p).spend).goto q := fun q => by cases p <;> rfl
    rw [hs] at hstep
    have hu' : (s.unread p).drop (markerCount (b :: bits))
        = ((s.setReader p (s.reader p).spend).unread p).drop (markerCount (b :: bits) - 1) := by
      rw [unread_buffered s, hb, unread_buffered, h3]
      obtain ⟨m, hm'⟩ : ∃ m, markerCount (b :: bits) = m + 1 := ⟨_, (Nat.sub_add_cancel hm).symm⟩
      rw [hm']
      simp [Reader.spend]
    cases b with
    | true =>
      simp only [markerCount] at hc
      obtain ⟨x, hp, ho, hk, hu⟩ := ih (s.setReader p (s.reader p).spend) (.wantLeft :: fs) (c + 1) h3
        (pull_raise_setReader ha rfl) (by rw [setReader_params]; omega)
      rw [setReader_setReader] at hp hu
      exact ⟨x, .work hstep hp, by simpa [Reader.spend] using ho,
        fun d hd => hk d (by rw [setReader_reader]; exact hd.spend hb), by rw [hu, hu']; rfl⟩
    | false =>
      refine ⟨(s.reader p).spend, .work hstep (.access ?_ (.refl _)), rfl, fun d hd => hd.spend hb, by rw [hu']; rfl⟩
      rw [hleaf fs (c + 1) _ rfl, desLeafAct, readByte_raise (pull_raise_goto (pull_raise_setReader (x := (s.reader p).spend) ha rfl) _)]
      rfl

/-- Buffered markers of internal nodes only (R189). -/
theorem path_markers_ones {next : State → Act} {p : PortNum}
    (hnode : ∀ fs c t, t.pos = .desNode fs c → next t = desNodeAct p fs c t) :
    ∀ (k : Nat) (s : State) (fs : List Frame) (c : Nat) (rest : Bits), s.buffered p = List.replicate k true ++ rest →
      c + k ≤ s.params.nodeCap →
      ∃ x gs, Path next (s.goto (.desNode fs c)) 0 ((s.setReader p x).goto (.desNode gs (c + k)))
        ∧ x.opened = (s.reader p).opened ∧ (∀ data, ReaderOk (s.reader p) data → ReaderOk x data)
        ∧ x.pos = (s.reader p).pos ∧ (s.setReader p x).buffered p = rest := by
  intro k
  induction k with
  | zero => intro s fs c rest hb _; exact ⟨s.reader p, fs, by rw [setReader_self]; exact .refl _, rfl, fun _ h => h, rfl, by rw [setReader_self]; exact hb⟩
  | succ k ih =>
    intro s fs c rest hb hc
    rw [List.replicate_succ, List.cons_append] at hb
    have hstep := hnode fs c (s.goto (.desNode fs c)) rfl
    rw [desNodeAct_buffered (b := true) (by cases p <;> exact hb), if_neg (by rw [goto_params]; omega), if_pos rfl] at hstep
    obtain ⟨x, gs, hp, ho, hk, hx, hr⟩ := ih (s.setReader p (s.reader p).spend) (.wantLeft :: fs) (c + 1) rest
      (readBit_buffered hb).2.2 (by rw [setReader_params]; omega)
    rw [setReader_setReader] at hp hr
    rw [show c + 1 + k = c + (k + 1) by omega] at hp
    refine ⟨x, gs, .work ?_ hp, by simpa [Reader.spend] using ho,
      fun d hd => hk d (by rw [setReader_reader]; exact hd.spend hb), by simpa [Reader.spend] using hx, hr⟩
    rw [hstep]; cases p <;> rfl

/-- A buffered marker of a node too many (R189). -/
theorem path_markers_tooLarge {next : State → Act} {p : PortNum}
    (hnode : ∀ fs c t, t.pos = .desNode fs c → next t = desNodeAct p fs c t)
    (bits : Bits) (s : State) (fs : List Frame) (c : Nat) (hb : s.buffered p = bits) (hc : c ≤ s.params.nodeCap)
    (hm : s.params.nodeCap < c + markerCount bits) :
    ∃ x, Path next (s.goto (.desNode fs c)) 0 ((s.setReader p x).goto (.raised .treeTooLarge))
      ∧ x.opened = (s.reader p).opened ∧ (∀ data, ReaderOk (s.reader p) data → ReaderOk x data)
      ∧ (s.setReader p x).unread p = (s.unread p).drop (s.params.nodeCap - c + 1) := by
  obtain ⟨b, rest, hbits⟩ : ∃ b rest, bits = List.replicate (s.params.nodeCap - c) true ++ b :: rest := by
    clear hb
    revert hm
    obtain ⟨k, hk⟩ : ∃ k, s.params.nodeCap - c = k := ⟨_, rfl⟩
    rw [show s.params.nodeCap = c + k by omega, Nat.add_sub_cancel_left]
    clear hk hc
    induction bits generalizing k with
    | nil => simp [markerCount]
    | cons b bits ih =>
      intro h
      cases k with
      | zero => exact ⟨b, bits, rfl⟩
      | succ k =>
        cases b with
        | false => simp [markerCount] at h
        | true =>
          simp only [markerCount] at h
          obtain ⟨b, rest, rfl⟩ := ih k (by omega)
          exact ⟨b, rest, rfl⟩
  obtain ⟨x, gs, hp, ho, hk, hx, hr⟩ := path_markers_ones hnode _ s fs c _ (hb.trans hbits) (by omega)
  have hstep := hnode gs _ ((s.setReader p x).goto (.desNode gs (c + (s.params.nodeCap - c)))) rfl
  rw [desNodeAct_buffered (b := b) (by rw [setReader_buffered]; exact hr),
    if_pos (by rw [goto_params, setReader_params]; omega)] at hstep
  refine ⟨x.spend, hp.trans (.work ?_ (.refl _)), by rw [← ho]; rfl, fun d hd => ?_, ?_⟩
  · rw [hstep]; cases p <;> rfl
  · have := ReaderOk.spend (s := s.setReader p x) (data := d) (by rw [setReader_reader]; exact hk d hd) hr
    rwa [setReader_reader] at this
  · have hr' : ((s.setReader p x).setReader p ((s.setReader p x).reader p).spend).buffered p = rest := (readBit_buffered hr).2.2
    rw [setReader_setReader, setReader_reader] at hr'
    rw [unread_buffered, unread_buffered, hr', hb, hbits, List.drop_append_of_le_length (by simp)]
    simp [List.drop_append, Reader.spend, hx]

theorem moveCursor_leaf {s : State} {t : HTree} {b : Bool} {v : Byte} (ht : s.tree = some t)
    (hn : t.node (s.cursor ++ [b]) = some (.leaf v)) :
    moveCursor b s = (s.setCursor (s.cursor ++ [b])).goto (.write v) := by
  have : (s.setCursor (s.cursor ++ [b])).tree.bind (fun t => t.node (s.setCursor (s.cursor ++ [b])).cursor)
      = some (.leaf v) := by rw [show (s.setCursor (s.cursor ++ [b])).tree = some t from ht]; exact hn
  rw [moveCursor, this]

theorem moveCursor_inner {s : State} {b : Bool}
    (hn : ∀ v, s.tree.bind (HTree.node · (s.cursor ++ [b])) ≠ some (.leaf v)) :
    moveCursor b s = (s.setCursor (s.cursor ++ [b])).goto .walk := by
  rw [moveCursor]
  split
  · next v hv => exact absurd hv (hn v)
  · rfl

/-- DECODE walking along buffered bits none of which reaches a leaf (spec/42_codec.md R275). -/
theorem path_walk_buffered : ∀ (bits rest : Bits) (s : State), s.buffered .p1 = bits ++ rest →
    (∀ pre v, pre <+: bits → pre ≠ [] → s.tree.bind (HTree.node · (s.cursor ++ pre)) ≠ some (.leaf v)) →
    ∃ x, Path decodeAct (s.goto .walk) 0 (((s.setReader .p1 x).setCursor (s.cursor ++ bits)).goto .walk)
      ∧ x.pos = s.r1.pos ∧ (s.setReader .p1 x).buffered .p1 = rest := by
  intro bits
  induction bits with
  | nil =>
    intro rest s hb _
    exact ⟨s.r1, by rw [List.append_nil]; exact .refl _, rfl, hb⟩
  | cons b bits ih =>
    intro rest s hb hno
    obtain ⟨h1, h2, h3⟩ := readBit_buffered (s := s.goto .walk) (p := .p1) hb
    have hstep : decodeAct (s.goto .walk) = decodeWalk (s.goto .walk) := rfl
    rw [decodeWalk, atEnd_buffered (show (s.goto .walk).buffered .p1 = _ from hb), h1, h2] at hstep
    simp only [Bool.false_eq_true, if_false, Act.of_false] at hstep
    rw [moveCursor_inner (s := (s.goto .walk).setReader .p1 ((s.goto .walk).reader .p1).spend) (b := b)
      (fun v => hno [b] v (by simp) (by simp))] at hstep
    obtain ⟨x, hp, hx, hr⟩ := ih rest ((s.setReader .p1 s.r1.spend).setCursor (s.cursor ++ [b])) h3
      (fun pre v hpre hne => by
        have := hno (b :: pre) v ((List.prefix_cons_inj b).2 hpre) (by simp)
        simpa using this)
    rw [List.append_cons]
    exact ⟨x, .work hstep hp, hx, hr⟩

/-- The same when no byte can be pulled after them (R307). -/
theorem path_walk_refused (bits : Bits) (s : State) (hb : s.buffered .p1 = bits) (ha : s.src1.avail = false)
    (hl : s.r1.pos < s.src1.data.length)
    (hno : ∀ pre v, pre <+: bits → pre ≠ [] → s.tree.bind (HTree.node · (s.cursor ++ pre)) ≠ some (.leaf v)) :
    ∃ x, Path decodeAct (s.goto .walk) 1
      (((s.setReader .p1 x).setCursor (s.cursor ++ bits)).goto (.raised .sourceUnavailable)) := by
  obtain ⟨x, hp, hx, hr⟩ := path_walk_buffered bits [] s (by rw [List.append_nil]; exact hb) hno
  let u := ((s.setReader .p1 x).setCursor (s.cursor ++ bits)).goto .walk
  have hz : (u.reader .p1).cnt = 0 := buffered_nil hr
  have hl' : (u.reader .p1).pos < (u.source .p1).data.length := by show x.pos < _; rw [hx]; exact hl
  refine ⟨x, hp.trans (.access (u := u.goto (.raised .sourceUnavailable)) ?_ (.refl _))⟩
  have : decodeAct u = decodeWalk u := rfl
  rw [this, decodeWalk, atEnd_more hl', readBit_refused hz hl' (by exact ha), bitPulls, hz]
  rfl

/-- DECODE walking along buffered bits to a leaf whose value cannot be pushed (R275, R307). -/
theorem path_leaf_refused (pre rest : Bits) (s : State) {t : HTree} {v : Byte} (hne : pre ≠ [])
    (hb : s.buffered .p1 = pre ++ rest) (ht : s.tree = some t) (hn : t.node (s.cursor ++ pre) = some (.leaf v))
    (ha : s.snk0.avail = false) :
    ∃ x, Path decodeAct (s.goto .walk) 1
      (((s.setReader .p1 x).setCursor (s.cursor ++ pre)).goto (.raised .sinkUnavailable)) := by
  obtain ⟨bits, b, rfl⟩ : ∃ bits b, pre = bits ++ [b] := ⟨_, _, (List.dropLast_append_getLast hne).symm⟩
  obtain ⟨x, hp, -, hr⟩ := path_walk_buffered bits (b :: rest) s (by simpa using hb) (fun q w hq _ h => by
    obtain ⟨r, rfl⟩ := hq
    rw [ht] at h
    have := HTree.node_leaf_append (q := r ++ [b]) h (by simpa using hn)
    simp at this)
  let u := ((s.setReader .p1 x).setCursor (s.cursor ++ bits)).goto .walk
  obtain ⟨h1, h2, -⟩ := readBit_buffered (s := u) (p := .p1) hr
  have hstep : decodeAct u = decodeWalk u := rfl
  rw [decodeWalk, atEnd_buffered (show u.buffered .p1 = b :: rest from hr), h1, h2] at hstep
  simp only [Bool.false_eq_true, if_false, Act.of_false] at hstep
  rw [← List.append_assoc] at hn
  rw [moveCursor_leaf (t := t) (v := v) (by exact ht) (by exact hn)] at hstep
  let w := ((s.setReader .p1 x.spend).setCursor (s.cursor ++ (bits ++ [b]))).goto (.write v)
  have hstep' : decodeAct u = .work w := by rw [hstep]; show Act.work _ = Act.work (State.goto (State.setCursor _ (_ ++ (_ ++ _))) _); rw [← List.append_assoc]; rfl
  refine ⟨x.spend, hp.trans (.work hstep' (.access (u := w.goto (.raised .sinkUnavailable)) ?_ (.refl _)))⟩
  have : decodeAct w = decodeWrite v w := rfl
  rw [this, decodeWrite, writeByte_refused _ _ _ (by exact ha)]

/-- DECODE skipping the ones still buffered (R274). -/
theorem path_skip_buffered : ∀ (ones : Nat) (rest : Bits) (s : State), s.buffered .p1 = List.replicate ones true ++ rest →
    ∃ x, Path decodeAct (s.goto .skip) 0 ((s.setReader .p1 x).goto .skip) ∧ x.pos = s.r1.pos
      ∧ (s.setReader .p1 x).buffered .p1 = rest := by
  intro ones
  induction ones with
  | zero => intro rest s hb; exact ⟨s.r1, .refl _, rfl, hb⟩
  | succ k ih =>
    intro rest s hb
    rw [List.replicate_succ, List.cons_append] at hb
    obtain ⟨h1, h2, h3⟩ := readBit_buffered (s := s.goto .skip) (p := .p1) hb
    have hstep : decodeAct (s.goto .skip) = decodeSkip (s.goto .skip) := rfl
    rw [decodeSkip, atEnd_buffered (show (s.goto .skip).buffered .p1 = _ from hb), h1, h2] at hstep
    obtain ⟨x, hp, hx, hr⟩ := ih rest (s.setReader .p1 s.r1.spend) h3
    exact ⟨x, .work hstep hp, hx, hr⟩

/-- And past the 0 bit that ends the padding, to the walk (R274, R275; log 22). -/
theorem path_skip_ended (ones : Nat) (rest : Bits) (s : State)
    (hb : s.buffered .p1 = List.replicate ones true ++ false :: rest) :
    ∃ x, Path decodeAct (s.goto .skip) 0 ((((s.setReader .p1 x).setCursor []).inPhase .dDecode).goto .walk)
      ∧ x.pos = s.r1.pos ∧ (s.setReader .p1 x).buffered .p1 = rest := by
  obtain ⟨x, hp, hx, hr⟩ := path_skip_buffered ones _ s hb
  obtain ⟨h1, h2, h3⟩ := readBit_buffered (s := (s.setReader .p1 x).goto .skip) (p := .p1) hr
  have hstep : decodeAct ((s.setReader .p1 x).goto .skip) = decodeSkip ((s.setReader .p1 x).goto .skip) := rfl
  rw [decodeSkip, atEnd_buffered (show ((s.setReader .p1 x).goto .skip).buffered .p1 = _ from hr), h1, h2] at hstep
  exact ⟨x.spend, hp.trans (.work hstep (.refl _)), hx, h3⟩

/-- Bits that complete no byte are accepted without a Push: what they make of the writer depends on it alone, and an
engine that writes them one by one goes past them in the same micro-step (R128, R72). -/
theorem bits_accepted {p : PortNum} : ∀ (bits : Bits) (w : Writer), w.n.val + bits.length < 8 →
    ∃ x, (∀ s : State, s.writer p = w → writeBits p bits s = .ok () (s.setWriter p x))
      ∧ ∀ (next : State → Act) (here : Bits → Pos),
        (∀ b rest t, t.pos = here (b :: rest) → next t = Act.of (bitPushes p t) ((writeBit p b t).goto (here rest))) →
        ∀ s : State, s.writer p = w → Path next (s.goto (here bits)) 0 ((s.setWriter p x).goto (here [])) := by
  intro bits
  induction bits with
  | nil =>
    intro w _
    exact ⟨w, fun s h => by rw [← h, setWriter_self]; rfl, fun next here _ s h => by rw [← h, setWriter_self]; exact .refl _⟩
  | cons b rest ih =>
    intro w hn
    simp only [List.length_cons] at hn
    have hroom : ∀ s : State, s.writer p = w → bitPushes p s = false
        ∧ writeBit p b s = .ok () (s.setWriter p { w with acc := w.place b, n := w.n + 1 })
        ∧ (w.n + 1).val = w.n.val + 1 := fun s h => by
      subst h; exact writeBit_room b (by omega)
    have hval := (hroom (State.reset.setWriter p w) (by rw [setWriter_writer])).2.2
    obtain ⟨x, hw, hp⟩ := ih { w with acc := w.place b, n := w.n + 1 } (by
      show (w.n + 1).val + rest.length < 8
      omega)
    refine ⟨x, fun s h => ?_, fun next here hnext s h => ?_⟩
    · rw [writeBits, (hroom s h).2.1]
      simp only
      rw [hw _ (by rw [setWriter_writer]), setWriter_setWriter]
    · have h' : (s.goto (here (b :: rest))).writer p = w := by rw [goto_writer]; exact h
      have hstep := hnext b rest (s.goto (here (b :: rest))) rfl
      rw [(hroom _ h').1, (hroom _ h').2.1] at hstep
      have := hp next here hnext (s.setWriter p { w with acc := w.place b, n := w.n + 1 }) (by rw [setWriter_writer])
      rw [setWriter_setWriter] at this
      refine .work ?_ this
      rw [hstep]; cases p <;> rfl

/-! ## Flushing one writer -/

theorem flushed_closed {p : PortNum} {s : State} (h : (s.writer p).opened = false) : flushed p s = s := by
  simp [flushed, closePushes, h]
  cases p <;> rfl

theorem flushed_goto (p : PortNum) (s : State) (q : Pos) : flushed p (s.goto q) = (flushed p s).goto q := by
  cases p <;> rfl

/-- Closing a writer in Release is one flush, whether or not its Push raises (R313). -/
theorem releaseWriter_eq (p : PortNum) (q : Pos) (s : State) :
    releaseWriter p q s = Act.of (closePushes p s) ((flushed p s).goto q) := by
  unfold releaseWriter
  congr 1
  rcases ho : (s.writer p).opened with _ | _
  · rw [closeW_closed _ _ ho, flushed_closed ho]
  · rw [flushed, closeW, closePushes, if_pos ho]
    rcases ha : (s.sink p).avail with _ | _ <;> rcases Classical.em ((s.writer p).n = 0) with hn | hn <;> cases p <;>
      simp_all [push, State.setSink, State.setWriter, State.sink, State.writer, State.goto]
    all_goals rw [← ha]

/-- Bits that complete no byte do not reach a sink that is unavailable, so a flush discards them. -/
theorem flushed_wrote {p : PortNum} {s : State} (ho : (s.writer p).opened = true) (hw : WriterOk (s.writer p))
    (ha : (s.sink p).avail = false) (pre : Bits)
    (hf : ((s.written p).length + pre.length) / 8 = (s.written p).length / 8) :
    flushed p (s.wrote p (s.written p ++ pre)) = flushed p s := by
  rw [wrote_eq_setWriter (eq_wrote s p hw ho) pre hf]
  cases p <;> simp_all [flushed, State.setSink, State.setWriter, State.sink, State.writer, writerAt]

/-! ## Release and the fields it does not read -/

theorem errorEnd_inPhase (e : Error) (s : State) (q : Phase) : errorEnd e (s.inPhase q) = errorEnd e s := rfl
theorem releasedEncode_setReader (s : State) (x : Reader) : releasedEncode (s.setReader .p0 x) = releasedEncode s := rfl
theorem releasedEncode_inPhase (s : State) (q : Phase) : releasedEncode (s.inPhase q) = (releasedEncode s).inPhase q := rfl
theorem releasedDecode_setReader (s : State) (p : PortNum) (x : Reader) :
    releasedDecode (s.setReader p x) = releasedDecode s := by cases p <;> rfl
theorem releasedDecode_inPhase (s : State) (q : Phase) : releasedDecode (s.inPhase q) = (releasedDecode s).inPhase q := rfl
theorem releasedDecode_setCursor (s : State) (c : Bits) : releasedDecode (s.setCursor c) = (releasedDecode s).setCursor c := rfl

/-! ## ENCODE's error path -/

theorem closePushes_flushed (s : State) : closePushes .p1 (flushed .p0 s) = closePushes .p1 s := by
  rfl

/-- ENCODE from a raised error to its end (R306, R312). -/
theorem encode_release (u : State) (e : Error) :
    Trace encodeAct (u.goto (.raised e)) ((closePushes .p0 u).toNat + (closePushes .p1 u).toNat)
      (errorEnd e (releasedEncode u)) := by
  have h1 : encodeAct (u.goto (.raised e)) = .work ((u.setReader .p0 Reader.closed).goto (.relW0 e)) := by
    simp [encodeAct]; rfl
  have h2 : encodeAct ((u.setReader .p0 Reader.closed).goto (.relW0 e))
      = Act.of (closePushes .p0 u) ((flushed .p0 (u.setReader .p0 Reader.closed)).goto (.relW1 e)) := by
    have : encodeAct ((u.setReader .p0 Reader.closed).goto (.relW0 e))
        = releaseWriter .p0 (.relW1 e) ((u.setReader .p0 Reader.closed).goto (.relW0 e)) := by simp [encodeAct]
    rw [this, releaseWriter_eq, flushed_goto]
    rfl
  have h3 : encodeAct ((flushed .p0 (u.setReader .p0 Reader.closed)).goto (.relW1 e))
      = Act.of (closePushes .p1 u) ((releasedEncode u).goto (.errEnd e)) := by
    have : encodeAct ((flushed .p0 (u.setReader .p0 Reader.closed)).goto (.relW1 e))
        = releaseWriter .p1 (.errEnd e) ((flushed .p0 (u.setReader .p0 Reader.closed)).goto (.relW1 e)) := by simp [encodeAct]
    rw [this, releaseWriter_eq, flushed_goto]
    have : closePushes .p1 ((flushed .p0 (u.setReader .p0 Reader.closed)).goto (.relW1 e)) = closePushes .p1 u :=
      closePushes_flushed _
    rw [this]
    rfl
  have h4 : encodeAct ((releasedEncode u).goto (.errEnd e)) = .ended (errorEnd e (releasedEncode u)) := by
    simp [encodeAct, errorEnd_goto]
  exact (((Path.work h1 (Path.one _ h2)).trans (Path.one _ h3)).trace (.ended h4)).congr (by omega)

/-- Bits of an ENCODE stream that completed no byte are gone after Release when the sink is unavailable. -/
theorem releasedEncode_wrote {p : PortNum} {s : State} (ho : (s.writer p).opened = true) (hw : WriterOk (s.writer p))
    (ha : (s.sink p).avail = false) (pre : Bits)
    (hf : ((s.written p).length + pre.length) / 8 = (s.written p).length / 8) :
    releasedEncode (s.wrote p (s.written p ++ pre)) = releasedEncode s := by
  cases p
  · exact congrArg (flushed .p1) (flushed_wrote (p := .p0) (s := s.setReader .p0 Reader.closed) ho hw ha pre hf)
  · exact flushed_wrote (p := .p1) (s := flushed .p0 (s.setReader .p0 Reader.closed)) ho hw ha pre hf

/-- An error that ENCODE's engine raises in u ends the command in what Release makes of u. -/
theorem encode_raised {s u t : State} {e : Error} {k : Nat} (hr : s.running = some (.legal .encode))
    (p : Path encodeAct s k (u.goto (.raised e))) (ht : errorEnd e (releasedEncode u) = errorEnd e (releasedEncode t)) :
    EndsWithError .encode e s (releasedEncode t) :=
  ⟨_, encode_ends hr (ht ▸ p.trace (encode_release u e)) rfl⟩

/-- ENCODE with its padding written, at the second OpenR(0) and the first byte of the second pass (R258): a source
that is not available raises there, and so does a first byte that has no code. -/
theorem encode_reopen {s u : State} {k : Nat} (hr : s.running = some (.legal .encode))
    (hpath : Path encodeAct s k (u.goto (.pad []))) :
    (u.src0.avail = false → EndsWithError .encode .sourceUnavailable s (releasedEncode u))
        ∧ ∀ v rest, u.src0.avail = true → u.src0.data = v :: rest → u.dict.code v = none →
          EndsWithError .encode .noCode s (releasedEncode u) := by
  have h : encodeAct (u.goto (.pad [])) = encodePad [] (u.goto (.pad [])) := by simp [encodeAct]
  refine ⟨fun ha => ?_, fun v rest ha hd hc => ?_⟩
  · refine encode_raised (u := u.inPhase .eEmit) hr (hpath.trans (.opens ?_ (.refl _))) rfl
    rw [h, encodePad, openR_refused (by exact ha)]; rfl
  · let w := ((u.inPhase .eEmit).setReader .p0 { Reader.closed with opened := true }).goto (.emit [])
    have h1 : encodeAct (u.goto (.pad [])) = .opens w := by
      rw [h, encodePad, openR, if_pos (by exact ha)]; rfl
    have h2 : encodeAct w = encodeNext w := by simp [w, encodeAct, emitAct]
    have hl : (w.reader .p0).pos < (w.source .p0).data.length := by
      show 0 < u.src0.data.length
      rw [hd]; simp
    have hrb : readByte .p0 w = .ok v (w.setReader .p0 { opened := true, pos := 1, buf := v, cnt := 0 }) := by
      have : (w.source .p0).data[(w.reader .p0).pos]? = some v := by
        show u.src0.data[0]? = some v
        rw [hd]; rfl
      rw [readByte, pull, this]
      simp only
      rw [if_pos (by exact ha)]
      simp [w, State.setReader, State.reader, joinByte, Reader.closed]
    refine encode_raised (u := (u.inPhase .eEmit).setReader .p0 { opened := true, pos := 1, buf := v, cnt := 0 }) hr
      (hpath.trans (.opens h1 (.access ?_ (.refl _)))) (by rw [releasedEncode_setReader, releasedEncode_inPhase]; rfl)
    rw [h2, encodeNext, atEnd_more hl, hrb]
    show (Act.access (match u.dict.code v with | none => _ | some code => _)) = _
    rw [hc]; rfl

/-! ## DECODE's error path -/

/-- DECODE from a raised error to its end (R306, R312). -/
theorem decode_release (u : State) (e : Error) :
    Trace decodeAct (u.goto (.raised e)) (closePushes .p0 u).toNat (errorEnd e (releasedDecode u)) := by
  have h1 : decodeAct (u.goto (.raised e))
      = .work (((u.setReader .p0 Reader.closed).setReader .p1 Reader.closed).goto (.relW0 e)) := by
    simp [decodeAct]; rfl
  have h2 : decodeAct (((u.setReader .p0 Reader.closed).setReader .p1 Reader.closed).goto (.relW0 e))
      = Act.of (closePushes .p0 u) ((releasedDecode u).goto (.errEnd e)) := by
    have : decodeAct (((u.setReader .p0 Reader.closed).setReader .p1 Reader.closed).goto (.relW0 e))
        = releaseWriter .p0 (.errEnd e) (((u.setReader .p0 Reader.closed).setReader .p1 Reader.closed).goto (.relW0 e)) := by
      simp [decodeAct]
    rw [this, releaseWriter_eq, flushed_goto]
    rfl
  have h3 : decodeAct ((releasedDecode u).goto (.errEnd e)) = .ended (errorEnd e (releasedDecode u)) := by
    simp [decodeAct, errorEnd_goto]
  exact ((Path.work h1 (Path.one _ h2)).trace (.ended h3)).congr (by omega)

/-- An error that DECODE's engine raises in u ends the command in what Release makes of u. -/
theorem decode_raised {s u t : State} {e : Error} {k : Nat} (hr : s.running = some (.legal .decode))
    (p : Path decodeAct s k (u.goto (.raised e))) (ht : errorEnd e (releasedDecode u) = errorEnd e (releasedDecode t)) :
    EndsWithError .decode e s (releasedDecode t) :=
  ⟨_, decode_ends hr (ht ▸ p.trace (decode_release u e)) rfl⟩

/-- DECODE's error path when its writer holds no bit: what Release leaves, field by field. -/
theorem releasedDecode_wrote (u : State) (e : Error) (bs : List Byte) :
    errorEnd e (releasedDecode (u.wrote .p0 (bytesBits bs)))
      = { errorEnd e u with
          r0 := Reader.closed, r1 := Reader.closed, w0 := Writer.closed, snk0 := { u.snk0 with data := bs } } := by
  have : fullBytes (bytesBits bs) = bs := by
    apply bytesBits_inj
    rw [bytesBits_fullBytes, List.take_of_length_le (by simp)]
  have hn : closePushes .p0 (((u.wrote .p0 (bytesBits bs)).setReader .p0 Reader.closed).setReader .p1 Reader.closed) = false :=
    (closePushes_wrote u .p0 (bytesBits bs)).trans (by simp)
  rw [releasedDecode, flushed, hn]
  simp [errorEnd, State.setSink, State.setWriter, State.setReader, State.sink, State.writer, State.wrote, writerAt, this]

/-! ## A tree stream DECODE cannot read -/

/-- DECODE of a stream that ends at a node's marker, inside a leaf's value, or begins a node too many (R270, R189). -/
theorem decode_badTree (s : State) (hr : s.running = some (.legal .decode)) (hp : s.pos = .start) (h0 : s.w0.opened = false)
    (ha : s.src0.avail = true) (hs : s.snk0.avail = true) {e : Error} {k m : Nat}
    (p : Path decodeAct ((s.decodeOpen.goto (.desNode [] 0)).readAt .p0 0) k ((s.decodeOpen.goto (.raised e)).readAt .p0 m)) :
    EndsWithError .decode e s { s with
      r0 := Reader.closed, r1 := Reader.closed, w0 := Writer.closed
      tree := none, nodes := 0, dictValid := false, snk0 := { data := [], avail := true } } := by
  have h := (Path.opens (decode_start s hp h0 ha hs) p).trace
    (decode_release ((invalidate (s.inPhase .dTree)).readAt .p0 m |>.wrote .p0 (bytesBits [])) e)
  rw [releasedDecode_wrote] at h
  rw [show ({ data := [], avail := true } : Sink) = { s.snk0 with data := [] } by rw [← hs]]
  exact ⟨_, decode_ends hr h rfl⟩

end Sys2Proof.Machine
end

