-- ==== Sys2Proof/Laws/Opened.lean ====
section
/-! SUPPORT. Which readers and writers a helper leaves open (spec/40_bitio.md R121 to R129). -/

namespace Sys2Proof.Machine

/-- t has the same readers and writers open as s, the same PADBITS and the same position. -/
structure SameOpen (s t : State) : Prop where
  reader : ∀ p, (t.reader p).opened = (s.reader p).opened
  writer : ∀ p, (t.writer p).opened = (s.writer p).opened
  pads : t.padBits = s.padBits
  pos : t.pos = s.pos

theorem sameOpen_pull (p : PortNum) (s : State) : SameOpen s (pull p s).state := by
  unfold pull
  split
  · exact ⟨fun _ => rfl, fun _ => rfl, rfl, rfl⟩
  · split
    · refine ⟨fun q => ?_, fun q => ?_, by cases p <;> rfl, by cases p <;> rfl⟩ <;> cases p <;> cases q <;> rfl
    · exact ⟨fun _ => rfl, fun _ => rfl, rfl, rfl⟩

theorem sameOpen_push (p : PortNum) (v : Byte) (s : State) : SameOpen s (push p v s).state := by
  unfold push
  split
  · refine ⟨fun q => ?_, fun q => ?_, by cases p <;> rfl, by cases p <;> rfl⟩ <;> cases p <;> cases q <;> rfl
  · exact ⟨fun _ => rfl, fun _ => rfl, rfl, rfl⟩

theorem SameOpen.trans {s t u : State} (a : SameOpen s t) (b : SameOpen t u) : SameOpen s u :=
  ⟨fun p => (b.reader p).trans (a.reader p), fun p => (b.writer p).trans (a.writer p), b.pads.trans a.pads, b.pos.trans a.pos⟩

theorem sameOpen_setReader (s : State) (p : PortNum) (x : Reader) (h : x.opened = (s.reader p).opened) : SameOpen s (s.setReader p x) := by
  refine ⟨fun q => ?_, fun q => ?_, by cases p <;> rfl, by cases p <;> rfl⟩ <;> cases p <;> cases q <;> first | rfl | exact h

theorem sameOpen_setWriter (s : State) (p : PortNum) (x : Writer) (h : x.opened = (s.writer p).opened) : SameOpen s (s.setWriter p x) := by
  refine ⟨fun q => ?_, fun q => ?_, by cases p <;> rfl, by cases p <;> rfl⟩ <;> cases p <;> cases q <;> first | rfl | exact h

theorem sameOpen_readBit (p : PortNum) (s : State) : SameOpen s (readBit p s).state := by
  unfold readBit
  split
  · have := sameOpen_pull p s
    split <;> (rename_i h; rw [h] at this)
    · exact this
    · exact SameOpen.trans this (sameOpen_setReader _ _ _ rfl)
  · exact sameOpen_setReader _ _ _ rfl

theorem sameOpen_readByte (p : PortNum) (s : State) : SameOpen s (readByte p s).state := by
  unfold readByte
  have := sameOpen_pull p s
  split <;> (rename_i h; rw [h] at this)
  · exact this
  · exact SameOpen.trans this (sameOpen_setReader _ _ _ rfl)

theorem sameOpen_writeBit (p : PortNum) (b : Bool) (s : State) : SameOpen s (writeBit p b s).state := by
  unfold writeBit
  simp only
  split
  · have := sameOpen_push p ((s.writer p).place b) s
    split <;> (rename_i h; rw [h] at this)
    · exact this
    · exact SameOpen.trans this (sameOpen_setWriter _ _ _ (this.writer p).symm)
  · exact sameOpen_setWriter _ _ _ rfl

theorem sameOpen_writeByte (p : PortNum) (v : Byte) (s : State) : SameOpen s (writeByte p v s).state := by
  unfold writeByte
  simp only
  have := sameOpen_push p ((s.writer p).acc ||| v >>> (s.writer p).n.val) s
  split <;> (rename_i h; rw [h] at this)
  · exact this
  · exact SameOpen.trans this (sameOpen_setWriter _ _ _ (this.writer p).symm)

theorem open_closeW (p : PortNum) (s : State) : ∀ q, (((closeW p s).state).writer q).opened = (if q = p then false else (s.writer q).opened) := by
  intro q
  unfold closeW
  split
  · simp only
    split
    · cases p <;> cases q <;> rfl
    · have := (sameOpen_push p (s.writer p).acc (s.setWriter p Writer.closed)).writer q
      rw [this]; cases p <;> cases q <;> rfl
  · next h => cases p <;> cases q <;> simp_all [Res.state]

theorem rest_closeW (p : PortNum) (s : State) : (∀ q, (((closeW p s).state).reader q).opened = (s.reader q).opened) ∧ (closeW p s).state.padBits = s.padBits := by
  unfold closeW
  split
  · simp only
    split
    · cases p <;> exact ⟨fun q => by cases q <;> rfl, rfl⟩
    · have := (sameOpen_push p (s.writer p).acc (s.setWriter p Writer.closed))
      refine ⟨fun q => ?_, ?_⟩
      · rw [this.reader]; cases p <;> cases q <;> rfl
      · rw [this.pads]; cases p <;> rfl
  · exact ⟨fun _ => rfl, rfl⟩

theorem openW_ok {p : PortNum} {s t : State} (h : openW p s = .ok () t) : (∀ q, (t.writer q).opened = (if q = p then true else (s.writer q).opened)) ∧ (∀ q, (t.reader q).opened = (s.reader q).opened) ∧ t.padBits = s.padBits := by
  unfold openW at h
  split at h
  · cases h
  · split at h
    · cases h; cases p <;> exact ⟨fun q => by cases q <;> rfl, fun q => by cases q <;> rfl, rfl⟩
    · cases h

theorem openR_ok {p : PortNum} {s t : State} (h : openR p s = .ok () t) : (∀ q, (t.reader q).opened = (if q = p then true else (s.reader q).opened)) ∧ (∀ q, (t.writer q).opened = (s.writer q).opened) ∧ t.padBits = s.padBits := by
  unfold openR at h
  split at h
  · cases h; cases p <;> exact ⟨fun q => by cases q <;> rfl, fun q => by cases q <;> rfl, rfl⟩
  · cases h

end Sys2Proof.Machine
end

