-- ==== Sys2Proof/Laws/PerInstr.lean ====
section
/-! SUPPORT. A statement per command: its word is admitted by the row of the opcode map that carries its
mnemonic (spec/30_encoding.md R94, R95). -/

namespace Sys2Proof.Laws.Encoding

/-- A well-formed command's word matches the row of its mnemonic. -/
def Statement (i : Instr) : Prop :=
  i.wellFormed = true → ∃ row ∈ opcodeMap, row.mnemonic = i.mnemonic ∧ row.admits (encode i) = true

/-- Masking a word with the mask of format FPV keeps OP and RSV alone. -/
theorem mask_fpv (op : BitVec 5) (p : PortNum) (imm : Byte) :
    wordOf (fieldsFPV op p imm) &&& Format.FPV.mask = wordOf (fieldsF0 op) := by
  have hm : ∀ i < 16, (Format.mask .FPV).getLsbD i = decide (9 ≤ i) := by decide
  apply BitVec.eq_of_getLsbD_eq
  intro i hi
  rw [BitVec.getLsbD_and, hm i hi]
  simp only [wordOf, fieldsFPV, fieldsF0, BitVec.getLsbD_append]
  by_cases h9 : 9 ≤ i
  · have h1 : ¬ i < 8 := by omega
    have h2 : ¬ i - 8 < 1 := by omega
    simp [h1, h2, h9]
  · by_cases h1 : i < 8
    · simp [h1, h9]
    · have h2 : i - 8 < 1 := by omega
      simp [h1, h2, h9]

theorem rdOpen (r : PortNum) : Statement (.rdOpen r) := by unfold Statement; cases r <;> decide
theorem rdClose (r : PortNum) : Statement (.rdClose r) := by unfold Statement; cases r <;> decide
theorem rdBit (r : PortNum) : Statement (.rdBit r) := by unfold Statement; cases r <;> decide
theorem rdByte (r : PortNum) : Statement (.rdByte r) := by unfold Statement; cases r <;> decide
theorem rdAtEnd (r : PortNum) : Statement (.rdAtEnd r) := by unfold Statement; cases r <;> decide
theorem wrOpen (w : PortNum) : Statement (.wrOpen w) := by unfold Statement; cases w <;> decide
theorem wrClose (w : PortNum) : Statement (.wrClose w) := by unfold Statement; cases w <;> decide

/-- An operand of WR_BIT that is well-formed is 0 or 1 (R92). -/
theorem bit_cases {imm : Byte} (h : immIsBit imm = true) : imm = 0 ∨ imm = 1 := by
  have h1 : imm.extractLsb' 1 7 = 0 := by simpa [immIsBit] using h
  have h2 : imm.toNat / 2 = 0 := by
    have := congrArg BitVec.toNat h1
    simp only [BitVec.extractLsb'_toNat, Nat.shiftRight_eq_div_pow] at this
    have h3 := imm.isLt
    simp at this
    omega
  have h4 : imm.toNat = 0 ∨ imm.toNat = 1 := by omega
  rcases h4 with h4 | h4
  · exact .inl (BitVec.eq_of_toNat_eq h4)
  · exact .inr (BitVec.eq_of_toNat_eq h4)

theorem wrBit (w : PortNum) (imm : Byte) : Statement (.wrBit w imm) := by
  intro h
  rcases bit_cases h with rfl | rfl <;> cases w <;> exact ⟨⟨"WR_BIT", .FPB, 0x5000⟩, by decide, rfl, by decide⟩

theorem wrByte (w : PortNum) (v : Byte) : Statement (.wrByte w v) := by
  intro _
  refine ⟨⟨"WR_BYTE", .FPV, 0x5800⟩, by decide, rfl, ?_⟩
  rw [Row.admits, encode, fieldsOfInstr, mask_fpv]
  decide

theorem freqCount (r : PortNum) : Statement (.freqCount r) := by unfold Statement; cases r <;> decide
theorem treeBuild : Statement .treeBuild := by unfold Statement; decide
theorem treeSer (w : PortNum) : Statement (.treeSer w) := by unfold Statement; cases w <;> decide
theorem treeDeser (r : PortNum) : Statement (.treeDeser r) := by unfold Statement; cases r <;> decide
theorem dictBuild : Statement .dictBuild := by unfold Statement; decide

theorem codeEmit (w : PortNum) (v : Byte) : Statement (.codeEmit w v) := by
  intro _
  refine ⟨⟨"CODE_EMIT", .FPV, 0xA800⟩, by decide, rfl, ?_⟩
  rw [Row.admits, encode, fieldsOfInstr, mask_fpv]
  decide

theorem encode : Statement .encode := by unfold Statement; decide
theorem decode : Statement .decode := by unfold Statement; decide

end Sys2Proof.Laws.Encoding
end

