-- ==== Sys2Proof/Laws/Perform.lean ====
section
/-! SUPPORT. Acceptance and normal end beside a reader's or a writer's place, and the commands of
spec/40_bitio.md R139 one after another. -/

namespace Sys2Proof.Machine

theorem accept_wrote (c : Word) (s : State) (w : PortNum) (b : Bits) : accept c (s.wrote w b) = (accept c s).wrote w b := by cases w <;> rfl

theorem end_wrote (s : State) (w : PortNum) (b : Bits) : normalEnd (s.wrote w b) = (normalEnd s).wrote w b := by cases w <;> rfl

theorem accept_readAt (c : Word) (s : State) (w : PortNum) (b : Nat) : accept c (s.readAt w b) = (accept c s).readAt w b := by cases w <;> rfl

theorem end_readAt (s : State) (w : PortNum) (b : Nat) : normalEnd (s.readAt w b) = (normalEnd s).readAt w b := by cases w <;> rfl

theorem accept_source (c : Word) (s : State) (r : PortNum) : (accept c s).source r = s.source r := by cases r <;> rfl

/-- A write command appends its item's bits. -/
theorem perform_write (w : PortNum) (x : Item) (v : State) (b : Bits) (ha : (v.sink w).avail = true) :
    ∃ c, perform (x.write w) (v.wrote w b) = .next ((normalEnd (accept c v)).wrote w (b ++ x.bits)) := by
  cases x with
  | bit y =>
    refine ⟨encodeCmd (.wrBit w (bitByte y)), ?_⟩
    simp only [Item.write]
    show Host.Outcome.next _ = _
    have : (((accept (encodeCmd (.wrBit w (bitByte y))) v)).sink w).avail = true := by cases w <;> exact ha
    rw [accept_wrote, onOpenWriter, if_pos (by rw [wrote_writer]; rfl), immBit_bitByte, writeBit_wrote _ _ _ _ (fun _ => this)]
    simp only [endAs, id, end_wrote]; rfl
  | byte y =>
    refine ⟨encodeCmd (.wrByte w y), ?_⟩
    simp only [Item.write]
    show Host.Outcome.next _ = _
    have : (((accept (encodeCmd (.wrByte w y)) v)).sink w).avail = true := by cases w <;> exact ha
    rw [accept_wrote, onOpenWriter, if_pos (by rw [wrote_writer]; rfl), writeByte_wrote _ _ _ _ this]
    simp only [endAs, id, end_wrote]; rfl

end Sys2Proof.Machine
end

