-- ==== Sys2Proof/Laws/Queue.lean ====
section
/-! SUPPORT. The construction queue's order and weights (spec/41_tree.md R182 to R184, R195). -/

namespace Sys2Proof.Machine

theorem before_iff_keyLt (a b : QNode) : a.before b = true ↔ keyLt a b := by
  simp [QNode.before, keyLt]

theorem keyLt_trans {a b c : QNode} (h : keyLt a b) (k : keyLt b c) : keyLt a c := by
  unfold keyLt at *; omega

/-- Inserting a node of a new rank keeps the order. -/
theorem enqueue_sorted (x : QNode) (q : List QNode) (hq : q.Pairwise keyLt) (hx : ∀ y ∈ q, x.rank ≠ y.rank) : (enqueue x q).Pairwise keyLt := by
  induction q with
  | nil => simp [enqueue]
  | cons y q ih =>
    rw [List.pairwise_cons] at hq
    unfold enqueue
    split
    · next hb =>
      have hb := (before_iff_keyLt _ _).1 hb
      refine List.pairwise_cons.2 ⟨fun z hz => ?_, List.pairwise_cons.2 hq⟩
      rcases List.mem_cons.1 hz with rfl | hz
      · exact hb
      · exact keyLt_trans hb (hq.1 z hz)
    · next hb =>
      have hb : ¬ keyLt x y := fun h => hb ((before_iff_keyLt _ _).2 h)
      refine List.pairwise_cons.2 ⟨fun z hz => ?_, ih hq.2 (fun y hy => hx y (List.mem_cons_of_mem _ hy))⟩
      rcases List.mem_cons.1 ((enqueue_perm x q).mem_iff.1 hz) with rfl | hz
      · have := hx y (List.mem_cons_self ..)
        unfold keyLt at *; omega
      · exact hq.1 z hz

/-- The weights in a queue together. -/
def queueWeight (q : List QNode) : Nat := (q.map QNode.weight).sum

/-- Combining keeps the weights together. -/
theorem combineAll_weight (f : FreqTable) (fuel : Nat) : ∀ (k : Nat) (q : List QNode) (t : HTree), (∀ a ∈ q, a.tree.weight f = a.weight) → 
    combineAll fuel k q = some t → t.weight f = queueWeight q := by
  induction fuel with
  | zero => 
    intro k q t hq h
    match q with
    | [] => cases h
    | [a] => cases h; simp [queueWeight, hq a]
    | _ :: _ :: _ => cases h
  | succ n ih =>
    intro k q t hq h
    match q with
    | [] => cases h
    | [a] => cases h; simp [queueWeight, hq a]
    | a :: b :: q =>
      rw [combineAll] at h
      rw [ih _ _ t ?_ h]
      · rw [queueWeight, ((enqueue_perm _ _).map _).sum_eq]; simp [queueWeight, combine]; omega
      · intro x hx
        rcases List.mem_cons.1 ((enqueue_perm _ _).mem_iff.1 hx) with rfl | hx
        · simp [combine, HTree.weight, hq a, hq b]
        · exact hq x (by simp [hx])

/-! ## The rounds of BuildTree -/

theorem keyLt_irrefl (a : QNode) : ¬ keyLt a a := by unfold keyLt; omega

/-- The order the queue is written in does not matter. -/
theorem Rounds.perm {k : Nat} {q q' : List QNode} {t : HTree} (h : Rounds k q t) (hp : q.Perm q') : Rounds k q' t := by
  cases h with
  | last =>
    obtain rfl := List.singleton_perm.1 hp
    exact .last ..
  | round taken lowest second more => exact .round (hp.symm.trans taken) lowest second more

/-- The first two of a queue whose keys rise are the only two that can be taken. -/
theorem taken_unique {a b a' b' : QNode} {q q' : List QNode} (hp : (a :: b :: q).Perm (a' :: b' :: q'))
    (hab : keyLt a b) (hq : ∀ x ∈ q, keyLt b x) (hab' : keyLt a' b') (hq' : ∀ x ∈ q', keyLt b' x) :
    a = a' ∧ b = b' ∧ q.Perm q' := by
  have below : ∀ {c d : QNode} {r : List QNode}, keyLt c d → (∀ x ∈ r, keyLt d x) → ∀ x ∈ c :: d :: r, x = c ∨ keyLt c x := by
    intro c d r hcd hr x hx
    rcases List.mem_cons.1 hx with rfl | hx
    · exact .inl rfl
    rcases List.mem_cons.1 hx with rfl | hx
    · exact .inr hcd
    · exact .inr (keyLt_trans hcd (hr x hx))
  obtain rfl : a = a' := by
    rcases below hab hq a' (hp.mem_iff.2 (by simp)) with h | h
    · exact h.symm
    rcases below hab' hq' a (hp.mem_iff.1 (by simp)) with k | k
    · exact k
    · exact absurd (keyLt_trans h k) (keyLt_irrefl _)
  have hp2 : (b :: q).Perm (b' :: q') := hp.cons_inv
  obtain rfl : b = b' := by
    rcases List.mem_cons.1 (hp2.mem_iff.2 (List.mem_cons_self ..)) with h | h
    · exact h.symm
    rcases List.mem_cons.1 (hp2.mem_iff.1 (List.mem_cons_self ..)) with k | k
    · exact k
    · exact absurd (keyLt_trans (hq _ h) (hq' _ k)) (keyLt_irrefl _)
  exact ⟨rfl, rfl, hp2.cons_inv⟩

/-- The rounds make one tree. -/
theorem Rounds.unique {k : Nat} {q q' : List QNode} {t t' : HTree} (h : Rounds k q t) (h' : Rounds k q' t')
    (hp : q.Perm q') : t = t' := by
  induction h generalizing q' t' with
  | last k a =>
    obtain rfl := List.singleton_perm.1 hp
    cases h' with
    | last => rfl
    | round taken _ _ _ => have := taken.length_eq; simp at this
  | round taken lowest second more ih =>
    cases h' with
    | last => have := (hp.symm.trans taken).length_eq; simp at this
    | round taken' lowest' second' more' =>
      obtain ⟨rfl, rfl, hq⟩ := taken_unique (taken.symm.trans (hp.trans taken')) lowest second lowest' second'
      exact ih more' (hq.cons _)

/-- The combining loop on a queue in the order of keys runs these rounds. -/
theorem rounds_of_combineAll {fuel : Nat} : ∀ {k : Nat} {q : List QNode} {t : HTree}, q.Pairwise keyLt →
    (q.map QNode.rank).Nodup → (∀ x ∈ q, x.rank < 256 + k) → combineAll fuel k q = some t → Rounds k q t := by
  induction fuel with
  | zero =>
    intro k q t _ _ _ h
    match q with
    | [] => cases h
    | [a] => cases h; exact .last k a
    | _ :: _ :: _ => cases h
  | succ n ih =>
    intro k q t hs hn hr h
    match q with
    | [] => cases h
    | [a] => cases h; exact .last k a
    | a :: b :: q =>
      rw [combineAll] at h
      have hp := enqueue_perm (combine k a b) q
      rw [List.pairwise_cons, List.pairwise_cons] at hs
      have hnew : ∀ y ∈ q, (combine k a b).rank ≠ y.rank := fun y hy e => by
        have := hr y (by simp [hy])
        simp only [combine, Config.N_SYM] at e
        omega
      refine .round (.refl _) (hs.1 b (by simp)) hs.2.1 ((ih (enqueue_sorted _ _ hs.2.2 hnew) ?_ (fun x hx => ?_) h).perm hp)
      · refine (hp.map QNode.rank).nodup_iff.2 (List.nodup_cons.2 ⟨fun hm => ?_, ?_⟩)
        · obtain ⟨y, hy, e⟩ := List.mem_map.1 hm
          exact hnew y hy e.symm
        · simp only [List.map_cons, List.nodup_cons] at hn; exact hn.2.2
      · rcases List.mem_cons.1 (hp.mem_iff.1 hx) with rfl | hx
        · simp only [combine, Config.N_SYM]; omega
        · have := hr x (by simp [hx]); omega

end Sys2Proof.Machine
end

