-- ==== Sys2Proof/Laws/Turns.lean ====
section
/-! SUPPORT. No command reads `turns`: a micro-step of a state with other turns is the same micro-step with
those turns kept (log 6). -/

namespace Sys2Proof.Machine

/-- The state with other turns to come. -/
def State.withTurns (s : State) (x : List Turn) : State := { s with turns := x }

@[simp] theorem withTurns_r0 (s : State) (x : List Turn) : (s.withTurns x).r0 = s.r0 := rfl
@[simp] theorem withTurns_r1 (s : State) (x : List Turn) : (s.withTurns x).r1 = s.r1 := rfl
@[simp] theorem withTurns_w0 (s : State) (x : List Turn) : (s.withTurns x).w0 = s.w0 := rfl
@[simp] theorem withTurns_w1 (s : State) (x : List Turn) : (s.withTurns x).w1 = s.w1 := rfl
@[simp] theorem withTurns_freq (s : State) (x : List Turn) : (s.withTurns x).freq = s.freq := rfl
@[simp] theorem withTurns_total (s : State) (x : List Turn) : (s.withTurns x).total = s.total := rfl
@[simp] theorem withTurns_params (s : State) (x : List Turn) : (s.withTurns x).params = s.params := rfl
@[simp] theorem withTurns_tree (s : State) (x : List Turn) : (s.withTurns x).tree = s.tree := rfl
@[simp] theorem withTurns_nodes (s : State) (x : List Turn) : (s.withTurns x).nodes = s.nodes := rfl
@[simp] theorem withTurns_dict (s : State) (x : List Turn) : (s.withTurns x).dict = s.dict := rfl
@[simp] theorem withTurns_dictValid (s : State) (x : List Turn) : (s.withTurns x).dictValid = s.dictValid := rfl
@[simp] theorem withTurns_cursor (s : State) (x : List Turn) : (s.withTurns x).cursor = s.cursor := rfl
@[simp] theorem withTurns_padBits (s : State) (x : List Turn) : (s.withTurns x).padBits = s.padBits := rfl
@[simp] theorem withTurns_busy (s : State) (x : List Turn) : (s.withTurns x).busy = s.busy := rfl
@[simp] theorem withTurns_done (s : State) (x : List Turn) : (s.withTurns x).done = s.done := rfl
@[simp] theorem withTurns_err (s : State) (x : List Turn) : (s.withTurns x).err = s.err := rfl
@[simp] theorem withTurns_empty (s : State) (x : List Turn) : (s.withTurns x).empty = s.empty := rfl
@[simp] theorem withTurns_partialCode (s : State) (x : List Turn) : (s.withTurns x).partialCode = s.partialCode := rfl
@[simp] theorem withTurns_drop (s : State) (x : List Turn) : (s.withTurns x).drop = s.drop := rfl
@[simp] theorem withTurns_errcode (s : State) (x : List Turn) : (s.withTurns x).errcode = s.errcode := rfl
@[simp] theorem withTurns_phase (s : State) (x : List Turn) : (s.withTurns x).phase = s.phase := rfl
@[simp] theorem withTurns_resultValue (s : State) (x : List Turn) : (s.withTurns x).resultValue = s.resultValue := rfl
@[simp] theorem withTurns_resultValid (s : State) (x : List Turn) : (s.withTurns x).resultValid = s.resultValid := rfl
@[simp] theorem withTurns_running (s : State) (x : List Turn) : (s.withTurns x).running = s.running := rfl
@[simp] theorem withTurns_pos (s : State) (x : List Turn) : (s.withTurns x).pos = s.pos := rfl
@[simp] theorem withTurns_src0 (s : State) (x : List Turn) : (s.withTurns x).src0 = s.src0 := rfl
@[simp] theorem withTurns_src1 (s : State) (x : List Turn) : (s.withTurns x).src1 = s.src1 := rfl
@[simp] theorem withTurns_snk0 (s : State) (x : List Turn) : (s.withTurns x).snk0 = s.snk0 := rfl
@[simp] theorem withTurns_snk1 (s : State) (x : List Turn) : (s.withTurns x).snk1 = s.snk1 := rfl
@[simp] theorem withTurns_seen (s : State) (x : List Turn) : (s.withTurns x).seen = s.seen := rfl
@[simp] theorem withTurns_turns (s : State) (x : List Turn) : (s.withTurns x).turns = x := rfl
@[simp] theorem withTurns_withTurns (s : State) (x y : List Turn) : (s.withTurns x).withTurns y = s.withTurns y := rfl
theorem withTurns_self (s : State) : s.withTurns s.turns = s := rfl
@[simp] theorem withTurns_reader (s : State) (x : List Turn) (p : PortNum) : (s.withTurns x).reader p = s.reader p := by
  cases p <;> rfl
@[simp] theorem withTurns_writer (s : State) (x : List Turn) (p : PortNum) : (s.withTurns x).writer p = s.writer p := by
  cases p <;> rfl
@[simp] theorem withTurns_source (s : State) (x : List Turn) (p : PortNum) : (s.withTurns x).source p = s.source p := by
  cases p <;> rfl
@[simp] theorem withTurns_sink (s : State) (x : List Turn) (p : PortNum) : (s.withTurns x).sink p = s.sink p := by
  cases p <;> rfl
@[simp] theorem withTurns_treeValid (s : State) (x : List Turn) : (s.withTurns x).treeValid = s.treeValid := rfl

@[simp] theorem setReader_withTurns (s : State) (x : List Turn) (p : PortNum) (a : Reader) :
    (s.withTurns x).setReader p a = (s.setReader p a).withTurns x := by cases p <;> rfl
@[simp] theorem setWriter_withTurns (s : State) (x : List Turn) (p : PortNum) (a : Writer) :
    (s.withTurns x).setWriter p a = (s.setWriter p a).withTurns x := by cases p <;> rfl
@[simp] theorem setSink_withTurns (s : State) (x : List Turn) (p : PortNum) (a : Sink) :
    (s.withTurns x).setSink p a = (s.setSink p a).withTurns x := by cases p <;> rfl
@[simp] theorem goto_withTurns (s : State) (x : List Turn) (q : Pos) :
    (s.withTurns x).goto q = (s.goto q).withTurns x := rfl
@[simp] theorem inPhase_withTurns (s : State) (x : List Turn) (q : Phase) :
    (s.withTurns x).inPhase q = (s.inPhase q).withTurns x := rfl
@[simp] theorem setCursor_withTurns (s : State) (x : List Turn) (c : Bits) :
    (s.withTurns x).setCursor c = (s.setCursor c).withTurns x := rfl
@[simp] theorem setResult_withTurns (s : State) (x : List Turn) (v : Byte) :
    setResult v (s.withTurns x) = (setResult v s).withTurns x := rfl
@[simp] theorem normalEnd_withTurns (s : State) (x : List Turn)  :
    normalEnd (s.withTurns x) = (normalEnd s).withTurns x := rfl
@[simp] theorem errorEnd_withTurns (s : State) (x : List Turn) (e : Error) :
    errorEnd e (s.withTurns x) = (errorEnd e s).withTurns x := rfl
theorem emptyFreqState_withTurns (s : State) (x : List Turn) :
    emptyFreqState (s.withTurns x) = (emptyFreqState s).withTurns x := by
  unfold emptyFreqState
  rw [show (s.withTurns x).params = s.params from rfl]
  split <;> rfl
@[simp] theorem invalidate_withTurns (s : State) (x : List Turn)  :
    invalidate (s.withTurns x) = (invalidate s).withTurns x := rfl
@[simp] theorem storeTree_withTurns (s : State) (x : List Turn) (t : HTree) (c : Nat) :
    storeTree t c (s.withTurns x) = (storeTree t c s).withTurns x := rfl
@[simp] theorem storeDict_withTurns (s : State) (x : List Turn)  :
    storeDict (s.withTurns x) = (storeDict s).withTurns x := rfl
@[simp] theorem addCount_withTurns (s : State) (x : List Turn) (v : Byte) :
    addCount v (s.withTurns x) = (addCount v s).withTurns x := rfl
@[simp] theorem clearFreq_withTurns (s : State) (x : List Turn)  :
    clearFreq (s.withTurns x) = (clearFreq s).withTurns x := rfl
@[simp] theorem closeR_withTurns (s : State) (x : List Turn) (p : PortNum) :
    closeR p (s.withTurns x) = (closeR p s).withTurns x := by simp [closeR]
@[simp] theorem atEnd_withTurns (s : State) (x : List Turn) (p : PortNum) : atEnd p (s.withTurns x) = atEnd p s := by
  simp [atEnd]
@[simp] theorem bitPulls_withTurns (s : State) (x : List Turn) (p : PortNum) : bitPulls p (s.withTurns x) = bitPulls p s := by
  simp [bitPulls]
@[simp] theorem bitPushes_withTurns (s : State) (x : List Turn) (p : PortNum) : bitPushes p (s.withTurns x) = bitPushes p s := by
  simp [bitPushes]
@[simp] theorem closePushes_withTurns (s : State) (x : List Turn) (p : PortNum) :
    closePushes p (s.withTurns x) = closePushes p s := by simp [closePushes]
@[simp] theorem moveCursor_withTurns (s : State) (x : List Turn) (b : Bool) :
    moveCursor b (s.withTurns x) = (moveCursor b s).withTurns x := by
  unfold moveCursor
  simp only [setCursor_withTurns, withTurns_cursor, withTurns_tree]
  split <;> simp
@[simp] theorem countByte_withTurns (s : State) (x : List Turn) (v : Byte) :
    countByte v (s.withTurns x) = (countByte v s).withTurns x := by
  unfold countByte
  by_cases h : s.total = s.params.maxLen
  · rw [withTurns_total, withTurns_params, if_pos h, if_pos h]; rfl
  · rw [withTurns_total, withTurns_params, if_neg h, if_neg h]; rfl

/-! ## Helpers -/

/-- A helper's outcome with other turns. -/
def Res.withTurns {α : Type} (x : List Turn) : Res α → Res α
  | .ok a t => .ok a (t.withTurns x)
  | .raise e t => .raise e (t.withTurns x)

@[simp] theorem Res.ok_withTurns {α : Type} (x : List Turn) (a : α) (t : State) :
    (Res.ok a t).withTurns x = .ok a (t.withTurns x) := rfl
@[simp] theorem Res.raise_withTurns {α : Type} (x : List Turn) (e : Error) (t : State) :
    (Res.raise e t : Res α).withTurns x = .raise e (t.withTurns x) := rfl
@[simp] theorem Res.goto_withTurns {α : Type} (x : List Turn) (q : Pos) (r : Res α) :
    (r.withTurns x).goto q = (r.goto q).withTurns x := by cases r <;> rfl

@[simp] theorem pull_withTurns (s : State) (x : List Turn) (p : PortNum) : pull p (s.withTurns x) = (pull p s).withTurns x := by
  unfold pull
  simp only [withTurns_source, withTurns_reader, setReader_withTurns]
  split
  · rfl
  · split <;> rfl
@[simp] theorem push_withTurns (s : State) (x : List Turn) (p : PortNum) (v : Byte) :
    push p v (s.withTurns x) = (push p v s).withTurns x := by
  unfold push
  simp only [withTurns_sink, setSink_withTurns]
  split <;> rfl
@[simp] theorem openR_withTurns (s : State) (x : List Turn) (p : PortNum) :
    openR p (s.withTurns x) = (openR p s).withTurns x := by
  unfold openR
  simp only [withTurns_source, setReader_withTurns]
  split <;> rfl
@[simp] theorem openW_withTurns (s : State) (x : List Turn) (p : PortNum) :
    openW p (s.withTurns x) = (openW p s).withTurns x := by
  unfold openW
  simp only [withTurns_writer, withTurns_sink, setSink_withTurns, setWriter_withTurns]
  split
  · rfl
  · split <;> rfl
@[simp] theorem closeW_withTurns (s : State) (x : List Turn) (p : PortNum) :
    closeW p (s.withTurns x) = (closeW p s).withTurns x := by
  unfold closeW
  simp only [withTurns_writer, setWriter_withTurns, push_withTurns]
  split
  · split <;> rfl
  · rfl
@[simp] theorem readBit_withTurns (s : State) (x : List Turn) (p : PortNum) :
    readBit p (s.withTurns x) = (readBit p s).withTurns x := by
  unfold readBit
  simp only [withTurns_reader, pull_withTurns, setReader_withTurns]
  split
  · cases pull p s <;> simp
  · rfl
@[simp] theorem readByte_withTurns (s : State) (x : List Turn) (p : PortNum) :
    readByte p (s.withTurns x) = (readByte p s).withTurns x := by
  unfold readByte
  simp only [withTurns_reader, pull_withTurns]
  cases pull p s <;> simp
@[simp] theorem writeBit_withTurns (s : State) (x : List Turn) (p : PortNum) (b : Bool) :
    writeBit p b (s.withTurns x) = (writeBit p b s).withTurns x := by
  unfold writeBit
  simp only [withTurns_writer, push_withTurns, setWriter_withTurns]
  split
  · cases push p ((s.writer p).place b) s <;> simp
  · rfl
@[simp] theorem writeByte_withTurns (s : State) (x : List Turn) (p : PortNum) (v : Byte) :
    writeByte p v (s.withTurns x) = (writeByte p v s).withTurns x := by
  unfold writeByte
  simp only [withTurns_writer, push_withTurns]
  cases push p ((s.writer p).acc ||| v >>> (s.writer p).n.val) s <;> simp

/-! ## Acts -/

/-- What the engine does next with other turns. -/
def Act.withTurns (x : List Turn) : Act → Act
  | .work t => .work (t.withTurns x)
  | .opens t => .opens (t.withTurns x)
  | .access t => .access (t.withTurns x)
  | .ended t => .ended (t.withTurns x)

@[simp] theorem Act.work_withTurns (x : List Turn) (t : State) : (Act.work t).withTurns x = .work (t.withTurns x) := rfl
@[simp] theorem Act.opens_withTurns (x : List Turn) (t : State) : (Act.opens t).withTurns x = .opens (t.withTurns x) := rfl
@[simp] theorem Act.access_withTurns (x : List Turn) (t : State) : (Act.access t).withTurns x = .access (t.withTurns x) := rfl
@[simp] theorem Act.ended_withTurns (x : List Turn) (t : State) : (Act.ended t).withTurns x = .ended (t.withTurns x) := rfl
@[simp] theorem Act.of_withTurns (x : List Turn) (b : Bool) (t : State) :
    Act.of b (t.withTurns x) = (Act.of b t).withTurns x := by cases b <;> rfl

theorem goOn_withTurns {next : State → Act} (h : ∀ s x, next (s.withTurns x) = (next s).withTurns x) (k : Nat) :
    ∀ (rest s : State) (x : List Turn),
      goOn next k (rest.withTurns x) (s.withTurns x) = (goOn next k rest s).withTurns x := by
  induction k with
  | zero => intro rest s x; rfl
  | succ k ih =>
    intro rest s x
    rw [goOn, goOn, h]
    cases next s <;> simp [ih]

theorem microStep_withTurns {next : State → Act} (h : ∀ s x, next (s.withTurns x) = (next s).withTurns x) (s : State)
    (x : List Turn) : microStep next (s.withTurns x) = (microStep next s).withTurns x := by
  have key : ∀ (k : Nat) (s : State), advance next k (s.withTurns x) = (advance next k s).withTurns x := by
    intro k
    induction k with
    | zero => intro s; rfl
    | succ k ih =>
      intro s
      rw [advance, advance, h]
      cases next s with
      | work t => exact ih t
      | opens t => exact ih t
      | access t => exact goOn_withTurns h _ t t x
      | ended t => rfl
  exact key workBound s

@[simp] theorem countAct_withTurns (p : PortNum) {after : State → Act} (s : State) (x : List Turn)
    (h : after (s.withTurns x) = (after s).withTurns x) :
    countAct p after (s.withTurns x) = (countAct p after s).withTurns x := by
  unfold countAct
  simp only [atEnd_withTurns, readByte_withTurns, h]
  split
  · rfl
  · cases readByte p s <;> simp

theorem serAct_withTurns (p : PortNum) (todo : List SerItem) {after : State → Act} (s : State) (x : List Turn)
    (h : after (s.withTurns x) = (after s).withTurns x) :
    serAct p todo after (s.withTurns x) = (serAct p todo after s).withTurns x := by
  unfold serAct
  split <;> simp [h]

theorem desNodeAct_withTurns (p : PortNum) (fs : List Frame) (c : Nat) (s : State) (x : List Turn) :
    desNodeAct p fs c (s.withTurns x) = (desNodeAct p fs c s).withTurns x := by
  unfold desNodeAct
  rw [bitPulls_withTurns, readBit_withTurns, ← Act.of_withTurns]
  cases readBit p s with
  | raise e t => simp
  | ok b t =>
    simp only [Res.ok_withTurns, goto_withTurns]
    by_cases h : t.params.nodeCap < c + 1
    · rw [if_pos (show (t.withTurns x).params.nodeCap < c + 1 from h), if_pos h]
    · rw [if_neg (show ¬ (t.withTurns x).params.nodeCap < c + 1 from h), if_neg h]; cases b <;> rfl

theorem desLeafAct_withTurns (p : PortNum) (fs : List Frame) (c : Nat) (s : State) (x : List Turn) :
    desLeafAct p fs c (s.withTurns x) = (desLeafAct p fs c s).withTurns x := by
  unfold desLeafAct
  rw [readByte_withTurns, Act.access_withTurns]
  cases readByte p s with
  | raise e t => simp
  | ok v t =>
    simp only [Res.ok_withTurns, goto_withTurns]
    split <;> rfl

theorem emitAct_withTurns (p : PortNum) (bits : Bits) {after : State → Act} (s : State) (x : List Turn)
    (h : after (s.withTurns x) = (after s).withTurns x) :
    emitAct p bits after (s.withTurns x) = (emitAct p bits after s).withTurns x := by
  unfold emitAct
  split <;> simp [h]

theorem releaseWriter_withTurns (p : PortNum) (q : Pos) (s : State) (x : List Turn) :
    releaseWriter p q (s.withTurns x) = (releaseWriter p q s).withTurns x := by
  unfold releaseWriter
  rw [closePushes_withTurns, closeW_withTurns, ← Act.of_withTurns]
  cases closeW p s <;> simp

theorem closeWriter_withTurns (p : PortNum) (q : Pos) (s : State) (x : List Turn) :
    closeWriter p q (s.withTurns x) = (closeWriter p q s).withTurns x := by
  unfold closeWriter
  simp

/-! ## Commands -/

theorem freqCountAct_withTurns (p : PortNum) (s : State) (x : List Turn) :
    freqCountAct p (s.withTurns x) = (freqCountAct p s).withTurns x := by
  unfold freqCountAct
  simp only [withTurns_pos, withTurns_reader]
  split
  · exact countAct_withTurns p s x (by simp)
  · simp
  · split <;> simp

theorem treeSerAct_withTurns (p : PortNum) (s : State) (x : List Turn) :
    treeSerAct p (s.withTurns x) = (treeSerAct p s).withTurns x := by
  unfold treeSerAct
  simp only [withTurns_pos, withTurns_writer, withTurns_tree]
  split
  · exact serAct_withTurns p _ s x (by simp)
  · simp
  · split
    · split <;> simp
    · simp

theorem treeDeserAct_withTurns (p : PortNum) (s : State) (x : List Turn) :
    treeDeserAct p (s.withTurns x) = (treeDeserAct p s).withTurns x := by
  unfold treeDeserAct
  simp only [withTurns_pos, withTurns_reader]
  split
  · exact desNodeAct_withTurns p _ _ s x
  · exact desLeafAct_withTurns p _ _ s x
  · simp
  · simp
  · split <;> simp

theorem codeEmitAct_withTurns (p : PortNum) (v : Byte) (s : State) (x : List Turn) :
    codeEmitAct p v (s.withTurns x) = (codeEmitAct p v s).withTurns x := by
  unfold codeEmitAct
  simp only [withTurns_pos, withTurns_writer]
  split
  · exact emitAct_withTurns p _ s x (by simp)
  · simp
  · by_cases ho : (s.writer p).opened = true
    · rw [if_pos ho, if_pos ho]
      by_cases hd : s.dictValid = true
      · rw [if_pos (show (s.withTurns x).dictValid = true from hd), if_pos hd, withTurns_dict]
        cases s.dict.code v <;> rfl
      · rw [if_neg (show ¬ (s.withTurns x).dictValid = true from hd), if_neg hd]; rfl
    · rw [if_neg ho, if_neg ho]; rfl

theorem encodeStart_withTurns (s : State) (x : List Turn) : encodeStart (s.withTurns x) = (encodeStart s).withTurns x := by
  have h := openR_withTurns (State.inPhase { s with padBits := 0 } .eCount) x .p0
  let f : Res Unit → Act := fun r =>
    match r with
    | .raise e t => .opens (t.goto (.raised e))
    | .ok _ t => .opens ((clearFreq t).goto .count)
  have hf : ∀ r, f (r.withTurns x) = (f r).withTurns x := fun r => by cases r <;> rfl
  unfold encodeStart
  by_cases ho : (s.w0.opened || s.w1.opened) = true
  · rw [if_pos (show ((s.withTurns x).w0.opened || (s.withTurns x).w1.opened) = true from ho), if_pos ho]; rfl
  · rw [if_neg (show ¬ ((s.withTurns x).w0.opened || (s.withTurns x).w1.opened) = true from ho), if_neg ho]
    exact (congrArg f h).trans (hf _)

theorem encodeCounted_withTurns (s : State) (x : List Turn) :
    encodeCounted (s.withTurns x) = (encodeCounted s).withTurns x := by
  unfold encodeCounted
  simp only [closeR_withTurns, withTurns_total, inPhase_withTurns, invalidate_withTurns, withTurns_freq,
    goto_withTurns, storeTree_withTurns, openW_withTurns, Res.goto_withTurns]
  split
  · rfl
  · split <;> rfl

theorem encodeSerialized_withTurns (s : State) (x : List Turn) :
    encodeSerialized (s.withTurns x) = (encodeSerialized s).withTurns x := by
  let t := (storeDict (s.inPhase .eDict)).inPhase .ePad
  let pads := padCount (totalBits t.freq t.dict)
  have h := openW_withTurns { t with padBits := BitVec.ofNat 4 pads } x .p1
  exact congrArg Act.opens ((congrArg (Res.goto (.pad (List.replicate (pads - 1) true ++ [false]))) h).trans
    (Res.goto_withTurns x _ _))

theorem encodePad_withTurns (bits : Bits) (s : State) (x : List Turn) :
    encodePad bits (s.withTurns x) = (encodePad bits s).withTurns x := by
  unfold encodePad
  split <;> simp

theorem encodeNext_withTurns (s : State) (x : List Turn) : encodeNext (s.withTurns x) = (encodeNext s).withTurns x := by
  unfold encodeNext
  simp only [atEnd_withTurns, readByte_withTurns]
  split
  · simp
  · cases readByte .p0 s with
    | raise e t => simp
    | ok v t =>
      simp only [Res.ok_withTurns, withTurns_dict, goto_withTurns]
      split <;> rfl

theorem encodeAct_withTurns (s : State) (x : List Turn) : encodeAct (s.withTurns x) = (encodeAct s).withTurns x := by
  unfold encodeAct
  simp only [withTurns_pos]
  split
  · exact countAct_withTurns _ s x (encodeCounted_withTurns s x)
  · exact serAct_withTurns _ _ s x (encodeSerialized_withTurns s x)
  · exact encodePad_withTurns _ s x
  · exact emitAct_withTurns _ _ s x (encodeNext_withTurns s x)
  · exact closeWriter_withTurns _ _ s x
  · exact closeWriter_withTurns _ _ s x
  · simp
  · simp
  · exact releaseWriter_withTurns _ _ s x
  · exact releaseWriter_withTurns _ _ s x
  · simp
  · exact encodeStart_withTurns s x

theorem decodeStart_withTurns (s : State) (x : List Turn) : decodeStart (s.withTurns x) = (decodeStart s).withTurns x := by
  unfold decodeStart
  simp only [withTurns_w0, inPhase_withTurns, openW_withTurns]
  split
  · simp
  · cases openW .p0 (s.inPhase .dTree) with
    | raise e t => simp
    | ok a t =>
      simp only [Res.ok_withTurns, openR_withTurns]
      cases openR .p0 t <;> simp

theorem decodeTreeRead_withTurns (t : HTree) (c : Nat) (s : State) (x : List Turn) :
    decodeTreeRead t c (s.withTurns x) = (decodeTreeRead t c s).withTurns x := by
  unfold decodeTreeRead
  simp only [storeTree_withTurns, closeR_withTurns, goto_withTurns, inPhase_withTurns, openR_withTurns, Res.goto_withTurns]
  split <;> rfl

theorem decodeSkip_withTurns (s : State) (x : List Turn) : decodeSkip (s.withTurns x) = (decodeSkip s).withTurns x := by
  unfold decodeSkip
  simp only [atEnd_withTurns]
  split
  · simp
  · rw [bitPulls_withTurns, readBit_withTurns, ← Act.of_withTurns]
    rcases readBit .p1 s with ⟨b, t⟩ | ⟨e, t⟩
    · cases b <;> simp
    · simp

theorem decodeWalk_withTurns (s : State) (x : List Turn) : decodeWalk (s.withTurns x) = (decodeWalk s).withTurns x := by
  unfold decodeWalk
  simp only [atEnd_withTurns]
  split
  · rfl
  · rw [bitPulls_withTurns, readBit_withTurns, ← Act.of_withTurns]
    cases readBit .p1 s <;> simp

theorem decodeWrite_withTurns (v : Byte) (s : State) (x : List Turn) :
    decodeWrite v (s.withTurns x) = (decodeWrite v s).withTurns x := by
  unfold decodeWrite
  rw [writeByte_withTurns, Act.access_withTurns]
  cases writeByte .p0 v s <;> simp

theorem decodeAct_withTurns (s : State) (x : List Turn) : decodeAct (s.withTurns x) = (decodeAct s).withTurns x := by
  unfold decodeAct
  simp only [withTurns_pos]
  split
  · exact desNodeAct_withTurns _ _ _ s x
  · exact desLeafAct_withTurns _ _ _ s x
  · exact decodeTreeRead_withTurns _ _ s x
  · exact decodeSkip_withTurns s x
  · exact decodeWalk_withTurns s x
  · exact decodeWrite_withTurns _ s x
  · rw [closeR_withTurns]; exact closeWriter_withTurns _ _ _ x
  · simp
  · simp
  · exact releaseWriter_withTurns _ _ s x
  · simp
  · exact decodeStart_withTurns s x

theorem endAs_withTurns {α : Type} {f : α → State → State} (h : ∀ a t x, f a (t.withTurns x) = (f a t).withTurns x)
    (r : Res α) (x : List Turn) : endAs f (r.withTurns x) = (endAs f r).withTurns x := by
  cases r with
  | ok a t => simp [endAs, h]
  | raise e t => simp [endAs]

theorem onOpenReader_withTurns {α : Type} {p : PortNum} {f : State → Res α} {s : State} {x : List Turn}
    (h : f (s.withTurns x) = (f s).withTurns x) : onOpenReader p f (s.withTurns x) = (onOpenReader p f s).withTurns x := by
  unfold onOpenReader
  simp only [withTurns_reader, h]
  split <;> rfl

theorem onOpenWriter_withTurns {α : Type} {p : PortNum} {f : State → Res α} {s : State} {x : List Turn}
    (h : f (s.withTurns x) = (f s).withTurns x) : onOpenWriter p f (s.withTurns x) = (onOpenWriter p f s).withTurns x := by
  unfold onOpenWriter
  simp only [withTurns_writer, h]
  split <;> rfl

theorem endAs_withTurns_eq {α : Type} {f : α → State → State} {r r' : Res α} {x : List Turn} (e : r' = r.withTurns x)
    (h : ∀ a t x, f a (t.withTurns x) = (f a t).withTurns x) :
    (Host.Outcome.next (endAs f r') : Host.Outcome State Fault Refusal) = .next ((endAs f r).withTurns x) := by
  rw [e, endAs_withTurns h]

/-- A micro-step does not read `turns`, and keeps them. -/
theorem exec_withTurns {i : Instr} {s t : State} (h : exec i s = .next t) (x : List Turn) :
    exec i (s.withTurns x) = .next (t.withTurns x) := by
  cases i with
  | rdOpen r => cases h; exact endAs_withTurns_eq (openR_withTurns s x r) (fun _ _ _ => rfl)
  | rdClose r => cases h; exact congrArg (fun t => Host.Outcome.next (normalEnd t)) (closeR_withTurns s x r)
  | rdBit r => cases h; exact endAs_withTurns_eq (onOpenReader_withTurns (readBit_withTurns s x r)) (fun _ _ _ => rfl)
  | rdByte r => cases h; exact endAs_withTurns_eq (onOpenReader_withTurns (readByte_withTurns s x r)) (fun _ _ _ => rfl)
  | rdAtEnd r => cases h; exact endAs_withTurns_eq (onOpenReader_withTurns (by simp)) (fun _ _ _ => rfl)
  | wrOpen w => cases h; exact endAs_withTurns_eq (openW_withTurns s x w) (fun _ _ _ => rfl)
  | wrClose w => cases h; exact endAs_withTurns_eq (closeW_withTurns s x w) (fun _ _ _ => rfl)
  | wrBit w b => cases h; exact endAs_withTurns_eq (onOpenWriter_withTurns (writeBit_withTurns s x w _)) (fun _ _ _ => rfl)
  | wrByte w v => cases h; exact endAs_withTurns_eq (onOpenWriter_withTurns (writeByte_withTurns s x w v)) (fun _ _ _ => rfl)
  | freqCount r => cases h; exact congrArg _ (microStep_withTurns (freqCountAct_withTurns r) s x)
  | treeBuild =>
    cases h
    show execTreeBuild (s.withTurns x) = _
    unfold execTreeBuild
    rw [withTurns_freq]
    cases buildTree s.freq
    · exact congrArg (fun t => Host.Outcome.next (errorEnd .emptyFreq t)) (emptyFreqState_withTurns s x)
    · rfl
  | treeSer w => cases h; exact congrArg _ (microStep_withTurns (treeSerAct_withTurns w) s x)
  | treeDeser r => cases h; exact congrArg _ (microStep_withTurns (treeDeserAct_withTurns r) s x)
  | dictBuild =>
    cases h
    show execDictBuild (s.withTurns x) = _
    unfold execDictBuild
    rw [withTurns_treeValid]
    cases s.treeValid <;> rfl
  | codeEmit w v => cases h; exact congrArg _ (microStep_withTurns (codeEmitAct_withTurns w v) s x)
  | encode => cases h; exact congrArg _ (microStep_withTurns encodeAct_withTurns s x)
  | decode => cases h; exact congrArg _ (microStep_withTurns decodeAct_withTurns s x)

end Sys2Proof.Machine
end

