-- ==== Sys2Proof/Laws/Steps.lean ====
section
/-! SUPPORT. Steps of the machine by whose turn it is, and runs put together from them (log 6). -/

namespace Sys2Proof.Machine

/-- Every command answers a next state, from every state: no arm of `exec` stops. -/
theorem exec_next (i : Instr) (s : State) : ∃ t, exec i s = .next t := by
  cases i <;> exact ⟨_, rfl⟩

theorem engineStep_next (s : State) : ∃ t, engineStep s = .next t := by
  unfold engineStep
  split
  · exact ⟨_, rfl⟩
  · exact ⟨_, rfl⟩
  · exact exec_next _ s

theorem engineStep_running {s : State} {i : Instr} (h : s.running = some (.legal i)) : engineStep s = exec i s := by
  simp [engineStep, h]

theorem step_engine (s : State) (rest : List Turn) : step (s.withTurns (.engine :: rest)) = engineStep (s.withTurns rest) := rfl

theorem step_host (s : State) (h : HostStep) (rest : List Turn) :
    step (s.withTurns (.host h :: rest)) = hostStep h (s.withTurns rest) := rfl

theorem Reaches.refl (s : State) : Reaches 0 s s := rfl

theorem run_next {s t : State} (h : step s = .next t) (k : Nat) : Host.Core.run core (k + 1) s = Host.Core.run core k t := by
  have e := Host.Core.run.eq_2 core s k
  rw [show core.step s = .next t from h] at e
  exact e

theorem Reaches.next {k : Nat} {s t u : State} (h : step s = .next t) (r : Reaches k t u) : Reaches (k + 1) s u :=
  (run_next h k).trans r

theorem Reaches.trans {j k : Nat} {s t u : State} (a : Reaches j s t) (b : Reaches k t u) : Reaches (j + k) s u := by
  induction j generalizing s with
  | zero => cases a; simpa using b
  | succ j ih =>
    have e := Host.Core.run.eq_2 core s j
    rw [show j + 1 + k = j + k + 1 by omega]
    cases h : step s with
    | next v => exact .next h (ih ((run_next h j).symm.trans a))
    | fault r =>
      rw [show core.step s = .fault r from h] at e
      exact absurd (e.symm.trans a) (by intro h; cases h)
    | refused r =>
      rw [show core.step s = .refused r from h] at e
      exact absurd (e.symm.trans a) (by intro h; cases h)

/-- A command's run from its second micro-step on. -/
theorem EndsAfter.tail {i : Instr} {k : Nat} {s t u : State} (h : EndsAfter i (k + 1) s t) (he : exec i s = .next u) :
    EndsAfter i k u t := by
  obtain ⟨h1, h2, h3⟩ := h
  rw [execTimes, he] at h1
  exact ⟨h1, h2, fun j v hj hv => h3 (j + 1) v (by omega) (by rw [execTimes, he]; exact hv)⟩

end Sys2Proof.Machine
end

