-- ==== Sys2Proof/Tests/Slice0.lean ====
section
/-! SUPPORT. Tests of single steps, with expected results from the vectors of spec/95_test_vectors.md, and
a witness of the hypotheses of each statement. -/

namespace Sys2Proof.Tests

open Sys2Proof.Machine

set_option maxRecDepth 4000

/-! ## Helpers -/

/-- SRCp holds these bytes and is available. -/
def withSource (p : PortNum) (data : List Byte) (s : State) : State := s.setSource p { data := data, avail := true }

/-- Rp is open with these fields. -/
def withReader (p : PortNum) (pos : Nat) (buf : Byte) (cnt : Fin 8) (s : State) : State :=
  s.setReader p { opened := true, pos := pos, buf := buf, cnt := cnt }

/-- Wp is open with these fields. -/
def withWriter (p : PortNum) (acc : Byte) (n : Fin 8) (s : State) : State :=
  s.setWriter p { opened := true, acc := acc, n := n }

/-- SNKp is unavailable. -/
def noSink (p : PortNum) (s : State) : State := s.setSink p { s.sink p with avail := false }

/-- SRCp is unavailable. -/
def noSource (p : PortNum) (s : State) : State := s.setSource p { s.source p with avail := false }

/-- Command i is issued, and this is the state before its first micro-step. -/
def issued (i : Instr) (s : State) : State := accept (encodeCmd i) s

/-- The state one micro-step of command i leaves, if it stops nowhere. -/
def after (i : Instr) (s : State) : State :=
  match exec i s with
  | .next t => t
  | .fault _ => s
  | .refused _ => s

/-- The tree of V-TREE-3. -/
def abcTree : HTree := .internal (.leaf 0x43) (.internal (.leaf 0x41) (.leaf 0x42))

/-- The state with that tree stored. -/
def withTree (t : HTree) (s : State) : State := storeTree t t.size s

/-- The state with a dictionary built from the stored tree. -/
def withDict (s : State) : State := storeDict s

/-- The block after reset with SRC0 = B4 A0, V-BIO-4. -/
def bio4 : State := withSource .p0 [0xB4, 0xA0] State.reset

/-! ## Well-formedness and decoding -/

-- R92, R96: IMM[7:1] of WR_BIT is 0.
theorem test_wrBit_stray_imm_ill_formed : (Instr.wrBit .p0 0x02).wellFormed = false := by decide
theorem test_wrBit_one_well_formed : (Instr.wrBit .p0 0x01).wellFormed = true := by decide
theorem test_stray_imm_refused : decodeWord 0x5002 = .error .strayBits := by decide

-- R106 and 2.1 of spec/95_test_vectors.md: a word of each family, written from the fields of R90.
theorem test_decode_reader : decodeWord (0b00011#5 ++ 0b00#2 ++ 1#1 ++ 0x00#8) = .ok (.rdBit .p1) := by decide
theorem test_decode_writer : decodeWord (0b01011#5 ++ 0b00#2 ++ 0#1 ++ 0xA5#8) = .ok (.wrByte .p0 0xA5) := by decide
theorem test_decode_tree : decodeWord (0b10101#5 ++ 0b00#2 ++ 0#1 ++ 0x41#8) = .ok (.codeEmit .p0 0x41) := by decide
theorem test_decode_codec : decodeWord (0b11001#5 ++ 0b00#2 ++ 0#1 ++ 0x00#8) = .ok .decode := by decide
theorem test_decode_reserved_bits : decodeWord 0x5A00 = .error .reservedBits := by decide
theorem test_decode_high_half : decodeCmd 0x0001C000 = .error .highHalf := by decide
theorem test_decode_all : opcodeMap.map (fun r => (decodeTableWord 16 r.fixed.toNat).map Instr.mnemonic)
    = opcodeMap.map (fun r => some r.mnemonic) := by decide

/-! ## One step of each command -/

-- V-BIO-4 and V-BIO-8.
theorem test_rdOpen : (after (.rdOpen .p0) (issued (.rdOpen .p0) bio4)).r0 = { opened := true, pos := 0, buf := 0, cnt := 0 } := by decide
theorem test_rdOpen_unavailable :
    (after (.rdOpen .p0) (issued (.rdOpen .p0) (noSource .p0 State.reset))).statusWord = 0x00000106 := by decide
-- R131.
theorem test_rdClose : (after (.rdClose .p0) (issued (.rdClose .p0) (withReader .p0 1 0xB4 5 bio4))).r0 = Reader.closed := by decide
-- V-BIO-4, second RD_BIT and the last.
theorem test_rdBit : let t := after (.rdBit .p0) (issued (.rdBit .p0) (withReader .p0 1 0xB4 7 bio4))
    t.resultWord = 0x100 ∧ t.r0 = { opened := true, pos := 1, buf := 0xB4, cnt := 6 } := by decide
theorem test_rdBit_at_end : (after (.rdBit .p0) (issued (.rdBit .p0) (withReader .p0 2 0xA0 0 bio4))).statusWord = 0x00010506 := by decide
-- V-BIO-4 and V-BIO-5.
theorem test_rdByte : let t := after (.rdByte .p0) (issued (.rdByte .p0) (withReader .p0 1 0xB4 5 bio4))
    t.resultWord = 0x1A5 ∧ t.r0 = { opened := true, pos := 2, buf := 0xA0, cnt := 5 } := by decide
theorem test_rdByte_short : let t := after (.rdByte .p0) (issued (.rdByte .p0) (withReader .p0 1 0xFF 7 (withSource .p0 [0xFF] State.reset)))
    t.errcode = 5 ∧ t.r0 = { opened := true, pos := 1, buf := 0xFF, cnt := 7 } := by decide
-- V-BIO-4 and V-BIO-6.
theorem test_rdAtEnd_not : (after (.rdAtEnd .p0) (issued (.rdAtEnd .p0) (withReader .p0 2 0xA0 5 bio4))).resultWord = 0x100 := by decide
theorem test_rdAtEnd_empty : (after (.rdAtEnd .p0) (issued (.rdAtEnd .p0) (withReader .p0 0 0 0 State.reset))).resultWord = 0x101 := by decide
-- V-BIO-7 and R126.
theorem test_wrOpen_twice : (after (.wrOpen .p0) (issued (.wrOpen .p0) (withWriter .p0 0 0 State.reset))).statusWord = 0x00040806 := by decide
theorem test_wrOpen_empties : (after (.wrOpen .p1) (issued (.wrOpen .p1) (State.reset.setSink .p1 { data := [1, 2], avail := true }))).snk1.data = [] := by decide
-- V-BIO-1 and V-BIO-10.
theorem test_wrClose : let t := after (.wrClose .p0) (issued (.wrClose .p0) (withWriter .p0 0xA0 3 State.reset))
    t.snk0.data = [0xA0] ∧ t.w0 = Writer.closed := by decide
theorem test_wrClose_unavailable : let t := after (.wrClose .p0) (issued (.wrClose .p0) (withWriter .p0 0xFE 7 (noSink .p0 State.reset)))
    t.errcode = 2 ∧ t.snk0.data = [] ∧ t.w0 = Writer.closed := by decide
-- V-BIO-2 and V-BIO-10.
theorem test_wrBit_eighth : let t := after (.wrBit .p0 1) (issued (.wrBit .p0 1) (withWriter .p0 0xFE 7 State.reset))
    t.snk0.data = [0xFF] ∧ t.w0 = { opened := true, acc := 0, n := 0 } := by decide
theorem test_wrBit_unavailable : let t := after (.wrBit .p0 1) (issued (.wrBit .p0 1) (withWriter .p0 0xFE 7 (noSink .p0 State.reset)))
    t.errcode = 2 ∧ t.w0 = { opened := true, acc := 0xFE, n := 7 } := by decide
-- V-BIO-1 and V-BIO-3.
theorem test_wrByte : let t := after (.wrByte .p0 0xA5) (issued (.wrByte .p0 0xA5) (withWriter .p0 0xA0 3 State.reset))
    t.snk0.data = [0xB4] ∧ t.w0 = { opened := true, acc := 0xA0, n := 3 } := by decide
theorem test_wrByte_aligned : (after (.wrByte .p1 0x3C) (issued (.wrByte .p1 0x3C) (withWriter .p1 0 0 State.reset))).snk1.data = [0x3C] := by decide
-- V-TREE-2, the one byte that is counted; V-BIO-7 for a closed reader.
theorem test_freqCount : let t := after (.freqCount .p0) (issued (.freqCount .p0)
      (withReader .p0 1 0x41 7 (withSource .p0 [0x41, 0x42] State.reset)))
    t.freq.count 0x82 = 1 ∧ t.total = 1 ∧ t.r0 = { opened := true, pos := 2, buf := 0x42, cnt := 7 } := by decide
theorem test_freqCount_closed : (after (.freqCount .p0) (issued (.freqCount .p0) State.reset)).statusWord = 0x00000706 := by decide
-- V-TREE-3 and V-TREE-5.
theorem test_treeBuild : let t := after .treeBuild (issued .treeBuild
      { State.reset with freq := ((FreqTable.zero.bump 0x41).bump 0x42).bump 0x43, total := 3 })
    t.tree = some abcTree ∧ t.infoWord = 0x00000510 := by decide
theorem test_treeBuild_empty : let t := after .treeBuild (issued .treeBuild State.reset)
    let u := after .treeBuild (issued .treeBuild (withTree abcTree State.reset)) -- D29
    (t.statusWord = 0x00000C06 ∧ t.infoWord = 0) ∧ u.statusWord = 0x00000C06 ∧ u.tree = some abcTree := by decide
-- V-TREE-7, its first byte; V-TREE-6.
theorem test_treeSer : (after (.treeSer .p1) (issued (.treeSer .p1) (withWriter .p1 0 0 (withTree abcTree State.reset)))).snk1.data = [0x90] := by decide
theorem test_treeSer_no_tree : (after (.treeSer .p0) (issued (.treeSer .p0) (withWriter .p0 0 0 State.reset))).statusWord = 0x00040906 := by decide
-- V-TREE-9, the second byte pulled; V-TREE-13, the empty stream.
theorem test_treeDeser : let t := after (.treeDeser .p0) ((issued (.treeDeser .p0)
      (withReader .p0 1 0x20 7 (withSource .p0 [0x20, 0x80] State.reset))).goto (.desLeaf [] 1))
    t.tree = some (.leaf 0x41) ∧ t.infoWord = 0x00000150 := by decide
theorem test_treeDeser_truncated : (after (.treeDeser .p0) (issued (.treeDeser .p0) (withReader .p0 0 0 0 State.reset))).statusWord = 0x00010306 := by decide
-- V-TREE-10 and V-TREE-6.
theorem test_dictBuild : let t := after .dictBuild (issued .dictBuild (withTree (.internal (.leaf 0x41) (.leaf 0x41)) State.reset))
    t.dict.code 0x41 = some [true] ∧ t.dict.code 0x42 = none ∧ t.dictValid = true := by decide
theorem test_dictBuild_no_tree : (after .dictBuild (issued .dictBuild State.reset)).statusWord = 0x00000906 := by decide
-- V-TREE-14, the code 10 of 0x41 and the missing code of 0x44.
theorem test_codeEmit : (after (.codeEmit .p0 0x41) (issued (.codeEmit .p0 0x41)
    (withWriter .p0 0 0 (withDict (withTree abcTree State.reset))))).w0 = { opened := true, acc := 0x80, n := 2 } := by decide
theorem test_codeEmit_no_code : (after (.codeEmit .p0 0x44) (issued (.codeEmit .p0 0x44)
    (withWriter .p0 0 0 (withDict (withTree abcTree State.reset))))).statusWord = 0x00040B06 := by decide
-- V-CODEC-12 and V-ERR-4.
theorem test_encode_empty : let t := after .encode (issued .encode State.reset)
    t.statusWord = 0x0000000A ∧ t.infoWord = 0 ∧ t.snk0 = State.reset.snk0 := by decide
theorem test_encode_alreadyOpen : (after .encode (issued .encode (withWriter .p1 0 0 bio4))).statusWord = 0x00080806 := by decide
-- V-ERR-16, and V-ERR-12's second byte.
theorem test_decode_no_sink : (after .decode (issued .decode (noSink .p0 State.reset))).statusWord = 0x00000206 := by decide
theorem test_decode_leaf : let t := after .decode ((issued .decode
      (withWriter .p0 0 0 (withReader .p0 1 0x20 7 (withSource .p0 [0x20, 0x80] State.reset)))).goto (.desLeaf [] 1))
    t.statusWord = 0x00000E06 ∧ t.tree = some (.leaf 0x41) ∧ t.nodes = 1 := by decide

/-! ## Witnesses

For each statement with hypotheses a state and operands that meet them together, one for each clause. -/

theorem witness_DecodingAndEncodingAreInverse :
    (Instr.wrBit .p1 1).wellFormed = true ∧ (Instr.codeEmit .p1 0xFF).wellFormed = true
      ∧ decodeCmd 0x00005101 = .ok (.wrBit .p1 1) ∧ decodeCmd 0x0000C800 = .ok .decode := by decide

theorem witness_OpcodeMapDecidesEveryWord :
    (∃ a ∈ opcodeMap, ∃ b ∈ opcodeMap, a.fixed.extractLsb' 11 5 = b.fixed.extractLsb' 11 5)
      ∧ decodeWord 0x5101 = .ok (.wrBit .p1 1) ∧ decodeWord 0xFFFF = .error .reservedBits := by decide

theorem witness_IllegalWordsAreExactlyThese :
    decodeWord 0x0000 = .error .reservedOpcode ∧ decodeWord 0xF800 = .error .reservedOpcode
      ∧ decodeWord 0xFFFF = .error .reservedBits ∧ State.reset.busy = false := by decide

theorem witness_StepRunsTheDecodedCommand :
    (decodeCmd 0x0800 = .ok (.rdOpen .p0) ∧ State.reset.busy = false
      ∧ { State.reset with turns := [.host (.csrWrite 0x00 32 0x0800)] }.turns = [.host (.csrWrite 0x00 32 0x0800)])
    ∧ (issued .decode State.reset).running = some (.legal .decode) ∧ (issued .decode State.reset).turns = []
    ∧ { issued .encode State.reset with turns := [.engine] }.turns = .engine :: []
    ∧ State.reset.running = none ∧ decodeTableWord 16 0xC800 = some .decode := by decide

theorem witness_CommandAcceptance :
    State.reset.busy = false ∧ decodeCmd 0xC800 = .ok .decode ∧ decodeCmd 0x10000 = .error .highHalf := by decide

theorem witness_BusyWriteIsDropped :
    (issued .encode State.reset).busy = true ∧ State.reset.busy = false
      ∧ ∃ t, step { State.reset with drop := true, turns := [.host (.csrWrite 0x10 32 2)] } = .next t :=
  ⟨by decide, by decide, _, rfl⟩

theorem witness_ResetGivesTheResetValues :
    (3 : Word).getLsbD 0 = true ∧ (issued .encode State.reset).running = some (.legal .encode) := by decide

theorem witness_ControlWriteBits :
    (1 : Word).getLsbD 0 = true ∧ ((2 : Word).getLsbD 0 = false ∧ (2 : Word).getLsbD 1 = true)
      ∧ (0xFFFFFFFC : Word).getLsbD 0 = false ∧ (0xFFFFFFFC : Word).getLsbD 1 = false := by decide

theorem witness_CsrAccessesOutsideTheMapAreRefused :
    (32 = 32 ∧ 0x10 ∈ [0x00, 0x04, 0x08, 0x0C, 0x10]) ∧ ¬ (32 = 32 ∧ 0x14 ∈ [0x00, 0x04, 0x08, 0x0C, 0x10])
      ∧ ¬ (16 = 32 ∧ 0x00 ∈ [0x00, 0x04, 0x08, 0x0C, 0x10]) := by decide

theorem witness_HostStepsOnPorts :
    ((withReader .p0 0 0 0 State.reset).reader .p0).opened = true ∧ codecBusy (issued .decode State.reset) = true
      ∧ ((State.reset.reader .p1).opened = false ∧ codecBusy State.reset = false)
      ∧ ∃ t, step (withReader .p0 0 0 0 State.reset) = .next t := ⟨by decide, by decide, by decide, _, rfl⟩

/-! ### Readers -/

/-- R0 after three bits of B4 A0, V-BIO-4. -/
def bio4Three : State := withReader .p0 1 0xB4 5 bio4

theorem bio4Three_ok : ReaderOk (bio4Three.reader .p0) (bio4Three.source .p0).data :=
  ⟨by decide, by decide, by decide, by decide⟩

/-- R0 at the end of B4 A0, V-BIO-4. -/
def bio4End : State := withReader .p0 2 0xA0 0 bio4

theorem bio4End_ok : ReaderOk (bio4End.reader .p0) (bio4End.source .p0).data :=
  ⟨by decide, by decide, by decide, by decide⟩

/-- R0 between B4 and A0, SRC0 unavailable. -/
def bio4Off : State := noSource .p0 (withReader .p0 1 0xB4 0 bio4)

theorem bio4Off_ok : ReaderOk (bio4Off.reader .p0) (bio4Off.source .p0).data :=
  ⟨by decide, by decide, by decide, by decide⟩

theorem witness_RdOpenRewindsAndRdCloseDiscards :
    (bio4.source .p0).avail = true ∧ (bio4Off.source .p0).avail = false := by decide

theorem witness_RdBitReturnsTheNextBit :
    (ReaderOk (bio4.reader .p0) (bio4.source .p0).data ∧ (bio4.reader .p0).opened = false)
    ∧ (ReaderOk (bio4End.reader .p0) (bio4End.source .p0).data ∧ (bio4End.reader .p0).opened = true ∧ bio4End.unread .p0 = [])
    ∧ (ReaderOk (bio4Off.reader .p0) (bio4Off.source .p0).data ∧ (bio4Off.reader .p0).opened = true
      ∧ bio4Off.unread .p0 = byteBits 0xA0 ∧ (bio4Off.reader .p0).cnt = 0 ∧ (bio4Off.source .p0).avail = false)
    ∧ ReaderOk (bio4Three.reader .p0) (bio4Three.source .p0).data ∧ (bio4Three.reader .p0).opened = true
      ∧ bio4Three.unread .p0 = true :: ([false, true, false, false] ++ byteBits 0xA0) ∧ (bio4Three.reader .p0).cnt ≠ 0 :=
  ⟨⟨⟨by decide, by decide, by decide, by decide⟩, by decide⟩, ⟨bio4End_ok, by decide⟩, ⟨bio4Off_ok, by decide⟩, bio4Three_ok,
    by decide⟩

theorem witness_RdByteReturnsTheNextEightBits :
    (ReaderOk (bio4.reader .p0) (bio4.source .p0).data ∧ (bio4.reader .p0).opened = false)
    ∧ (ReaderOk (bio4End.reader .p0) (bio4End.source .p0).data ∧ (bio4End.reader .p0).opened = true
      ∧ (bio4End.unread .p0).length < 8)
    ∧ (ReaderOk (bio4Off.reader .p0) (bio4Off.source .p0).data ∧ (bio4Off.reader .p0).opened = true
      ∧ bio4Off.unread .p0 = byteBits 0xA0 ++ [] ∧ (bio4Off.source .p0).avail = false)
    ∧ ReaderOk (bio4Three.reader .p0) (bio4Three.source .p0).data ∧ (bio4Three.reader .p0).opened = true
      ∧ bio4Three.unread .p0 = byteBits 0xA5 ++ List.replicate 5 false ∧ (bio4Three.source .p0).avail = true :=
  ⟨⟨⟨by decide, by decide, by decide, by decide⟩, by decide⟩, ⟨bio4End_ok, by decide⟩, ⟨bio4Off_ok, by decide⟩, bio4Three_ok,
    by decide⟩

theorem witness_RdAtEndTellsWhetherABitIsLeft :
    (bio4.reader .p0).opened = false ∧ (bio4Three.reader .p0).opened = true := by decide

theorem witness_ReadByteEqualsEightReadBits :
    (ReaderOk (bio4Three.reader .p0) (bio4Three.source .p0).data ∧ (bio4Three.reader .p0).opened = true
      ∧ (bio4Three.source .p0).avail = true ∧ 8 ≤ (bio4Three.unread .p0).length)
    ∧ ReaderOk (bio4End.reader .p0) (bio4End.source .p0).data ∧ (bio4End.reader .p0).opened = true
      ∧ (bio4End.unread .p0).length < 8 :=
  ⟨⟨bio4Three_ok, by decide⟩, bio4End_ok, by decide⟩

/-! ### Writers -/

/-- W0 after 1, 0, 1, V-BIO-1. -/
def bio1Three : State := withWriter .p0 0xA0 3 State.reset

/-- W0 after seven ones, V-BIO-10. -/
def bio10Seven : State := withWriter .p0 0xFE 7 State.reset

theorem bio1Three_ok : WriterOk (bio1Three.writer .p0) := ⟨by decide, by decide⟩

theorem bio10Seven_ok : WriterOk (bio10Seven.writer .p0) := ⟨by decide, by decide⟩

theorem witness_WrOpenStartsAFreshArtifact :
    (bio1Three.writer .p0).opened = true
      ∧ (((noSink .p0 State.reset).writer .p0).opened = false ∧ ((noSink .p0 State.reset).sink .p0).avail = false)
      ∧ (State.reset.writer .p0).opened = false ∧ (State.reset.sink .p0).avail = true := by decide

theorem witness_WrCloseFlushesPendingBits :
    (State.reset.writer .p0).opened = false
    ∧ (((withWriter .p0 0 0 State.reset).writer .p0).opened = true ∧ ((withWriter .p0 0 0 State.reset).writer .p0).n = 0)
    ∧ (((noSink .p0 bio10Seven).writer .p0).opened = true ∧ ((noSink .p0 bio10Seven).writer .p0).n ≠ 0
      ∧ ((noSink .p0 bio10Seven).sink .p0).avail = false)
    ∧ (bio10Seven.writer .p0).opened = true ∧ (bio10Seven.writer .p0).n ≠ 0 ∧ (bio10Seven.sink .p0).avail = true
      ∧ WriterOk (bio10Seven.writer .p0) :=
  ⟨by decide, by decide, by decide, by decide, by decide, by decide, bio10Seven_ok⟩

theorem witness_WrBitAppendsItsBit :
    (WriterOk (State.reset.writer .p0) ∧ (State.reset.writer .p0).opened = false)
    ∧ (WriterOk ((noSink .p0 bio10Seven).writer .p0) ∧ ((noSink .p0 bio10Seven).writer .p0).opened = true
      ∧ ((noSink .p0 bio10Seven).writer .p0).n = 7 ∧ ((noSink .p0 bio10Seven).sink .p0).avail = false)
    ∧ (WriterOk (bio1Three.writer .p0) ∧ (bio1Three.writer .p0).opened = true ∧ (bio1Three.writer .p0).n ≠ 7)
    ∧ WriterOk (bio10Seven.writer .p0) ∧ (bio10Seven.writer .p0).opened = true ∧ (bio10Seven.writer .p0).n = 7
      ∧ (bio10Seven.sink .p0).avail = true :=
  ⟨⟨⟨by decide, by decide⟩, by decide⟩, ⟨bio10Seven_ok, by decide⟩, ⟨bio1Three_ok, by decide⟩, bio10Seven_ok, by decide⟩

theorem witness_WrByteAppendsEightBits :
    (WriterOk (State.reset.writer .p0) ∧ (State.reset.writer .p0).opened = false)
    ∧ (WriterOk ((noSink .p0 bio1Three).writer .p0) ∧ ((noSink .p0 bio1Three).writer .p0).opened = true
      ∧ ((noSink .p0 bio1Three).sink .p0).avail = false)
    ∧ WriterOk (bio1Three.writer .p0) ∧ (bio1Three.writer .p0).opened = true ∧ (bio1Three.sink .p0).avail = true :=
  ⟨⟨⟨by decide, by decide⟩, by decide⟩, ⟨bio1Three_ok, by decide⟩, bio1Three_ok, by decide⟩

theorem witness_WriteByteEqualsEightWriteBits :
    WriterOk (bio1Three.writer .p0) ∧ (bio1Three.writer .p0).opened = true ∧ (bio1Three.sink .p0).avail = true :=
  ⟨bio1Three_ok, by decide⟩

theorem witness_WriterFraming :
    (WriterOk (bio10Seven.writer .p0) ∧ (bio10Seven.writer .p0).opened = true ∧ (bio10Seven.sink .p0).avail = true)
    ∧ WriterOk ((noSink .p0 (withWriter .p0 0 0 State.reset)).writer .p0)
      ∧ ((noSink .p0 (withWriter .p0 0 0 State.reset)).writer .p0).opened = true
      ∧ ((noSink .p0 (withWriter .p0 0 0 State.reset)).writer .p0).n = 0 :=
  ⟨⟨bio10Seven_ok, by decide⟩, ⟨by decide, by decide⟩, rfl, rfl⟩

theorem witness_BitStreamRoundTrip :
    (State.reset.writer .p1).opened = false ∧ (State.reset.sink .p1).avail = true
      ∧ ∀ t : State, (withSource .p0 (t.sink .p1).data t).source .p0 = { data := (t.sink .p1).data, avail := true } :=
  ⟨by decide, by decide, fun _ => rfl⟩

/-! ### Tables -/

/-- R0 open at the start of these bytes. -/
def fresh (data : List Byte) : State := withReader .p0 0 0 0 (withSource .p0 data State.reset)

theorem fresh_ok (data : List Byte) (i : Instr) : ReaderOk ((issued i (fresh data)).reader .p0) ((issued i (fresh data)).source .p0).data :=
  ⟨(fun h => by cases h), Nat.zero_le _, (fun _ => ⟨rfl, rfl⟩), fun h => absurd h (Nat.lt_irrefl 0)⟩

theorem fresh_unread (data : List Byte) (i : Instr) : (issued i (fresh data)).unread .p0 = bytesBits data := rfl

/-- V-TREE-2 before FREQ_COUNT. -/
def tree2 : State := withReader .p0 1 0x41 7 (withSource .p0 [0x41, 0x42] State.reset)

theorem witness_FreqCountCountsTheBytesLeft_closed :
    Starts (.freqCount .p0) (issued (.freqCount .p0) State.reset)
      ∧ ((issued (.freqCount .p0) State.reset).reader .p0).opened = false := ⟨accept_starts (by decide) _, by decide⟩

theorem witness_FreqCountCountsTheBytesLeft_exhausted :
    let s := issued (.freqCount .p0) (noSource .p0 (fresh []))
    Starts (.freqCount .p0) s ∧ ReaderOk (s.reader .p0) (s.source .p0).data ∧ (s.reader .p0).opened = true
      ∧ s.unread .p0 = [] :=
  ⟨accept_starts (by decide) _, ⟨by decide, by decide, by decide, by decide⟩, rfl, rfl⟩

theorem witness_FreqCountCountsTheBytesLeft_aligned :
    let s := issued (.freqCount .p0) (fresh [0x41, 0x42, 0x43])
    Starts (.freqCount .p0) s ∧ ReaderOk (s.reader .p0) (s.source .p0).data ∧ (s.reader .p0).opened = true
      ∧ (s.source .p0).avail = true ∧ s.unread .p0 = bytesBits [0x41, 0x42, 0x43] ++ []
      ∧ ([0x41, 0x42, 0x43] : List Byte).length ≤ s.params.maxLen :=
  ⟨accept_starts (by decide) _, fresh_ok _ _, rfl, rfl, by decide, by decide⟩

theorem witness_FreqCountCountsTheBytesLeft_unaligned :
    let s := issued (.freqCount .p0) tree2
    Starts (.freqCount .p0) s ∧ ReaderOk (s.reader .p0) (s.source .p0).data ∧ (s.reader .p0).opened = true
      ∧ (s.source .p0).avail = true ∧ s.unread .p0 = bytesBits [0x82] ++ [true, false, false, false, false, true, false]
      ∧ ([0x82] : List Byte).length ≤ s.params.maxLen :=
  ⟨accept_starts (by decide) _, ⟨by decide, by decide, by decide, by decide⟩, rfl, rfl, by decide, by decide⟩

theorem witness_FreqCountCountsTheBytesLeft_overflow :
    let s := issued (.freqCount .p0) { fresh [0x41, 0x42] with params := { Config.Params.defaults with cntW := 1 } }
    Starts (.freqCount .p0) s ∧ ReaderOk (s.reader .p0) (s.source .p0).data ∧ (s.reader .p0).opened = true
      ∧ (s.source .p0).avail = true ∧ s.unread .p0 = bytesBits [0x41, 0x42] ++ []
      ∧ s.params.maxLen < ([0x41, 0x42] : List Byte).length :=
  ⟨accept_starts (by decide) _, ⟨by decide, by decide, by decide, by decide⟩, rfl, rfl, by decide, by decide⟩

theorem witness_FreqCountCountsTheBytesLeft_unavailable :
    let s := issued (.freqCount .p0) bio4Off
    let t := s.goto .count
    (Starts (.freqCount .p0) s ∧ ReaderOk (s.reader .p0) (s.source .p0).data ∧ (s.reader .p0).opened = true
      ∧ (s.reader .p0).pos < (s.source .p0).data.length ∧ (s.source .p0).avail = false)
    ∧ t.running = some (.legal (.freqCount .p0)) ∧ t.pos = .count ∧ (t.reader .p0).pos < (t.source .p0).data.length
      ∧ (t.source .p0).avail = false :=
  ⟨⟨accept_starts (by decide) _, bio4Off_ok, by decide⟩, by decide⟩

/-- R0 after the first bit of a one-byte source that is unavailable. -/
def restOff : State := noSource .p0 (withReader .p0 1 0x41 7 (withSource .p0 [0x41] State.reset))

theorem witness_FreqCountCountsTheBytesLeft_no_byte_left :
    let s := issued (.freqCount .p0) restOff
    let t := s.goto .count
    (Starts (.freqCount .p0) s ∧ ReaderOk (s.reader .p0) (s.source .p0).data ∧ (s.reader .p0).opened = true
      ∧ (s.source .p0).avail = false ∧ (s.source .p0).data.length ≤ (s.reader .p0).pos
      ∧ s.unread .p0 = bytesBits [] ++ [true, false, false, false, false, false, true]
      ∧ ([] : List Byte).length ≤ s.params.maxLen)
    ∧ t.running = some (.legal (.freqCount .p0)) ∧ t.pos = .count ∧ (t.source .p0).data.length ≤ (t.reader .p0).pos
      ∧ (t.reader .p0).cnt ≠ 0 :=
  ⟨⟨accept_starts (by decide) _, ⟨by decide, by decide, by decide, by decide⟩, by decide⟩, by decide⟩

/-- The counts of V-TREE-1. -/
def tree1 : State := { State.reset with freq := ((FreqTable.zero.bump 0x41).bump 0x42).bump 0x43, total := 3 }

theorem tree1_used : usedSymbols tree1.freq = [0x41, 0x42, 0x43] := by decide

/-- The block after reset, of an implementation that follows the text of R186 on EmptyFreq (log 13). -/
def invalidating : State := { State.reset with params := { Config.Params.defaults with emptyFreqKeepsTree := false } }

theorem witness_TreeBuildStoresTheTree :
    ((∀ v, State.reset.freq.count v = 0) ∧ State.reset.params.emptyFreqKeepsTree = true)
      ∧ ((∀ v, invalidating.freq.count v = 0) ∧ invalidating.params.emptyFreqKeepsTree = false) ∧ tree1.freq.count 0x41 ≠ 0 ∧ 2 ≤ (usedSymbols tree1.freq).length
      ∧ usedSymbols (FreqTable.zero.bump 0xFF) = [0xFF] :=
  ⟨⟨fun v => FreqTable.count_zero v, rfl⟩, ⟨fun v => FreqTable.count_zero v, rfl⟩, by decide, by rw [tree1_used]; decide, by decide⟩

theorem witness_ConstructionQueueIsOrdered :
    let q : List QNode := [⟨1, 0x41, .leaf 0x41⟩, ⟨1, 0x42, .leaf 0x42⟩, ⟨2, 0x43, .leaf 0x43⟩]
    (q.Pairwise keyLt ∧ (q.map QNode.rank).Nodup ∧ ∀ x ∈ q, x.rank < 256 + 0)
      ∧ usedSymbols FreqTable.zero = [] ∧ usedSymbols (FreqTable.zero.bump 0xFF) = [0xFF]
      ∧ 2 ≤ (usedSymbols tree1.freq).length :=
  ⟨⟨by simp [keyLt], by decide, by decide⟩, by decide, by decide, by rw [tree1_used]; decide⟩

-- V-TREE-3, by R182 to R184: 0x41 and 0x42 are combined first, then 0x43, of rank 0x43 < 256, and their node.
theorem witness_ConstructionQueueIsOrdered_rounds :
    Rounds 0 [⟨1, 0x41, .leaf 0x41⟩, ⟨1, 0x42, .leaf 0x42⟩, ⟨1, 0x43, .leaf 0x43⟩] abcTree :=
  .round (.refl _) (by simp [keyLt]) (by simp [keyLt])
    (.round (.swap _ _ _) (by simp [keyLt]) (by simp) (.last 2 _))

theorem tree1_freqOk : FreqOk tree1 := ⟨by decide, by decide⟩

theorem witness_BuiltTreeWeighsTotal :
    FreqOk tree1 ∧ 2 ≤ (usedSymbols tree1.freq).length ∧ buildTree tree1.freq = some abcTree :=
  ⟨tree1_freqOk, by rw [tree1_used]; decide, by decide⟩

/-- W1 open, the tree of V-TREE-3 stored, TREE_SER accepted. -/
def serializing : State := issued (.treeSer .p1) (withWriter .p1 0 0 (withTree abcTree State.reset))

theorem writerZero_ok : WriterOk { opened := true, acc := 0, n := 0 } := ⟨by decide, by decide⟩

theorem witness_TreeSerWritesTheSerializedTree :
    (Starts (.treeSer .p1) (issued (.treeSer .p1) State.reset) ∧ WriterOk ((issued (.treeSer .p1) State.reset).writer .p1)
      ∧ ((issued (.treeSer .p1) State.reset).writer .p1).opened = false)
    ∧ (Starts (.treeSer .p1) (issued (.treeSer .p1) (withWriter .p1 0 0 State.reset))
      ∧ WriterOk ((issued (.treeSer .p1) (withWriter .p1 0 0 State.reset)).writer .p1)
      ∧ ((issued (.treeSer .p1) (withWriter .p1 0 0 State.reset)).writer .p1).opened = true
      ∧ (issued (.treeSer .p1) (withWriter .p1 0 0 State.reset)).tree = none)
    ∧ (Starts (.treeSer .p1) serializing ∧ WriterOk (serializing.writer .p1) ∧ (serializing.writer .p1).opened = true
      ∧ serializing.tree = some abcTree ∧ (serializing.sink .p1).avail = true)
    ∧ Starts (.treeSer .p1) (issued (.treeSer .p1) (noSink .p1 serializing))
      ∧ WriterOk ((noSink .p1 serializing).writer .p1) ∧ ((noSink .p1 serializing).writer .p1).opened = true
      ∧ (noSink .p1 serializing).tree = some abcTree ∧ ((noSink .p1 serializing).sink .p1).avail = false
      ∧ 8 ≤ ((noSink .p1 serializing).writer .p1).n.val + (todoBits [.value 0x42]).length :=
  ⟨⟨accept_starts (by decide) _, ⟨by decide, by decide⟩, rfl⟩, ⟨accept_starts (by decide) _, writerZero_ok, rfl, rfl⟩,
    ⟨accept_starts (by decide) _, writerZero_ok, rfl, rfl, rfl⟩, accept_starts (by decide) _, writerZero_ok, rfl, rfl, rfl,
    by decide⟩

theorem witness_TreeDeserReadsATree :
    let s := issued (.treeDeser .p0) (fresh [0x20, 0x80])
    (Starts (.treeDeser .p0) (issued (.treeDeser .p0) bio4) ∧ ((issued (.treeDeser .p0) bio4).reader .p0).opened = false)
    ∧ Starts (.treeDeser .p0) s ∧ ReaderOk (s.reader .p0) (s.source .p0).data ∧ (s.reader .p0).opened = true
      ∧ (s.source .p0).avail = true ∧ (HTree.leaf 0x41).size ≤ s.params.nodeCap
      ∧ s.unread .p0 = (HTree.leaf 0x41).ser ++ List.replicate 7 false :=
  ⟨⟨accept_starts (by decide) _, rfl⟩, accept_starts (by decide) _, fresh_ok _ _, rfl, rfl, by decide, by decide⟩

/-- A right-leaning chain with n internal nodes. -/
def chain : Nat → HTree
  | 0 => .leaf 0
  | n + 1 => .internal (.leaf 0) (chain n)

theorem chain_size (n : Nat) : (chain n).size = 2 * n + 1 := by
  induction n with
  | zero => rfl
  | succ n ih => simp only [chain, HTree.size, ih]; omega

theorem bytesBits_ones (n : Nat) : bytesBits (List.replicate n 0xFF) = List.replicate (8 * n) true := by
  induction n with
  | zero => rfl
  | succ n ih => rw [List.replicate_succ, bytesBits_cons, ih]; rfl

theorem framesBits_left (n : Nat) : framesBits (List.replicate n .wantLeft) = List.replicate n true := by
  induction n with
  | zero => rfl
  | succ n ih => rw [List.replicate_succ, framesBits, ih, ← List.replicate_succ']

theorem framesSize_left (n : Nat) : framesSize (List.replicate n .wantLeft) = n := by
  simp [framesSize, Frame.size]

-- V-TREE-13's empty stream, a stream that ends inside a leaf's value, and V-TREE-12's 512 marker bits.
theorem witness_BadTreeStreamsAreRefused :
    let hyps (data : List Byte) (fs : List Frame) (tail : Bits) :=
      let s := issued (.treeDeser .p0) (fresh data)
      Starts (.treeDeser .p0) s ∧ ReaderOk (s.reader .p0) (s.source .p0).data ∧ (s.reader .p0).opened = true
        ∧ (s.source .p0).avail = true ∧ s.unread .p0 = framesBits fs ++ tail
    (hyps [] [] [] ∧ framesSize [] ≤ State.reset.params.nodeCap)
    ∧ (hyps [0x80] [.wantLeft] (false :: List.replicate 6 false) ∧ framesSize [.wantLeft] < State.reset.params.nodeCap)
    ∧ hyps (List.replicate 64 0xFF) (List.replicate 511 .wantLeft) [true]
      ∧ framesSize (List.replicate 511 .wantLeft) = State.reset.params.nodeCap :=
  ⟨⟨⟨accept_starts (by decide) _, fresh_ok _ _, rfl, rfl, rfl⟩, by decide⟩,
    ⟨⟨accept_starts (by decide) _, fresh_ok _ _, rfl, rfl, by decide⟩, by decide⟩,
    ⟨accept_starts (by decide) _, fresh_ok _ _, rfl, rfl, by
      rw [fresh_unread, bytesBits_ones, framesBits_left]; exact List.replicate_succ'⟩,
    framesSize_left 511⟩

/-- TREE_DESER accepted with three marker bits buffered, the last a leaf's, and no byte to be pulled. -/
def deserOff : State := issued (.treeDeser .p0) (noSource .p0 (withReader .p0 1 0x06 3 (withSource .p0 [0x06, 0x41] State.reset)))

theorem witness_BadTreeStreamsAreRefused_unavailable :
    deserOff.running = some (.legal (.treeDeser .p0)) ∧ ReaderOk (deserOff.reader .p0) (deserOff.source .p0).data
      ∧ (deserOff.reader .p0).opened = true ∧ (deserOff.source .p0).avail = false
      ∧ (deserOff.reader .p0).pos < (deserOff.source .p0).data.length
      ∧ (deserOff.pos = .start ∧ markerCount (deserOff.buffered .p0) ≤ deserOff.params.nodeCap)
      ∧ ((deserOff.goto (.desNode [.wantLeft] 1)).pos = .desNode [.wantLeft] 1
        ∧ 1 + markerCount ((deserOff.goto (.desNode [.wantLeft] 1)).buffered .p0) ≤ deserOff.params.nodeCap)
      ∧ (deserOff.goto (.desLeaf [] 1)).pos = .desLeaf [] 1 :=
  ⟨rfl, ⟨by decide, by decide, by decide, by decide⟩, rfl, rfl, by decide, by decide, by decide, rfl⟩

theorem witness_BadTreeStreamsAreRefused_no_byte_left :
    let s (v : Byte) (left : Fin 8) := issued (.treeDeser .p0) (noSource .p0 (withReader .p0 1 v left (withSource .p0 [v] State.reset)))
    let small := { s 0x03 2 with params := { Config.Params.defaults with nodeCap := 1 } }
    let hyps (s : State) (fs : List Frame) (tail : Bits) :=
      Starts (.treeDeser .p0) s ∧ ReaderOk (s.reader .p0) (s.source .p0).data ∧ (s.reader .p0).opened = true
        ∧ (s.source .p0).avail = false ∧ (s.source .p0).data.length ≤ (s.reader .p0).pos
        ∧ s.unread .p0 = framesBits fs ++ tail
    (hyps (s 0x03 2) [.wantLeft, .wantLeft] [] ∧ framesSize [.wantLeft, .wantLeft] ≤ (s 0x03 2).params.nodeCap
      ∧ markerCount ((s 0x03 2).buffered .p0) ≤ (s 0x03 2).params.nodeCap)
    ∧ (hyps (s 0x05 3) [.wantLeft] (false :: [true]) ∧ framesSize [.wantLeft] < (s 0x05 3).params.nodeCap)
    ∧ (hyps small [.wantLeft] [true] ∧ framesSize [.wantLeft] = small.params.nodeCap
      ∧ small.params.nodeCap < markerCount (small.buffered .p0))
    ∧ ((s 0x03 2).goto (.desNode [] 511)).running = some (.legal (.treeDeser .p0)) ∧ 511 ≤ (s 0x03 2).params.nodeCap
      ∧ (s 0x03 2).params.nodeCap < 511 + markerCount ((s 0x03 2).buffered .p0)
      ∧ ((s 0x03 2).goto (.desLeaf [] 1)).running = some (.legal (.treeDeser .p0)) :=
  ⟨⟨⟨accept_starts (by decide) _, ⟨by decide, by decide, by decide, by decide⟩, by decide⟩, by decide, by decide⟩,
    ⟨⟨accept_starts (by decide) _, ⟨by decide, by decide, by decide, by decide⟩, by decide⟩, by decide⟩,
    ⟨⟨⟨rfl, rfl, rfl, rfl, rfl, rfl, rfl, rfl, rfl, rfl, rfl⟩, ⟨by decide, by decide, by decide, by decide⟩, by decide⟩,
      by decide, by decide⟩,
    rfl, by decide, by decide, rfl⟩

theorem witness_TreeStreamRoundTrip :
    let s := issued (.treeDeser .p0) (fresh ((chain 255).stream ++ [0xFF]))
    Starts (.treeDeser .p0) s ∧ (chain 255).size ≤ s.params.nodeCap
      ∧ s.source .p0 = { data := (chain 255).stream ++ [0xFF], avail := true }
      ∧ s.reader .p0 = { opened := true, pos := 0, buf := 0, cnt := 0 } :=
  ⟨accept_starts (by decide) _, by rw [chain_size]; decide, rfl, rfl⟩

theorem witness_DictBuildStoresThePaths :
    State.reset.tree = none ∧ (withTree abcTree State.reset).tree = some abcTree ∧ abcTree.leaves.Nodup
      ∧ ((buildDict abcTree).code 0x41 = some [true, false] ∧ (buildDict abcTree).code 0x43 = some [false]
        ∧ (0x41 : Byte) ≠ 0x43)
      ∧ buildTree tree1.freq = some abcTree := ⟨rfl, rfl, by decide, by decide, by decide⟩

/-- The tree and dictionary of V-TREE-3 stored. -/
def tree3 : State := withDict (withTree abcTree State.reset)

theorem defaults_ok : Config.Params.defaults.Ok := ⟨by decide, by decide⟩

theorem tree3_ok : TablesOk tree3 where
  params := defaults_ok
  nodes := by decide
  fits t h := by cases h; decide
  dict _ := ⟨abcTree, rfl, rfl⟩
  cursor := by decide
  pads := by decide
  pos := trivial

theorem witness_CodesFitTheDepthBound :
    (chain 255).size ≤ Config.Params.defaults.nodeCap ∧ (buildDict abcTree).code 0x41 = some [true, false] ∧ TablesOk tree3
      ∧ tree3.dictValid = true ∧ tree3.dict.code 0x41 = some [true, false] :=
  ⟨by rw [chain_size]; decide, by decide, tree3_ok, rfl, by decide⟩

/-- W0 open with seven bits and the dictionary of V-TREE-3, CODE_EMIT accepted. -/
def emitting : State := issued (.codeEmit .p0 0x41) (withWriter .p0 0xFE 7 tree3)

theorem writerSeven_ok : WriterOk { opened := true, acc := 0xFE, n := 7 } := ⟨by decide, by decide⟩

theorem witness_CodeEmitWritesTheCode_errors :
    (Starts (.codeEmit .p0 0x41) (issued (.codeEmit .p0 0x41) tree3) ∧ WriterOk ((issued (.codeEmit .p0 0x41) tree3).writer .p0)
      ∧ ((issued (.codeEmit .p0 0x41) tree3).writer .p0).opened = false)
    ∧ (Starts (.codeEmit .p0 0x41) (issued (.codeEmit .p0 0x41) bio10Seven)
      ∧ WriterOk ((issued (.codeEmit .p0 0x41) bio10Seven).writer .p0)
      ∧ ((issued (.codeEmit .p0 0x41) bio10Seven).writer .p0).opened = true
      ∧ (issued (.codeEmit .p0 0x41) bio10Seven).dictValid = false)
    ∧ Starts (.codeEmit .p0 0x44) (issued (.codeEmit .p0 0x44) (withWriter .p0 0 0 tree3))
      ∧ WriterOk ((issued (.codeEmit .p0 0x44) (withWriter .p0 0 0 tree3)).writer .p0)
      ∧ ((issued (.codeEmit .p0 0x44) (withWriter .p0 0 0 tree3)).writer .p0).opened = true
      ∧ (issued (.codeEmit .p0 0x44) (withWriter .p0 0 0 tree3)).dictValid = true
      ∧ (issued (.codeEmit .p0 0x44) (withWriter .p0 0 0 tree3)).dict.code 0x44 = none :=
  ⟨⟨accept_starts (by decide) _, ⟨by decide, by decide⟩, rfl⟩, ⟨accept_starts (by decide) _, writerSeven_ok, rfl, rfl⟩,
    accept_starts (by decide) _, writerZero_ok, rfl, rfl, by decide⟩

theorem witness_CodeEmitWritesTheCode :
    Starts (.codeEmit .p0 0x41) emitting ∧ WriterOk (emitting.writer .p0) ∧ (emitting.writer .p0).opened = true
      ∧ emitting.dictValid = true ∧ emitting.dict.code 0x41 = some [true, false]
      ∧ ((emitting.sink .p0).avail = true ∨ (emitting.writer .p0).n.val + [true, false].length < 8)
      ∧ Starts (.codeEmit .p0 0x41) (issued (.codeEmit .p0 0x41) (noSink .p0 emitting))
      ∧ WriterOk ((noSink .p0 emitting).writer .p0) ∧ ((noSink .p0 emitting).writer .p0).opened = true
      ∧ (noSink .p0 emitting).dict.code 0x41 = some [true, false] ∧ ((noSink .p0 emitting).sink .p0).avail = false
      ∧ 8 ≤ ((noSink .p0 emitting).writer .p0).n.val + [true, false].length :=
  ⟨accept_starts (by decide) _, writerSeven_ok, rfl, rfl, by decide, .inl rfl, accept_starts (by decide) _,
    writerSeven_ok, rfl, by decide, rfl, by decide⟩

/-! ### The codec -/

/-- ENCODE accepted on an input of one byte, V-CODEC-6. -/
def encoding : State := issued .encode (withSource .p0 [0xFF] State.reset)

theorem witness_EncodeWritesBothStreams :
    Starts .encode encoding ∧ encoding.w0.opened = false ∧ encoding.w1.opened = false
      ∧ encoding.src0 = { data := [0xFF], avail := true } ∧ encoding.snk0.avail = true ∧ encoding.snk1.avail = true
      ∧ ([0xFF] : List Byte) ≠ [] ∧ ([0xFF] : List Byte).length ≤ encoding.params.maxLen :=
  ⟨accept_starts (by decide) _, rfl, rfl, rfl, rfl, rfl, by decide, by decide⟩

theorem witness_EncodeOfEmptyInput :
    Starts .encode (issued .encode State.reset) ∧ (issued .encode State.reset).w0.opened = false
      ∧ (issued .encode State.reset).w1.opened = false
      ∧ (issued .encode State.reset).src0 = { data := [], avail := true } :=
  ⟨accept_starts (by decide) _, rfl, rfl, rfl⟩

theorem witness_CodecStartChecks :
    (Starts .encode (issued .encode (withWriter .p1 0 0 State.reset))
      ∧ (issued .encode (withWriter .p1 0 0 State.reset)).w1.opened = true)
    ∧ Starts .decode (issued .decode (withWriter .p0 0 0 State.reset))
      ∧ (issued .decode (withWriter .p0 0 0 State.reset)).w0.opened = true :=
  ⟨⟨accept_starts (by decide) _, rfl⟩, accept_starts (by decide) _, rfl⟩

/-- DECODE accepted on the streams of V-DEC-1. -/
def dec1 : State := issued .decode (withSource .p1 [0xFF, 0x7F] (withSource .p0 [0x90, 0xE4, 0x12, 0x10] State.reset))

theorem witness_DecodeWritesTheLeavesReached :
    Starts .decode dec1 ∧ dec1.w0.opened = false ∧ dec1.src0.avail = true ∧ dec1.src1.avail = true
      ∧ dec1.snk0.avail = true ∧ abcTree.size ≤ dec1.params.nodeCap
      ∧ bytesBits dec1.src0.data = abcTree.ser ++ [false, false, false]
      ∧ bytesBits dec1.src1.data = List.replicate 8 true
          ++ false :: ((List.replicate 3 ([true, true], (0x42 : Byte))).flatMap Prod.fst ++ [true])
      ∧ (∀ e ∈ List.replicate 3 ([true, true], (0x42 : Byte)), abcTree.node e.1 = some (.leaf e.2))
      ∧ abcTree.node [true] = some (.internal (.leaf 0x41) (.leaf 0x42)) :=
  ⟨accept_starts (by decide) _, rfl, rfl, rfl, rfl, by decide, by decide, by decide, by decide, by decide⟩

/-- DECODE accepted on the streams of V-ERR-12. -/
def err12 : State := issued .decode (withSource .p1 [0xD6] (withSource .p0 [0x20, 0x80] State.reset))

/-- DECODE accepted on the streams of V-ERR-15. -/
def err15 : State := issued .decode (withSource .p1 [0xFF] (withSource .p0 [0x90, 0xE4, 0x12, 0x10] State.reset))

theorem witness_DecodeRefusesLeafTreesAndUnendedPadding :
    (Starts .decode err12 ∧ err12.w0.opened = false ∧ err12.src0.avail = true ∧ err12.snk0.avail = true
      ∧ 1 ≤ err12.params.nodeCap ∧ bytesBits err12.src0.data = (HTree.leaf 0x41).ser ++ List.replicate 7 false)
    ∧ Starts .decode err15 ∧ err15.w0.opened = false ∧ err15.src0.avail = true ∧ err15.src1.avail = true
      ∧ err15.snk0.avail = true ∧ abcTree.size ≤ err15.params.nodeCap
      ∧ bytesBits err15.src0.data = abcTree.ser ++ [false, false, false] ∧ ∀ b ∈ bytesBits err15.src1.data, b = true :=
  ⟨⟨accept_starts (by decide) _, rfl, rfl, rfl, by decide, by decide⟩, accept_starts (by decide) _, rfl, rfl, rfl, rfl, by decide,
    by decide, by decide⟩

theorem witness_DecodeRefusesLeafTreesAndUnendedPadding_badTree :
    let hyps (data : List Byte) (fs : List Frame) (tail : Bits) :=
      let s := issued .decode (withSource .p0 data State.reset)
      Starts .decode s ∧ s.w0.opened = false ∧ s.src0.avail = true ∧ s.snk0.avail = true
        ∧ bytesBits s.src0.data = framesBits fs ++ tail
    (hyps [] [] [] ∧ framesSize [] ≤ State.reset.params.nodeCap)
    ∧ (hyps [0x80] [.wantLeft] (false :: List.replicate 6 false) ∧ framesSize [.wantLeft] < State.reset.params.nodeCap)
    ∧ hyps (List.replicate 64 0xFF) (List.replicate 511 .wantLeft) [true]
      ∧ framesSize (List.replicate 511 .wantLeft) = State.reset.params.nodeCap :=
  ⟨⟨⟨accept_starts (by decide) _, rfl, rfl, rfl, rfl⟩, by decide⟩,
    ⟨⟨accept_starts (by decide) _, rfl, rfl, rfl, by decide⟩, by decide⟩,
    ⟨accept_starts (by decide) _, rfl, rfl, rfl, by
      rw [framesBits_left]; exact (bytesBits_ones 64).trans List.replicate_succ'⟩,
    framesSize_left 511⟩

theorem witness_CodecRoundTrip :
    State.reset.params.Ok ∧ State.reset.busy = false ∧ State.reset.running = none ∧ (∀ p, (State.reset.reader p).opened = false)
      ∧ (∀ p, (State.reset.writer p).opened = false) ∧ (∀ p, (State.reset.sink p).avail = true)
      ∧ State.reset.src1.avail = true ∧ ([0x00] : List Byte) ≠ [] ∧ ([0x00] : List Byte).length ≤ State.reset.params.maxLen :=
  ⟨defaults_ok, rfl, rfl, fun p => by cases p <;> rfl, fun p => by cases p <;> rfl, fun p => by cases p <;> rfl, rfl, by decide, by decide⟩

theorem witness_EncodeIsDeterministic :
    ((∃ v, tree1.freq.count v ≠ 0) ∧ ∃ t, exec .treeBuild tree1 = .next t) ∧ Starts .encode encoding
      ∧ Starts .encode (issued .encode (withSource .p0 [0xFF] tree3)) ∧ encoding.w0.opened = false
      ∧ encoding.w1.opened = false ∧ encoding.src0.avail = true
      ∧ (issued .encode (withSource .p0 [0xFF] tree3)).src0 = encoding.src0 ∧ encoding.snk0.avail = true
      ∧ encoding.snk1.avail = true ∧ encoding.src0.data ≠ [] ∧ encoding.src0.data.length ≤ encoding.params.maxLen
      ∧ (issued .encode (withSource .p0 [0xFF] tree3)).params = encoding.params :=
  ⟨⟨⟨0x41, by decide⟩, _, rfl⟩, accept_starts (by decide) _, accept_starts (by decide) _, rfl, rfl, rfl, rfl, rfl, rfl, by decide,
    by decide, rfl⟩

/-- ENCODE before "end normally". -/
def encodeFinishing : State := { encoding with pos := .finish, phase := .eClose, padBits := 7 }

/-- DECODE before "end normally". -/
def decodeFinishing : State := { dec1 with pos := .finish, phase := .dClose }

theorem witness_CodecEndsWithItsPortsClosed :
    (PortsHeld encodeFinishing ∧ encodeFinishing.running = some (.legal .encode)
      ∧ engineStep encodeFinishing = .next (normalEnd encodeFinishing) ∧ (normalEnd encodeFinishing).running = none)
    ∧ PortsHeld decodeFinishing ∧ decodeFinishing.running = some (.legal .decode)
      ∧ engineStep decodeFinishing = .next (normalEnd decodeFinishing) ∧ (normalEnd decodeFinishing).running = none :=
  ⟨⟨fun i h => by cases h; exact ⟨rfl, rfl, rfl, by decide⟩, rfl, rfl, rfl⟩,
    fun i h => by cases h; exact ⟨rfl, rfl, rfl⟩, rfl, rfl, rfl⟩

theorem witness_ReleaseKeepsTheFirstError :
    (∃ t, exec .encode { encoding with pos := .raised .noCode, phase := .eEmit } = .next t)
      ∧ (∃ t, exec .encode { encoding with pos := .relW1 .noCode, phase := .eEmit } = .next t)
      ∧ (∃ t, exec .decode { dec1 with pos := .relW0 .truncatedTree } = .next t)
      ∧ ∃ t, exec .decode { dec1 with pos := .errEnd .truncatedTree } = .next t := ⟨⟨_, rfl⟩, ⟨_, rfl⟩, ⟨_, rfl⟩, _, rfl⟩

/-- ENCODE of V-CODEC-6's input at a position, with its tables built and its ports as given. -/
def encodingAt (q : Pos) (s : State) : State := { encoding with
  pos := q, tree := some (.internal (.leaf 0xFF) (.leaf 0xFE)), nodes := 3, freq := FreqTable.zero.bump 0xFF, total := 1
  dict := buildDict (.internal (.leaf 0xFF) (.leaf 0xFE)), dictValid := true
  r0 := s.r0, w0 := s.w0, w1 := s.w1, src0 := s.src0, snk0 := s.snk0, snk1 := s.snk1 }

-- In the witnesses of EncodeErrorsKeepWhatWasDone and DecodeErrorsKeepWhatWasDone s₀ is the state s itself.
theorem witness_EngineGets (s : State) : EngineGets encodeAct s s ∧ EngineGets decodeAct s s := ⟨.refl s, .refl s⟩

-- The Push of the tree's last value leads the engine to OpenW(1), which fails in the same micro-step (R354).
theorem witness_EncodeErrorsKeepWhatWasDone_open :
    let start := encodingAt (.ser [.value 0xFF]) (noSink .p1 (withWriter .p0 0x80 2 State.reset))
    start.running = some (.legal .encode) ∧ ∃ s, EngineGets encodeAct start s ∧ s.pos = .ser []
      ∧ s.tree = some (.internal (.leaf 0xFF) (.leaf 0xFE)) ∧ s.w1.opened = false ∧ s.snk1.avail = false :=
  ⟨rfl, _, .access rfl (.refl _), rfl, rfl, rfl, rfl⟩

theorem witness_EncodeErrorsKeepWhatWasDone_counting :
    let start := issued .encode (noSource .p0 bio4)
    let off := encodingAt .count (noSource .p0 (withReader .p0 0 0 0 bio4))
    let full := { encodingAt .count (withReader .p0 0 0 0 bio4) with params := { Config.Params.defaults with cntW := 1 } }
    let built := encodingAt .count (noSink .p0 (withReader .p0 1 0xFF 0 (withSource .p0 [0xFF] State.reset)))
    (start.running = some (.legal .encode) ∧ Starts .encode start ∧ start.w0.opened = false ∧ start.w1.opened = false
      ∧ start.src0.avail = false)
    ∧ (off.running = some (.legal .encode) ∧ off.pos = .count ∧ off.r0.pos < off.src0.data.length ∧ off.src0.avail = false)
    ∧ (full.running = some (.legal .encode) ∧ full.pos = .count ∧ full.r0.pos < full.src0.data.length
      ∧ full.src0.avail = true ∧ full.total = full.params.maxLen)
    ∧ built.running = some (.legal .encode) ∧ built.pos = .count ∧ atEnd .p0 built = true ∧ built.total ≠ 0
      ∧ buildTree built.freq = some (.internal (.leaf 0xFF) (.leaf 0xFE)) ∧ built.w0.opened = false
      ∧ built.snk0.avail = false :=
  ⟨⟨rfl, accept_starts (by decide) _, rfl, rfl, rfl⟩, ⟨rfl, rfl, by decide, rfl⟩, ⟨rfl, rfl, by decide, rfl, by decide⟩, rfl,
    rfl, by decide, by decide, by decide, rfl, rfl⟩

theorem witness_EncodeErrorsKeepWhatWasDone_writing :
    let ser := encodingAt (.ser [.value 0xFF]) (noSink .p0 (withWriter .p0 0x80 2 State.reset))
    let done := encodingAt (.ser []) (noSink .p1 (withWriter .p0 0x80 2 State.reset))
    let pad := encodingAt (.pad (List.replicate 8 true)) (noSink .p1 (withWriter .p1 0 0 State.reset))
    let emit := encodingAt (.emit [true]) (noSink .p1 (withWriter .p1 0xFE 7 State.reset))
    (ser.running = some (.legal .encode) ∧ ser.pos = .ser [.value 0xFF] ∧ ser.w0.opened = true ∧ WriterOk ser.w0
      ∧ ser.snk0.avail = false ∧ 8 ≤ ser.w0.n.val + (todoBits [.value 0xFF]).length)
    ∧ (done.running = some (.legal .encode) ∧ done.pos = .ser []
      ∧ done.tree = some (.internal (.leaf 0xFF) (.leaf 0xFE)) ∧ done.w1.opened = false ∧ done.snk1.avail = false)
    ∧ (pad.running = some (.legal .encode) ∧ pad.pos = .pad (List.replicate 8 true) ∧ pad.w1.opened = true
      ∧ WriterOk pad.w1 ∧ pad.snk1.avail = false ∧ 8 ≤ pad.w1.n.val + (List.replicate 8 true).length)
    ∧ emit.running = some (.legal .encode) ∧ emit.pos = .emit [true] ∧ emit.w1.opened = true ∧ WriterOk emit.w1
      ∧ emit.snk1.avail = false ∧ 8 ≤ emit.w1.n.val + [true].length :=
  ⟨⟨rfl, rfl, rfl, ⟨by decide, by decide⟩, rfl, by decide⟩, ⟨rfl, rfl, rfl, rfl, rfl⟩,
    ⟨rfl, rfl, rfl, writerZero_ok, rfl, by decide⟩, rfl, rfl, rfl, writerSeven_ok, rfl, by decide⟩

/-- ENCODE at the end of E_SERTREE, its input as given. -/
def serialized (s : State) : State := encodingAt (.ser []) (withWriter .p0 0x80 2 s)

theorem witness_EncodeErrorsKeepWhatWasDone_reopening :
    let off := serialized (noSource .p0 bio4)
    let other := serialized bio4
    let hyps (s : State) := s.running = some (.legal .encode) ∧ s.pos = .ser []
      ∧ s.tree = some (.internal (.leaf 0xFF) (.leaf 0xFE)) ∧ s.w1.opened = false ∧ s.snk1.avail = true
      ∧ padCount (totalBits s.freq (buildDict (.internal (.leaf 0xFF) (.leaf 0xFE)))) < 8
      ∧ ∃ u, writeBits .p1 (padding (totalBits s.freq (buildDict (.internal (.leaf 0xFF) (.leaf 0xFE)))))
          { padReady (.internal (.leaf 0xFF) (.leaf 0xFE)) s with
            w1 := { opened := true, acc := 0, n := 0 }, snk1 := { data := [], avail := true } } = .ok () u
    (hyps off ∧ off.src0.avail = false)
    ∧ hyps other ∧ other.src0.avail = true ∧ other.src0.data = 0xB4 :: [0xA0]
      ∧ (buildDict (.internal (.leaf 0xFF) (.leaf 0xFE))).code 0xB4 = none := by
  have hsum : ∀ s : State, totalBits (serialized s).freq (buildDict (.internal (.leaf 0xFF) (.leaf 0xFE))) = 1 := fun s => by
    show totalBits (FreqTable.zero.bump 0xFF) _ = 1
    decide
  refine ⟨⟨⟨rfl, rfl, rfl, rfl, rfl, by rw [hsum]; decide, ?_⟩, rfl⟩,
    ⟨rfl, rfl, rfl, rfl, rfl, by rw [hsum]; decide, ?_⟩, rfl, rfl, by decide⟩ <;> (rw [hsum]; exact ⟨_, rfl⟩)

theorem witness_EncodeErrorsKeepWhatWasDone_going_on :
    let padOff := encodingAt (.pad []) (noSource .p0 (withWriter .p1 0xFC 7 bio4))
    let padOther := encodingAt (.pad []) (withWriter .p1 0xFC 7 bio4)
    let off := encodingAt (.emit [true]) (noSource .p0 (withWriter .p1 0xF0 6 (withReader .p0 0 0 0 bio4)))
    let other := encodingAt (.emit [true]) (withWriter .p1 0xF0 6 (withReader .p0 0 0 0 bio4))
    let flush := encodingAt (.emit []) (noSink .p0 (withWriter .p0 0x80 2 (withWriter .p1 0 0 (withReader .p0 2 0xA0 0 bio4))))
    let hyps (s : State) (bits : Bits) := s.running = some (.legal .encode) ∧ s.w1.n.val + bits.length < 8
      ∧ ∃ u, writeBits .p1 bits s = .ok () u
    (hyps padOff [] ∧ padOff.pos = .pad [] ∧ padOff.src0.avail = false)
    ∧ (hyps padOther [] ∧ padOther.pos = .pad [] ∧ padOther.src0.avail = true ∧ padOther.src0.data = 0xB4 :: [0xA0]
      ∧ padOther.dict.code 0xB4 = none)
    ∧ (hyps off [true] ∧ off.pos = .emit [true] ∧ off.r0.pos < off.src0.data.length ∧ off.src0.avail = false)
    ∧ (hyps other [true] ∧ other.pos = .emit [true] ∧ other.r0.pos < other.src0.data.length ∧ other.src0.avail = true
      ∧ ReaderOk other.r0 other.src0.data ∧ other.r0.opened = true ∧ other.unread .p0 = byteBits 0xB4 ++ byteBits 0xA0
      ∧ other.dict.code 0xB4 = none)
    ∧ hyps flush [] ∧ flush.pos = .emit [] ∧ atEnd .p0 flush = true ∧ flush.w0.opened = true ∧ flush.w0.n ≠ 0
      ∧ flush.snk0.avail = false :=
  ⟨⟨⟨rfl, by decide, _, rfl⟩, rfl, rfl⟩, ⟨⟨rfl, by decide, _, rfl⟩, rfl, rfl, rfl, by decide⟩,
    ⟨⟨rfl, by decide, _, rfl⟩, rfl, by decide, rfl⟩,
    ⟨⟨rfl, by decide, _, rfl⟩, rfl, by decide, rfl, ⟨by decide, by decide, by decide, by decide⟩, rfl, by decide, by decide⟩,
    ⟨rfl, by decide, _, rfl⟩, rfl, by decide, rfl, by decide, rfl⟩

theorem witness_EncodeErrorsKeepWhatWasDone_emitting :
    let pad := encodingAt (.pad []) (noSource .p0 bio4)
    let off := encodingAt (.emit []) (noSource .p0 (withReader .p0 0 0 0 bio4))
    let other := encodingAt (.emit []) (withReader .p0 0 0 0 bio4)
    let close := encodingAt .closeW0 (noSink .p0 bio10Seven)
    (pad.running = some (.legal .encode) ∧ pad.pos = .pad [] ∧ pad.src0.avail = false)
    ∧ (off.running = some (.legal .encode) ∧ off.pos = .emit [] ∧ off.r0.pos < off.src0.data.length ∧ off.src0.avail = false)
    ∧ (other.running = some (.legal .encode) ∧ other.pos = .emit [] ∧ other.r0.pos < other.src0.data.length
      ∧ other.src0.avail = true ∧ ReaderOk other.r0 other.src0.data ∧ other.r0.opened = true
      ∧ other.unread .p0 = byteBits 0xB4 ++ byteBits 0xA0 ∧ other.dict.code 0xB4 = none)
    ∧ close.running = some (.legal .encode) ∧ close.pos = .closeW0 ∧ close.w0.opened = true ∧ close.w0.n ≠ 0
      ∧ close.snk0.avail = false :=
  ⟨⟨rfl, rfl, rfl⟩, ⟨rfl, rfl, by decide, rfl⟩,
    ⟨rfl, rfl, by decide, rfl, ⟨by decide, by decide, by decide, by decide⟩, rfl, by decide, by decide⟩, rfl, rfl, rfl, by decide,
    rfl⟩

/-- DECODE of V-DEC-1 at a position, its tree stored. -/
def decodingAt (q : Pos) (s : State) : State := { dec1 with
  pos := q, tree := some abcTree, nodes := 5, r0 := s.r0, r1 := s.r1, w0 := s.w0, src0 := s.src0, src1 := s.src1
  snk0 := s.snk0 }

theorem witness_DecodeErrorsKeepWhatWasDone_tree :
    let noOut := issued .decode (noSink .p0 bio4)
    let noIn := issued .decode (noSource .p0 bio4)
    let leaf := decodingAt (.desLeaf [] 1) bio4Off
    let node := decodingAt (.desNode [.wantLeft] 1) bio4Off
    let done := decodingAt (.desDone abcTree 5) (noSource .p1 bio4)
    let single := decodingAt (.desDone (.leaf 0x41) 1) bio4
    let empty := decodingAt (.desDone abcTree 5) State.reset
    (noOut.running = some (.legal .decode) ∧ Starts .decode noOut ∧ noOut.w0.opened = false ∧ noOut.snk0.avail = false)
    ∧ (noIn.running = some (.legal .decode) ∧ Starts .decode noIn ∧ noIn.w0.opened = false ∧ noIn.snk0.avail = true
      ∧ noIn.src0.avail = false)
    ∧ (leaf.running = some (.legal .decode) ∧ leaf.src0.avail = false ∧ leaf.r0.pos < leaf.src0.data.length
      ∧ leaf.pos = .desLeaf [] 1)
    ∧ (node.running = some (.legal .decode) ∧ node.src0.avail = false ∧ node.r0.pos < node.src0.data.length
      ∧ node.pos = .desNode [.wantLeft] 1 ∧ 1 + markerCount (node.buffered .p0) ≤ node.params.nodeCap)
    ∧ (done.running = some (.legal .decode) ∧ done.pos = .desDone abcTree 5 ∧ abcTree.isLeaf = false ∧ done.src1.avail = false)
    ∧ (single.running = some (.legal .decode) ∧ single.pos = .desDone (.leaf 0x41) 1 ∧ (HTree.leaf 0x41).isLeaf = true)
    ∧ empty.running = some (.legal .decode) ∧ empty.pos = .desDone abcTree 5 ∧ abcTree.isLeaf = false
      ∧ empty.src1.avail = true ∧ empty.src1.data = [] :=
  ⟨⟨rfl, accept_starts (by decide) _, rfl, rfl⟩, ⟨rfl, accept_starts (by decide) _, rfl, rfl, rfl⟩, ⟨rfl, rfl, by decide, rfl⟩,
    ⟨rfl, rfl, by decide, rfl, by decide⟩, ⟨rfl, rfl, rfl, rfl⟩, ⟨rfl, rfl, rfl⟩, rfl, rfl, rfl, rfl, rfl⟩

theorem witness_DecodeErrorsKeepWhatWasDone_tree_stream :
    let leaf := decodingAt (.desLeaf [] 1) bio4End
    let node := decodingAt (.desNode [.wantLeft] 1) bio4End
    let buffered := decodingAt (.desNode [] 511) bio4Three
    let pulled := decodingAt (.desNode [] 511) (withReader .p0 1 0xB4 0 bio4)
    let hyps (s : State) := s.running = some (.legal .decode)
    (hyps leaf ∧ leaf.pos = .desLeaf [] 1 ∧ leaf.src0.data.length ≤ leaf.r0.pos)
    ∧ (hyps node ∧ node.pos = .desNode [.wantLeft] 1 ∧ 1 + markerCount (node.buffered .p0) ≤ node.params.nodeCap
      ∧ node.src0.data.length ≤ node.r0.pos)
    ∧ (hyps buffered ∧ buffered.pos = .desNode [] 511 ∧ 511 ≤ buffered.params.nodeCap
      ∧ buffered.params.nodeCap < 511 + markerCount (buffered.buffered .p0))
    ∧ hyps pulled ∧ pulled.pos = .desNode [] 511 ∧ 511 ≤ pulled.params.nodeCap
      ∧ 511 + (pulled.buffered .p0).length = pulled.params.nodeCap ∧ (∀ b ∈ pulled.buffered .p0, b = true)
      ∧ pulled.r0.pos < pulled.src0.data.length ∧ pulled.src0.avail = true :=
  ⟨⟨rfl, rfl, by decide⟩, ⟨rfl, rfl, by decide, by decide⟩, ⟨rfl, rfl, by decide, by decide⟩, rfl, rfl, by decide, by decide,
    by decide, by decide, rfl⟩

/-- DECODE with R1 after some bits of a first payload byte, the next byte not to be pulled, and W0 open. -/
def payloadOff (q : Pos) (v : Byte) (left : Fin 8) : State :=
  decodingAt q (noSource .p1 (withReader .p1 1 v left (withWriter .p0 0 0 (withSource .p1 [v, 0x00] State.reset))))

theorem witness_DecodeErrorsKeepWhatWasDone_payload :
    let ones := payloadOff .skip 0xFF 3
    let code := payloadOff .skip 0xFD 3
    let walk := payloadOff .walk 0xFF 1
    let write := decodingAt (.write 0x43) (noSink .p0 (withWriter .p0 0 0 State.reset))
    (ones.running = some (.legal .decode) ∧ ones.src1.avail = false ∧ ones.r1.pos < ones.src1.data.length
      ∧ ones.pos = .skip ∧ ∀ b ∈ ones.buffered .p1, b = true)
    ∧ (code.running = some (.legal .decode) ∧ code.src1.avail = false ∧ code.r1.pos < code.src1.data.length
      ∧ code.pos = .skip ∧ code.buffered .p1 = List.replicate 1 true ++ false :: [true]
      ∧ ∀ pre v, pre <+: [true] → pre ≠ [] → code.tree.bind (HTree.node · pre) ≠ some (.leaf v))
    ∧ (walk.running = some (.legal .decode) ∧ walk.src1.avail = false ∧ walk.r1.pos < walk.src1.data.length
      ∧ walk.pos = .walk
      ∧ ∀ pre v, pre <+: walk.buffered .p1 → pre ≠ [] → walk.tree.bind (HTree.node · (walk.cursor ++ pre)) ≠ some (.leaf v))
    ∧ write.running = some (.legal .decode) ∧ write.pos = .write 0x43 ∧ write.snk0.avail = false := by
  have one : ∀ (pre : Bits) (v : Byte), pre <+: [true] → pre ≠ [] → abcTree.node pre ≠ some (.leaf v) := by
    intro pre v h hne
    match pre, hne with
    | b :: rest, _ =>
      obtain ⟨rfl, h2⟩ := List.cons_prefix_cons.1 h
      obtain rfl := List.prefix_nil.1 h2
      simp [abcTree, HTree.node]
  exact ⟨⟨rfl, rfl, by decide, rfl, by decide⟩, ⟨rfl, rfl, by decide, rfl, by decide, one⟩, ⟨rfl, rfl, by decide, rfl, one⟩, rfl, rfl,
    rfl⟩

theorem witness_DecodeErrorsKeepWhatWasDone_buffered :
    let ended := decodingAt .skip (withReader .p1 1 0xFF 3 (withSource .p1 [0xFF] State.reset))
    let skip := decodingAt .skip (noSink .p0 (withReader .p1 1 0xF5 4 (withWriter .p0 0 0 (withSource .p1 [0xF5] State.reset))))
    let walk := decodingAt .walk (noSink .p0 (withReader .p1 1 0xFD 3 (withWriter .p0 0 0 (withSource .p1 [0xFD] State.reset))))
    (ended.running = some (.legal .decode) ∧ ended.pos = .skip ∧ (∀ b ∈ ended.buffered .p1, b = true)
      ∧ ended.src1.data.length ≤ ended.r1.pos)
    ∧ (skip.running = some (.legal .decode) ∧ skip.tree = some abcTree ∧ ([true, false] : Bits) ≠ [] ∧ skip.snk0.avail = false
      ∧ skip.pos = .skip ∧ skip.buffered .p1 = List.replicate 0 true ++ false :: ([true, false] ++ [true])
      ∧ abcTree.node [true, false] = some (.leaf 0x41))
    ∧ walk.running = some (.legal .decode) ∧ walk.tree = some abcTree ∧ ([true, false] : Bits) ≠ [] ∧ walk.snk0.avail = false
      ∧ walk.pos = .walk ∧ walk.buffered .p1 = [true, false] ++ [true]
      ∧ abcTree.node (walk.cursor ++ [true, false]) = some (.leaf 0x41) :=
  ⟨⟨rfl, rfl, by decide, by decide⟩, ⟨rfl, rfl, by decide, rfl, rfl, by decide, rfl⟩, rfl, rfl, by decide, rfl, rfl, by decide, rfl⟩

/-! ### Runs, frames and invariants -/

/-- RD_BIT accepted with R0 after three bits of B4 A0. -/
def reading : State := issued (.rdBit .p0) bio4Three

theorem reading_status : StatusOk reading where
  busyIff := rfl
  idleIff := by decide
  busyClear _ := ⟨rfl, rfl, rfl, rfl, rfl⟩
  errDone := by decide
  errCode := by decide
  emptyOk := by decide
  partialOk := by decide
  validOk := by decide
  valueOk := by decide
  aligned := fun h => by cases h

theorem witness_EveryCommandEnds : reading.running = some (.legal (.rdBit .p0)) := rfl

theorem witness_EveryEndIsReported :
    StatusOk reading ∧ reading.running = some (.legal (.rdBit .p0)) ∧ ∃ t, engineStep reading = .next t :=
  ⟨reading_status, rfl, _, rfl⟩

theorem witness_OneByteMovesPerMicroStep :
    let s := issued .encode (withSource .p0 [0xFF, 0xFE] State.reset)
    let t := after .encode s
    (∃ t, engineStep reading = .next t) ∧ actOf (.rdBit .p0) = none ∧ (∃ t, exec (.rdBit .p0) reading = .next t)
      ∧ actOf .encode = some encodeAct ∧ s.running = some (.legal .encode)
      ∧ (exec .encode s = .next t ∧ t.running ≠ none)
      ∧ (t.running = some (.legal .encode) ∧ t.pos ≠ .start ∧ AccessAhead t)
      ∧ PortsHeld t ∧ StatusOk t ∧ ∃ u, step t = .next u := by
  refine ⟨⟨_, rfl⟩, rfl, ⟨_, rfl⟩, rfl, rfl, ⟨rfl, by decide⟩, ⟨by decide, by decide, ?_⟩, ?_, ?_, ?_⟩
  · intro i next hi hn _
    cases (hi.symm.trans (by decide : _ = some (Command.legal .encode)))
    cases hn
    exact .access rfl
  · intro i hi
    cases (hi.symm.trans (by decide : _ = some (Command.legal .encode)))
    exact ⟨by decide, by decide, by decide⟩
  · exact ⟨by decide, by decide, by decide, by decide, by decide, by decide, by decide, by decide, by decide,
      fun h => absurd h (by decide)⟩
  · exact ⟨_, rfl⟩

theorem witness_PushedBytesStay : (bio10Seven.writer .p0).opened = true ∧ ∃ t, engineStep bio10Seven = .next t := ⟨rfl, _, rfl⟩

theorem witness_CodecPhasesAdvance :
    let s := (issued .encode (withReader .p0 0 0 0 bio4)).goto .count
    s.running = some (.legal .encode) ∧ PhaseOk s ∧ ∃ t, engineStep s = .next t ∧ t.running = some (.legal .encode) :=
  ⟨rfl, fun c h => by cases h; exact rfl, _, rfl, by decide⟩

theorem witness_CommandRunsAreMachineRuns :
    EndsAfter (.rdClose .p0) 1 (issued (.rdClose .p0) bio4Three) (after (.rdClose .p0) (issued (.rdClose .p0) bio4Three))
      ∧ (issued (.rdClose .p0) bio4Three).turns = []
      ∧ EndsAfter (.rdClose .p0) 1 { issued (.rdClose .p0) bio4Three with turns := [.engine, .host .platformReset] }
          (after (.rdClose .p0) { issued (.rdClose .p0) bio4Three with turns := [.engine, .host .platformReset] }) :=
  ⟨.single rfl rfl rfl, rfl, .single rfl rfl rfl⟩

theorem witness_CommandsChangeOnlyWhatIsTheirs :
    (∃ t, exec (.rdClose .p0) bio4Three = .next t) ∧ (∀ r, Instr.rdClose .p0 ≠ .freqCount r)
      ∧ (∀ r, Instr.rdClose .p0 ≠ .treeDeser r)
      ∧ (∀ r, Instr.rdClose .p0 ≠ .rdBit r ∧ Instr.rdClose .p0 ≠ .rdByte r ∧ Instr.rdClose .p0 ≠ .rdAtEnd r)
      ∧ readsPort .p1 (.rdClose .p0) = false ∧ writesPort .p0 (.rdClose .p0) = false :=
  ⟨⟨_, rfl⟩, by simp, by simp, by simp, rfl, rfl⟩

theorem witness_StepKeepsReadersAndWriters : BitPortsOk reading ∧ PortsHeld reading ∧ ∃ t, step reading = .next t :=
  ⟨⟨fun p => by cases p <;> exact ⟨by decide, by decide, by decide, by decide⟩,
      fun p => by cases p <;> exact ⟨by decide, by decide⟩⟩,
    fun i h => by cases h; trivial, _, rfl⟩

theorem witness_StepKeepsTotalTheSumOfFreq : FreqOk tree1 ∧ ∃ t, step tree1 = .next t :=
  ⟨tree1_freqOk, _, rfl⟩

theorem witness_StepKeepsTheTables : TablesOk tree3 ∧ ∃ t, step tree3 = .next t := ⟨tree3_ok, _, rfl⟩

theorem witness_StepKeepsStatus : StatusOk reading ∧ ∃ t, step reading = .next t := ⟨reading_status, _, rfl⟩

theorem witness_StepKeepsThePhase : PhaseOk reading ∧ ∃ t, step reading = .next t :=
  ⟨fun c h => by cases h; exact rfl, _, rfl⟩

theorem witness_StepKeepsThePortsHeld : PortsHeld encodeFinishing ∧ ∃ t, step encodeFinishing = .next t :=
  ⟨fun i h => by cases h; exact ⟨rfl, rfl, rfl, by decide⟩, _, rfl⟩

end Sys2Proof.Tests
end

section
/-! PROOFS. The statements about the state (spec/10_state.md): what every step keeps, what each command may change, and
what a reset and a register read give. -/

namespace Sys2Proof.Machine

/-! ## What the helpers leave -/

/-- The reader a helper that reads through Rp leaves: open as before, and within R24 if it was open. -/
structure ReadFrom (s : State) (p : PortNum) (r : Reader) : Prop where
  opened : r.opened = (s.reader p).opened
  ok : (s.reader p).opened = true → ReaderOk (s.reader p) (s.source p).data → ReaderOk r (s.source p).data

/-- The writer a helper that writes through Wp leaves: open as before, and within R27 if it was open. -/
structure WrittenTo (s : State) (p : PortNum) (w : Writer) : Prop where
  opened : w.opened = (s.writer p).opened
  ok : (s.writer p).opened = true → WriterOk (s.writer p) → WriterOk w

/-- The writer CloseW leaves: closed, and within R27 if it was before (spec/40_bitio.md R127). -/
structure ClosedFrom (s : State) (p : PortNum) (w : Writer) : Prop where
  opened : w.opened = false
  ok : WriterOk (s.writer p) → WriterOk w

/-- The reader OpenR leaves (R121). -/
def Reader.fresh : Reader := { Reader.closed with opened := true }

/-- The writer OpenW leaves (R126). -/
def Writer.fresh : Writer := { Writer.closed with opened := true }

/-- The state with writer Wp and the bytes of its sink replaced. -/
abbrev State.put (s : State) (p : PortNum) (d : List Byte) (w : Writer) : State :=
  (s.setSink p { s.sink p with data := d }).setWriter p w

theorem ReaderOk.closed_ok (data : List Byte) : ReaderOk Reader.closed data :=
  ⟨fun _ => rfl, Nat.zero_le _, fun _ => ⟨rfl, rfl⟩, fun h => absurd h (Nat.lt_irrefl 0)⟩

theorem ReaderOk.fresh_ok (data : List Byte) : ReaderOk Reader.fresh data :=
  ⟨fun h => (by cases h), Nat.zero_le _, fun _ => ⟨rfl, rfl⟩, fun h => absurd h (Nat.lt_irrefl 0)⟩

theorem WriterOk.closed_ok : WriterOk Writer.closed := ⟨fun _ => rfl, by decide⟩

theorem WriterOk.fresh_ok : WriterOk Writer.fresh := ⟨fun h => (by cases h), by decide⟩

/-- A reader that has pulled the byte at its position and buffers it (R62, R23). -/
theorem readerOk_pulled {r : Reader} {data : List Byte} {v : Byte} (ho : r.opened = true)
    (hv : data[r.pos]? = some v) (c : Fin 8) : ReaderOk { r with pos := r.pos + 1, buf := v, cnt := c } data :=
  ⟨fun h => by simp [ho] at h, (List.getElem?_eq_some_iff.1 hv).1, fun h => by simp at h, fun _ => hv⟩

/-- Pull raises and changes nothing, or moves the reader past the byte it returns (R62). -/
theorem pull_cases (p : PortNum) (s : State) :
    (∃ e, pull p s = .raise e s) ∨ ∃ v, (s.source p).data[(s.reader p).pos]? = some v
      ∧ pull p s = .ok v (s.setReader p { s.reader p with pos := (s.reader p).pos + 1 }) := by
  unfold pull
  split
  · exact .inl ⟨_, rfl⟩
  · next v hv =>
    split
    · exact .inr ⟨v, hv, rfl⟩
    · exact .inl ⟨_, rfl⟩

/-- ReadBit raises and changes nothing, or moves the reader (R124). -/
theorem readBit_cases (p : PortNum) (s : State) :
    (∃ e, readBit p s = .raise e s) ∨ ∃ b r, ReadFrom s p r ∧ readBit p s = .ok b (s.setReader p r) := by
  unfold readBit
  split
  · obtain ⟨e, h⟩ | ⟨v, hv, h⟩ := pull_cases p s <;> simp only [h]
    · exact .inl ⟨e, rfl⟩
    · simp only [setReader_reader, setReader_setReader]
      exact .inr ⟨_, { opened := _, pos := _, buf := v, cnt := 7 },
        ⟨rfl, fun ho _ => readerOk_pulled ho hv 7⟩, rfl⟩
  · next hc =>
    refine .inr ⟨_, (s.reader p).spend, ⟨rfl, fun ho h => ?_⟩, rfl⟩
    have hpos : (s.reader p).pos ≠ 0 := fun h0 => hc (h.fresh h0).2
    exact ⟨fun hn => Bool.noConfusion (ho.symm.trans hn), h.posLe, fun h0 => absurd h0 hpos, h.pulled⟩

/-- ReadByte the same (R125). -/
theorem readByte_cases (p : PortNum) (s : State) :
    (∃ e, readByte p s = .raise e s) ∨ ∃ v r, ReadFrom s p r ∧ readByte p s = .ok v (s.setReader p r) := by
  unfold readByte
  obtain ⟨e, h⟩ | ⟨v, hv, h⟩ := pull_cases p s <;> simp only [h]
  · exact .inl ⟨e, rfl⟩
  · simp only [setReader_reader, setReader_setReader]
    exact .inr ⟨_, { opened := _, pos := _, buf := v, cnt := _ },
      ⟨rfl, fun ho _ => readerOk_pulled ho hv _⟩, rfl⟩

theorem openR_cases (p : PortNum) (s : State) :
    (∃ e, openR p s = .raise e s) ∨ openR p s = .ok () (s.setReader p Reader.fresh) := by
  unfold openR
  split
  · exact .inr rfl
  · exact .inl ⟨_, rfl⟩

theorem openW_cases (p : PortNum) (s : State) :
    (∃ e, openW p s = .raise e s) ∨ openW p s = .ok () (s.put p [] Writer.fresh) := by
  unfold openW
  split
  · exact .inl ⟨_, rfl⟩
  · split
    · exact .inr rfl
    · exact .inl ⟨_, rfl⟩

theorem push_cases (p : PortNum) (v : Byte) (s : State) :
    (∃ e, push p v s = .raise e s)
      ∨ push p v s = .ok () (s.setSink p { s.sink p with data := (s.sink p).data ++ [v] }) := by
  unfold push
  split
  · exact .inr rfl
  · exact .inl ⟨_, rfl⟩

/-- Replacing a writer alone leaves its sink's bytes. -/
theorem setWriter_eq_put (s : State) (p : PortNum) (w : Writer) : s.setWriter p w = s.put p (s.sink p).data w := by
  cases p <;> rfl

/-- An open writer within R27 stays so: it is then the writer of the bits written through it, and one more (R128). -/
theorem writerOk_writeBit {p : PortNum} {b : Bool} {s : State} (ho : (s.writer p).opened = true)
    (hw : WriterOk (s.writer p)) : WriterOk ((writeBit p b s).state.writer p) := by
  rw [eq_wrote s p hw ho]
  by_cases ha : (s.written p).length % 8 = 7 → (s.sink p).avail = true
  · rw [writeBit_wrote _ _ _ _ ha]
    simpa [Res.state] using writerAt_ok _
  · simp only [Classical.not_imp, Bool.not_eq_true] at ha
    rw [writeBit_refused _ _ _ _ ha.1 ha.2]
    simpa [Res.state] using writerAt_ok _

/-- The same for eight bits (R129). -/
theorem writerOk_writeByte {p : PortNum} {v : Byte} {s : State} (ho : (s.writer p).opened = true)
    (hw : WriterOk (s.writer p)) : WriterOk ((writeByte p v s).state.writer p) := by
  rw [eq_wrote s p hw ho]
  cases ha : (s.sink p).avail
  · rw [writeByte_refused _ _ _ (by simpa using ha)]
    simpa [Res.state] using writerAt_ok _
  · rw [writeByte_wrote _ _ _ _ ha]
    simpa [Res.state] using writerAt_ok _

/-- WriteBit raises and changes nothing, or changes the writer and its sink (R128). -/
theorem writeBit_cases (p : PortNum) (b : Bool) (s : State) :
    (∃ e, writeBit p b s = .raise e s) ∨ ∃ d w, WrittenTo s p w ∧ writeBit p b s = .ok () (s.put p d w) := by
  have key : (∃ e, writeBit p b s = .raise e s)
      ∨ ∃ d w, w.opened = (s.writer p).opened ∧ writeBit p b s = .ok () (s.put p d w) := by
    unfold writeBit
    dsimp only
    split
    · obtain ⟨e, h⟩ | h := push_cases p ((s.writer p).place b) s <;> simp only [h]
      · exact .inl ⟨e, rfl⟩
      · exact .inr ⟨_, { s.writer p with acc := 0, n := 0 }, rfl, rfl⟩
    · rw [setWriter_eq_put]
      exact .inr ⟨_, { s.writer p with acc := (s.writer p).place b, n := (s.writer p).n + 1 }, rfl, rfl⟩
  refine key.imp id fun ⟨d, w, ho, h⟩ => ⟨d, w, ⟨ho, fun h1 h2 => ?_⟩, h⟩
  simpa [h, Res.state] using writerOk_writeBit (b := b) h1 h2

/-- WriteByte the same, and it leaves the number of pending bits as it was (R129). -/
theorem writeByte_cases (p : PortNum) (v : Byte) (s : State) :
    (∃ e, writeByte p v s = .raise e s)
      ∨ ∃ d w, WrittenTo s p w ∧ w.n = (s.writer p).n ∧ writeByte p v s = .ok () (s.put p d w) := by
  have key : (∃ e, writeByte p v s = .raise e s)
      ∨ ∃ d a, writeByte p v s = .ok () (s.put p d { s.writer p with acc := a }) := by
    unfold writeByte
    dsimp only
    obtain ⟨e, h⟩ | h := push_cases p ((s.writer p).acc ||| (v >>> (s.writer p).n.val)) s <;> simp only [h]
    · exact .inl ⟨e, rfl⟩
    · exact .inr ⟨_, _, rfl⟩
  refine key.imp id fun ⟨d, a, h⟩ => ⟨d, { s.writer p with acc := a }, ⟨rfl, fun h1 h2 => ?_⟩, rfl, h⟩
  simpa [h, Res.state] using writerOk_writeByte (v := v) h1 h2

/-- CloseW closes the writer, and raises only where bits were pending (R127). -/
theorem closeW_cases (p : PortNum) (s : State) : ∃ d w, ClosedFrom s p w ∧ (closeW p s = .ok () (s.put p d w)
    ∨ ((s.writer p).n ≠ 0 ∧ ∃ e, closeW p s = .raise e (s.put p d w))) := by
  unfold closeW
  split
  · dsimp only
    split
    · rw [setWriter_eq_put]
      exact ⟨_, _, ⟨rfl, fun _ => .closed_ok⟩, .inl rfl⟩
    · next hn =>
      rw [setWriter_eq_put]
      obtain ⟨e, h⟩ | h := push_cases p (s.writer p).acc (s.put p (s.sink p).data Writer.closed) <;> rw [h]
      · exact ⟨_, _, ⟨rfl, fun _ => .closed_ok⟩, .inr ⟨hn, e, rfl⟩⟩
      · rw [setWriter_setSink]
        simp only [setSink_setSink, setWriter_sink, setSink_sink]
        exact ⟨_, _, ⟨rfl, fun _ => .closed_ok⟩, .inl rfl⟩
  · next ho =>
    refine ⟨(s.sink p).data, s.writer p, ⟨by simpa using ho, id⟩, .inl ?_⟩
    rw [← setWriter_eq_put, setWriter_self]

/-! ## What the engine can do -/

/-- The positions of DECODE at which PARTIAL may be set though the command has not ended (spec/42_codec.md R276, R277). -/
def Pos.closing : Pos → Bool
  | .dClose => true
  | .finish => true
  | _ => false

/-- The positions inside Deserialize (spec/41_tree.md R189). -/
def Pos.inTree : Pos → Bool
  | .desNode _ _ => true
  | .desLeaf _ _ => true
  | .desDone _ _ => true
  | _ => false

/-- ENCODE with PADBITS cleared, before OpenR(0) (spec/42_codec.md R251). -/
abbrev State.encodeBegun (s : State) : State := { s with padBits := 0 }.inPhase .eCount

/-- ENCODE with the tree t stored, before OpenW(0) (R254, R255). -/
abbrev State.encodeBuilt (t : HTree) (s : State) : State :=
  (storeTree t t.size (invalidate ((s.setReader .p0 .closed).inPhase .eBuild))).inPhase .eSerTree

/-- ENCODE with the dictionary and PADBITS stored, before OpenW(1) (R256, R257). -/
abbrev State.encodePadded (n : Nat) (s : State) : State :=
  { (storeDict (s.inPhase .eDict)).inPhase .ePad with padBits := BitVec.ofNat 4 n }

/-- DECODE with the tree t of c nodes stored and R0 closed (R272). -/
abbrev State.decodeStored (t : HTree) (c : Nat) (s : State) : State := (storeTree t c s).setReader .p0 .closed

/-- `Move i s t`: from s, the next thing the engine does in command i (`actOf i`) may leave t. There is a constructor for
each edge of the commands' loops, with the position it leaves from where an invariant needs it. That a port is open where
a helper reads or writes is said under `Holds`, which only the ports' invariants assume. -/
inductive Move : Instr → State → State → Prop where
  -- ends and errors
  | ends (i : Instr) (s : State) : Move i s (normalEnd s)
  | fails {i : Instr} {s : State} (e : Error) (hq : i = .decode → s.pos.closing = false) : Move i s (errorEnd e s)
  | raises {i : Instr} {s : State} (e : Error) (hq : i = .decode → s.pos.closing = false) :
      Move i s (s.goto (.raised e))
  | readRaises {i : Instr} {s : State} {p : PortNum} {r : Reader} (e : Error)
      (hq : i = .decode → s.pos.closing = false) (ho : Holds s i → (s.reader p).opened = true) (hr : ReadFrom s p r) :
      Move i s ((s.setReader p r).goto (.raised e))
  -- the loops CountFreq, Serialize, Deserialize and EmitCode (spec/41_tree.md R180, R187, R189, R193)
  | counts {i : Instr} {s : State} {p : PortNum} {r : Reader} (v : Byte) (hp : s.pos = .count)
      (ho : Holds s i → (s.reader p).opened = true) (hr : ReadFrom s p r) (hm : s.total ≠ s.params.maxLen) :
      Move i s (addCount v (s.setReader p r))
  | serializes {i : Instr} {s : State} {p : PortNum} {w : Writer} {todo : List SerItem} (rest : List SerItem)
      (d : List Byte) (hp : s.pos = .ser todo) (ho : Holds s i → (s.writer p).opened = true) (hw : WrittenTo s p w) :
      Move i s ((s.put p d w).goto (.ser rest))
  | innerMarker {i : Instr} {s : State} {p : PortNum} {r : Reader} {fs : List Frame} {c : Nat}
      (hp : s.pos = .desNode fs c) (ho : Holds s i → (s.reader p).opened = true) (hr : ReadFrom s p r)
      (hc : c + 1 ≤ s.params.nodeCap) : Move i s ((s.setReader p r).goto (.desNode (.wantLeft :: fs) (c + 1)))
  | leafMarker {i : Instr} {s : State} {p : PortNum} {r : Reader} {fs : List Frame} {c : Nat}
      (hp : s.pos = .desNode fs c) (ho : Holds s i → (s.reader p).opened = true) (hr : ReadFrom s p r)
      (hc : c + 1 ≤ s.params.nodeCap) : Move i s ((s.setReader p r).goto (.desLeaf fs (c + 1)))
  | leafInside {i : Instr} {s : State} {p : PortNum} {r : Reader} {fs gs : List Frame} {c : Nat} {v : Byte}
      (hp : s.pos = .desLeaf fs c) (ho : Holds s i → (s.reader p).opened = true) (hr : ReadFrom s p r)
      (hv : plug (.leaf v) fs = .inr gs) : Move i s ((s.setReader p r).goto (.desNode gs c))
  | leafLast {i : Instr} {s : State} {p : PortNum} {r : Reader} {fs : List Frame} {c : Nat} {v : Byte} {t : HTree}
      (hp : s.pos = .desLeaf fs c) (ho : Holds s i → (s.reader p).opened = true) (hr : ReadFrom s p r)
      (hv : plug (.leaf v) fs = .inl t) : Move i s ((s.setReader p r).goto (.desDone t c))
  | emits {i : Instr} {s : State} {p : PortNum} {w : Writer} {bits : Bits} (rest : Bits) (d : List Byte)
      (hp : s.pos = .emit bits) (ho : Holds s i → (s.writer p).opened = true) (hw : WrittenTo s p w) :
      Move i s ((s.put p d w).goto (.emit rest))
  -- FREQ_COUNT, TREE_SER, TREE_DESER and CODE_EMIT beside their loops (R181, R188, R190, R194)
  | freqCount {s : State} {p : PortNum} (ho : (s.reader p).opened = true) :
      Move (.freqCount p) s ((clearFreq s).goto .count)
  | treeSer {s : State} {p : PortNum} {t : HTree} (ho : (s.writer p).opened = true) (ht : s.tree = some t) :
      Move (.treeSer p) s (s.goto (.ser [.node t]))
  | treeDeser {s : State} {p : PortNum} (ho : (s.reader p).opened = true) :
      Move (.treeDeser p) s ((invalidate s).goto (.desNode [] 0))
  | treeDeserStores {s : State} {p : PortNum} {t : HTree} {c : Nat} (hp : s.pos = .desDone t c) :
      Move (.treeDeser p) s (normalEnd (storeTree t c s))
  | codeEmit {s : State} {p : PortNum} {v : Byte} (bits : Bits) (ho : (s.writer p).opened = true) :
      Move (.codeEmit p v) s (s.goto (.emit bits))
  -- ENCODE (spec/42_codec.md R250 to R259) and its Release (spec/60_exceptions.md R312)
  | encodeNoSource {s : State} (e : Error) : Move .encode s (s.encodeBegun.goto (.raised e))
  | encodeBegins {s : State} (h0 : s.w0.opened = false) (h1 : s.w1.opened = false) :
      Move .encode s ((clearFreq (s.encodeBegun.setReader .p0 .fresh)).goto .count)
  | encodeEmpty {s : State} (hp : s.pos = .count) :
      Move .encode s (normalEnd { s.setReader .p0 .closed with empty := true })
  | encodeNoFreq {s : State} (e : Error) :
      Move .encode s ((invalidate ((s.setReader .p0 .closed).inPhase .eBuild)).goto (.raised e))
  | encodeNoSink0 {s : State} {t : HTree} (e : Error) (ht : buildTree s.freq = some t) :
      Move .encode s ((s.encodeBuilt t).goto (.raised e))
  | encodeBuilds {s : State} {t : HTree} (hp : s.pos = .count) (ht : buildTree s.freq = some t) :
      Move .encode s (((s.encodeBuilt t).put .p0 [] .fresh).goto (.ser [.node t]))
  | encodeNoSink1 {s : State} (e : Error) (n : Nat) (hp : s.pos = .ser []) (hn : 1 ≤ n ∧ n ≤ 8) :
      Move .encode s ((s.encodePadded n).goto (.raised e))
  | encodePads {s : State} (n : Nat) (bits : Bits) (hp : s.pos = .ser []) (hn : 1 ≤ n ∧ n ≤ 8) :
      Move .encode s (((s.encodePadded n).put .p1 [] .fresh).goto (.pad bits))
  | encodeWritesPad {s : State} {w : Writer} {bits : Bits} (rest : Bits) (d : List Byte) (hp : s.pos = .pad bits)
      (hw : WrittenTo s .p1 w) : Move .encode s ((s.put .p1 d w).goto (.pad rest))
  | encodeNoSecond {s : State} (e : Error) : Move .encode s ((s.inPhase .eEmit).goto (.raised e))
  | encodeRereads {s : State} {bits : Bits} (hp : s.pos = .pad bits) :
      Move .encode s (((s.inPhase .eEmit).setReader .p0 .fresh).goto (.emit []))
  | encodeReads {s : State} {r : Reader} {bits : Bits} (code : Bits) (hp : s.pos = .emit bits)
      (hr : ReadFrom s .p0 r) : Move .encode s ((s.setReader .p0 r).goto (.emit code))
  | encodeCloses {s : State} {bits : Bits} (hp : s.pos = .emit bits) :
      Move .encode s (((s.setReader .p0 .closed).inPhase .eClose).goto .closeW0)
  | encodeNoClose {s : State} {p : PortNum} {w : Writer} (e : Error) (d : List Byte) (hw : ClosedFrom s p w) :
      Move .encode s ((s.put p d w).goto (.raised e))
  | encodeClosesW0 {s : State} {w : Writer} (d : List Byte) (hp : s.pos = .closeW0) (hw : ClosedFrom s .p0 w) :
      Move .encode s ((s.put .p0 d w).goto .closeW1)
  | encodeClosesW1 {s : State} {w : Writer} (d : List Byte) (hp : s.pos = .closeW1) (hw : ClosedFrom s .p1 w) :
      Move .encode s ((s.put .p1 d w).goto .finish)
  | encodeReleasesR0 {s : State} {e : Error} (hp : s.pos = .raised e) :
      Move .encode s ((s.setReader .p0 .closed).goto (.relW0 e))
  | encodeReleasesW0 {s : State} {e : Error} {w : Writer} (d : List Byte) (hp : s.pos = .relW0 e)
      (hw : ClosedFrom s .p0 w) : Move .encode s ((s.put .p0 d w).goto (.relW1 e))
  | encodeReleasesW1 {s : State} {e : Error} {w : Writer} (d : List Byte) (hp : s.pos = .relW1 e)
      (hw : ClosedFrom s .p1 w) : Move .encode s ((s.put .p1 d w).goto (.errEnd e))
  -- DECODE (R270 to R277) and its Release
  | decodeNoSink {s : State} (e : Error) (hq : s.pos.closing = false) :
      Move .decode s ((s.inPhase .dTree).goto (.raised e))
  | decodeNoSource {s : State} (e : Error) (hq : s.pos.closing = false) :
      Move .decode s (((s.inPhase .dTree).put .p0 [] .fresh).goto (.raised e))
  | decodeBegins {s : State} (hq : s.pos.closing = false) : Move .decode s
      ((invalidate (((s.inPhase .dTree).put .p0 [] .fresh).setReader .p0 .fresh)).goto (.desNode [] 0))
  | decodeDegenerate {s : State} {t : HTree} {c : Nat} (e : Error) (hp : s.pos = .desDone t c) :
      Move .decode s ((s.decodeStored t c).goto (.raised e))
  | decodeNoPayload {s : State} {t : HTree} {c : Nat} (e : Error) (hp : s.pos = .desDone t c) :
      Move .decode s (((s.decodeStored t c).inPhase .dPad).goto (.raised e))
  | decodeStores {s : State} {l r : HTree} {c : Nat} (hp : s.pos = .desDone (.internal l r) c) : Move .decode s
      ((((s.decodeStored (.internal l r) c).inPhase .dPad).setReader .p1 .fresh).goto .skip)
  | decodeSkips {s : State} {r : Reader} (hp : s.pos = .skip) (hr : ReadFrom s .p1 r) :
      Move .decode s ((s.setReader .p1 r).goto .skip)
  | decodeSkipped {s : State} {r : Reader} (hp : s.pos = .skip) (hr : ReadFrom s .p1 r) :
      Move .decode s ((((s.setReader .p1 r).setCursor []).inPhase .dDecode).goto .walk)
  | decodeWalks {s : State} {r : Reader} (b : Bool) (hp : s.pos = .walk) (hr : ReadFrom s .p1 r)
      (hn : ∀ v, s.tree.bind (fun t => t.node (s.cursor ++ [b])) ≠ some (.leaf v)) :
      Move .decode s (((s.setReader .p1 r).setCursor (s.cursor ++ [b])).goto .walk)
  | decodeFinds {s : State} {r : Reader} {v : Byte} (b : Bool) (hp : s.pos = .walk) (hr : ReadFrom s .p1 r)
      (hn : s.tree.bind (fun t => t.node (s.cursor ++ [b])) = some (.leaf v)) :
      Move .decode s (((s.setReader .p1 r).setCursor (s.cursor ++ [b])).goto (.write v))
  | decodeWalked {s : State} (b : Bool) (hp : s.pos = .walk) :
      Move .decode s (({ s with partialCode := b }.inPhase .dClose).goto .dClose)
  | decodeWrites {s : State} {w : Writer} {v : Byte} (d : List Byte) (hp : s.pos = .write v) (hw : WrittenTo s .p0 w)
      (hn : w.n = s.w0.n) : Move .decode s (((s.put .p0 d w).setCursor []).goto .walk)
  | decodeNoClose {s : State} {w : Writer} (e : Error) (d : List Byte) (hp : s.pos = .dClose) (hn : s.w0.n ≠ 0)
      (hw : ClosedFrom s .p0 w) : Move .decode s (((s.setReader .p1 .closed).put .p0 d w).goto (.raised e))
  | decodeCloses {s : State} {w : Writer} (d : List Byte) (hp : s.pos = .dClose) (hw : ClosedFrom s .p0 w) :
      Move .decode s (((s.setReader .p1 .closed).put .p0 d w).goto .finish)
  | decodeReleasesR {s : State} {e : Error} (hp : s.pos = .raised e) :
      Move .decode s (((s.setReader .p0 .closed).setReader .p1 .closed).goto (.relW0 e))
  | decodeReleasesW0 {s : State} {e : Error} {w : Writer} (d : List Byte) (hp : s.pos = .relW0 e)
      (hw : ClosedFrom s .p0 w) : Move .decode s ((s.put .p0 d w).goto (.errEnd e))

/-! ## Every act is a move -/

theorem move_countAct {i : Instr} {p : PortNum} {after : State → Act} {s : State} (hp : s.pos = .count)
    (ho : Holds s i → (s.reader p).opened = true) (ha : Move i s (after s).state) :
    Move i s (countAct p after s).state := by
  have hq : i = .decode → s.pos.closing = false := fun _ => by rw [hp]; rfl
  unfold countAct
  split
  · exact ha
  · obtain ⟨e, h⟩ | ⟨v, r, hr, h⟩ := readByte_cases p s <;> simp only [h]
    · exact .raises e hq
    · show Move i s (countByte v (s.setReader p r))
      unfold countByte
      split
      · exact .readRaises _ hq ho hr
      · next hm => exact .counts v hp ho hr (by simpa using hm)

theorem move_serAct {i : Instr} {p : PortNum} {todo : List SerItem} {after : State → Act} {s : State}
    (hp : s.pos = .ser todo) (ho : Holds s i → (s.writer p).opened = true)
    (ha : todo = [] → Move i s (after s).state) : Move i s (serAct p todo after s).state := by
  have hq : i = .decode → s.pos.closing = false := fun _ => by rw [hp]; rfl
  have bit : ∀ (b : Bool) (rest : List SerItem), Move i s ((writeBit p b s).goto (.ser rest)) := by
    intro b rest
    obtain ⟨e, h⟩ | ⟨d, w, hw, h⟩ := writeBit_cases p b s <;> rw [h]
    · exact .raises e hq
    · exact .serializes rest d hp ho hw
  unfold serAct
  split
  · exact ha rfl
  · rw [Act.state_of]; exact bit _ _
  · rw [Act.state_of]; exact bit _ _
  · next v rest =>
    show Move i s ((writeByte p v s).goto (.ser rest))
    obtain ⟨e, h⟩ | ⟨d, w, hw, -, h⟩ := writeByte_cases p v s <;> rw [h]
    · exact .raises e hq
    · exact .serializes rest d hp ho hw

theorem move_desNodeAct {i : Instr} {p : PortNum} {fs : List Frame} {c : Nat} {s : State}
    (hp : s.pos = .desNode fs c) (ho : Holds s i → (s.reader p).opened = true) :
    Move i s (desNodeAct p fs c s).state := by
  have hq : i = .decode → s.pos.closing = false := fun _ => by rw [hp]; rfl
  rw [desNodeAct, Act.state_of]
  obtain ⟨e, h⟩ | ⟨b, r, hr, h⟩ := readBit_cases p s <;> simp only [h]
  · exact .raises _ hq
  · split
    · exact .readRaises _ hq ho hr
    · next hc =>
      have hc' : c + 1 ≤ s.params.nodeCap := by simpa using hc
      cases b
      · exact .leafMarker hp ho hr hc'
      · exact .innerMarker hp ho hr hc'

theorem move_desLeafAct {i : Instr} {p : PortNum} {fs : List Frame} {c : Nat} {s : State}
    (hp : s.pos = .desLeaf fs c) (ho : Holds s i → (s.reader p).opened = true) :
    Move i s (desLeafAct p fs c s).state := by
  obtain ⟨e, h⟩ | ⟨v, r, hr, h⟩ := readByte_cases p s <;> simp only [desLeafAct, Act.state, h]
  · exact .raises _ (fun _ => by rw [hp]; rfl)
  · split
    · next hv => exact .leafLast hp ho hr hv
    · next hv => exact .leafInside hp ho hr hv

theorem move_emitAct {i : Instr} {p : PortNum} {bits : Bits} {after : State → Act} {s : State}
    (hp : s.pos = .emit bits) (ho : Holds s i → (s.writer p).opened = true)
    (ha : bits = [] → Move i s (after s).state) : Move i s (emitAct p bits after s).state := by
  unfold emitAct
  split
  · exact ha rfl
  · next b rest =>
    rw [Act.state_of]
    obtain ⟨e, h⟩ | ⟨d, w, hw, h⟩ := writeBit_cases p b s <;> rw [h]
    · exact .raises e (fun _ => by rw [hp]; rfl)
    · exact .emits rest d hp ho hw


theorem move_freqCountAct (p : PortNum) (s : State) : Move (.freqCount p) s (freqCountAct p s).state := by
  unfold freqCountAct
  split
  · next hp => exact move_countAct hp (fun h => h hp) (.ends _ _)
  · exact .fails _ nofun
  · split
    · next ho => exact .freqCount ho
    · exact .fails _ nofun

theorem move_treeSerAct (p : PortNum) (s : State) : Move (.treeSer p) s (treeSerAct p s).state := by
  unfold treeSerAct
  split
  · next todo hp => exact move_serAct hp (fun h => h todo hp) (fun _ => .ends _ _)
  · exact .fails _ nofun
  · split
    · next ho =>
      split
      · exact .fails _ nofun
      · next ht => exact .treeSer ho ht
    · exact .fails _ nofun

theorem move_treeDeserAct (p : PortNum) (s : State) : Move (.treeDeser p) s (treeDeserAct p s).state := by
  unfold treeDeserAct
  split
  · next fs c hp => exact move_desNodeAct hp (fun h => h.1 fs c hp)
  · next fs c hp => exact move_desLeafAct hp (fun h => h.2 fs c hp)
  · next hp => exact .treeDeserStores hp
  · exact .fails _ nofun
  · split
    · next ho => exact .treeDeser ho
    · exact .fails _ nofun

theorem move_codeEmitAct (p : PortNum) (v : Byte) (s : State) : Move (.codeEmit p v) s (codeEmitAct p v s).state := by
  unfold codeEmitAct
  split
  · next bits hp => exact move_emitAct hp (fun h => h bits hp) (fun _ => .ends _ _)
  · exact .fails _ nofun
  · split
    · next ho =>
      split
      · split
        · exact .fails _ nofun
        · exact .codeEmit _ ho
      · exact .fails _ nofun
    · exact .fails _ nofun

theorem move_encodeStart (s : State) : Move .encode s (encodeStart s).state := by
  unfold encodeStart
  split
  · exact .fails _ nofun
  · next ho =>
    simp only [Bool.or_eq_true, not_or, Bool.not_eq_true] at ho
    obtain ⟨e, h⟩ | h := openR_cases .p0 s.encodeBegun <;> simp only [State.encodeBegun] at h <;> simp only [h]
    · exact .encodeNoSource e
    · exact .encodeBegins ho.1 ho.2

theorem move_encodeCounted {s : State} (hp : s.pos = .count) : Move .encode s (encodeCounted s).state := by
  unfold encodeCounted
  dsimp only
  split
  · exact .encodeEmpty hp
  · split
    · exact .encodeNoFreq _
    · next t ht =>
      show Move .encode s ((openW .p0 (s.encodeBuilt t)).goto (.ser [.node t]))
      obtain ⟨e, h⟩ | h := openW_cases .p0 (s.encodeBuilt t) <;> rw [h]
      · exact .encodeNoSink0 e ht
      · exact .encodeBuilds hp ht

/-- PADBITS is 1 to 8 (spec/30_encoding.md R104). -/
theorem padCount_range (n : Nat) : 1 ≤ padCount n ∧ padCount n ≤ 8 := by
  unfold padCount; omega

theorem move_encodeSerialized {s : State} (hp : s.pos = .ser []) : Move .encode s (encodeSerialized s).state := by
  let n := padCount (totalBits s.freq (dictOf s.tree))
  show Move .encode s ((openW .p1 (s.encodePadded n)).goto (.pad (List.replicate (n - 1) true ++ [false])))
  obtain ⟨e, h⟩ | h := openW_cases .p1 (s.encodePadded n) <;> rw [h]
  · exact .encodeNoSink1 e n hp (padCount_range _)
  · exact .encodePads n _ hp (padCount_range _)

/-- What ENCODE holds at the loop head of its second pass and inside EmitCode (R258). -/
theorem encodeHolds_emit {s : State} {bits : Bits} (hp : s.pos = .emit bits) (h : Holds s .encode) :
    s.r0.opened = true ∧ s.w0.opened = true ∧ s.w1.opened = true ∧ 1 ≤ s.padBits.toNat := by
  simpa [Holds, EncodeHolds, hp] using h

theorem move_encodePad {s : State} {bits : Bits} (hp : s.pos = .pad bits) :
    Move .encode s (encodePad bits s).state := by
  unfold encodePad
  split
  · next b rest =>
    rw [Act.state_of]
    obtain ⟨e, h⟩ | ⟨d, w, hw, h⟩ := writeBit_cases .p1 b s <;> rw [h]
    · exact .raises e nofun
    · exact .encodeWritesPad rest d hp hw
  · obtain ⟨e, h⟩ | h := openR_cases .p0 (s.inPhase .eEmit) <;> rw [h]
    · exact .encodeNoSecond e
    · exact .encodeRereads hp

theorem move_encodeNext {s : State} {bits : Bits} (hp : s.pos = .emit bits) :
    Move .encode s (encodeNext s).state := by
  unfold encodeNext
  split
  · exact .encodeCloses hp
  · obtain ⟨e, h⟩ | ⟨v, r, hr, h⟩ := readByte_cases .p0 s <;> simp only [Act.state, h]
    · exact .raises e nofun
    · split
      · exact .readRaises _ nofun (fun h => (encodeHolds_emit hp h).1) hr
      · exact .encodeReads _ hp hr

theorem move_encodeAct (s : State) : Move .encode s (encodeAct s).state := by
  unfold encodeAct
  split
  · next hp => exact move_countAct hp (fun h => by simp_all [Holds, EncodeHolds]) (move_encodeCounted hp)
  · next hp =>
    exact move_serAct hp (fun h => by simp_all [Holds, EncodeHolds]) (fun h => move_encodeSerialized (h ▸ hp))
  · next hp => exact move_encodePad hp
  · next hp => exact move_emitAct hp (fun h => (encodeHolds_emit hp h).2.2.1) (fun _ => move_encodeNext hp)
  · next hp =>
    rw [closeWriter, Act.state_of]
    obtain ⟨d, w, hw, h | ⟨-, e, h⟩⟩ := closeW_cases .p0 s <;> rw [h]
    · exact .encodeClosesW0 d hp hw
    · exact .encodeNoClose e d hw
  · next hp =>
    rw [closeWriter, Act.state_of]
    obtain ⟨d, w, hw, h | ⟨-, e, h⟩⟩ := closeW_cases .p1 s <;> rw [h]
    · exact .encodeClosesW1 d hp hw
    · exact .encodeNoClose e d hw
  · exact .ends _ _
  · next hp => exact .encodeReleasesR0 hp
  · next hp =>
    rw [releaseWriter, Act.state_of]
    obtain ⟨d, w, hw, h | ⟨-, e, h⟩⟩ := closeW_cases .p0 s <;> rw [h] <;> exact .encodeReleasesW0 d hp hw
  · next hp =>
    rw [releaseWriter, Act.state_of]
    obtain ⟨d, w, hw, h | ⟨-, e, h⟩⟩ := closeW_cases .p1 s <;> rw [h] <;> exact .encodeReleasesW1 d hp hw
  · exact .fails _ nofun
  · exact move_encodeStart s

theorem move_decodeStart {s : State} (hq : s.pos.closing = false) : Move .decode s (decodeStart s).state := by
  unfold decodeStart
  split
  · exact .fails _ (fun _ => hq)
  · obtain ⟨e, h⟩ | h := openW_cases .p0 (s.inPhase .dTree) <;> simp only [h]
    · exact .decodeNoSink e hq
    · obtain ⟨e, h⟩ | h := openR_cases .p0 ((s.inPhase .dTree).put .p0 [] .fresh) <;> simp only [h]
      · exact .decodeNoSource e hq
      · exact .decodeBegins hq

theorem move_decodeTreeRead {s : State} {t : HTree} {c : Nat} (hp : s.pos = .desDone t c) :
    Move .decode s (decodeTreeRead t c s).state := by
  unfold decodeTreeRead
  cases t with
  | leaf v => exact .decodeDegenerate _ hp
  | internal l r =>
    show Move .decode s ((openR .p1 ((s.decodeStored (.internal l r) c).inPhase .dPad)).goto .skip)
    obtain ⟨e, h⟩ | h := openR_cases .p1 ((s.decodeStored (.internal l r) c).inPhase .dPad) <;> rw [h]
    · exact .decodeNoPayload e hp
    · exact .decodeStores hp

theorem move_decodeSkip {s : State} (hp : s.pos = .skip) : Move .decode s (decodeSkip s).state := by
  have hq : s.pos.closing = false := by rw [hp]; rfl
  unfold decodeSkip
  split
  · exact .raises _ (fun _ => hq)
  · rw [Act.state_of]
    obtain ⟨e, h⟩ | ⟨b, r, hr, h⟩ := readBit_cases .p1 s <;> simp only [h]
    · exact .raises e (fun _ => hq)
    · cases b
      · exact .decodeSkipped hp hr
      · exact .decodeSkips hp hr

theorem move_decodeWalk {s : State} (hp : s.pos = .walk) : Move .decode s (decodeWalk s).state := by
  unfold decodeWalk
  split
  · exact .decodeWalked _ hp
  · rw [Act.state_of]
    obtain ⟨e, h⟩ | ⟨b, r, hr, h⟩ := readBit_cases .p1 s <;> simp only [h]
    · exact .raises e (fun _ => by rw [hp]; rfl)
    · unfold moveCursor
      simp only [setReader_cursor, setCursor_tree, setReader_tree, setCursor_cursor]
      split
      · next hn => exact .decodeFinds b hp hr hn
      · next hn => exact .decodeWalks b hp hr hn

theorem move_decodeWrite {s : State} {v : Byte} (hp : s.pos = .write v) : Move .decode s (decodeWrite v s).state := by
  obtain ⟨e, h⟩ | ⟨d, w, hw, hn, h⟩ := writeByte_cases .p0 v s <;> simp only [decodeWrite, Act.state, h]
  · exact .raises e (fun _ => by rw [hp]; rfl)
  · exact .decodeWrites d hp hw hn

theorem move_decodeAct (s : State) : Move .decode s (decodeAct s).state := by
  unfold decodeAct
  split
  · next hp => exact move_desNodeAct hp (fun h => by simp_all [Holds, DecodeHolds])
  · next hp => exact move_desLeafAct hp (fun h => by simp_all [Holds, DecodeHolds])
  · next hp => exact move_decodeTreeRead hp
  · next hp => exact move_decodeSkip hp
  · next hp => exact move_decodeWalk hp
  · next hp => exact move_decodeWrite hp
  · next hp =>
    rw [closeWriter, Act.state_of]
    obtain ⟨d, w, hw, h | ⟨hn, e, h⟩⟩ := closeW_cases .p0 (closeR .p1 s) <;> rw [h]
    · exact .decodeCloses d hp ⟨hw.opened, hw.ok⟩
    · exact .decodeNoClose e d hp hn ⟨hw.opened, hw.ok⟩
  · exact .ends _ _
  · next hp => exact .decodeReleasesR hp
  · next hp =>
    rw [releaseWriter, Act.state_of]
    obtain ⟨d, w, hw, h | ⟨-, e, h⟩⟩ := closeW_cases .p0 s <;> rw [h] <;> exact .decodeReleasesW0 d hp hw
  · next hp => exact .fails _ (fun _ => by rw [hp]; rfl)
  · next h1 h2 =>
    refine move_decodeStart ?_
    unfold Pos.closing
    split <;> simp_all

/-- What the engine does in a command of several micro-steps is a move of it. -/
theorem move_of_actOf {i : Instr} {next : State → Act} (hi : actOf i = some next) (s : State) :
    Move i s (next s).state := by
  cases i <;> simp only [actOf, Option.some.injEq, reduceCtorEq] at hi <;> subst hi
  · exact move_freqCountAct _ s
  · exact move_treeSerAct _ s
  · exact move_treeDeserAct _ s
  · exact move_codeEmitAct _ _ s
  · exact move_encodeAct s
  · exact move_decodeAct s

/-! ## Commands of one micro-step -/

/-- What a command that takes one micro-step (spec/40_bitio.md R130 to R138, spec/41_tree.md R186, R192), or an illegal
one, leaves. -/
inductive Once (s : State) : State → Prop where
  | fails (e : Error) : Once s (errorEnd e s)
  | reads {p : PortNum} {r : Reader} (v : Byte) (ho : (s.reader p).opened = true) (hr : ReadFrom s p r) :
      Once s (normalEnd (setResult v (s.setReader p r)))
  | setsReader (p : PortNum) {r : Reader} (hr : ∀ data, ReaderOk r data) : Once s (normalEnd (s.setReader p r))
  | writes {p : PortNum} {w : Writer} (d : List Byte) (hw : WriterOk (s.writer p) → WriterOk w) :
      Once s (normalEnd (s.put p d w))
  | flushFails {p : PortNum} {w : Writer} (e : Error) (d : List Byte) (hw : WriterOk (s.writer p) → WriterOk w) :
      Once s (errorEnd e (s.put p d w))
  | invalidates (e : Error) : Once s (errorEnd e (invalidate s))
  | builds {t : HTree} (ht : buildTree s.freq = some t) : Once s (normalEnd (storeTree t t.size (invalidate s)))
  | derives (ht : s.treeValid = true) : Once s (normalEnd (storeDict s))

/-- A command that reads through an open reader and returns a value. -/
theorem once_onOpenReader {α : Type} {p : PortNum} {f : State → Res α} {g : α → Byte} {s : State}
    (h : (∃ e, f s = .raise e s) ∨ ∃ a r, ReadFrom s p r ∧ f s = .ok a (s.setReader p r)) :
    Once s (endAs (fun a => setResult (g a)) (onOpenReader p f s)) := by
  unfold onOpenReader
  split
  · next ho =>
    obtain ⟨e, h⟩ | ⟨a, r, hr, h⟩ := h <;> rw [h]
    · exact .fails e
    · exact .reads (g a) ho hr
  · exact .fails _

/-- A command that writes through an open writer. -/
theorem once_onOpenWriter {p : PortNum} {f : State → Res Unit} {s : State}
    (h : (∃ e, f s = .raise e s) ∨ ∃ d w, WrittenTo s p w ∧ f s = .ok () (s.put p d w)) :
    Once s (endAs (fun _ => id) (onOpenWriter p f s)) := by
  unfold onOpenWriter
  split
  · next ho =>
    obtain ⟨e, h⟩ | ⟨d, w, hw, h⟩ := h <;> rw [h]
    · exact .fails e
    · exact .writes d (hw.ok ho)
  · exact .fails _

/-- The commands that `actOf` leaves out take one micro-step. -/
theorem once_of_exec {i : Instr} {s t : State} (hi : actOf i = none) (h : exec i s = .next t) : Once s t := by
  cases i <;> simp only [actOf, reduceCtorEq] at hi <;> cases h
  case rdOpen r =>
    obtain ⟨e, h⟩ | h := openR_cases r s <;> rw [h]
    · exact .fails e
    · exact .setsReader r .fresh_ok
  case rdClose r => exact .setsReader r .closed_ok
  case rdBit r => exact once_onOpenReader (readBit_cases r s)
  case rdByte r => exact once_onOpenReader (g := id) (readByte_cases r s)
  case rdAtEnd r =>
    refine once_onOpenReader (.inr ⟨atEnd r s, s.reader r, ⟨rfl, fun _ h => h⟩, ?_⟩)
    rw [setReader_self]
  case wrOpen w =>
    obtain ⟨e, h⟩ | h := openW_cases w s <;> rw [h]
    · exact .fails e
    · exact .writes [] (fun _ => .fresh_ok)
  case wrClose w =>
    obtain ⟨d, x, hx, h | ⟨-, e, h⟩⟩ := closeW_cases w s <;> rw [h]
    · exact .writes d hx.ok
    · exact .flushFails e d hx.ok
  case wrBit w b => exact once_onOpenWriter (writeBit_cases w _ s)
  case wrByte w v =>
    refine once_onOpenWriter ((writeByte_cases w v s).imp id ?_)
    rintro ⟨d, x, hx, -, h⟩
    exact ⟨d, x, hx, h⟩
  case treeBuild =>
    split
    · obtain h | h := emptyFreqState_cases s <;> rw [h]
      · exact .fails _
      · exact .invalidates _
    · next t ht => exact .builds ht
  case dictBuild =>
    split
    · next ht => exact .derives ht
    · exact .fails _

/-! ## The host's steps -/

/-- What a host step leaves (spec/20_memory.md R81). -/
inductive HostMove (s : State) : State → Prop where
  | loads {p : PortNum} (x : Source) (hp : (s.reader p).opened = false) : HostMove s (s.setSource p x)
  | setsSource (p : PortNum) (b : Bool) : HostMove s (s.setSource p { s.source p with avail := b })
  | setsSink (p : PortNum) (b : Bool) : HostMove s (s.setSink p { s.sink p with avail := b })
  | sees (x : Seen) : HostMove s { s with seen := x }
  | accepts (c : Word) (hb : s.busy = false) : HostMove s (accept c s)
  | setsDrop (b : Bool) : HostMove s { s with drop := b }
  | stays : HostMove s s
  | resets : HostMove s (resetBlock s)

theorem hostMove_csrWrite {offset : Nat} {c : Word} {s t : State} (h : csrWrite offset c s = some t) :
    HostMove s t := by
  unfold csrWrite at h
  split at h <;> cases h
  · unfold writeCmd
    split
    · exact .setsDrop true
    · next hb => exact .accepts c (by simpa using hb)
  · exact .stays
  · exact .stays
  · exact .stays
  · unfold writeCtrl
    split
    · exact .resets
    · split
      · exact .setsDrop false
      · exact .stays

theorem hostMove_of_hostStep {h : HostStep} {s t : State} (hs : hostStep h s = .next t) : HostMove s t := by
  have free : ∀ {p}, maySource p s = true → (s.reader p).opened = false := fun hm => by
    simp only [maySource, Bool.and_eq_true, Bool.not_eq_true'] at hm; exact hm.1
  cases h <;> simp only [hostStep] at hs
  case loadSource p d a =>
    split at hs <;> cases hs
    next hm => exact .loads _ (free hm)
  case setSourceAvail p b => cases hs; exact .setsSource p b
  case setSinkAvail p b => cases hs; exact .setsSink p b
  case readSink p => cases hs; exact .sees _
  case copySink q p =>
    split at hs <;> cases hs
    next hm => exact .loads _ (free hm)
  case csrWrite o w c =>
    split at hs
    · split at hs <;> cases hs
      next hu => exact hostMove_csrWrite hu
    · cases hs
  case csrRead o w =>
    split at hs
    · split at hs <;> cases hs
      exact .sees _
    · cases hs
  case platformReset => cases hs; exact .resets

/-! ## Steps -/

/-- The engine's turn changes nothing on an idle block; else it is a command of one micro-step (or an illegal one) or a
micro-step of another. -/
theorem engineStep_cases {s t : State} (h : engineStep s = .next t) : t = s ∨ (s.running.isSome ∧ Once s t)
    ∨ ∃ i next, actOf i = some next ∧ s.running = some (.legal i) ∧ exec i s = .next t := by
  unfold engineStep at h
  split at h
  · cases h; exact .inl rfl
  · next hr => cases h; exact .inr (.inl ⟨by rw [hr]; rfl, .fails _⟩)
  · next i hr =>
    cases hi : actOf i with
    | none => exact .inr (.inl ⟨by rw [hr]; rfl, once_of_exec hi h⟩)
    | some next => exact .inr (.inr ⟨i, next, hi, hr, h⟩)

/-- A step takes a turn from the list: the host's or the engine's (log 6). -/
theorem step_cases {s t : State} (h : step s = .next t) :
    ∃ x, HostMove (s.withTurns x) t ∨ engineStep (s.withTurns x) = .next t := by
  unfold step at h
  split at h
  · next hx => exact ⟨[], .inr (by rw [← h, ← hx]; rfl)⟩
  · next x hx => exact ⟨x, .inr h⟩
  · next x hx => exact ⟨x, .inl (hostMove_of_hostStep h)⟩

/-- What every move of a running command keeps, a micro-step of it keeps. -/
theorem exec_keeps {P : State → Prop} {i : Instr} {next : State → Act} (hi : actOf i = some next)
    (hm : ∀ u v, u.running = some (.legal i) → Move i u v → P u → P v) {s t : State}
    (hr : s.running = some (.legal i)) (hs : P s) (h : exec i s = .next t) : P t := by
  obtain ⟨size, hb, he⟩ := actOf_bounded hi
  rw [he] at h; cases h
  refine microStep_inv (P := fun u => u.running = some (.legal i) ∧ P u) hb (fun u hu => ?_) ⟨hr, hs⟩
  have hP := hm u _ hu.1 (move_of_actOf hi u) hu.2
  have hrun := keeps_running (e := effectsOf i) (by cases i <;> rfl) (actOf_keeps hi) u
  cases hn : next u <;> rw [hn] at hP hrun
  case work v => exact ⟨(hrun v (.inl rfl)).trans hu.1, hP⟩
  case opens v => exact ⟨⟨(hrun v (.inl rfl)).trans hu.1, hP⟩, hP⟩
  case access v => exact ⟨⟨(hrun v (.inr rfl)).trans hu.1, hP⟩, hP⟩
  case ended v => exact hP

/-- A predicate that the turns do not matter to and that the host's moves, the commands of one micro-step and the moves of
the others keep is kept by every step. -/
theorem step_keeps {P : State → Prop} (hturns : ∀ s x, P s → P (s.withTurns x))
    (hhost : ∀ s t, HostMove s t → P s → P t) (honce : ∀ s t, s.running.isSome → Once s t → P s → P t)
    (hmove : ∀ i s t, s.running = some (.legal i) → Move i s t → P s → P t) {s t : State} (hs : P s)
    (h : step s = .next t) : P t := by
  obtain ⟨x, h | h⟩ := step_cases h
  · exact hhost _ _ h (hturns s x hs)
  · obtain rfl | ⟨hr, h⟩ | ⟨i, next, hi, hr, h⟩ := engineStep_cases h
    · exact hturns s x hs
    · exact honce _ _ hr h (hturns s x hs)
    · exact exec_keeps hi (hmove i) hr (hturns s x hs) h

/-! ## TOTAL and FREQ -/

theorem FreqTable.sum_zero : FreqTable.zero.sum = 0 := by
  rw [FreqTable.sum]
  exact List.sum_eq_zero (fun x hx => by obtain ⟨v, -, rfl⟩ := List.mem_map.1 hx; exact FreqTable.count_zero v)

/-- Counting a byte adds one to the sum of the counts (spec/41_tree.md R180). -/
theorem FreqTable.sum_bump (f : FreqTable) (v : Byte) : (f.bump v).sum = f.sum + 1 := by
  have h1 := sum_single symbols symbols_nodup v (mem_symbols v) (fun _ => 1)
  rw [FreqTable.sum, FreqTable.sum, ← h1, ← List.sum_map_add]
  refine congrArg List.sum (List.map_congr_left fun w _ => ?_)
  rw [FreqTable.count_bump]
  by_cases h : w = v
  · simp [h]
  · simp [h, Ne.symm h]

/-- `FreqOk` reads FREQ, TOTAL and the parameters alone. -/
theorem FreqOk.congr {s t : State} (h : FreqOk s) (hf : t.freq = s.freq) (ht : t.total = s.total)
    (hp : t.params = s.params) : FreqOk t := ⟨by rw [hf, ht, h.sum], by rw [ht, hp]; exact h.width⟩

/-- Cleared counts (R180, R44). -/
theorem FreqOk.of_zero {s : State} (hf : s.freq = FreqTable.zero) (ht : s.total = 0) : FreqOk s :=
  ⟨by rw [hf, ht, FreqTable.sum_zero], by rw [ht]; exact Nat.zero_le _⟩

/-- A byte counted where TOTAL is not MAX_LEN (R180). -/
theorem FreqOk.addCount {s : State} (h : FreqOk s) (hm : s.total ≠ s.params.maxLen) (v : Byte) :
    FreqOk (addCount v s) := by
  have := h.width
  exact ⟨by simp [h.sum, FreqTable.sum_bump], by simp; omega⟩

/-- Only the counting loop changes FREQ and TOTAL without clearing them. -/
theorem Move.freqOk {i : Instr} {s t : State} (h : Move i s t) (hs : FreqOk s) : FreqOk t := by
  cases h with
  | counts v hp ho hr hm => exact (hs.congr (by simp) (by simp) (by simp)).addCount (by simpa using hm) v
  | freqCount | encodeBegins => exact .of_zero rfl rfl
  | _ => exact hs.congr (by simp) (by simp) (by simp)

theorem Once.freqOk {s t : State} (h : Once s t) (hs : FreqOk s) : FreqOk t := by
  cases h <;> exact hs.congr (by simp) (by simp) (by simp)

theorem HostMove.freqOk {s t : State} (h : HostMove s t) (hs : FreqOk s) : FreqOk t := by
  cases h with
  | loads | setsSource | setsSink => exact hs.congr (by simp) (by simp) (by simp)
  | sees | accepts | setsDrop | stays => exact hs.congr rfl rfl rfl
  | resets => exact .of_zero rfl rfl

/-- Settles O55: a byte is counted only where TOTAL is not MAX_LEN, and adds one to TOTAL and to the sum. -/
theorem stepKeepsTotalTheSumOfFreq : Obligations.StepKeepsTotalTheSumOfFreq := by
  intro s t hs h
  exact step_keeps (fun s x hs => hs.congr rfl rfl rfl) (fun _ _ h => h.freqOk) (fun _ _ _ h => h.freqOk)
    (fun _ _ _ _ h => h.freqOk) hs h

/-! ## PHASE -/

/-- On the error path the phase is any of the command's (spec/10_state.md R39). -/
theorem AtPhase.raised {i : Instr} {q : Pos} {ph : Phase} (e : Error) (h : AtPhase (.legal i) q ph) :
    AtPhase (.legal i) (.raised e) ph := by
  cases i
  case encode =>
    cases q <;> simp only [AtPhase] at h ⊢ <;> first | exact h | (rw [h]; decide)
  case decode =>
    cases q <;> simp only [AtPhase] at h ⊢ <;> first | exact h | (rw [h]; decide)
  all_goals exact h

theorem AtPhase.ser {i : Instr} {a : List SerItem} {ph : Phase} (b : List SerItem)
    (h : AtPhase (.legal i) (.ser a) ph) : AtPhase (.legal i) (.ser b) ph := by cases i <;> exact h

theorem AtPhase.emit {i : Instr} {a : Bits} {ph : Phase} (b : Bits) (h : AtPhase (.legal i) (.emit a) ph) :
    AtPhase (.legal i) (.emit b) ph := by cases i <;> exact h

/-- The positions inside Deserialize have one phase. -/
theorem AtPhase.des {i : Instr} {q r : Pos} {ph : Phase} (h : AtPhase (.legal i) q ph) (hq : q.inTree = true)
    (hr : r.inTree = true) : AtPhase (.legal i) r ph := by
  have key : ∀ x : Pos, x.inTree = true → (AtPhase (.legal i) x ph ↔ AtPhase (.legal i) (.desNode [] 0) ph) := by
    intro x hx
    cases x <;> cases hx <;> cases i <;> exact Iff.rfl
  exact (key r hr).2 ((key q hq).1 h)

/-- The command that has ended has no phase to be in. -/
theorem PhaseOk.of_ended {s : State} (h : s.running = none) : PhaseOk s := fun c hc => by rw [h] at hc; cases hc

theorem PhaseOk.of_running {s t : State} {i : Instr} (hr : s.running = some (.legal i)) (ht : t.running = s.running)
    (h : AtPhase (.legal i) t.pos t.phase) : PhaseOk t := by
  intro c hc
  rw [ht, hr] at hc
  cases hc
  exact h

/-- An edge of ENCODE or DECODE leads to a position whose phase it has set or was in; the loops stay in theirs. -/
theorem Move.phaseOk {i : Instr} {s t : State} (hr : s.running = some (.legal i)) (h : Move i s t) (hs : PhaseOk s) :
    PhaseOk t := by
  have h0 := hs _ hr
  cases h with
  | ends | fails | treeDeserStores | encodeEmpty => exact .of_ended rfl
  | raises e | readRaises e | encodeNoClose e => exact .of_running hr (by simp) (by simpa using h0.raised e)
  | counts => exact .of_running hr (by simp) (by simpa using h0)
  | serializes rest d hp => exact .of_running hr (by simp) (by simpa using (hp ▸ h0).ser rest)
  | emits rest d hp => exact .of_running hr (by simp) (by simpa using (hp ▸ h0).emit rest)
  | innerMarker hp | leafMarker hp | leafInside hp | leafLast hp =>
    exact .of_running hr (by simp) (by simpa using h0.des (by rw [hp]; rfl) rfl)
  | _ => exact .of_running hr (by simp) (by simp_all [AtPhase, Phase.code])

theorem HostMove.phaseOk {s t : State} (h : HostMove s t) (hs : PhaseOk s) : PhaseOk t := by
  cases h with
  | loads | setsSource | setsSink => intro c hc; simpa using hs c (by simpa using hc)
  | sees | setsDrop | stays => exact hs
  | resets => exact .of_ended rfl
  | accepts c =>
    intro d hd
    obtain rfl : commandOf c = d := by simpa [accept] using hd
    show AtPhase (commandOf c) .start (commandOf c).firstPhase
    rcases commandOf c with i | _
    · cases i <;> rfl
    · rfl

theorem Once.running {s t : State} (h : Once s t) : t.running = none := by cases h <;> rfl

/-- Settles O58: each move leads to a position in the phase it sets. -/
theorem stepKeepsThePhase : Obligations.StepKeepsThePhase := by
  intro s t hs h
  exact step_keeps (fun _ _ hs => hs) (fun _ _ h => h.phaseOk) (fun _ _ _ h _ => .of_ended h.running)
    (fun _ _ _ hr h => h.phaseOk hr) hs h

/-! ## The tables -/

/-- The fields `TablesOk` reads, but for the position. -/
def State.tables (s : State) : Config.Params × Option HTree × BitVec 10 × Dict × Bool × Bits × BitVec 4 :=
  (s.params, s.tree, s.nodes, s.dict, s.dictValid, s.cursor, s.padBits)

theorem TablesOk.congr {s t : State} (h : TablesOk s) (ht : t.tables = s.tables) (hq : PosOk t) : TablesOk t := by
  simp only [State.tables, Prod.mk.injEq] at ht
  obtain ⟨h1, h2, h3, h4, h5, h6, h7⟩ := ht
  exact {
    params := by rw [h1]; exact h.params
    nodes := by rw [h2, h3]; exact h.nodes
    fits := by rw [h1, h2]; exact h.fits
    dict := by rw [h2, h4, h5]; exact h.dict
    cursor := by rw [h1, h6]; exact h.cursor
    pads := by rw [h7]; exact h.pads
    pos := hq }

/-- Tables without a tree (spec/10_state.md R32). -/
theorem TablesOk.without {s t : State} (h : TablesOk s) (ht : t.tables = (invalidate s).tables) (hq : PosOk t) :
    TablesOk t := by
  have h0 : TablesOk ((invalidate s).goto .start) := ⟨h.params, rfl, nofun, nofun, h.cursor, h.pads, trivial⟩
  exact h0.congr ht hq

/-- Tables with a new tree that fits the store, and no dictionary (R31, R32, spec/41_tree.md R190). -/
theorem TablesOk.stored {s t : State} {u : HTree} (h : TablesOk s) (hu : u.size ≤ s.params.nodeCap)
    (ht : t.tables = (storeTree u u.size (invalidate s)).tables) (hq : PosOk t) : TablesOk t := by
  have hfit := h.params.fitsNodes
  have hnodes : (BitVec.ofNat 10 u.size).toNat = u.size := by
    rw [BitVec.toNat_ofNat, Nat.mod_eq_of_lt (by omega)]
  have h0 : TablesOk ((storeTree u u.size (invalidate s)).goto .start) :=
    ⟨h.params, hnodes, by rintro _ ⟨⟩; exact hu, nofun, h.cursor, h.pads, trivial⟩
  exact h0.congr ht hq

/-- A built tree fits the store of every implementation (spec/41_tree.md R196). -/
theorem TablesOk.built_fits {s : State} {f : FreqTable} {t : HTree} (h : TablesOk s) (ht : buildTree f = some t) :
    t.size ≤ s.params.nodeCap := by
  obtain ⟨-, -, -, hsize⟩ := buildTree_spec ht
  have := h.params.holdsBuilt
  simp only [Config.N_SYM] at this
  omega

/-- The dictionary of the stored tree, and PADBITS of at most 8 (R34, R36). -/
theorem TablesOk.derived {s t : State} (h : TablesOk s) {u : HTree} (hu : s.tree = some u) {b : BitVec 4}
    (hb : b.toNat ≤ 8) (ht : t.tables = { storeDict s with padBits := b }.tables) (hq : PosOk t) : TablesOk t := by
  have h0 : TablesOk ({ storeDict s with padBits := b }.goto .start) :=
    ⟨h.params, h.nodes, h.fits, fun _ => ⟨u, hu, by simp [hu, dictOf]⟩, h.cursor, hb, trivial⟩
  exact h0.congr ht hq

/-- A cursor on a node of the stored tree (R35): it is no longer than the longest code (spec/41_tree.md R199). -/
theorem TablesOk.moved {s t : State} (h : TablesOk s) {u v : HTree} {c : Bits} (hu : s.tree = some u)
    (hv : u.node c = some v) (ht : t.tables = (s.setCursor c).tables) (hq : PosOk t) : TablesOk t := by
  have hlen := HTree.node_length hv
  have hdepth := u.depth_le (h.fits u hu)
  have h0 : TablesOk ((s.setCursor c).goto .start) :=
    ⟨h.params, h.nodes, h.fits, h.dict, by simp; omega, h.pads, trivial⟩
  exact h0.congr ht hq

/-- PADBITS cleared (R36, spec/42_codec.md R251). -/
theorem TablesOk.unpadded {s t : State} (h : TablesOk s) (ht : t.tables = { s with padBits := 0 }.tables)
    (hq : PosOk t) : TablesOk t := by
  have h0 : TablesOk ({ s with padBits := 0 }.goto .start) :=
    ⟨h.params, h.nodes, h.fits, h.dict, h.cursor, Nat.zero_le _, trivial⟩
  exact h0.congr ht hq

/-! ### What the position says of the tree -/

theorem TablesOk.atNode {s : State} {fs : List Frame} {c : Nat} (h : TablesOk s) (hp : s.pos = .desNode fs c) :
    framesSize fs = c ∧ c ≤ s.params.nodeCap ∧ s.tree = none ∧ s.dictValid = false := by
  simpa only [PosOk, hp] using h.pos

theorem TablesOk.atLeaf {s : State} {fs : List Frame} {c : Nat} (h : TablesOk s) (hp : s.pos = .desLeaf fs c) :
    framesSize fs + 1 = c ∧ c ≤ s.params.nodeCap ∧ s.tree = none ∧ s.dictValid = false := by
  simpa only [PosOk, hp] using h.pos

theorem TablesOk.atDone {s : State} {t : HTree} {c : Nat} (h : TablesOk s) (hp : s.pos = .desDone t c) :
    t.size = c ∧ c ≤ s.params.nodeCap ∧ s.tree = none ∧ s.dictValid = false := by
  simpa only [PosOk, hp] using h.pos

theorem TablesOk.atSer {s : State} {todo : List SerItem} (h : TablesOk s) (hp : s.pos = .ser todo) :
    ∃ t, s.tree = some t := by
  simpa only [PosOk, hp] using h.pos

theorem TablesOk.atSkip {s : State} (h : TablesOk s) (hp : s.pos = .skip) : ∃ l r, s.tree = some (.internal l r) := by
  simpa only [PosOk, hp] using h.pos

theorem TablesOk.atWalk {s : State} (h : TablesOk s) (hp : s.pos = .walk) :
    ∃ t l r, s.tree = some t ∧ t.node s.cursor = some (.internal l r) := by
  simpa only [PosOk, hp] using h.pos

theorem TablesOk.atWrite {s : State} {v : Byte} (h : TablesOk s) (hp : s.pos = .write v) :
    ∃ l r, s.tree = some (.internal l r) ∧ (HTree.internal l r).node s.cursor = some (.leaf v) := by
  simpa only [PosOk, hp] using h.pos

theorem plug_size_inl {t u : HTree} {fs : List Frame} (h : plug t fs = .inl u) : u.size = framesSize fs + t.size := by
  have := plug_bits t fs
  rw [h] at this
  exact this.2

theorem plug_size_inr {t : HTree} {fs gs : List Frame} (h : plug t fs = .inr gs) :
    framesSize gs = framesSize fs + t.size := by
  have := plug_bits t fs
  rw [h] at this
  exact this.2

/-- A tree with an internal node is internal. -/
theorem HTree.root_internal {t l r : HTree} {p : Bits} (h : t.node p = some (.internal l r)) :
    ∃ a b, t = .internal a b := by
  cases t with
  | leaf v => cases p <;> simp [HTree.node] at h
  | internal a b => exact ⟨a, b, rfl⟩

/-- From an internal node each bit leads on. -/
theorem HTree.node_snoc {t l r : HTree} {p : Bits} (h : t.node p = some (.internal l r)) (b : Bool) :
    t.node (p ++ [b]) = some (if b then r else l) := by
  rw [HTree.node_append, h]
  cases b <;> simp [HTree.node]

theorem framesSize_cons (f : Frame) (fs : List Frame) : framesSize (f :: fs) = f.size + framesSize fs := rfl

/-- Inside Deserialize the nodes read are counted up to NODE_CAP; a stored tree, its dictionary and the cursor change
together. -/
theorem Move.tablesOk {i : Instr} {s t : State} (h : Move i s t) (hs : TablesOk s) : TablesOk t := by
  cases h with
  | serializes rest d hp => exact hs.congr (by simp [State.tables]) (by simpa [PosOk] using hs.atSer hp)
  | innerMarker hp ho hr hc =>
    obtain ⟨hfs, -, ht, hd⟩ := hs.atNode hp
    exact hs.congr (by simp [State.tables])
      (by simp [PosOk, framesSize_cons, Frame.size, hfs, ht, hd, hc, Nat.add_comm])
  | leafMarker hp ho hr hc =>
    obtain ⟨hfs, -, ht, hd⟩ := hs.atNode hp
    exact hs.congr (by simp [State.tables]) (by simp [PosOk, hfs, ht, hd, hc])
  | leafInside hp ho hr hv =>
    obtain ⟨hfs, hc, ht, hd⟩ := hs.atLeaf hp
    exact hs.congr (by simp [State.tables]) (by simp [PosOk, plug_size_inr hv, HTree.size, hfs, ht, hd, hc])
  | leafLast hp ho hr hv =>
    obtain ⟨hfs, hc, ht, hd⟩ := hs.atLeaf hp
    exact hs.congr (by simp [State.tables]) (by simp [PosOk, plug_size_inl hv, HTree.size, hfs, ht, hd, hc])
  | treeSer ho ht => exact hs.congr (by simp [State.tables]) (by simp [PosOk, ht])
  | treeDeser | decodeBegins => exact hs.without (by simp [State.tables]) (by simp [PosOk, framesSize])
  | encodeNoFreq => exact hs.without (by simp [State.tables]) (by simp [PosOk])
  | treeDeserStores hp | decodeDegenerate e hp | decodeNoPayload e hp | decodeStores hp =>
    obtain ⟨rfl, hc, -, hd⟩ := hs.atDone hp
    exact hs.stored hc (by simp [State.tables, hd]) (by simp [PosOk])
  | encodeNoSink0 e ht | encodeBuilds hp ht =>
    exact hs.stored (hs.built_fits ht) (by simp [State.tables]) (by simp [PosOk])
  | encodeNoSource | encodeBegins => exact hs.unpadded (by simp [State.tables]) (by simp [PosOk])
  | encodeNoSink1 e n hp hn | encodePads n bits hp hn =>
    obtain ⟨u, hu⟩ := hs.atSer hp
    exact hs.derived hu (b := BitVec.ofNat 4 n) (by simp; omega) (by simp [State.tables]) (by simp [PosOk])
  | decodeSkips hp => exact hs.congr (by simp [State.tables]) (by simpa [PosOk] using hs.atSkip hp)
  | decodeSkipped hp =>
    obtain ⟨l, r, hu⟩ := hs.atSkip hp
    exact hs.moved (c := []) hu rfl (by simp [State.tables]) (by simp [PosOk, hu, HTree.node])
  | decodeWalks b hp hr hn =>
    obtain ⟨u, l, r, hu, hv⟩ := hs.atWalk hp
    have hv' := HTree.node_snoc hv b
    refine hs.moved hu hv' (by simp [State.tables]) ?_
    simp only [hu, Option.bind_some, hv'] at hn
    cases hx : (if b then r else l) with
    | leaf v => exact absurd (congrArg some hx) (hn v)
    | internal x y => simp [PosOk, hu, hv', hx]
  | decodeFinds b hp hr hn =>
    obtain ⟨u, l, r, hu, hv⟩ := hs.atWalk hp
    obtain ⟨x, y, rfl⟩ := HTree.root_internal hv
    simp only [hu, Option.bind_some] at hn
    exact hs.moved hu hn (by simp [State.tables]) (by simp [PosOk, hu, hn])
  | decodeWrites d hp =>
    obtain ⟨l, r, hu, -⟩ := hs.atWrite hp
    exact hs.moved (c := []) hu rfl (by simp [State.tables]) (by simp [PosOk, hu, HTree.node])
  | _ => exact hs.congr (by simp [State.tables]) (by simp_all [PosOk])

theorem Once.tablesOk {s t : State} (h : Once s t) (hs : TablesOk s) : TablesOk t := by
  cases h with
  | invalidates => exact hs.without rfl trivial
  | builds ht => exact hs.stored (hs.built_fits ht) rfl trivial
  | derives ht =>
    obtain ⟨u, hu⟩ := Option.isSome_iff_exists.1 ht
    exact hs.derived hu hs.pads rfl trivial
  | _ => exact hs.congr (by simp [State.tables]) (by simp [PosOk])

/-- Tables after a reset (spec/10_state.md R44). -/
theorem TablesOk.of_reset {s : State} (hp : s.params.Ok) (h : s.tables = { State.reset with params := s.params }.tables)
    (hq : PosOk s) : TablesOk s := by
  have h0 : TablesOk { State.reset with params := s.params } :=
    ⟨hp, rfl, nofun, nofun, Nat.zero_le _, Nat.zero_le _, trivial⟩
  exact h0.congr h hq

theorem HostMove.tablesOk {s t : State} (h : HostMove s t) (hs : TablesOk s) : TablesOk t := by
  have hq := hs.pos
  cases h with
  | loads | setsSource | setsSink => exact hs.congr (by simp [State.tables]) (by simpa [PosOk] using hq)
  | accepts => exact hs.congr rfl trivial
  | resets => exact .of_reset hs.params rfl trivial
  | sees | setsDrop => exact hs.congr rfl hq
  | stays => exact hs

/-- Settles O56: a tree is stored only when its nodes are counted, and the cursor stays on its nodes. -/
theorem stepKeepsTheTables : Obligations.StepKeepsTheTables := by
  intro s t hs h
  exact step_keeps (fun _ _ hs => hs.congr rfl hs.pos) (fun _ _ h => h.tablesOk) (fun _ _ _ h => h.tablesOk)
    (fun _ _ _ _ h => h.tablesOk) hs h

/-! ## Readers and writers, and the ports held -/

theorem bitPortsOk_iff (s : State) : BitPortsOk s ↔ ReaderOk s.r0 s.src0.data ∧ ReaderOk s.r1 s.src1.data
    ∧ WriterOk s.w0 ∧ WriterOk s.w1 :=
  ⟨fun h => ⟨h.reader .p0, h.reader .p1, h.writer .p0, h.writer .p1⟩,
    fun ⟨h0, h1, h2, h3⟩ => ⟨fun p => by cases p <;> assumption, fun p => by cases p <;> assumption⟩⟩

/-- The fields `BitPortsOk` reads. -/
def State.bitPorts (s : State) : Reader × Reader × Writer × Writer × List Byte × List Byte :=
  (s.r0, s.r1, s.w0, s.w1, s.src0.data, s.src1.data)

theorem BitPortsOk.congr {s t : State} (h : BitPortsOk s) (ht : t.bitPorts = s.bitPorts) : BitPortsOk t := by
  simp only [State.bitPorts, Prod.mk.injEq] at ht
  obtain ⟨h1, h2, h3, h4, h5, h6⟩ := ht
  rw [bitPortsOk_iff, h1, h2, h3, h4, h5, h6]
  exact (bitPortsOk_iff s).1 h

theorem BitPortsOk.setReader {s : State} (h : BitPortsOk s) {p : PortNum} {r : Reader}
    (hr : ReaderOk r (s.source p).data) : BitPortsOk (s.setReader p r) := by
  rw [bitPortsOk_iff] at h ⊢
  cases p <;> simp_all

theorem BitPortsOk.put {s : State} (h : BitPortsOk s) {p : PortNum} {w : Writer} (d : List Byte)
    (hw : WriterOk w) : BitPortsOk (s.put p d w) := by
  rw [bitPortsOk_iff] at h ⊢
  cases p <;> simp_all

/-- A helper that reads through an open reader keeps the readers' and writers' invariants. -/
theorem BitPortsOk.read {s : State} (h : BitPortsOk s) {p : PortNum} {r : Reader} (ho : (s.reader p).opened = true)
    (hr : ReadFrom s p r) : BitPortsOk (s.setReader p r) := h.setReader (hr.ok ho (h.reader p))

/-- A helper that writes through an open writer does. -/
theorem BitPortsOk.write {s : State} (h : BitPortsOk s) {p : PortNum} {w : Writer} (d : List Byte)
    (ho : (s.writer p).opened = true) (hw : WrittenTo s p w) : BitPortsOk (s.put p d w) :=
  h.put d (hw.ok ho (h.writer p))

/-- CloseW does. -/
theorem BitPortsOk.close {s : State} (h : BitPortsOk s) {p : PortNum} {w : Writer} (d : List Byte)
    (hw : ClosedFrom s p w) : BitPortsOk (s.put p d w) := h.put d (hw.ok (h.writer p))

/-- Opened or closed anew, readers and writers keep their invariants with no other premise. -/
theorem BitPortsOk.renew {s t : State} (h : BitPortsOk s)
    (h0 : t.r0 = s.r0 ∨ t.r0 = .fresh ∨ t.r0 = .closed) (h1 : t.r1 = s.r1 ∨ t.r1 = .fresh ∨ t.r1 = .closed)
    (h2 : t.w0 = s.w0 ∨ t.w0 = .fresh ∨ t.w0 = .closed) (h3 : t.w1 = s.w1 ∨ t.w1 = .fresh ∨ t.w1 = .closed)
    (h4 : t.src0 = s.src0) (h5 : t.src1 = s.src1) : BitPortsOk t := by
  obtain ⟨g0, g1, g2, g3⟩ := (bitPortsOk_iff s).1 h
  have reader : ∀ {r x : Reader} {d : List Byte}, ReaderOk r d → x = r ∨ x = .fresh ∨ x = .closed → ReaderOk x d := by
    rintro r x d hr (rfl | rfl | rfl)
    · exact hr
    · exact .fresh_ok d
    · exact .closed_ok d
  have writer : ∀ {w x : Writer}, WriterOk w → x = w ∨ x = .fresh ∨ x = .closed → WriterOk x := by
    rintro w x hw (rfl | rfl | rfl)
    · exact hw
    · exact .fresh_ok
    · exact .closed_ok
  rw [bitPortsOk_iff, h4, h5]
  exact ⟨reader g0 h0, reader g1 h1, writer g2 h2, writer g3 h3⟩

/-- A helper reads and writes only what the command holds open at its position. -/
theorem Move.bitPortsOk {i : Instr} {s t : State} (h : Move i s t) (hs : BitPortsOk s) (hh : Holds s i) :
    BitPortsOk t := by
  cases h with
  | readRaises _ _ ho hr | counts _ _ ho hr | innerMarker _ ho hr | leafMarker _ ho hr | leafInside _ ho hr
  | leafLast _ ho hr => exact (hs.read (ho hh) hr).congr rfl
  | serializes _ d _ ho hw | emits _ d _ ho hw => exact (hs.write d (ho hh) hw).congr rfl
  | encodeWritesPad _ d hp hw => exact (hs.write d (by simp_all [Holds, EncodeHolds]) hw).congr rfl
  | encodeReads code hp hr => exact (hs.read (p := .p0) (encodeHolds_emit hp hh).1 hr).congr rfl
  | encodeNoClose _ d hw | encodeClosesW0 d _ hw | encodeClosesW1 d _ hw | encodeReleasesW0 d _ hw
  | encodeReleasesW1 d _ hw | decodeReleasesW0 d _ hw => exact (hs.close d hw).congr rfl
  | decodeSkips hp hr | decodeSkipped hp hr | decodeWalks _ hp hr | decodeFinds _ hp hr =>
    exact (hs.read (by simp_all [Holds, DecodeHolds]) hr).congr rfl
  | decodeWrites d hp hw => exact (hs.write d (by simp_all [Holds, DecodeHolds]) hw).congr rfl
  | decodeNoClose _ d _ _ hw | decodeCloses d _ hw =>
    exact ((hs.close d hw).setReader (p := .p1) (.closed_ok _)).congr rfl
  | _ => exact hs.renew (by simp) (by simp) (by simp) (by simp) (by simp) (by simp)

/-- Before a command's first statement and on the way into Release nothing is held. -/
theorem Holds.of_free {t : State} {i : Instr} (h : t.pos = .start ∨ ∃ e, t.pos = .raised e) : Holds t i := by
  obtain h | ⟨e, h⟩ := h <;> cases i <;> simp [Holds, EncodeHolds, DecodeHolds, h]

/-- What is held is said by the position, the open bits and PADBITS. -/
theorem Holds.congr {s t : State} {i : Instr} (h : Holds s i) (ho : SameOpen s t) : Holds t i := by
  obtain ⟨hr, hw, hpads, hpos⟩ := ho
  have hr0 := hr .p0
  have hr1 := hr .p1
  have hw0 := hw .p0
  have hw1 := hw .p1
  simp only [reader_p0, reader_p1, writer_p0, writer_p1] at hr0 hr1 hw0 hw1
  have key : Holds t i ↔ Holds s i := by
    cases i <;> simp only [Holds, EncodeHolds, DecodeHolds, hpos, hr, hw, hr0, hr1, hw0, hw1, hpads]
  exact key.2 h

theorem Holds.ser {s : State} {i : Instr} {a : List SerItem} (h : Holds s i) (hp : s.pos = .ser a) (b : List SerItem) :
    Holds (s.goto (.ser b)) i := by
  cases i <;> simp_all [Holds, EncodeHolds, DecodeHolds]

theorem Holds.emit {s : State} {i : Instr} {a : Bits} (h : Holds s i) (hp : s.pos = .emit a) (b : Bits) :
    Holds (s.goto (.emit b)) i := by
  cases i <;> simp_all [Holds, EncodeHolds, DecodeHolds]

/-- The positions inside Deserialize hold the same. -/
theorem Holds.des {s : State} {i : Instr} {q : Pos} (h : Holds s i)
    (hp : (∃ fs c, s.pos = .desNode fs c) ∨ ∃ fs c, s.pos = .desLeaf fs c) (hq : q.inTree = true) :
    Holds (s.goto q) i := by
  obtain ⟨fs, c, hp⟩ | ⟨fs, c, hp⟩ := hp <;> cases q <;> cases hq <;> cases i <;>
    simp_all [Holds, EncodeHolds, DecodeHolds]

theorem SameOpen.goto {s t : State} (h : SameOpen s t) (q : Pos) : SameOpen (s.goto q) (t.goto q) :=
  ⟨fun p => by simpa using h.reader p, fun p => by simpa using h.writer p, h.pads, rfl⟩

theorem ReadFrom.sameOpen {s : State} {p : PortNum} {r : Reader} (h : ReadFrom s p r) : SameOpen s (s.setReader p r) :=
  sameOpen_setReader s p r h.opened

theorem WrittenTo.sameOpen {s : State} {p : PortNum} {w : Writer} (h : WrittenTo s p w) (d : List Byte) :
    SameOpen s (s.put p d w) := by
  have hw := h.opened
  exact ⟨fun q => by simp, fun q => by cases p <;> cases q <;> simp_all, by simp, by simp⟩

/-- A position is reached only with the ports it holds opened, and left only as they are closed. -/
theorem Move.holds {i : Instr} {s t : State} (h : Move i s t) (hh : Holds s i) : Holds t i := by
  cases h with
  | ends | fails | treeDeserStores => exact .of_free (.inl rfl)
  | raises e | readRaises e => exact .of_free (.inr ⟨e, rfl⟩)
  | counts v hp ho hr => exact hh.congr (hr.sameOpen.trans ⟨by simp, by simp, rfl, rfl⟩)
  | serializes rest d hp ho hw => exact (hh.ser hp rest).congr ((hw.sameOpen d).goto _)
  | emits rest d hp ho hw => exact (hh.emit hp rest).congr ((hw.sameOpen d).goto _)
  | innerMarker hp ho hr | leafMarker hp ho hr => exact (hh.des (.inl ⟨_, _, hp⟩) rfl).congr (hr.sameOpen.goto _)
  | leafInside hp ho hr | leafLast hp ho hr => exact (hh.des (.inr ⟨_, _, hp⟩) rfl).congr (hr.sameOpen.goto _)
  | freqCount ho => exact fun _ => by simpa using ho
  | treeSer ho | codeEmit _ ho => exact fun _ _ => ho
  | treeDeser ho => exact ⟨fun _ _ _ => by simpa using ho, fun _ _ _ => by simpa using ho⟩
  | encodePads n bits hp hn =>
    simp_all [Holds, EncodeHolds, Writer.fresh]
    omega
  | encodeWritesPad _ _ _ hw | encodeClosesW0 _ _ hw | encodeClosesW1 _ _ hw | encodeReleasesW0 _ _ hw
  | encodeReleasesW1 _ _ hw | decodeWrites _ _ hw | decodeCloses _ _ hw | decodeReleasesW0 _ _ hw =>
    have := hw.opened
    simp_all [Holds, EncodeHolds, DecodeHolds, Reader.closed]
  | encodeReads _ _ hr | decodeSkips _ hr | decodeSkipped _ hr | decodeWalks _ _ hr | decodeFinds _ _ hr =>
    have := hr.opened
    simp_all [Holds, EncodeHolds, DecodeHolds]
  | _ => simp_all [Holds, EncodeHolds, DecodeHolds, Reader.fresh, Reader.closed, Writer.fresh]

/-- A move ends the command or leaves it running. -/
theorem Move.running {i : Instr} {s t : State} (h : Move i s t) : t.running = s.running ∨ t.running = none := by
  cases h with
  | ends | fails | treeDeserStores | encodeEmpty => exact .inr rfl
  | _ => exact .inl (by simp)

theorem Move.portsHeld {i : Instr} {s t : State} (hr : s.running = some (.legal i)) (h : Move i s t)
    (hs : PortsHeld s) : PortsHeld t := by
  intro j hj
  obtain ht | ht := h.running <;> rw [ht] at hj
  · rw [hr] at hj
    cases hj
    exact h.holds (hs i hr)
  · cases hj

/-- A command that has ended holds nothing. -/
theorem PortsHeld.of_ended {s : State} (h : s.running = none) : PortsHeld s := fun i hi => by rw [h] at hi; cases hi

theorem PortsHeld.congr {s t : State} (h : PortsHeld s) (hr : t.running = s.running) (ho : SameOpen s t) :
    PortsHeld t :=
  fun i hi => (h i (hr ▸ hi)).congr ho

theorem HostMove.portsHeld {s t : State} (h : HostMove s t) (hs : PortsHeld s) : PortsHeld t := by
  cases h with
  | loads | setsSource | setsSink => exact hs.congr (by simp) ⟨by simp, by simp, by simp, by simp⟩
  | sees | setsDrop | stays => exact hs
  | accepts => exact fun i _ => .of_free (.inl rfl)
  | resets => exact .of_ended rfl

/-- The host loads only a source whose reader is closed, and a closed reader keeps R24 on any data. -/
theorem HostMove.bitPortsOk {s t : State} (h : HostMove s t) (hs : BitPortsOk s) : BitPortsOk t := by
  cases h with
  | @loads p x hp =>
    have hclosed := (hs.reader p).closed hp
    rw [bitPortsOk_iff] at hs ⊢
    cases p <;> simp_all [ReaderOk.closed_ok]
  | setsSource p | setsSink p => exact hs.congr (by cases p <;> rfl)
  | sees | accepts | setsDrop | stays => exact hs.congr rfl
  | resets => exact (bitPortsOk_iff _).2 ⟨.closed_ok _, .closed_ok _, .closed_ok, .closed_ok⟩

theorem Once.bitPortsOk {s t : State} (h : Once s t) (hs : BitPortsOk s) : BitPortsOk t := by
  cases h with
  | reads v ho hr => exact (hs.read ho hr).congr rfl
  | setsReader p hr => exact (hs.setReader (hr _)).congr rfl
  | writes d hw | flushFails _ d hw => exact (hs.put d (hw (hs.writer _))).congr rfl
  | _ => exact hs.congr rfl

/-- Settles O54, with the ports held kept beside the invariants: an access is made only through an open reader or writer. -/
theorem stepKeepsReadersAndWriters : Obligations.StepKeepsReadersAndWriters := by
  intro s t hs hh h
  exact (step_keeps (P := fun u => BitPortsOk u ∧ PortsHeld u) (fun _ _ hs => ⟨hs.1.congr rfl, hs.2⟩)
    (fun _ _ h hs => ⟨h.bitPortsOk hs.1, h.portsHeld hs.2⟩)
    (fun _ _ _ h hs => ⟨h.bitPortsOk hs.1, .of_ended h.running⟩)
    (fun i _ _ hr h hs => ⟨h.bitPortsOk hs.1 (hs.2 i hr), h.portsHeld hr hs.2⟩) ⟨hs, hh⟩ h).1

/-! ## STATUS and RESULT -/

/-- The fields `StatusOk` reads, but for the phase, the position and W0. -/
def State.flags (s : State) : Bool × Bool × Bool × Bool × Bool × BitVec 4 × Byte × Bool × Option Command :=
  (s.busy, s.done, s.err, s.empty, s.partialCode, s.errcode, s.resultValue, s.resultValid, s.running)

theorem StatusOk.congr {s t : State} (h : StatusOk s) (ht : t.flags = s.flags)
    (hph : t.phase = .idle ↔ s.phase = .idle)
    (ha : s.running = some (.legal .decode) → DecodeAligned s → DecodeAligned t) : StatusOk t := by
  simp only [State.flags, Prod.mk.injEq] at ht
  obtain ⟨h1, h2, h3, h4, h5, h6, h7, h8, h9⟩ := ht
  exact {
    busyIff := by rw [h1, h9]; exact h.busyIff
    idleIff := by rw [hph, h1]; exact h.idleIff
    busyClear := by rw [h1, h2, h3, h4, h5, h8]; exact h.busyClear
    errDone := by rw [h2, h3]; exact h.errDone
    errCode := by rw [h3, h6]; exact h.errCode
    emptyOk := by rw [h3, h4]; exact h.emptyOk
    partialOk := by rw [h3, h5]; exact h.partialOk
    validOk := by rw [h3, h8]; exact h.validOk
    valueOk := by rw [h7, h8]; exact h.valueOk
    aligned := by rw [h9]; exact fun hd => ha hd (h.aligned hd) }

/-- While a command runs STATUS and RESULT read as acceptance set them (spec/70_reset_and_hazards.md R351). -/
theorem StatusOk.clear {s : State} (h : StatusOk s) (hb : s.running.isSome) :
    s.phase ≠ .idle ∧ s.err = false ∧ s.errcode = 0 ∧ s.empty = false ∧ s.partialCode = false
      ∧ s.resultValid = false ∧ s.resultValue = 0 := by
  have hbusy : s.busy = true := h.busyIff.trans hb
  obtain ⟨-, herr, hempty, hpartial, hvalid⟩ := h.busyClear hbusy
  have hphase : s.phase ≠ .idle := fun hi => by simp [h.idleIff.1 hi] at hbusy
  exact ⟨hphase, herr, h.errCode.2 herr, hempty, hpartial, hvalid, h.valueOk hvalid⟩

/-- The normal end (spec/60_exceptions.md R305). -/
theorem StatusOk.of_normalEnd {t : State} (he : t.err = false) (hc : t.errcode = 0)
    (hv : t.resultValid = false → t.resultValue = 0) : StatusOk (normalEnd t) := by
  constructor <;> simp_all

theorem Error.code_ne_zero (e : Error) : e.code ≠ 0 := by cases e <;> decide

/-- The error end (R306). -/
theorem StatusOk.of_errorEnd {t : State} (e : Error) (hempty : t.empty = false) (hp : t.partialCode = false)
    (hb : t.resultValid = false) (hv : t.resultValue = 0) : StatusOk (errorEnd e t) := by
  have := e.code_ne_zero
  constructor <;> simp_all

/-- A running command that goes on keeps STATUS. -/
theorem StatusOk.runs {s t : State} (h : StatusOk s) (hb : s.running.isSome) (ht : t.flags = s.flags)
    (hph : t.phase = s.phase ∨ t.phase ≠ .idle)
    (ha : s.running = some (.legal .decode) → DecodeAligned s → DecodeAligned t) : StatusOk t := by
  refine h.congr ht ?_ ha
  have := (h.clear hb).1
  obtain hph | hph := hph
  · rw [hph]
  · simp [hph, this]

/-- DECODE pushes whole bytes only (spec/42_codec.md R275): the number of pending bits of W0 stays 0. -/
theorem Move.aligned {s t : State} (h : Move .decode s t) (hs : DecodeAligned s) : DecodeAligned t := by
  cases h <;> simp_all [DecodeAligned, Writer.fresh, Writer.closed]

/-- DECODE past its last bit: PARTIAL may be set already, though the command ends only after CloseW (R276, R277). -/
structure Closing (s : State) : Prop where
  running : s.running = some (.legal .decode)
  pos : s.pos.closing = true
  rest : StatusOk { s with partialCode := false }

/-- A move keeps STATUS, but for PARTIAL at DECODE's end. -/
theorem Move.statusOk {i : Instr} {s t : State} (hr : s.running = some (.legal i)) (h : Move i s t)
    (hs : StatusOk s) : StatusOk t ∨ Closing t := by
  have hb : s.running.isSome := by rw [hr]; rfl
  obtain ⟨hphase, herr, hcode, hempty, hpartial, hvalid, hvalue⟩ := hs.clear hb
  have ha : s.running = some (.legal .decode) → DecodeAligned s → DecodeAligned t := fun hd => by
    rw [hr] at hd; cases hd; exact h.aligned
  cases h with
  | ends | treeDeserStores | encodeEmpty => exact .inl (.of_normalEnd herr hcode fun _ => hvalue)
  | fails e => exact .inl (.of_errorEnd e hempty hpartial hvalid hvalue)
  | decodeWalked b hp =>
    exact .inr ⟨hr, rfl, hs.runs hb (by simp [State.flags, hpartial]) (.inr (by simp)) ha⟩
  | _ => exact .inl (hs.runs hb (by simp [State.flags]) (by simp) ha)

/-- DECODE's closing moves: CloseW, which has no bits to push and so raises nothing, and the end. -/
theorem Move.of_closing {i : Instr} {s t : State} (hr : s.running = some (.legal i)) (h : Move i s t)
    (hs : Closing s) : StatusOk t ∨ Closing t := by
  obtain ⟨hd, hp, hrest⟩ := hs
  obtain rfl : i = .decode := by rw [hr] at hd; cases hd; rfl
  obtain ⟨-, herr, hcode, -, -, -, hvalue⟩ := hrest.clear (Option.isSome_iff_exists.2 ⟨_, hd⟩)
  cases h with
  | ends => exact .inl (.of_normalEnd herr hcode fun _ => hvalue)
  | decodeCloses d hc =>
    exact .inr ⟨hd, rfl, hrest.congr (by simp [State.flags]) (by simp) (fun _ _ => trivial)⟩
  | decodeNoClose e d hc hn =>
    have := hrest.aligned hd
    simp_all [DecodeAligned]
  | _ => simp_all [Pos.closing]

/-- Before "end normally" no access is ahead. -/
theorem not_ahead_finish {s : State} (hp : s.pos = .finish) : ¬ Ahead decodeAct s := by
  have hd : decodeAct s = .ended (normalEnd s) := by rw [decodeAct, hp]
  intro ha
  cases ha with
  | work h => rw [hd] at h; cases h
  | access h => rw [hd] at h; cases h

/-- Nor at DECODE's end, where W0 has no bits to flush (spec/42_codec.md R277). -/
theorem Closing.not_ahead {s : State} (hs : Closing s) : ¬ Ahead decodeAct s := by
  have hpos := hs.pos
  unfold Pos.closing at hpos
  split at hpos
  · next hp =>
    have hn : s.w0.n = 0 := by simpa [DecodeAligned, hp] using hs.rest.aligned hs.running
    obtain ⟨d, w, -, h | ⟨hn', -⟩⟩ := closeW_cases .p0 (closeR .p1 s)
    · have hd : decodeAct s = .work (((closeR .p1 s).put .p0 d w).goto .finish) := by
        rw [decodeAct, hp]
        simp only [closeWriter, h, Res.goto]
        simp [closePushes, closeR, hn]
      intro ha
      cases ha with
      | work h hu => rw [hd] at h; cases h; exact not_ahead_finish rfl hu
      | access h => rw [hd] at h; cases h
    · exact absurd hn hn'
  · next hp => exact not_ahead_finish hp
  · cases hpos

/-- So no micro-step rests there (spec/20_memory.md R72, spec/70_reset_and_hazards.md R354). -/
theorem exec_not_closing {i : Instr} {next : State → Act} (hi : actOf i = some next) {s t : State}
    (hr : s.running = some (.legal i)) (h : exec i s = .next t) : ¬ Closing t := by
  intro ht
  obtain rfl : i = .decode := by
    obtain he | he := actOf_running hi h <;> rw [ht.running] at he
    · simpa [hr] using he.symm
    · cases he
  cases hi
  exact ht.not_ahead (exec_ahead rfl h (by simp [ht.running])).2

theorem Once.statusOk {s t : State} (h : Once s t) (hb : s.running.isSome) (hs : StatusOk s) : StatusOk t := by
  obtain ⟨hphase, herr, hcode, hempty, hpartial, hvalid, hvalue⟩ := hs.clear hb
  cases h with
  | fails e | invalidates e => exact .of_errorEnd e hempty hpartial hvalid hvalue
  | reads v => exact .of_normalEnd (by simpa using herr) (by simpa using hcode) nofun
  | setsReader | writes => exact .of_normalEnd (by simpa using herr) (by simpa using hcode) (by simp [hvalue])
  | flushFails e d => exact .of_errorEnd e (by simp [hempty]) (by simp [hpartial]) (by simp [hvalid]) (by simp [hvalue])
  | builds | derives => exact .of_normalEnd herr hcode fun _ => hvalue

theorem HostMove.statusOk {s t : State} (h : HostMove s t) (hs : StatusOk s) : StatusOk t := by
  cases h with
  | loads | setsSource | setsSink => exact hs.congr (by simp [State.flags]) (by simp) (by simp [DecodeAligned])
  | sees | setsDrop | stays => exact hs.congr rfl Iff.rfl (fun _ => id)
  | accepts c =>
    have hph : (commandOf c).firstPhase ≠ .idle := by
      unfold Command.firstPhase
      split <;> decide
    constructor <;> simp [accept, hph, DecodeAligned]
  | resets => constructor <;> simp [resetBlock, State.reset]

/-- Settles O57: PARTIAL is set before DECODE has ended, but in the micro-step that ends it. -/
theorem stepKeepsStatus : Obligations.StepKeepsStatus := by
  intro s t hs h
  have turns : ∀ x, StatusOk (s.withTurns x) := fun x => hs.congr rfl Iff.rfl (fun _ => id)
  obtain ⟨x, h | h⟩ := step_cases h
  · exact h.statusOk (turns x)
  · obtain rfl | ⟨hr, h⟩ | ⟨i, next, hi, hr, h⟩ := engineStep_cases h
    · exact turns x
    · exact h.statusOk hr (turns x)
    · have key := exec_keeps (P := fun u => StatusOk u ∨ Closing u) hi
        (fun u v hu hm hs => hs.elim (hm.statusOk hu) (hm.of_closing hu)) hr (.inl (turns x)) h
      exact key.resolve_right (exec_not_closing hi hr h)

/-! ## Frames -/

theorem Move.params {i : Instr} {s t : State} (h : Move i s t) : t.params = s.params := by cases h <;> simp

theorem Once.params {s t : State} (h : Once s t) : t.params = s.params := by cases h <;> simp

/-- No command changes the parameters (log 14). -/
theorem exec_params {i : Instr} {s t : State} (h : exec i s = .next t) : t.params = s.params := by
  cases hi : actOf i with
  | none => exact (once_of_exec hi h).params
  | some next =>
    obtain ⟨-, -, he⟩ := actOf_bounded hi
    rw [he] at h; cases h
    exact microStep_keeps (P := fun u => u.params = s.params) (fun u hu => (move_of_actOf hi u).params.trans hu) rfl

/-- Settles O53: a command has the effects `effectsOf` names, and no other. -/
theorem commandsChangeOnlyWhatIsTheirs : Obligations.CommandsChangeOnlyWhatIsTheirs := by
  intro i s t h
  have hs := exec_same h
  refine ⟨fun h1 h2 => hs.freq ?_, fun h1 h2 h3 h4 => hs.tree ?_, fun h1 h2 h3 h4 h5 => hs.dictValid ?_,
    fun h1 h2 => hs.dict ?_, fun h1 => ⟨hs.cursor ?_, hs.partialCode ?_⟩, fun h1 => ⟨hs.padBits ?_, hs.empty ?_⟩,
    fun h1 => hs.result ?_, hs.drop, exec_params h, hs.src0, hs.src1, hs.turns, hs.seen,
    fun p => ⟨fun hp => hs.reader p ?_, fun hp => hs.writer p ?_, hs.avail p⟩⟩
  all_goals cases i <;> simp_all [effectsOf, portEffects, Effects.ended]

/-! ## Resets and registers -/

/-- A reset gives the block R44's values (spec/70_reset_and_hazards.md R341). -/
theorem blockIsReset_resetBlock (s : State) : BlockIsReset (resetBlock s) where
  reader p := by cases p <;> rfl
  writer p := by cases p <;> rfl
  freq v := FreqTable.count_zero v
  total := rfl
  tree := rfl
  nodes := rfl
  dict v := Dict.code_none v
  dictValid := rfl
  cursor := rfl
  padBits := rfl
  status := by simp [State.statusWord, Phase.code, Reader.closed, Writer.closed, resetBlock, State.reset]
  result := by simp [State.resultWord, resetBlock, State.reset]
  info := by simp [State.infoWord, State.rootLeaf, State.treeValid, resetBlock, State.reset]
  running := rfl

/-- A reset leaves the ports and an idle block (R342). -/
theorem resetBlock_ports (s : State) (p : PortNum) :
    (resetBlock s).source p = s.source p ∧ (resetBlock s).sink p = s.sink p := by cases p <;> exact ⟨rfl, rfl⟩

/-- A CTRL write by its two bits (spec/10_state.md R42). -/
theorem hostStep_ctrl (c : Word) (s : State) : hostStep (.csrWrite 0x10 32 c) s = .next (writeCtrl c s) := rfl

/-- Settles O8: SOFT_RESET is `resetBlock`, whose state is that of R44. -/
theorem resetGivesTheResetValues : Obligations.ResetGivesTheResetValues := by
  refine ⟨fun s c hc => ⟨resetBlock s, ?_, blockIsReset_resetBlock s, resetBlock_ports s, fun _ => rfl⟩,
    blockIsReset_resetBlock State.reset⟩
  rw [hostStep_ctrl, writeCtrl, if_pos hc]

/-- Settles O9, by the two bits of the word. -/
theorem controlWriteBits : Obligations.ControlWriteBits := by
  intro c s
  simp only [hostStep_ctrl, writeCtrl]
  refine ⟨fun h0 => ⟨resetBlock s, by rw [if_pos h0], blockIsReset_resetBlock s, rfl⟩,
    fun h0 h1 => ?_, fun h0 h1 => ?_, rfl⟩
  · rw [h0, h1]; rfl
  · rw [h0, h1]; rfl

/-- Settles O60: no command runs after a reset, and the readers, writers and tables are empty. -/
theorem resetMeetsTheInvariants : Obligations.ResetMeetsTheInvariants := by
  have hports : BitPortsOk State.reset :=
    (bitPortsOk_iff _).2 ⟨.closed_ok _, .closed_ok _, .closed_ok, .closed_ok⟩
  have htables : TablesOk State.reset := .of_reset ⟨by decide, by decide⟩ rfl trivial
  have hstatus : StatusOk State.reset := by constructor <;> simp [State.reset]
  exact ⟨⟨hports, .of_zero rfl rfl, htables, hstatus, .of_ended rfl, .of_ended rfl, fun i next hr => by cases hr⟩,
    fun s => ⟨resetBlock s, rfl, blockIsReset_resetBlock s, resetBlock_ports s, fun _ => rfl⟩⟩

theorem getLsbD_append_low {n m i : Nat} {x : BitVec n} {y : BitVec m} (h : i < m) :
    (x ++ y).getLsbD i = y.getLsbD i := by rw [BitVec.getLsbD_append, if_pos h]

theorem getLsbD_append_high {n m i : Nat} {x : BitVec n} {y : BitVec m} (h : m ≤ i) :
    (x ++ y).getLsbD i = x.getLsbD (i - m) := by rw [BitVec.getLsbD_append, if_neg (Nat.not_lt.2 h)]

/-- ROOT_LEAF as R32 has it. -/
theorem rootLeaf_iff (s : State) : s.rootLeaf = true ↔ ∃ v, s.tree = some (.leaf v) := by
  unfold State.rootLeaf
  split
  · next v hv => exact ⟨fun _ => ⟨v, hv⟩, fun _ => rfl⟩
  · next hv => exact ⟨nofun, fun ⟨v, h⟩ => absurd h (hv v)⟩

/-- Settles O10: each field by its place in the word. -/
theorem csrReadsReturnTheFields : Obligations.CsrReadsReturnTheFields := by
  intro s
  refine ⟨⟨s.statusWord, rfl, ?_⟩, ⟨s.resultWord, rfl, ?_⟩, ⟨s.infoWord, rfl, ?_⟩, rfl, ?_⟩
  on_goal 4 =>
    intro c offset h
    simp only [List.mem_cons, List.not_mem_nil, or_false] at h
    obtain rfl | rfl | rfl := h <;> rfl
  all_goals
    simp (disch := decide) only [State.statusWord, State.resultWord, State.infoWord, getLsbD_append_low,
      getLsbD_append_high, BitVec.getLsbD_ofBool, BitVec.extractLsb'_append_eq_of_le,
      BitVec.extractLsb'_append_eq_of_add_le]
    simp [BitVec.extractLsb'_eq_self, rootLeaf_iff, State.treeValid]

end Sys2Proof.Machine
end

section
/-! PROOFS. The statements about the host's steps and the micro-step (spec/20_memory.md). -/

namespace Sys2Proof.Machine

/-! ## Bytes moved by the helpers -/

theorem moved_setReader {s : State} {p : PortNum} {r : Reader} {k : Nat} (h : r.pos ≤ (s.reader p).pos + k) :
    (s.setReader p r).moved ≤ s.moved + k := by
  cases p <;> simp only [State.moved, State.setReader, State.reader] at h ⊢ <;> omega

theorem moved_setSink {s : State} {p : PortNum} {x : Sink} {k : Nat}
    (h : x.data.length ≤ (s.sink p).data.length + k) : (s.setSink p x).moved ≤ s.moved + k := by
  cases p <;> simp only [State.moved, State.setSink, State.sink] at h ⊢ <;> omega

@[simp] theorem moved_setWriter (s : State) (p : PortNum) (w : Writer) : (s.setWriter p w).moved = s.moved := by
  cases p <;> rfl

@[simp] theorem moved_goto (s : State) (q : Pos) : (s.goto q).moved = s.moved := rfl

/-- A fresh or closed reader has pulled nothing yet (spec/40_bitio.md R121, R122). -/
theorem moved_setReader_zero {s : State} {p : PortNum} {r : Reader} (h : r.pos = 0) :
    (s.setReader p r).moved ≤ s.moved := moved_setReader (k := 0) (by omega)

theorem moved_closeR (p : PortNum) (s : State) : (closeR p s).moved ≤ s.moved := moved_setReader_zero rfl

theorem moved_openR (p : PortNum) (s : State) : (openR p s).state.moved ≤ s.moved := by
  obtain ⟨e, h⟩ | h := openR_cases p s <;> rw [h]
  · exact Nat.le_refl _
  · exact moved_setReader_zero rfl

theorem moved_openW (p : PortNum) (s : State) : (openW p s).state.moved ≤ s.moved := by
  obtain ⟨e, h⟩ | h := openW_cases p s <;> rw [h]
  · exact Nat.le_refl _
  · simpa [Res.state] using moved_setSink (k := 0) (s := s) (p := p) (x := { s.sink p with data := [] }) (by simp)

theorem moved_push (p : PortNum) (v : Byte) (s : State) : (push p v s).state.moved ≤ s.moved + 1 := by
  obtain ⟨e, h⟩ | h := push_cases p v s <;> rw [h]
  · exact Nat.le_succ _
  · exact moved_setSink (by simp)

/-- ReadBit moves a byte only where it pulls one (R124). -/
theorem moved_readBit (p : PortNum) (s : State) : (readBit p s).state.moved ≤ s.moved + (bitPulls p s).toNat := by
  cases hb : bitPulls p s
  · rw [readBit_inner hb]
    exact moved_setReader (Nat.le_refl _)
  · have hc : (s.reader p).cnt = 0 := by simpa [bitPulls] using hb
    rw [readBit, if_pos hc]
    obtain ⟨e, h⟩ | ⟨v, -, h⟩ := pull_cases p s <;> simp only [h]
    · exact Nat.le_succ _
    · rw [setReader_reader, setReader_setReader]
      exact moved_setReader (Nat.le_refl _)

theorem moved_readByte (p : PortNum) (s : State) : (readByte p s).state.moved ≤ s.moved + 1 := by
  unfold readByte
  obtain ⟨e, h⟩ | ⟨v, -, h⟩ := pull_cases p s <;> simp only [h]
  · exact Nat.le_succ _
  · rw [setReader_reader, setReader_setReader]
    exact moved_setReader (Nat.le_refl _)

/-- WriteBit moves a byte only where it completes one (R128). -/
theorem moved_writeBit (p : PortNum) (b : Bool) (s : State) :
    (writeBit p b s).state.moved ≤ s.moved + (bitPushes p s).toNat := by
  cases hb : bitPushes p s
  · rw [writeBit_inner hb]
    simp [Res.state]
  · have hn : (s.writer p).n = 7 := by simpa [bitPushes] using hb
    have hp := moved_push p ((s.writer p).place b) s
    rw [writeBit, if_pos hn]
    cases h : push p ((s.writer p).place b) s <;> rw [h] at hp
    · simpa [Res.state] using hp
    · exact hp

theorem moved_writeByte (p : PortNum) (v : Byte) (s : State) : (writeByte p v s).state.moved ≤ s.moved + 1 := by
  have hp := moved_push p ((s.writer p).acc ||| (v >>> (s.writer p).n.val)) s
  unfold writeByte
  dsimp only
  cases h : push p ((s.writer p).acc ||| (v >>> (s.writer p).n.val)) s <;> rw [h] at hp
  · simpa [Res.state] using hp
  · exact hp

/-- CloseW moves a byte only where it flushes pending bits (R127). -/
theorem moved_closeW (p : PortNum) (s : State) : (closeW p s).state.moved ≤ s.moved + (closePushes p s).toNat := by
  unfold closeW
  split
  · next ho =>
    dsimp only
    split
    · simp [Res.state]
    · next hn =>
      have hc : closePushes p s = true := by simp [closePushes, ho, hn]
      rw [hc]
      simpa using moved_push p (s.writer p).acc (s.setWriter p .closed)
  · exact Nat.le_add_right _ _

theorem moved_res_goto {α : Type} (r : Res α) (q : Pos) : (r.goto q).moved = r.state.moved := by cases r <;> rfl

/-! ## Bytes moved by the engine -/

/-- With n bytes moved before it an act moves one more at most, and none where it is no access (R72). -/
def Act.Moves (n : Nat) : Act → Prop
  | .work t => t.moved ≤ n
  | .opens t => t.moved ≤ n
  | .access t => t.moved ≤ n + 1
  | .ended t => t.moved ≤ n

theorem moves_of {n : Nat} {b : Bool} {t : State} (h : t.moved ≤ n + b.toNat) : (Act.of b t).Moves n := by
  cases b <;> exact h

theorem Act.Moves.mono {a : Act} {m n : Nat} (h : a.Moves m) (hmn : m ≤ n) : a.Moves n := by
  cases a <;> simp only [Act.Moves] at h ⊢ <;> omega

/-- A micro-step makes one access at most, so it moves one byte at most. -/
theorem microStep_moved {next : State → Act} {size : State → Nat} (hb : Bounded next size)
    (h : ∀ s, (next s).Moves s.moved) (s : State) : (microStep next s).moved ≤ s.moved + 1 := by
  have low : ∀ n u v, u.moved ≤ n → (next u = .work v ∨ next u = .opens v ∨ next u = .ended v) → v.moved ≤ n := by
    intro n u v hu hv
    have hm := h u
    obtain hv | hv | hv := hv <;> rw [hv] at hm <;> exact Nat.le_trans hm hu
  refine microStep_post (P := fun u => u.moved ≤ s.moved) (P' := fun u => u.moved ≤ s.moved + 1) hb
    (fun u v hu hv => low _ u v hu ?_) (fun u v hu hv => low _ u v hu (.inl hv))
    (fun u v hu hv => and_self_iff.2 (low _ u v hu (.inr (.inl hv)))) (fun u v hu hv => and_self_iff.2 ?_)
    (fun u v hu hv => Nat.le_succ_of_le (low _ u v hu (.inr (.inr hv))))
    (fun u v hu hv => low _ u v hu (.inr (.inr hv))) (Nat.le_refl _)
  · cases hn : next u <;> rw [hn] at hv <;> cases hv
    · exact .inl rfl
    · exact .inr (.inl rfl)
  · have hm := h u
    rw [hv] at hm
    exact Nat.le_trans hm (Nat.succ_le_succ hu)

theorem moves_countAct {p : PortNum} {after : State → Act} {s : State} (ha : (after s).Moves s.moved) :
    (countAct p after s).Moves s.moved := by
  unfold countAct
  split
  · exact ha
  · have hm := moved_readByte p s
    cases h : readByte p s <;> rw [h] at hm
    case ok v t =>
      show (countByte v t).moved ≤ _
      unfold countByte
      split <;> exact hm
    case raise e t => exact hm

theorem moves_writeBit (p : PortNum) (b : Bool) (q : Pos) (s : State) :
    (Act.of (bitPushes p s) ((writeBit p b s).goto q)).Moves s.moved :=
  moves_of (by rw [moved_res_goto]; exact moved_writeBit p b s)

theorem moves_serAct {p : PortNum} {todo : List SerItem} {after : State → Act} {s : State}
    (ha : (after s).Moves s.moved) : (serAct p todo after s).Moves s.moved := by
  unfold serAct
  split
  · exact ha
  · exact moves_writeBit p _ _ s
  · exact moves_writeBit p _ _ s
  · next v rest => exact (moved_res_goto _ _).trans_le (moved_writeByte p v s)

theorem moves_emitAct {p : PortNum} {bits : Bits} {after : State → Act} {s : State}
    (ha : (after s).Moves s.moved) : (emitAct p bits after s).Moves s.moved := by
  unfold emitAct
  split
  · exact ha
  · exact moves_writeBit p _ _ s

theorem moves_desNodeAct (p : PortNum) (fs : List Frame) (c : Nat) (s : State) :
    (desNodeAct p fs c s).Moves s.moved := by
  have hm := moved_readBit p s
  refine moves_of ?_
  cases h : readBit p s <;> rw [h] at hm
  case ok b t =>
    dsimp only
    split
    · exact hm
    · split <;> exact hm
  case raise e t => exact hm

theorem moves_desLeafAct (p : PortNum) (fs : List Frame) (c : Nat) (s : State) :
    (desLeafAct p fs c s).Moves s.moved := by
  have hm := moved_readByte p s
  unfold desLeafAct
  cases h : readByte p s <;> rw [h] at hm
  case ok v t => dsimp only; split <;> exact hm
  case raise e t => exact hm

theorem moves_closeWriter (p : PortNum) (q : Pos) (s : State) : (closeWriter p q s).Moves s.moved :=
  moves_of (by rw [moved_res_goto]; exact moved_closeW p s)

theorem moves_releaseWriter (p : PortNum) (q : Pos) (s : State) : (releaseWriter p q s).Moves s.moved := by
  have hm := moved_closeW p s
  refine moves_of ?_
  cases h : closeW p s <;> rw [h] at hm <;> exact hm

theorem moves_freqCountAct (p : PortNum) (s : State) : (freqCountAct p s).Moves s.moved := by
  unfold freqCountAct
  split
  · exact moves_countAct (Nat.le_refl _)
  · exact Nat.le_refl _
  · split <;> exact Nat.le_refl _

theorem moves_treeSerAct (p : PortNum) (s : State) : (treeSerAct p s).Moves s.moved := by
  unfold treeSerAct
  split
  · exact moves_serAct (Nat.le_refl _)
  · exact Nat.le_refl _
  · split
    · split <;> exact Nat.le_refl _
    · exact Nat.le_refl _

theorem moves_treeDeserAct (p : PortNum) (s : State) : (treeDeserAct p s).Moves s.moved := by
  unfold treeDeserAct
  split
  · exact moves_desNodeAct p _ _ s
  · exact moves_desLeafAct p _ _ s
  · exact Nat.le_refl _
  · exact Nat.le_refl _
  · split <;> exact Nat.le_refl _

theorem moves_codeEmitAct (p : PortNum) (v : Byte) (s : State) : (codeEmitAct p v s).Moves s.moved := by
  unfold codeEmitAct
  split
  · exact moves_emitAct (Nat.le_refl _)
  · exact Nat.le_refl _
  · split
    · split
      · split <;> exact Nat.le_refl _
      · exact Nat.le_refl _
    · exact Nat.le_refl _

theorem moves_encodeStart (s : State) : (encodeStart s).Moves s.moved := by
  have hm := moved_openR .p0 s.encodeBegun
  unfold encodeStart
  split
  · exact Nat.le_refl _
  · cases h : openR .p0 s.encodeBegun <;> rw [h] at hm <;> exact hm

theorem moves_encodeCounted (s : State) : (encodeCounted s).Moves s.moved := by
  have hc := moved_closeR .p0 s
  unfold encodeCounted
  dsimp only
  split
  · exact hc
  · split
    · exact hc
    · next t ht =>
      exact (moved_res_goto _ _).trans_le ((moved_openW .p0 (s.encodeBuilt t)).trans hc)

theorem moves_encodeSerialized (s : State) : (encodeSerialized s).Moves s.moved :=
  (moved_res_goto _ _).trans_le (moved_openW .p1 (s.encodePadded (padCount (totalBits s.freq (dictOf s.tree)))))

theorem moves_encodePad (bits : Bits) (s : State) : (encodePad bits s).Moves s.moved := by
  unfold encodePad
  split
  · exact moves_writeBit .p1 _ _ s
  · exact (moved_res_goto _ _).trans_le (moved_openR .p0 (s.inPhase .eEmit))

theorem moves_encodeNext (s : State) : (encodeNext s).Moves s.moved := by
  unfold encodeNext
  split
  · exact moved_closeR .p0 s
  · have hm := moved_readByte .p0 s
    cases h : readByte .p0 s <;> rw [h] at hm
    case ok v t => dsimp only; split <;> exact hm
    case raise e t => exact hm

theorem moves_encodeAct (s : State) : (encodeAct s).Moves s.moved := by
  unfold encodeAct
  split
  · exact moves_countAct (moves_encodeCounted s)
  · exact moves_serAct (moves_encodeSerialized s)
  · exact moves_encodePad _ s
  · exact moves_emitAct (moves_encodeNext s)
  · exact moves_closeWriter _ _ s
  · exact moves_closeWriter _ _ s
  · exact Nat.le_refl _
  · exact moved_closeR .p0 s
  · exact moves_releaseWriter _ _ s
  · exact moves_releaseWriter _ _ s
  · exact Nat.le_refl _
  · exact moves_encodeStart s

theorem moves_decodeStart (s : State) : (decodeStart s).Moves s.moved := by
  unfold decodeStart
  split
  · exact Nat.le_refl _
  · have hw := moved_openW .p0 (s.inPhase .dTree)
    cases h : openW .p0 (s.inPhase .dTree) <;> rw [h] at hw
    case raise e t => exact hw
    case ok t =>
      have hr := (moved_openR .p0 t).trans hw
      dsimp only
      cases h : openR .p0 t <;> rw [h] at hr <;> exact hr

theorem moves_decodeTreeRead (t : HTree) (c : Nat) (s : State) : (decodeTreeRead t c s).Moves s.moved := by
  have hc := moved_closeR .p0 (storeTree t c s)
  unfold decodeTreeRead
  dsimp only
  split
  · exact hc
  · exact (moved_res_goto _ _).trans_le ((moved_openR .p1 ((s.decodeStored t c).inPhase .dPad)).trans hc)

theorem moved_moveCursor (b : Bool) (s : State) : (moveCursor b s).moved = s.moved := by
  unfold moveCursor
  dsimp only
  split <;> rfl

theorem moves_decodeSkip (s : State) : (decodeSkip s).Moves s.moved := by
  unfold decodeSkip
  split
  · exact Nat.le_refl _
  · have hm := moved_readBit .p1 s
    refine moves_of ?_
    rcases h : readBit .p1 s with ⟨_ | _, t⟩ | ⟨e, t⟩ <;> rw [h] at hm <;> exact hm

theorem moves_decodeWalk (s : State) : (decodeWalk s).Moves s.moved := by
  unfold decodeWalk
  split
  · exact Nat.le_refl _
  · have hm := moved_readBit .p1 s
    refine moves_of ?_
    cases h : readBit .p1 s <;> rw [h] at hm
    case ok b t => exact (moved_moveCursor b t).trans_le hm
    case raise e t => exact hm

theorem moves_decodeWrite (v : Byte) (s : State) : (decodeWrite v s).Moves s.moved := by
  have hm := moved_writeByte .p0 v s
  unfold decodeWrite
  cases h : writeByte .p0 v s <;> rw [h] at hm <;> exact hm

theorem moves_decodeAct (s : State) : (decodeAct s).Moves s.moved := by
  unfold decodeAct
  split
  · exact moves_desNodeAct _ _ _ s
  · exact moves_desLeafAct _ _ _ s
  · exact moves_decodeTreeRead _ _ s
  · exact moves_decodeSkip s
  · exact moves_decodeWalk s
  · exact moves_decodeWrite _ s
  · exact (moves_closeWriter _ _ _).mono (moved_closeR .p1 s)
  · exact Nat.le_refl _
  · exact (moved_closeR .p1 (closeR .p0 s)).trans (moved_closeR .p0 s)
  · exact moves_releaseWriter _ _ s
  · exact Nat.le_refl _
  · exact moves_decodeStart s

theorem moves_of_actOf {i : Instr} {next : State → Act} (hi : actOf i = some next) (s : State) :
    (next s).Moves s.moved := by
  cases i <;> simp only [actOf, Option.some.injEq, reduceCtorEq] at hi <;> subst hi
  · exact moves_freqCountAct _ s
  · exact moves_treeSerAct _ s
  · exact moves_treeDeserAct _ s
  · exact moves_codeEmitAct _ _ s
  · exact moves_encodeAct s
  · exact moves_decodeAct s

/-! ### Commands of one micro-step -/

theorem moved_endAs {α : Type} {f : α → State → State} {r : Res α} {n : Nat} (hf : ∀ a t, (f a t).moved = t.moved)
    (h : r.state.moved ≤ n) : (endAs f r).moved ≤ n := by
  cases r with
  | ok a t => exact (hf a t).trans_le h
  | raise e t => exact h

theorem moved_onOpenReader {α : Type} {p : PortNum} {f : State → Res α} {s : State} {n : Nat}
    (hs : s.moved ≤ n) (h : (f s).state.moved ≤ n) : (onOpenReader p f s).state.moved ≤ n := by
  unfold onOpenReader
  split
  · exact h
  · exact hs

theorem moved_onOpenWriter {α : Type} {p : PortNum} {f : State → Res α} {s : State} {n : Nat}
    (hs : s.moved ≤ n) (h : (f s).state.moved ≤ n) : (onOpenWriter p f s).state.moved ≤ n := by
  unfold onOpenWriter
  split
  · exact h
  · exact hs

/-- A command that is one helper moves what the helper does. -/
theorem moved_exec_once {i : Instr} (hi : actOf i = none) {s t : State} (h : exec i s = .next t) :
    t.moved ≤ s.moved + 1 := by
  have hs : s.moved ≤ s.moved + 1 := Nat.le_succ _
  have hb : ∀ b : Bool, s.moved + b.toNat ≤ s.moved + 1 := fun b => Nat.add_le_add_left (Bool.toNat_le b) _
  cases i <;> simp only [actOf, reduceCtorEq] at hi <;> cases h
  case rdOpen r => exact moved_endAs (fun _ _ => rfl) ((moved_openR r s).trans hs)
  case rdClose r => exact (moved_closeR r s).trans hs
  case rdBit r => exact moved_endAs (fun _ _ => rfl) (moved_onOpenReader hs ((moved_readBit r s).trans (hb _)))
  case rdByte r => exact moved_endAs (fun _ _ => rfl) (moved_onOpenReader hs (moved_readByte r s))
  case rdAtEnd r => exact moved_endAs (fun _ _ => rfl) (moved_onOpenReader hs hs)
  case wrOpen w => exact moved_endAs (fun _ _ => rfl) ((moved_openW w s).trans hs)
  case wrClose w => exact moved_endAs (fun _ _ => rfl) ((moved_closeW w s).trans (hb _))
  case wrBit w b => exact moved_endAs (fun _ _ => rfl) (moved_onOpenWriter hs ((moved_writeBit w _ s).trans (hb _)))
  case wrByte w v => exact moved_endAs (fun _ _ => rfl) (moved_onOpenWriter hs (moved_writeByte w v s))
  case treeBuild =>
    split
    · obtain h | h := emptyFreqState_cases s <;> rw [h] <;> exact hs
    · exact hs
  case dictBuild => split <;> exact hs

theorem moved_exec {i : Instr} {s t : State} (h : exec i s = .next t) : t.moved ≤ s.moved + 1 := by
  cases hi : actOf i with
  | none => exact moved_exec_once hi h
  | some next =>
    obtain ⟨size, hb, he⟩ := actOf_bounded hi
    rw [he] at h; cases h
    exact microStep_moved hb (moves_of_actOf hi) s

theorem moved_engineStep {s t : State} (h : engineStep s = .next t) : t.moved ≤ s.moved + 1 := by
  unfold engineStep at h
  split at h
  · cases h; exact Nat.le_succ _
  · cases h; exact Nat.le_succ _
  · exact moved_exec h

/-! ## A Pull or a Push ahead -/

/-- A host step leaves the running command running, ends it or starts one. -/
theorem HostMove.running {s t : State} (h : HostMove s t) :
    t.running = s.running ∨ t.running = none ∨ t.pos = .start := by
  cases h with
  | resets => exact .inr (.inl rfl)
  | accepts => exact .inr (.inr rfl)
  | _ => exact .inl (by simp)

/-- FREQ_COUNT comes to an access only with its reader open (spec/41_tree.md R181). -/
theorem opened_of_ahead_freqCount {p : PortNum} {s : State} (hh : Holds s (.freqCount p))
    (ha : Ahead (freqCountAct p) s) : (s.reader p).opened = true := by
  by_contra ho
  have hended : ∃ t, freqCountAct p s = .ended t := by
    unfold freqCountAct
    split
    · next hp => exact absurd (hh hp) ho
    · exact ⟨_, rfl⟩
    · rw [if_neg ho]; exact ⟨_, rfl⟩
  obtain ⟨t, ht⟩ := hended
  cases ha with
  | work h | access h => rw [ht] at h; cases h

/-- The sources the host may not load (R75). -/
def State.inUse (s : State) (p : PortNum) : Bool := !maySource p s

theorem inUse_iff (s : State) (p : PortNum) : s.inUse p = true ↔ (s.reader p).opened = true ∨ codecBusy s = true := by
  simp [State.inUse, maySource, or_iff_not_imp_left]

theorem codecBusy_of_running {s : State} (hs : StatusOk s)
    (hr : s.running = some (.legal .encode) ∨ s.running = some (.legal .decode)) : codecBusy s = true := by
  have hb := hs.busyIff
  obtain hr | hr := hr <;> simp [codecBusy, hb, hr]

/-- What the engine does next in a command with an access ahead depends on no source but those in use. -/
theorem hostFree_running {i : Instr} {next : State → Act} {s : State} (hr : s.running = some (.legal i))
    (hi : actOf i = some next) (hh : PortsHeld s) (hs : StatusOk s) (ha : Ahead next s) : HostFree s.inUse next := by
  cases i <;> simp only [actOf, Option.some.injEq, reduceCtorEq] at hi <;> subst hi
  case freqCount p => exact hostFree_freqCount ((inUse_iff s p).2 (.inl (opened_of_ahead_freqCount (hh _ hr) ha)))
  case treeSer w => exact hostFree_treeSer _ w
  case treeDeser r => exact hostFree_treeDeser _ r
  case codeEmit w v => exact hostFree_codeEmit _ w v
  case encode => exact hostFree_encode ((inUse_iff s .p0).2 (.inr (codecBusy_of_running hs (.inl hr))))
  case decode => exact hostFree_decode ((inUse_iff s .p1).2 (.inr (codecBusy_of_running hs (.inr hr))))

/-- An access ahead stays ahead where the sources in use, the position and the command stay. -/
theorem AccessAhead.congr {s t : State} (h : AccessAhead s) (hh : PortsHeld s) (hs : StatusOk s)
    (hide : t.hide s.inUse = s.hide s.inUse) (hp : t.pos = s.pos) (hr : t.running = s.running) : AccessAhead t := by
  intro i next hri hi hpos
  rw [hr] at hri
  rw [hp] at hpos
  have ha := h i next hri hi hpos
  exact ha.hide (hostFree_running hri hi hh hs ha) t hide

/-- Before the first micro-step and after the last nothing is said. -/
theorem AccessAhead.of_free {t : State} (h : t.running = none ∨ t.pos = .start) : AccessAhead t := by
  intro i next hr hi hp
  obtain h | h := h
  · rw [h] at hr; cases hr
  · exact absurd h hp

theorem AccessAhead.host {h : HostStep} {s t : State} (hs : AccessAhead s) (hh : PortsHeld s) (ht : StatusOk s)
    (hst : hostStep h s = .next t) : AccessAhead t := by
  by_cases hr : t.running = none
  · exact .of_free (.inl hr)
  · cases hb : s.busy with
    | false =>
      have hnone : s.running = none := by simpa [hb] using ht.busyIff
      obtain h1 | h1 | h1 := (hostMove_of_hostStep hst).running
      · exact absurd (h1.trans hnone) hr
      · exact absurd h1 hr
      · exact .of_free (.inr h1)
    | true =>
      obtain ⟨h1, h2, h3⟩ := hostStep_hide (f := s.inUse) hst hb hr (fun p hp => by simpa [State.inUse] using hp)
      exact hs.congr hh ht h1 h2 h3

/-- A micro-step that does not end its command leaves an access ahead. -/
theorem AccessAhead.of_exec {i : Instr} {next : State → Act} (hi : actOf i = some next) {s t : State}
    (hr : s.running = some (.legal i)) (h : exec i s = .next t) : AccessAhead t := by
  intro j next' hj hnext hp
  obtain ht | ht := actOf_running hi h
  · obtain rfl : i = j := by rw [ht, hr] at hj; cases hj; rfl
    obtain rfl : next = next' := Option.some.inj (hi.symm.trans hnext)
    exact (exec_ahead hi h (by rw [hj]; nofun)).2
  · rw [ht] at hj; cases hj

theorem AccessAhead.engine {s t : State} (hs : AccessAhead s) (h : engineStep s = .next t) : AccessAhead t := by
  obtain rfl | ⟨-, h⟩ | ⟨i, next, hi, hr, h⟩ := engineStep_cases h
  · exact hs
  · exact .of_free (.inl h.running)
  · exact .of_exec hi hr h

/-- A step is the engine's turn or a host step, the turn taken from the list (log 6). -/
theorem step_turn {s t : State} (h : step s = .next t) :
    ∃ x, engineStep (s.withTurns x) = .next t ∨ ∃ y, hostStep y (s.withTurns x) = .next t := by
  unfold step at h
  split at h
  · next hx => exact ⟨[], .inl (by rw [← h, ← hx]; rfl)⟩
  · next x hx => exact ⟨x, .inl h⟩
  · next y x hx => exact ⟨x, .inr ⟨y, h⟩⟩

theorem StatusOk.withTurns {s : State} (h : StatusOk s) (x : List Turn) : StatusOk (s.withTurns x) :=
  h.congr rfl Iff.rfl (fun _ => id)

theorem AccessAhead.of_step {s t : State} (hh : PortsHeld s) (hs : StatusOk s) (ha : AccessAhead s)
    (h : step s = .next t) : AccessAhead t := by
  have turns : ∀ x, AccessAhead (s.withTurns x) := fun x => ha.congr hh hs rfl rfl rfl
  obtain ⟨x, h | ⟨y, h⟩⟩ := step_turn h
  · exact (turns x).engine h
  · exact (turns x).host hh (hs.withTurns x) h

/-- Settles O49: each act moves what it accesses, and a micro-step rests only where an access is ahead, which no host
step takes away. -/
theorem oneByteMovesPerMicroStep : Obligations.OneByteMovesPerMicroStep :=
  ⟨fun _ _ h => moved_engineStep h, fun _ _ _ hi h => (once_of_exec hi h).running, fun i next hi =>
    ⟨fun _ _ hr h ht => ⟨(exec_ahead hi h ht).1, .of_exec hi hr h⟩,
      fun _ hr hp ha => (ha i next hr hi hp).accesses, fun _ _ hh hs ha h => ha.of_step hh hs h⟩⟩

/-! ## Sources in use -/

theorem hostStep_load (p : PortNum) (data : List Byte) (avail : Bool) (s : State) :
    hostStep (.loadSource p data avail) s
      = if s.inUse p then .fault (.sourceInUse p) else .next (s.setSource p { data := data, avail := avail }) := by
  cases h : maySource p s <;> simp [hostStep, State.inUse, h]

theorem hostStep_copy (p q : PortNum) (s : State) : hostStep (.copySink p q) s
    = if s.inUse p then .fault (.sourceInUse p)
      else .next (s.setSource p { s.source p with data := (s.sink q).data }) := by
  cases h : maySource p s <;> simp [hostStep, State.inUse, h]

theorem setSource_source_ne (s : State) {p q : PortNum} (x : Source) (h : q ≠ p) :
    (s.setSource p x).source q = s.source q := by cases p <;> cases q <;> first | rfl | exact absurd rfl h

/-- Changing a source that is not in use leaves those that are. -/
theorem setSource_source_of_inUse {s : State} {p q : PortNum} (x : Source) (hp : s.inUse p = true)
    (hq : ¬ s.inUse q = true) : (s.setSource q x).source p = s.source p :=
  setSource_source_ne s x (by rintro rfl; exact hq hp)

theorem csrWrite_source {o : Nat} {c : Word} {s t : State} (h : csrWrite o c s = some t) (p : PortNum) :
    t.source p = s.source p := by
  unfold csrWrite at h
  split at h <;> cases h
  · unfold writeCmd
    split
    · cases p <;> rfl
    · exact accept_source c s p
  · rfl
  · rfl
  · rfl
  · unfold writeCtrl
    split
    · exact (resetBlock_ports s p).1
    · split <;> cases p <;> rfl

/-- No host step changes the data of a source in use (R75, R81). -/
theorem hostStep_source_data {h : HostStep} {s t : State} (hs : hostStep h s = .next t) {p : PortNum}
    (hp : s.inUse p = true) : (t.source p).data = (s.source p).data := by
  cases h with
  | loadSource q d a =>
    rw [hostStep_load] at hs
    split at hs <;> cases hs
    next hq => rw [setSource_source_of_inUse _ hp hq]
  | copySink q r =>
    rw [hostStep_copy] at hs
    split at hs <;> cases hs
    next hq => rw [setSource_source_of_inUse _ hp hq]
  | setSourceAvail q b => cases hs; cases p <;> cases q <;> rfl
  | setSinkAvail q b => cases hs; rw [setSink_source]
  | readSink q => cases hs; cases p <;> rfl
  | csrWrite o w c =>
    simp only [hostStep] at hs
    split at hs
    · split at hs <;> cases hs
      next hu => rw [csrWrite_source hu]
    · cases hs
  | csrRead o w =>
    simp only [hostStep] at hs
    split at hs
    · split at hs <;> cases hs
      cases p <;> rfl
    · cases hs
  | platformReset => cases hs; rw [(resetBlock_ports s p).1]

/-- No command changes a source (spec/20_memory.md R60). -/
theorem engineStep_source {s t : State} (h : engineStep s = .next t) (p : PortNum) : t.source p = s.source p := by
  unfold engineStep at h
  split at h
  · cases h; rfl
  · cases h; exact errorEnd_source _ s p
  · have hs := exec_same h
    cases p
    · exact hs.src0
    · exact hs.src1

theorem step_source_data {s t : State} (h : step s = .next t) {p : PortNum} (hp : s.inUse p = true) :
    (t.source p).data = (s.source p).data := by
  obtain ⟨x, h | ⟨y, h⟩⟩ := step_turn h
  · rw [engineStep_source h, withTurns_source]
  · have hx : (s.withTurns x).inUse p = true := by rw [inUse_iff] at hp ⊢; rw [withTurns_reader]; exact hp
    rw [hostStep_source_data h hx, withTurns_source]

/-- Settles O12: loading and copying ask whether the source is in use. -/
theorem hostStepsOnPorts : Obligations.HostStepsOnPorts := by
  refine fun s p => ⟨fun h => ?_, fun ho hb => ?_, fun b => ⟨rfl, rfl, rfl⟩⟩
  · have hp := (inUse_iff s p).2 h
    exact ⟨fun _ ht => step_source_data ht hp, fun _ _ => by rw [hostStep_load, if_pos hp],
      fun _ => by rw [hostStep_copy, if_pos hp]⟩
  · have hp : ¬ s.inUse p = true := by simp [inUse_iff, ho, hb]
    exact ⟨fun _ _ => by rw [hostStep_load, if_neg hp], fun _ => by rw [hostStep_copy, if_neg hp]⟩

/-! ## Runs -/

/-- A turn of the engine, listed or not, runs the command (log 6). -/
theorem step_running {s : State} {i : Instr} (hr : s.running = some (.legal i)) :
    (s.turns = [] → step s = exec i s)
      ∧ ∀ rest, s.turns = .engine :: rest → step s = exec i (s.withTurns rest) := by
  refine ⟨fun hx => ?_, fun rest hx => ?_⟩
  · rw [step, hx]; exact engineStep_running hr
  · rw [step, hx]; exact engineStep_running (s := s.withTurns rest) hr

theorem step_engine_running {s u : State} {i : Instr} (hr : s.running = some (.legal i)) (hu : exec i s = .next u)
    (rest : List Turn) : step (s.withTurns (.engine :: rest)) = .next (u.withTurns rest) := by
  rw [step_engine, engineStep_running (i := i) (by simpa using hr)]
  exact exec_withTurns hu rest

/-- The first micro-step of a command that takes k more. -/
theorem EndsAfter.head {i : Instr} {k : Nat} {s t : State} (h : EndsAfter i (k + 1) s t) :
    s.running = some (.legal i) ∧ ∃ u, exec i s = .next u ∧ EndsAfter i k u t := by
  obtain ⟨u, hu⟩ := exec_next i s
  exact ⟨h.2.2 0 s (Nat.succ_pos k) rfl, u, hu, h.tail hu⟩

theorem EndsAfter.reaches {i : Instr} {k : Nat} :
    ∀ {s t : State}, EndsAfter i k s t → s.turns = [] → Reaches k s t := by
  induction k with
  | zero => rintro s t ⟨h, -⟩ _; exact h
  | succ k ih =>
    intro s t h hx
    obtain ⟨hr, u, hu, htail⟩ := h.head
    exact .next (((step_running hr).1 hx).trans hu) (ih htail ((exec_same hu).turns.trans hx))

theorem EndsAfter.reaches_turns {i : Instr} {k : Nat} (rest : List Turn) : ∀ {s t : State}, EndsAfter i k s t →
    Reaches k (s.withTurns (List.replicate k .engine ++ rest)) (t.withTurns rest) := by
  induction k with
  | zero => rintro s t ⟨h, -⟩; cases h; exact .refl _
  | succ k ih =>
    intro s t h
    obtain ⟨hr, u, hu, htail⟩ := h.head
    exact .next (step_engine_running hr hu _) (ih htail)

/-- Settles O52, by induction on the micro-steps. -/
theorem commandRunsAreMachineRuns : Obligations.CommandRunsAreMachineRuns := by
  refine fun i k s t h => ⟨h.reaches, fun rest hx => ?_⟩
  have := h.reaches_turns rest
  rwa [← hx, withTurns_self] at this

/-- Settles O5: a CMD write accepts while BUSY = 0, and the engine's turn runs what was accepted. -/
theorem stepRunsTheDecodedCommand : Obligations.StepRunsTheDecodedCommand := by
  refine ⟨fun s c i rest hc hb hx => ⟨_, ?_, rfl, (accept_starts hc _).running, rfl⟩, fun s i hr => step_running hr,
    fun s hr => by rw [engineStep, hr], fun s n w i hw => ?_⟩
  · have hcmd : writeCmd c (s.withTurns rest) = accept c (s.withTurns rest) := if_neg (by simp [hb])
    rw [step, hx]
    exact congrArg Host.Outcome.next hcmd
  · have hc : decodeCmd (BitVec.ofNat 32 (w % 2 ^ n)) = .ok i := by
      unfold decodeTableWord at hw
      split at hw <;> cases hw
      assumption
    exact engineStep_running (accept_starts hc s).running

/-! ## The CSR map -/

theorem csrWrite_isSome (offset : Nat) (c : Word) (s : State) :
    (csrWrite offset c s).isSome ↔ offset ∈ [0x00, 0x04, 0x08, 0x0C, 0x10] := by
  unfold csrWrite
  split <;> simp_all

theorem csrRead_isSome (offset : Nat) (s : State) :
    (csrRead offset s).isSome ↔ offset ∈ [0x00, 0x04, 0x08, 0x0C, 0x10] := by
  unfold csrRead
  split <;> simp_all

/-- Settles O11: the five offsets are those where `csrWrite` and `csrRead` answer. -/
theorem csrAccessesOutsideTheMapAreRefused : Obligations.CsrAccessesOutsideTheMapAreRefused := by
  intro offset width c s
  by_cases hwidth : width = 32
  · subst hwidth
    by_cases ho : offset ∈ [0x00, 0x04, 0x08, 0x0C, 0x10]
    · obtain ⟨t, ht⟩ := Option.isSome_iff_exists.1 ((csrWrite_isSome offset c s).2 ho)
      obtain ⟨v, hv⟩ := Option.isSome_iff_exists.1 ((csrRead_isSome offset s).2 ho)
      exact ⟨fun _ =>
          ⟨⟨t, by simp [hostStep, ht]⟩, { s with seen := { s.seen with word := v } }, by simp [hostStep, hv]⟩,
        fun h => absurd ⟨rfl, ho⟩ h⟩
    · have ht : csrWrite offset c s = none := by simpa using mt (csrWrite_isSome offset c s).1 ho
      have hv : csrRead offset s = none := by simpa using mt (csrRead_isSome offset s).1 ho
      exact ⟨fun h => absurd h.2 ho, fun _ => ⟨by simp [hostStep, ht], by simp [hostStep, hv]⟩⟩
  · exact ⟨fun h => absurd h.1 hwidth, fun _ => ⟨if_neg hwidth, if_neg hwidth⟩⟩

end Sys2Proof.Machine
end

section
/-! PROOFS. The statements about command words (spec/30_encoding.md Part A): the decoder reads the opcode map. -/

namespace Sys2Proof

/-! ## Words and fields (R90) -/

@[simp] theorem fieldsOf_wordOf (f : Fields) : fieldsOf (wordOf f) = f := by
  change Fields.mk (BitVec.extractLsb' 11 5 (f.op ++ f.rsv ++ f.p ++ f.imm))
    (BitVec.extractLsb' 9 2 (f.op ++ f.rsv ++ f.p ++ f.imm)) (BitVec.extractLsb' 8 1 (f.op ++ f.rsv ++ f.p ++ f.imm))
    (BitVec.extractLsb' 0 8 (f.op ++ f.rsv ++ f.p ++ f.imm)) = f
  simp (disch := decide) only [BitVec.extractLsb'_append_eq_of_le, BitVec.extractLsb'_append_eq_of_add_le,
    BitVec.extractLsb'_eq_self, Nat.reduceSub]

@[simp] theorem wordOf_fieldsOf (c : CmdWord) : wordOf (fieldsOf c) = c := by
  simp (disch := decide) only [fieldsOf, wordOf, BitVec.extractLsb'_append_extractLsb'_eq_extractLsb']
  exact BitVec.extractLsb'_eq_self

theorem fieldsOf_inj {c d : CmdWord} : fieldsOf c = fieldsOf d ↔ c = d :=
  ⟨fun h => by rw [← wordOf_fieldsOf c, h, wordOf_fieldsOf], congrArg fieldsOf⟩

theorem encode_eq_iff {i : Instr} {c : CmdWord} : encode i = c ↔ fieldsOfInstr i = fieldsOf c := by
  rw [← fieldsOf_inj, encode, fieldsOf_wordOf]

@[simp] theorem portOf_bit (p : PortNum) : portOf p.bit = p := by cases p <;> rfl

@[simp] theorem bit_portOf (p : BitVec 1) : (portOf p).bit = p := by revert p; decide

/-! ## The rows of the opcode map (R92, R94) -/

/-- The OP field of a row. -/
def Row.opcode (a : Row) : BitVec 5 := a.fixed.extractLsb' 11 5

/-- The row of an OP, if it is not reserved. -/
def rowAt (op : BitVec 5) : Option Row := opcodeMap.find? (fun a => a.opcode == op)

/-- The operand fields are in the format's pattern (R92). -/
def Format.Fits (f : Fields) : Format → Prop
  | .F0 => f.p = 0 ∧ f.imm = 0
  | .FP => f.imm = 0
  | .FPB => f.imm.extractLsb' 1 7 = 0
  | .FPV => True

theorem rowAt_opcode : ∀ a ∈ opcodeMap, rowAt a.opcode = some a := by decide

theorem rowAt_eq_some {op : BitVec 5} {a : Row} (h : rowAt op = some a) : a ∈ opcodeMap ∧ op = a.opcode :=
  ⟨List.mem_of_find?_eq_some h, (by simpa using List.find?_some h : a.opcode = op).symm⟩

theorem opcode_inj {a b : Row} (ha : a ∈ opcodeMap) (hb : b ∈ opcodeMap) (h : a.opcode = b.opcode) : a = b :=
  Option.some.inj (by rw [← rowAt_opcode a ha, h, rowAt_opcode b hb])

/-- The fixed bits of a row are its OP. -/
theorem fieldsOf_fixed : ∀ a ∈ opcodeMap, fieldsOf a.fixed = fieldsF0 a.opcode := by decide

@[simp] theorem and_allOnes_op : ∀ op : BitVec 5, op &&& 31#5 = op := by decide

@[simp] theorem and_allOnes_rsv : ∀ rsv : BitVec 2, rsv &&& 3#2 = rsv := by decide

@[simp] theorem and_allOnes_p : ∀ p : BitVec 1, p &&& 1#1 = p := by decide

@[simp] theorem and_allOnes_imm : ∀ imm : Byte, imm &&& 255#8 = imm := by decide

@[simp] theorem and_patternFPB : ∀ imm : Byte, imm &&& 254#8 = 0#8 ↔ imm.extractLsb' 1 7 = 0#7 := by decide

theorem fieldsOf_and (c d : CmdWord) : fieldsOf (c &&& d) =
    { op := (fieldsOf c).op &&& (fieldsOf d).op, rsv := (fieldsOf c).rsv &&& (fieldsOf d).rsv
      p := (fieldsOf c).p &&& (fieldsOf d).p, imm := (fieldsOf c).imm &&& (fieldsOf d).imm } := by
  simp [fieldsOf, BitVec.extractLsb'_and]

/-- What a format's mask keeps of a word is an OP alone exactly when RSV is 0 and the operands fit (R92). -/
theorem fieldsOf_and_mask (F : Format) (c : CmdWord) (op : BitVec 5) : fieldsOf (c &&& F.mask) = fieldsF0 op ↔
    (fieldsOf c).op = op ∧ (fieldsOf c).rsv = 0 ∧ F.Fits (fieldsOf c) := by
  rw [fieldsOf_and]
  generalize fieldsOf c = f
  cases F <;> simp [fieldsF0, fieldsOf, Format.mask, Format.Fits]

theorem admits_iff {a : Row} (ha : a ∈ opcodeMap) (c : CmdWord) :
    a.admits c = true ↔ (fieldsOf c).op = a.opcode ∧ (fieldsOf c).rsv = 0 ∧ a.format.Fits (fieldsOf c) := by
  rw [← fieldsOf_and_mask, ← fieldsOf_fixed a ha, fieldsOf_inj, Row.admits, beq_iff_eq]

/-! ## The decoder reads the map -/

/-- An answer of the decoder to the fields f under the row a: the row's command with the operands of f where these
fit the row's format, else an error (R92, R93). -/
structure Reads (a : Row) (f : Fields) (r : Except Illegal Instr) : Prop where
  fits : a.format.Fits f → ∃ i, r = .ok i ∧ i.mnemonic = a.mnemonic ∧ i.wellFormed = true
    ∧ fieldsOfInstr i = { f with rsv := 0 }
  stray : ¬ a.format.Fits f → r = .error .strayBits

theorem reads_inF0 {name : String} {fixed : CmdWord} {f : Fields} {i : Instr}
    (hi : i.mnemonic = name ∧ i.wellFormed = true ∧ fieldsOfInstr i = fieldsF0 f.op) :
    Reads ⟨name, .F0, fixed⟩ f (inF0 f i) where
  fits h := ⟨i, if_pos h, hi.1, hi.2.1, by simp [hi.2.2, fieldsF0, h.1, h.2]⟩
  stray h := if_neg h

theorem reads_inFP {name : String} {fixed : CmdWord} {f : Fields} {k : PortNum → Instr}
    (hk : ∀ p, (k p).mnemonic = name ∧ (k p).wellFormed = true ∧ fieldsOfInstr (k p) = fieldsFP f.op p) :
    Reads ⟨name, .FP, fixed⟩ f (inFP f k) where
  fits h := by
    obtain ⟨hname, hwf, hfields⟩ := hk (portOf f.p)
    have h : f.imm = 0 := h
    exact ⟨_, if_pos h, hname, hwf, by simp [hfields, fieldsFP, h]⟩
  stray h := if_neg h

theorem reads_inFPB {name : String} {fixed : CmdWord} {f : Fields} {k : PortNum → Byte → Instr}
    (hk : ∀ p v, (k p v).mnemonic = name ∧ (k p v).wellFormed = immIsBit v
      ∧ fieldsOfInstr (k p v) = fieldsFPV f.op p v) :
    Reads ⟨name, .FPB, fixed⟩ f (inFPB f k) where
  fits h := by
    obtain ⟨hname, hwf, hfields⟩ := hk (portOf f.p) f.imm
    have h : f.imm.extractLsb' 1 7 = 0 := h
    exact ⟨_, if_pos h, hname, hwf.trans (by simp [immIsBit, h]), by simp [hfields, fieldsFPV]⟩
  stray h := if_neg h

theorem reads_inFPV {name : String} {fixed : CmdWord} {f : Fields} {k : PortNum → Byte → Instr}
    (hk : ∀ p v, (k p v).mnemonic = name ∧ (k p v).wellFormed = true ∧ fieldsOfInstr (k p v) = fieldsFPV f.op p v) :
    Reads ⟨name, .FPV, fixed⟩ f (inFPV f k) where
  fits _ := by
    obtain ⟨hname, hwf, hfields⟩ := hk (portOf f.p) f.imm
    exact ⟨_, rfl, hname, hwf, by simp [hfields, fieldsFPV]⟩
  stray h := absurd trivial h

/-- At the OP of a row the decoder reads that row (R94). -/
theorem decodeOp_reads {a : Row} (ha : a ∈ opcodeMap) {f : Fields} (hop : f.op = a.opcode) :
    Reads a f (decodeOp f) := by
  obtain ⟨op, rsv, p, imm⟩ := f
  obtain rfl : op = a.opcode := hop
  revert a
  simp only [opcodeMap, List.forall_mem_cons]
  refine ⟨?_, ?_, ?_, ?_, ?_, ?_, ?_, ?_, ?_, ?_, ?_, ?_, ?_, ?_, ?_, ?_, ?_, by nofun⟩
  · exact reads_inFP (k := .rdOpen) fun _ => ⟨rfl, rfl, rfl⟩
  · exact reads_inFP (k := .rdClose) fun _ => ⟨rfl, rfl, rfl⟩
  · exact reads_inFP (k := .rdBit) fun _ => ⟨rfl, rfl, rfl⟩
  · exact reads_inFP (k := .rdByte) fun _ => ⟨rfl, rfl, rfl⟩
  · exact reads_inFP (k := .rdAtEnd) fun _ => ⟨rfl, rfl, rfl⟩
  · exact reads_inFP (k := .wrOpen) fun _ => ⟨rfl, rfl, rfl⟩
  · exact reads_inFP (k := .wrClose) fun _ => ⟨rfl, rfl, rfl⟩
  · exact reads_inFPB (k := .wrBit) fun _ _ => ⟨rfl, rfl, rfl⟩
  · exact reads_inFPV (k := .wrByte) fun _ _ => ⟨rfl, rfl, rfl⟩
  · exact reads_inFP (k := .freqCount) fun _ => ⟨rfl, rfl, rfl⟩
  · exact reads_inF0 (i := .treeBuild) ⟨rfl, rfl, rfl⟩
  · exact reads_inFP (k := .treeSer) fun _ => ⟨rfl, rfl, rfl⟩
  · exact reads_inFP (k := .treeDeser) fun _ => ⟨rfl, rfl, rfl⟩
  · exact reads_inF0 (i := .dictBuild) ⟨rfl, rfl, rfl⟩
  · exact reads_inFPV (k := .codeEmit) fun _ _ => ⟨rfl, rfl, rfl⟩
  · exact reads_inF0 (i := .encode) ⟨rfl, rfl, rfl⟩
  · exact reads_inF0 (i := .decode) ⟨rfl, rfl, rfl⟩

/-- The format of the row of an OP. -/
def formatAt (op : BitVec 5) : Option Format := (rowAt op).map Row.format

/-- The fifteen reserved opcodes (R96). -/
theorem formatAt_eq_none_iff : ∀ op : BitVec 5, formatAt op = none ↔
    op.toNat ∈ [0x00, 0x06, 0x07, 0x0C, 0x0D, 0x0E, 0x0F, 0x16, 0x17, 0x1A, 0x1B, 0x1C, 0x1D, 0x1E, 0x1F] := by
  decide

theorem formatAt_eq_FP_iff : ∀ op : BitVec 5, formatAt op = some .FP ↔
    op.toNat ∈ [0x01, 0x02, 0x03, 0x04, 0x05, 0x08, 0x09, 0x10, 0x12, 0x13] := by decide

theorem formatAt_eq_F0_iff : ∀ op : BitVec 5, formatAt op = some .F0 ↔ op.toNat ∈ [0x11, 0x14, 0x18, 0x19] := by
  decide

theorem formatAt_eq_FPB_iff : ∀ op : BitVec 5, formatAt op = some .FPB ↔ op.toNat = 0x0A := by decide

theorem decodeOp_reserved {f : Fields} (h : formatAt f.op = none) : decodeOp f = .error .reservedOpcode := by
  rw [formatAt_eq_none_iff] at h
  unfold decodeOp
  split
  case h_18 => rfl
  all_goals simp [*] at h

/-! ## Decoding a word -/

theorem decodeWord_of_rsv {c : CmdWord} (h : (fieldsOf c).rsv = 0) : decodeWord c = decodeOp (fieldsOf c) := if_pos h

theorem decodeWord_of_rsv_ne {c : CmdWord} (h : (fieldsOf c).rsv ≠ 0) : decodeWord c = .error .reservedBits :=
  if_neg h

/-- A word a row admits is a command of that row, and its encoding (R95). -/
theorem decodeWord_of_admits {a : Row} (ha : a ∈ opcodeMap) {c : CmdWord} (h : a.admits c = true) :
    ∃ i, decodeWord c = .ok i ∧ i.mnemonic = a.mnemonic ∧ i.wellFormed = true ∧ encode i = c := by
  obtain ⟨hop, hrsv, hfits⟩ := (admits_iff ha c).1 h
  obtain ⟨i, hi, hname, hwf, hfields⟩ := (decodeOp_reads ha hop).fits hfits
  exact ⟨i, (decodeWord_of_rsv hrsv).trans hi, hname, hwf, encode_eq_iff.2 (by rw [hfields, ← hrsv])⟩

/-- The three ways a word is illegal (R96). -/
theorem decodeWord_isError_iff (c : CmdWord) : (∃ e, decodeWord c = .error e) ↔
    formatAt (fieldsOf c).op = none ∨ (fieldsOf c).rsv ≠ 0
      ∨ ∃ F, formatAt (fieldsOf c).op = some F ∧ ¬ F.Fits (fieldsOf c) := by
  by_cases hrsv : (fieldsOf c).rsv = 0
  case neg => exact iff_of_true ⟨_, decodeWord_of_rsv_ne hrsv⟩ (.inr (.inl hrsv))
  rw [decodeWord_of_rsv hrsv]
  cases hrow : rowAt (fieldsOf c).op with
  | none =>
    have hformat : formatAt (fieldsOf c).op = none := by rw [formatAt, hrow]; rfl
    exact iff_of_true ⟨_, decodeOp_reserved hformat⟩ (.inl hformat)
  | some a =>
    obtain ⟨ha, hop⟩ := rowAt_eq_some hrow
    have hreads := decodeOp_reads ha hop
    have hformat : formatAt (fieldsOf c).op = some a.format := by rw [formatAt, hrow]; rfl
    by_cases hfits : a.format.Fits (fieldsOf c)
    · obtain ⟨i, hi, -⟩ := hreads.fits hfits
      simp [hi, hformat, hrsv, hfits]
    · exact iff_of_true ⟨_, hreads.stray hfits⟩ (.inr (.inr ⟨_, hformat, hfits⟩))

/-- The bits outside a format's pattern, format by format. -/
theorem exists_misfit_iff (o : Option Format) (f : Fields) : (∃ F, o = some F ∧ ¬ F.Fits f) ↔
    (o = some .FP ∧ f.imm ≠ 0) ∨ (o = some .F0 ∧ (f.p ≠ 0 ∨ f.imm ≠ 0))
      ∨ (o = some .FPB ∧ f.imm.extractLsb' 1 7 ≠ 0) := by
  cases o with
  | none => simp
  | some F => cases F <;> simp [Format.Fits, imp_iff_not_or]

/-- A word that decodes is admitted by a row. -/
theorem exists_admits_of_decodeWord {c : CmdWord} {i : Instr} (h : decodeWord c = .ok i) :
    ∃ a ∈ opcodeMap, a.admits c = true := by
  have hlegal : ¬ ∃ e, decodeWord c = .error e := by simp [h]
  rw [decodeWord_isError_iff] at hlegal
  push Not at hlegal
  obtain ⟨hop, hrsv, hfits⟩ := hlegal
  obtain ⟨a, hrow⟩ := Option.ne_none_iff_exists'.1 (mt (congrArg (Option.map Row.format)) hop)
  obtain ⟨ha, hopcode⟩ := rowAt_eq_some hrow
  exact ⟨a, ha, (admits_iff ha c).2 ⟨hopcode, hrsv, hfits _ (congrArg (Option.map Row.format) hrow)⟩⟩

/-- What a word decodes to is the command of the row that admits it, and the word is its encoding. -/
theorem decodeWord_ok {c : CmdWord} {i : Instr} (h : decodeWord c = .ok i) :
    (∃ a ∈ opcodeMap, a.mnemonic = i.mnemonic ∧ a.admits c = true) ∧ encode i = c ∧ i.wellFormed = true := by
  obtain ⟨a, ha, hadmits⟩ := exists_admits_of_decodeWord h
  obtain ⟨j, hj, hname, hwf, henc⟩ := decodeWord_of_admits ha hadmits
  obtain rfl : j = i := Except.ok.inj (hj.symm.trans h)
  exact ⟨⟨a, ha, hname.symm, hadmits⟩, henc, hwf⟩

theorem admits_unique {a b : Row} (ha : a ∈ opcodeMap) (hb : b ∈ opcodeMap) {c : CmdWord} (hac : a.admits c = true)
    (hbc : b.admits c = true) : b = a :=
  opcode_inj hb ha (((admits_iff hb c).1 hbc).1.symm.trans ((admits_iff ha c).1 hac).1)

/-! ## Encoding a command -/

theorem inF0_fieldsF0 (op : BitVec 5) (i : Instr) : inF0 (fieldsF0 op) i = .ok i := if_pos ⟨rfl, rfl⟩

theorem inFP_fieldsFP (op : BitVec 5) (p : PortNum) (k : PortNum → Instr) : inFP (fieldsFP op p) k = .ok (k p) := by
  simp [inFP, fieldsFP]

theorem inFPB_fieldsFPV (op : BitVec 5) (p : PortNum) {v : Byte} (h : immIsBit v = true) (k : PortNum → Byte → Instr) :
    inFPB (fieldsFPV op p v) k = .ok (k p v) := by
  simpa [inFPB, fieldsFPV, immIsBit] using h

theorem inFPV_fieldsFPV (op : BitVec 5) (p : PortNum) (v : Byte) (k : PortNum → Byte → Instr) :
    inFPV (fieldsFPV op p v) k = .ok (k p v) := by
  simp [inFPV, fieldsFPV]

/-- The decoder reads the fields `fieldsOfInstr` writes. -/
theorem decodeOp_fieldsOfInstr {i : Instr} (h : i.wellFormed = true) : decodeOp (fieldsOfInstr i) = .ok i := by
  cases i with
  | rdOpen p | rdClose p | rdBit p | rdByte p | rdAtEnd p | wrOpen p | wrClose p | freqCount p | treeSer p
  | treeDeser p => exact inFP_fieldsFP _ p _
  | treeBuild | dictBuild | encode | decode => exact inF0_fieldsF0 _ _
  | wrByte p v | codeEmit p v => exact inFPV_fieldsFPV _ p v _
  | wrBit p imm => exact inFPB_fieldsFPV _ p h _

theorem fieldsOfInstr_rsv (i : Instr) : (fieldsOfInstr i).rsv = 0 := by cases i <;> rfl

theorem decodeWord_encode {i : Instr} (h : i.wellFormed = true) : decodeWord (encode i) = .ok i := by
  rw [decodeWord_of_rsv, encode, fieldsOf_wordOf, decodeOp_fieldsOfInstr h]
  rw [encode, fieldsOf_wordOf, fieldsOfInstr_rsv]

/-! ## The value written to CMD (R91) -/

theorem decodeCmd_setWidth (c : CmdWord) : decodeCmd (c.setWidth 32) = decodeWord c := by
  have hhigh : (c.setWidth 32).extractLsb' 16 16 = 0 := by
    rw [BitVec.setWidth_eq_append (by decide)]
    exact (BitVec.extractLsb'_append_eq_of_le (xhi := 0#16) (by decide)).trans BitVec.extractLsb'_eq_self
  have hlow : (c.setWidth 32).extractLsb' 0 16 = c := by
    rw [BitVec.extractLsb'_setWidth_of_le (by decide), BitVec.extractLsb'_eq_self]
  rw [decodeCmd, if_pos hhigh, hlow]

theorem setWidth_of_high {c : Word} (h : c.extractLsb' 16 16 = 0) : (c.extractLsb' 0 16).setWidth 32 = c := by
  rw [BitVec.setWidth_eq_append (by decide)]
  calc 0#16 ++ c.extractLsb' 0 16 = c.extractLsb' 16 16 ++ c.extractLsb' 0 16 := by rw [h]; rfl
    _ = c := BitVec.extractLsb'_append_extractLsb' (w := 16)

/-- A value that decodes is a command word with an upper half of zeros. -/
theorem decodeCmd_ok {c : Word} {i : Instr} (h : decodeCmd c = .ok i) :
    decodeWord (c.extractLsb' 0 16) = .ok i ∧ (c.extractLsb' 0 16).setWidth 32 = c := by
  unfold decodeCmd at h
  split at h
  · next hhigh => exact ⟨h, setWidth_of_high hhigh⟩
  · cases h

end Sys2Proof

namespace Sys2Proof.Machine

/-- A CMD write while BUSY = 0 is accepted (spec/60_exceptions.md R303). -/
theorem hostStep_cmd {s : State} (hb : s.busy = false) (c : Word) :
    hostStep (.csrWrite 0x00 32 c) s = .next (accept c s) :=
  congrArg Host.Outcome.next (if_neg (by simp [hb]) : writeCmd c s = accept c s)

/-- The engine's first turn after an illegal word ends it with IllegalCommand (R96). -/
theorem engineStep_illegal {c : Word} {e : Illegal} (h : decodeCmd c = .error e) (s : State) :
    engineStep (accept c s) = .next (errorEnd .illegalCommand (accept c s)) := by
  have hr : (accept c s).running = some .illegal := congrArg some (commandOf_error h)
  rw [engineStep, hr, execIllegal]

/-- Settles O1: the decoder reads the row of the word's OP, and `fieldsOfInstr` writes the fields it read. -/
theorem decodingAndEncodingAreInverse : Obligations.DecodingAndEncodingAreInverse := by
  refine ⟨fun i hi => ?_, fun c i h => ?_⟩
  · rw [encodeCmd, decodeCmd_setWidth, decodeWord_encode hi]
  · obtain ⟨hword, hhigh⟩ := decodeCmd_ok h
    obtain ⟨-, henc, hwf⟩ := decodeWord_ok hword
    exact ⟨by rw [encodeCmd, henc, hhigh], hwf⟩

/-- Settles O2: a row admits a word by its OP, by RSV and by its format's pattern, and the decoder checks no more. -/
theorem opcodeMapDecidesEveryWord : Obligations.OpcodeMapDecidesEveryWord := by
  refine ⟨fun _ ha _ hb => opcode_inj ha hb, by decide, fun c => ⟨fun i h => ?_, fun e h a ha => ?_⟩⟩
  · obtain ⟨⟨a, ha, hname, hadmits⟩, -⟩ := decodeWord_ok h
    exact ⟨a, ha, hname, hadmits, fun b hb hbc => admits_unique ha hb hadmits hbc⟩
  · by_contra hadmits
    obtain ⟨i, hi, -⟩ := decodeWord_of_admits ha (by simpa using hadmits)
    cases hi.symm.trans h

/-- Settles O3: the list of R96 is read off the formats of the map's rows. -/
theorem illegalWordsAreExactlyThese : Obligations.IllegalWordsAreExactlyThese := by
  refine ⟨fun c => ?_, ⟨_, rfl⟩, fun c e s h hb => ?_⟩
  · rw [decodeWord_isError_iff, exists_misfit_iff, formatAt_eq_none_iff, formatAt_eq_FP_iff, formatAt_eq_F0_iff,
      formatAt_eq_FPB_iff]
  · have hillegal : decodeCmd (c.setWidth 32) = .error e := (decodeCmd_setWidth c).trans h
    exact ⟨_, hostStep_cmd hb _, rfl, engineStep_illegal hillegal s⟩

/-- Settles O4, by running the decoder. -/
theorem workedCommandWords : Obligations.WorkedCommandWords := by
  refine ⟨rfl, rfl, rfl, rfl, rfl, rfl, rfl, rfl, rfl, rfl, rfl, rfl, rfl, rfl, rfl, rfl, rfl, ?_⟩
  simp only [List.forall_mem_cons]
  exact ⟨⟨_, rfl⟩, ⟨_, rfl⟩, ⟨_, rfl⟩, ⟨_, rfl⟩, ⟨_, rfl⟩, ⟨_, rfl⟩, by nofun⟩

end Sys2Proof.Machine
end

section
/-! PROOFS. The statements about bits and bytes in and out (spec/40_bitio.md). A reader is followed by its unread bits,
a writer by the bits written through it; each helper of a command has one lemma for each of its ends, in these terms. -/

namespace Sys2Proof.Machine

/-! ## Commands as their helpers -/

theorem exec_rdOpen (r : PortNum) (s : State) : exec (.rdOpen r) s = .next (endAs (fun _ => id) (openR r s)) := rfl
theorem exec_rdBit (r : PortNum) (s : State) :
    exec (.rdBit r) s = .next (endAs (fun b => setResult (bitByte b)) (onOpenReader r (readBit r) s)) := rfl
theorem exec_rdByte (r : PortNum) (s : State) :
    exec (.rdByte r) s = .next (endAs setResult (onOpenReader r (readByte r) s)) := rfl
theorem exec_rdAtEnd (r : PortNum) (s : State) : exec (.rdAtEnd r) s
    = .next (endAs (fun b => setResult (bitByte b)) (onOpenReader r (fun t => .ok (atEnd r t) t) s)) := rfl
theorem exec_wrOpen (w : PortNum) (s : State) : exec (.wrOpen w) s = .next (endAs (fun _ => id) (openW w s)) := rfl
theorem exec_wrClose (w : PortNum) (s : State) : exec (.wrClose w) s = .next (endAs (fun _ => id) (closeW w s)) := rfl
theorem exec_wrBit (w : PortNum) (b : Bool) (s : State) :
    exec (.wrBit w (bitByte b)) s = .next (endAs (fun _ => id) (onOpenWriter w (writeBit w b) s)) := by
  conv_rhs => rw [← immBit_bitByte b]
  rfl
theorem exec_wrByte (w : PortNum) (v : Byte) (s : State) :
    exec (.wrByte w v) s = .next (endAs (fun _ => id) (onOpenWriter w (writeByte w v) s)) := rfl

@[simp] theorem onOpenReader_opened {α : Type} {p : PortNum} {s : State} (h : (s.reader p).opened = true)
    (f : State → Res α) : onOpenReader p f s = f s := if_pos h
@[simp] theorem onOpenReader_closed {α : Type} {p : PortNum} {s : State} (h : (s.reader p).opened = false)
    (f : State → Res α) : onOpenReader p f s = .raise .notOpen s := if_neg (by simp [h])
@[simp] theorem onOpenWriter_opened {α : Type} {p : PortNum} {s : State} (h : (s.writer p).opened = true)
    (f : State → Res α) : onOpenWriter p f s = f s := if_pos h
@[simp] theorem onOpenWriter_closed {α : Type} {p : PortNum} {s : State} (h : (s.writer p).opened = false)
    (f : State → Res α) : onOpenWriter p f s = .raise .notOpen s := if_neg (by simp [h])

/-- A returned bit as RESULT.VALUE (R120). -/
theorem bitByte_eq_ite (b : Bool) : bitByte b = if b then 1 else 0 := by cases b <;> rfl

/-! ## The unread bits -/

theorem unread_length (s : State) (p : PortNum) :
    (s.unread p).length = (s.reader p).cnt.val + 8 * ((s.source p).data.length - (s.reader p).pos) := by
  have := (s.reader p).cnt.isLt
  simp only [State.unread, List.length_append, List.length_drop, byteBits_length, bytesBits_length]
  omega

/-- A reader is at end exactly when it has no unread bit (R123). -/
theorem atEnd_iff_unread (s : State) (p : PortNum) : atEnd p s = true ↔ s.unread p = [] := by
  rw [← List.length_eq_zero_iff, unread_length, atEnd, Bool.and_eq_true, beq_iff_eq, decide_eq_true_iff, Fin.ext_iff,
    Fin.val_zero]
  omega

/-- With fewer than eight unread bits there is no byte to pull (R125). -/
theorem exhausted_of_unread {s : State} {p : PortNum} (h : (s.unread p).length < 8) :
    (s.source p).data.length ≤ (s.reader p).pos := by
  rw [unread_length] at h
  omega

/-- A byte is left to pull when more bits are unread than are buffered. -/
theorem pos_lt_of_unread {s : State} {p : PortNum} (h : (s.reader p).cnt.val < (s.unread p).length) :
    (s.reader p).pos < (s.source p).data.length := by
  rw [unread_length] at h
  omega

/-- ReadBit at end (R124). -/
theorem readBit_of_unread_nil {s : State} {p : PortNum} (h : s.unread p = []) :
    readBit p s = .raise .endOfStream s := by
  have hlen := unread_length s p
  rw [h, List.length_nil] at hlen
  exact readBit_raise (Fin.ext (by rw [Fin.val_zero]; omega)) (pull_exhausted (by omega))

/-- ReadByte with fewer than eight unread bits (R125). -/
theorem readByte_of_unread_short {s : State} {p : PortNum} (h : (s.unread p).length < 8) :
    readByte p s = .raise .endOfStream s := readByte_raise (pull_exhausted (exhausted_of_unread h))

section OpenReader

variable {s : State} {p : PortNum} (hr : ReaderOk (s.reader p) (s.source p).data) (ho : (s.reader p).opened = true)
include hr ho

/-- ReadBit returns the next unread bit and leaves those after it (R124). -/
theorem readBit_of_unread_cons {b : Bool} {rest : Bits} (hu : s.unread p = b :: rest)
    (ha : (s.reader p).cnt ≠ 0 ∨ (s.source p).avail = true) :
    ∃ x, readBit p s = .ok b (s.setReader p x) ∧ x.opened = true ∧ ReaderOk x (s.source p).data
      ∧ (s.setReader p x).unread p = rest := by
  obtain ⟨m, -, hs, hdrop, -, hcnt⟩ := reader_form hr ho
  rw [hu] at hdrop
  have hle : m + 1 ≤ 8 * (s.source p).data.length := by
    simpa using le_of_drop (a := [b]) hdrop.symm (by simp)
  have hpull : m % 8 = 0 → (s.source p).avail = true := fun h0 =>
    ha.resolve_left fun hc => hc (Fin.ext (by rw [hcnt, h0]; rfl))
  refine ⟨readerAt (s.source p).data (m + 1), ?_, rfl, readerAt_ok _ _ hle, ?_⟩
  · exact (congrArg (readBit p) hs).trans (readBit_readAt s p m b (getElem?_of_drop hdrop.symm) hpull)
  · exact (unread_readAt s p (m + 1) hle).trans (drop_of_drop (a := [b]) hdrop.symm)

/-- ReadByte returns the next eight unread bits and leaves those after them, with one Pull (R125). -/
theorem readByte_of_unread_append {v : Byte} {rest : Bits} (hu : s.unread p = byteBits v ++ rest)
    (ha : (s.source p).avail = true) :
    ∃ x, readByte p s = .ok v (s.setReader p x) ∧ x.opened = true ∧ x.cnt = (s.reader p).cnt
      ∧ x.pos = (s.reader p).pos + 1 ∧ ReaderOk x (s.source p).data ∧ (s.setReader p x).unread p = rest := by
  obtain ⟨m, -, hs, hdrop, hpos, hcnt⟩ := reader_form hr ho
  rw [hu] at hdrop
  have hle : m + 8 ≤ 8 * (s.source p).data.length := by
    simpa [byteBits_length] using le_of_drop hdrop.symm (by simp [byteBits])
  refine ⟨readerAt (s.source p).data (m + 8), ?_, rfl, ?_, ?_, readerAt_ok _ _ hle, ?_⟩
  · exact (congrArg (readByte p) hs).trans (readByte_drop s p hdrop.symm ha)
  · rw [Fin.ext_iff, hcnt]; simp [readerAt]
  · rw [hpos, readerAt]; dsimp only; omega
  · exact (unread_readAt s p (m + 8) hle).trans (drop_of_drop hdrop.symm)

/-- With eight unread bits eight ReadBits do what ReadByte does (R142). -/
theorem readBits_eight_eq_readByte (hu : 8 ≤ (s.unread p).length) (ha : (s.source p).avail = true) :
    ∃ v t, readByte p s = .ok v t ∧ readBits p 8 s = .ok (byteBits v) t ∧ (t.reader p).pos = (s.reader p).pos + 1 := by
  obtain ⟨m, hm, hs, hdrop, hpos, -⟩ := reader_form hr ho
  have hle : m + 8 ≤ 8 * (s.source p).data.length := by
    rw [hdrop, List.length_drop, bytesBits_length] at hu; omega
  have hbits : byteBits (bitsByte ((bytesBits (s.source p).data).drop m))
      = ((bytesBits (s.source p).data).drop m).take 8 := by
    rw [← bitsByte_take, byteBits_bitsByte (by simp; omega)]
  refine ⟨_, s.readAt p (m + 8), (congrArg (readByte p) hs).trans (readByte_readAt s p m hle ha), ?_, ?_⟩
  · rw [hbits]
    exact (congrArg (readBits p 8) hs).trans (readBits_readAt p 8 s m hle ha)
  · rw [readAt_reader, hpos, readerAt]; dsimp only; omega

end OpenReader

/-- ReadBits take the buffered bits without a Pull (R142). -/
theorem readBits_buffered (p : PortNum) (bits : Bits) : ∀ s : State, s.buffered p = bits →
    ∃ x, readBits p bits.length s = .ok bits (s.setReader p x) ∧ x.pos = (s.reader p).pos
      ∧ (s.setReader p x).buffered p = [] := by
  induction bits with
  | nil => exact fun s h => ⟨s.reader p, by rw [setReader_self]; rfl, rfl, by rw [setReader_self, h]⟩
  | cons b rest ih =>
    intro s h
    obtain ⟨-, hread, hrest⟩ := readBit_buffered h
    obtain ⟨x, hreads, hpos, hbuf⟩ := ih _ hrest
    rw [setReader_setReader] at hreads hbuf
    rw [setReader_reader] at hpos
    exact ⟨x, by simp only [List.length_cons, readBits, hread, hreads], hpos, hbuf⟩

/-- With fewer than eight unread bits ReadBits return them all, whether or not the source is available (R142). -/
theorem readBits_of_unread_short {s : State} {p : PortNum} (h : (s.unread p).length < 8) :
    ∃ t, readBits p (s.reader p).cnt.val s = .ok (s.unread p) t ∧ t.unread p = [] := by
  have hend := exhausted_of_unread h
  have hbuf : s.unread p = s.buffered p := by rw [unread_buffered, List.drop_eq_nil_of_le hend]; simp
  obtain ⟨x, hread, hpos, hnil⟩ := readBits_buffered p _ s hbuf.symm
  have hcnt : (s.unread p).length = (s.reader p).cnt.val := by rw [unread_length]; omega
  refine ⟨s.setReader p x, hcnt ▸ hread, ?_⟩
  rw [unread_buffered, hnil, setReader_source, setReader_reader, hpos, List.drop_eq_nil_of_le hend]
  rfl

/-! ## Writers -/

/-- The pending bits are those past the last whole byte (R27). -/
theorem written_length_mod (s : State) (w : PortNum) : (s.written w).length % 8 = (s.writer w).n.val := by
  have := (s.writer w).n.isLt
  rw [written_length]
  omega

theorem n_eq_seven_iff (s : State) (w : PortNum) : (s.writer w).n = 7 ↔ (s.written w).length % 8 = 7 := by
  rw [written_length_mod, Fin.ext_iff]; rfl

theorem closeW_aligned {s : State} {p : PortNum} (ho : (s.writer p).opened = true) (hn : (s.writer p).n = 0) :
    closeW p s = .ok () (s.setWriter p Writer.closed) := by
  rw [closeW, if_pos ho, if_pos hn]

theorem closeW_pending {s : State} {p : PortNum} (ho : (s.writer p).opened = true) (hn : (s.writer p).n ≠ 0) :
    closeW p s = push p (s.writer p).acc (s.setWriter p Writer.closed) := by
  rw [closeW, if_pos ho, if_neg hn]

theorem push_avail {s : State} {p : PortNum} (v : Byte) (ha : (s.sink p).avail = true) :
    push p v s = .ok () (s.setSink p { s.sink p with data := (s.sink p).data ++ [v] }) := if_pos ha

theorem push_refused {s : State} {p : PortNum} (v : Byte) (ha : (s.sink p).avail = false) :
    push p v s = .raise .sinkUnavailable s := if_neg (by simp [ha])

/-- The eighth bit of a byte on an unavailable sink (R128). -/
theorem writeBit_eighth_refused {s : State} {p : PortNum} {b : Bool} (hn : (s.writer p).n = 7)
    (ha : (s.sink p).avail = false) : writeBit p b s = .raise .sinkUnavailable s := by
  simp only [writeBit, if_pos hn, push_refused _ ha]

/-- The accumulator holds the pending bits and zeros below them (R27). -/
theorem byteBits_acc {w : Writer} (h : WriterOk w) :
    byteBits w.acc = (byteBits w.acc).take w.n.val ++ List.replicate (8 - w.n.val) false := by
  have hlen : ((byteBits w.acc).take w.n.val).length = w.n.val := by
    rw [List.length_take, byteBits_length]; omega
  have := byteBits_bitsByte_short ((byteBits w.acc).take w.n.val) (by omega)
  rwa [(lowZero_iff _ _).1 h.lowZero, hlen] at this

section OpenWriter

variable {s : State} {p : PortNum} (hw : WriterOk (s.writer p)) (ho : (s.writer p).opened = true)
include hw ho

/-- WriteBit appends its bit to the bits written (R128). -/
theorem writeBit_written (b : Bool) (ha : (s.writer p).n ≠ 7 ∨ (s.sink p).avail = true) :
    writeBit p b s = .ok () (s.wrote p (s.written p ++ [b])) :=
  (congrArg (writeBit p b) (eq_wrote s p hw ho)).trans (writeBit_wrote s p _ b fun h7 =>
    ha.resolve_left fun hn => hn ((n_eq_seven_iff s p).2 h7))

/-- WriteByte appends its eight bits (R129). -/
theorem writeByte_written (v : Byte) (ha : (s.sink p).avail = true) :
    writeByte p v s = .ok () (s.wrote p (s.written p ++ byteBits v)) :=
  (congrArg (writeByte p v) (eq_wrote s p hw ho)).trans (writeByte_wrote s p _ v ha)

theorem writeBits_written (bits : Bits) (ha : (s.sink p).avail = true) :
    writeBits p bits s = .ok () (s.wrote p (s.written p ++ bits)) :=
  (congrArg (writeBits p bits) (eq_wrote s p hw ho)).trans (writeBits_wrote p bits s _ ha)

/-- CloseW whose Push does not raise leaves the bits written, packed into bytes (R127). -/
theorem closeW_written (ha : (s.sink p).avail = true ∨ (s.writer p).n = 0) :
    closeW p s = .ok () ((s.setSink p { s.sink p with data := packBits (s.written p) }).setWriter p Writer.closed) := by
  by_cases hn : (s.writer p).n = 0
  · have hbytes : s.written p = bytesBits (s.sink p).data := by simp [State.written, hn]
    rw [closeW_aligned ho hn, hbytes, packBits_bytesBits]
    exact congrArg (fun t => Res.ok () (State.setWriter t p Writer.closed)) (setSink_self s p).symm
  · exact (congrArg (closeW p) (eq_wrote s p hw ho)).trans (closeW_wrote s p _ (ha.resolve_right hn))

end OpenWriter

theorem setWidth_append_eq_or {m n k : Nat} (x : BitVec m) (y : BitVec n) :
    (x ++ y).setWidth k = (x ++ 0#n).setWidth k ||| y.setWidth k := by
  apply BitVec.eq_of_getLsbD_eq
  intro i hi
  simp only [BitVec.getLsbD_setWidth, BitVec.getLsbD_or, BitVec.getLsbD_append]
  by_cases h : i < n
  · simp [h]
  · simp [h, BitVec.getLsbD_of_ge y i (by omega)]

/-- The word of WR_BYTE is its fixed bits with the operand below them (spec/30_encoding.md R92, R94). -/
theorem encodeCmd_wrByte (w : PortNum) (v : Byte) :
    encodeCmd (.wrByte w v) = encodeCmd (.wrByte w 0) ||| v.setWidth 32 :=
  setWidth_append_eq_or (0x0B#5 ++ 0#2 ++ w.bit) v

theorem decodeCmd_wrByte (w : PortNum) (v : Byte) :
    decodeCmd (encodeCmd (.wrByte w 0) ||| v.setWidth 32) = .ok (.wrByte w v) := by
  rw [← encodeCmd_wrByte, encodeCmd, decodeCmd_setWidth, decodeWord_encode rfl]

/-! ## Sequences of writes and reads (R139) -/

theorem Performed.append {is js : List Instr} {t u : State} (hj : Performed js t u) :
    ∀ {s : State}, Performed is s t → Performed (is ++ js) s u := by
  induction is with
  | nil => rintro s rfl; exact hj
  | cons i is ih => exact fun ⟨v, hv, herr, hrest⟩ => ⟨v, hv, herr, ih hrest⟩

theorem performed_one {i : Instr} {s t : State} (h : perform i s = .next t) (he : t.err = false) :
    Performed [i] s t := ⟨t, h, he, rfl⟩

@[simp] theorem accept_sink (c : Word) (s : State) (w : PortNum) : (accept c s).sink w = s.sink w := by cases w <;> rfl

@[simp] theorem accept_writer (c : Word) (s : State) (w : PortNum) : (accept c s).writer w = s.writer w := by
  cases w <;> rfl

theorem setResult_readAt (v : Byte) (s : State) (r : PortNum) (m : Nat) :
    setResult v (s.readAt r m) = (setResult v s).readAt r m := by cases r <;> rfl

/-- The write commands of a list of items append their bits. -/
theorem performed_writes (w : PortNum) (items : List Item) : ∀ (v : State) (b : Bits), (v.sink w).avail = true →
    ∃ v' : State, (v'.sink w).avail = true
      ∧ Performed (items.map (Item.write w)) (v.wrote w b) (v'.wrote w (b ++ items.flatMap Item.bits)) := by
  induction items with
  | nil => exact fun v b ha => ⟨v, ha, by simp [Performed]⟩
  | cons x rest ih =>
    intro v b ha
    obtain ⟨c, hx⟩ := perform_write w x v b ha
    obtain ⟨v', ha', hrest⟩ := ih (normalEnd (accept c v)) (b ++ x.bits) (by simpa using ha)
    refine ⟨v', ha', _, hx, by rw [wrote_err]; rfl, ?_⟩
    rwa [List.flatMap_cons, ← List.append_assoc]

/-- WR_CLOSE leaves the bits written in the sink, packed into bytes. -/
theorem perform_wrClose (w : PortNum) (v : State) (b : Bits) (ha : (v.sink w).avail = true) :
    ∃ t, perform (.wrClose w) (v.wrote w b) = .next t ∧ (t.sink w).data = packBits b ∧ t.err = false := by
  refine ⟨_, by rw [perform, exec_wrClose, accept_wrote, closeW_wrote _ _ _ (by simpa using ha), endAs, id], ?_, ?_⟩
  · simp
  · rw [normalEnd_err, setWriter_err, setSink_err]; rfl

/-- WR_OPEN, the writes of a list of items and WR_CLOSE leave their bits in the sink, packed into bytes. -/
theorem performed_stream (w : PortNum) (items : List Item) {s : State} (ho : (s.writer w).opened = false)
    (ha : (s.sink w).avail = true) : ∃ t, (t.sink w).data = packBits (items.flatMap Item.bits)
      ∧ Performed (.wrOpen w :: items.map (Item.write w) ++ [.wrClose w]) s t := by
  have hopen : perform (.wrOpen w) s = .next ((normalEnd (accept (encodeCmd (.wrOpen w)) s)).wrote w []) := by
    rw [perform, exec_wrOpen, openW_closed _ _ (by simpa using ho) (by simpa using ha)]
    simp only [endAs, id, end_wrote]
  obtain ⟨v, hv, hwrites⟩ := performed_writes w items (normalEnd (accept (encodeCmd (.wrOpen w)) s)) []
    (by simpa using ha)
  rw [List.nil_append] at hwrites
  obtain ⟨t, hclose, hdata, herr⟩ := perform_wrClose w v (items.flatMap Item.bits) hv
  exact ⟨t, hdata, .append (performed_one hclose herr) ⟨_, hopen, by rw [wrote_err]; rfl, hwrites⟩⟩

/-- A read command returns its item's value and moves past its bits. -/
theorem perform_read (r : PortNum) (x : Item) (v : State) {m : Nat} {rest : Bits} (ha : (v.source r).avail = true)
    (hd : (bytesBits (v.source r).data).drop m = x.bits ++ rest) : ∃ c, perform (x.read r) (v.readAt r m)
      = .next ((normalEnd (setResult x.value (accept c v))).readAt r (m + x.bits.length)) := by
  have hopened (t : State) : ((t.readAt r m).reader r).opened = true := by rw [readAt_reader]; rfl
  have ha' (c : Word) : ((accept c v).source r).avail = true := by rwa [accept_source]
  have hd' (c : Word) : (bytesBits ((accept c v).source r).data).drop m = x.bits ++ rest := by rwa [accept_source]
  cases x with
  | bit b =>
    refine ⟨encodeCmd (.rdBit r), ?_⟩
    rw [perform, Item.read, exec_rdBit, accept_readAt, onOpenReader_opened (hopened _),
      readBit_drop _ r (hd' _) (ha' _), endAs, setResult_readAt, end_readAt]
    rfl
  | byte y =>
    refine ⟨encodeCmd (.rdByte r), ?_⟩
    rw [perform, Item.read, exec_rdByte, accept_readAt, onOpenReader_opened (hopened _),
      readByte_drop _ r (hd' _) (ha' _), endAs, setResult_readAt, end_readAt]
    rfl

/-- The read commands of a list of items return their values where the unread bits begin with the items' bits. -/
theorem readsBack_of_drop (r : PortNum) (items : List Item) : ∀ (v : State) (m : Nat) (rest : Bits),
    (v.source r).avail = true → (bytesBits (v.source r).data).drop m = items.flatMap Item.bits ++ rest →
    ∃ v' : State, v'.source r = v.source r
      ∧ ReadsBack r items (v.readAt r m) (v'.readAt r (m + (items.flatMap Item.bits).length)) := by
  induction items with
  | nil => exact fun v m rest _ _ => ⟨v, rfl, rfl⟩
  | cons x xs ih =>
    intro v m rest ha hd
    rw [List.flatMap_cons, List.append_assoc] at hd
    obtain ⟨c, hx⟩ := perform_read r x v ha hd
    have hsource : (normalEnd (setResult x.value (accept c v))).source r = v.source r := by
      rw [normalEnd_source, setResult_source, accept_source]
    obtain ⟨v', hv', hxs⟩ := ih (normalEnd (setResult x.value (accept c v))) (m + x.bits.length) rest
      (by rw [hsource, ha]) (by rw [hsource, drop_of_drop hd])
    refine ⟨v', hv'.trans hsource, _, hx, by rw [readAt_err]; rfl, by rw [readAt_resultValid]; rfl,
      by rw [readAt_resultValue]; rfl, ?_⟩
    rwa [List.flatMap_cons, List.length_append, ← Nat.add_assoc]

/-! ## The statements -/

/-- Settles O13: OpenR asks for the source's `avail` alone, CloseR for nothing. -/
theorem rdOpenRewindsAndRdCloseDiscards : Obligations.RdOpenRewindsAndRdCloseDiscards := by
  refine ⟨⟨rfl, rfl, rfl, rfl⟩, fun r s => ⟨fun ha => ?_, fun ha => ?_, rfl⟩⟩
  · rw [exec_rdOpen, openR_avail _ _ ha]; rfl
  · rw [exec_rdOpen, openR_refused ha]; rfl

/-- Settles O14: each clause is an end of ReadBit (R124), by the unread bits. -/
theorem rdBitReturnsTheNextBit : Obligations.RdBitReturnsTheNextBit := by
  refine ⟨⟨rfl, rfl⟩, fun r s hr => ⟨fun hc => ?_, fun ho => ⟨fun hu => ?_, fun b rest hu => ?_⟩⟩⟩
  · rw [exec_rdBit, onOpenReader_closed hc]; rfl
  · rw [exec_rdBit, onOpenReader_opened ho, readBit_of_unread_nil hu]; rfl
  · refine ⟨fun hn ha => ?_, fun ha => ?_⟩
    · rw [exec_rdBit, onOpenReader_opened ho, readBit_refused hn (pos_lt_of_unread (by simp [hn, hu])) ha]; rfl
    · obtain ⟨x, hx, hrest⟩ := readBit_of_unread_cons hr ho hu ha
      refine ⟨x, ?_, hrest⟩
      rw [exec_rdBit, onOpenReader_opened ho, hx, ← bitByte_eq_ite]; rfl

/-- Settles O15: each clause is an end of ReadByte (R125), by the unread bits. -/
theorem rdByteReturnsTheNextEightBits : Obligations.RdByteReturnsTheNextEightBits := by
  refine ⟨⟨rfl, rfl⟩, fun r s hr => ⟨fun hc => ?_, fun ho => ⟨fun hu => ?_, fun v rest hu => ?_⟩⟩⟩
  · rw [exec_rdByte, onOpenReader_closed hc]; rfl
  · rw [exec_rdByte, onOpenReader_opened ho, readByte_of_unread_short hu]; rfl
  · refine ⟨fun ha => ?_, fun ha => ?_⟩
    · have hlt : (s.reader r).cnt.val < (s.unread r).length := by
        rw [hu, List.length_append, byteBits_length]; omega
      rw [exec_rdByte, onOpenReader_opened ho, readByte_refused (pos_lt_of_unread hlt) ha]; rfl
    · obtain ⟨x, hx, hrest⟩ := readByte_of_unread_append hr ho hu ha
      refine ⟨x, ?_, hrest⟩
      rw [exec_rdByte, onOpenReader_opened ho, hx]; rfl

/-- Settles O16: AtEnd says that no bit is unread. -/
theorem rdAtEndTellsWhetherABitIsLeft : Obligations.RdAtEndTellsWhetherABitIsLeft := by
  refine ⟨⟨rfl, rfl⟩, fun r s => ⟨fun hc => ?_, fun ho => ?_⟩⟩
  · rw [exec_rdAtEnd, onOpenReader_closed hc]; rfl
  · rw [exec_rdAtEnd, onOpenReader_opened ho, endAs, bitByte_eq_ite]
    simp only [atEnd_iff_unread]; rfl

/-- Settles O17: both move the reader by eight bits; with fewer than eight the bits left are all buffered. -/
theorem readByteEqualsEightReadBits : Obligations.ReadByteEqualsEightReadBits := by
  refine fun p s hr ho => ⟨readBits_eight_eq_readByte hr ho, fun hu => ⟨?_, (s.reader p).cnt.isLt, ?_, ?_⟩⟩
  · exact Nat.le_antisymm hr.posLe (exhausted_of_unread hu)
  · exact readByte_of_unread_short hu
  · exact readBits_of_unread_short hu

/-- Settles O18: the branches of OpenW (R126). -/
theorem wrOpenStartsAFreshArtifact : Obligations.WrOpenStartsAFreshArtifact := by
  refine ⟨⟨rfl, rfl⟩, fun w s => ⟨fun ho => ?_, fun hc => ⟨fun ha => ?_, fun ha => ?_⟩⟩⟩
  · rw [exec_wrOpen, openW, if_pos ho]; rfl
  · rw [exec_wrOpen, openW_refused hc ha]; rfl
  · rw [exec_wrOpen, openW, if_neg (by simp [hc]), if_pos ha]; simp only [ha]; rfl

/-- Settles O19: the branches of CloseW (R127); the flushed byte is the accumulator. -/
theorem wrCloseFlushesPendingBits : Obligations.WrCloseFlushesPendingBits := by
  refine ⟨⟨rfl, rfl⟩, fun w s => ⟨fun hc => ?_, fun ho => ⟨fun hn => ?_, fun hn ha => ?_, fun hn ha hw => ?_⟩⟩⟩
  · rw [exec_wrClose, closeW_closed _ _ hc]; rfl
  · rw [exec_wrClose, closeW_aligned ho hn]; rfl
  · rw [exec_wrClose, closeW_pending ho hn, push_refused _ (by simpa using ha)]; rfl
  · refine ⟨(s.writer w).acc, ?_, byteBits_acc hw⟩
    rw [exec_wrClose, closeW_pending ho hn, push_avail _ (by simpa using ha), setWriter_sink]; rfl

/-- Settles O20: WriteBit leaves the writer of the bits written and one more. -/
theorem wrBitAppendsItsBit : Obligations.WrBitAppendsItsBit := by
  refine ⟨⟨rfl, rfl, rfl, rfl⟩, fun w b s hw => ⟨fun hc => ?_, fun ho => ⟨fun hn ha => ?_, fun ha => ?_⟩⟩⟩
  · rw [exec_wrBit, onOpenWriter_closed hc]; rfl
  · rw [exec_wrBit, onOpenWriter_opened ho, writeBit_eighth_refused hn ha]; rfl
  · refine ⟨writerAt (s.written w ++ [b]), fullBytes (s.written w ++ [b]), ?_⟩
    rw [← wrote_eq_set, ← full_written (eq_wrote s w hw ho)]
    refine ⟨?_, rfl, writerAt_ok _, written_wrote _ _ _, fun hn => ?_, fun hn => ?_⟩
    · rw [exec_wrBit, onOpenWriter_opened ho, writeBit_written hw ho b ha]; rfl
    · exact (fullBytes_snoc_of_ne _ b (mt (n_eq_seven_iff s w).2 hn)).1
    · rw [n_eq_seven_iff] at hn
      exact ⟨Fin.ext (by simp [writerAt]; omega), by simp; omega⟩

/-- Settles O21: WriteByte leaves the writer of the bits written and eight more, at the same alignment. -/
theorem wrByteAppendsEightBits : Obligations.WrByteAppendsEightBits := by
  refine ⟨fun v => ⟨?_, ?_⟩, fun w v s hw => ⟨fun hc => ?_, fun ho => ⟨fun ha => ?_, fun ha => ?_⟩⟩⟩
  · exact decodeCmd_wrByte .p0 v
  · exact decodeCmd_wrByte .p1 v
  · rw [exec_wrByte, onOpenWriter_closed hc]; rfl
  · rw [exec_wrByte, onOpenWriter_opened ho, writeByte_refused _ _ _ ha]; rfl
  · obtain ⟨hfull, -⟩ := fullBytes_append_byte (s.written w) v
    refine ⟨writerAt (s.written w ++ byteBits v), bitsByte (tailBits (s.written w) ++ byteBits v), ?_⟩
    rw [← full_written (eq_wrote s w hw ho), ← hfull, ← wrote_eq_set]
    refine ⟨?_, rfl, writerAt_ok _, Fin.ext ?_, written_wrote _ _ _, fun hn => ?_⟩
    · rw [exec_wrByte, onOpenWriter_opened ho, writeByte_written hw ho v ha]; rfl
    · rw [← written_length_mod]; simp [writerAt, byteBits_length]
    · have htail : tailBits (s.written w) = [] :=
        List.eq_nil_of_length_eq_zero (by rw [tailBits_length, written_length_mod, hn]; rfl)
      rw [htail, List.nil_append, bitsByte_byteBits]

/-- Settles O22: both append the eight bits to the bits written, which determine the writer. -/
theorem writeByteEqualsEightWriteBits : Obligations.WriteByteEqualsEightWriteBits := by
  refine fun p s hw ho ha => ⟨fun v => ⟨_, writeByte_written hw ho v ha, writeBits_written hw ho _ ha⟩, fun a b c v => ?_⟩
  refine ⟨_, _, _, writeBits_written hw ho _ ha, writeByte_wrote s p _ v ha, ?_, closeW_wrote s p _ ha⟩
  rw [writeBits_written hw ho _ ha, List.append_assoc]

/-- Settles O23: the sink holds the whole bytes of the bits written, and after the close all of them, packed. -/
theorem writerFraming : Obligations.WriterFraming := by
  refine fun w s hw ho => ⟨?_, fun ha => ⟨_, by rw [exec_wrClose, closeW_written hw ho ha, endAs, id], ?_, ?_, ?_⟩⟩
  · rw [← full_written (eq_wrote s w hw ho), fullBytes_length]
  · simp [Writer.closed]
  · simp [packBits_length]
  · simp [bytesBits_packBits]

/-- Settles O24: the sink holds the items' bits and the zeros of the last byte; the reads take the former and leave the
latter. -/
theorem bitStreamRoundTrip : Obligations.BitStreamRoundTrip := by
  intro w r items s ho ha
  obtain ⟨t, hdata, hwrites⟩ := performed_stream w items ho ha
  refine ⟨t, hwrites, fun u hu => ?_⟩
  rw [hdata] at hu
  have hbits : (bytesBits (u.source r).data).drop 0 = items.flatMap Item.bits
      ++ List.replicate ((8 - (items.flatMap Item.bits).length % 8) % 8) false := by
    rw [List.drop_zero, hu, bytesBits_packBits]
  have hopen : perform (.rdOpen r) u = .next ((normalEnd (accept (encodeCmd (.rdOpen r)) u)).readAt r 0) := by
    rw [perform, exec_rdOpen, openR_avail _ _ (by rw [accept_source, hu]), endAs, id, end_readAt]
  have hsource : (normalEnd (accept (encodeCmd (.rdOpen r)) u)).source r = u.source r := by
    rw [normalEnd_source, accept_source]
  obtain ⟨v, hv, hreads⟩ := readsBack_of_drop r items _ 0 _ (by rw [hsource, hu]) (by rw [hsource, hbits])
  have hunread : (v.readAt r (0 + (items.flatMap Item.bits).length)).unread r
      = List.replicate ((8 - (items.flatMap Item.bits).length % 8) % 8) false := by
    rw [unread_readAt, hv, hsource, drop_of_drop hbits]
    rw [hv, hsource, hu, packBits_length]; omega
  refine ⟨_, _, performed_one hopen (by rw [readAt_err]; rfl), hreads, ?_, hunread⟩
  rw [atEnd_iff_unread, hunread, List.replicate_eq_nil_iff]
  omega

end Sys2Proof.Machine
end

section
/-! PROOFS. The statements about the tree layer (spec/41_tree.md). Construction is followed by the queue's order and
weights, a run of a command by its trace, in terms of the unread bits of its reader or the bits written by its writer. -/

namespace Sys2Proof.Machine

/-! ## BuildTree -/

theorem buildTree_some {f : FreqTable} (h : ∃ v, f.count v ≠ 0) : ∃ t, buildTree f = some t := by
  obtain ⟨v, hv⟩ := h
  exact Option.ne_none_iff_exists'.1 fun hn => hv ((buildTree_eq_none f).1 hn v)

theorem exec_treeBuild_some {s : State} {t : HTree} (h : buildTree s.freq = some t) :
    exec .treeBuild s = .next (normalEnd (storeTree t t.size (invalidate s))) := by
  simp only [exec, execTreeBuild, h]

theorem exec_treeBuild_none {s : State} (h : buildTree s.freq = none) :
    exec .treeBuild s = .next (errorEnd .emptyFreq (emptyFreqState s)) := by
  simp only [exec, execTreeBuild, h]

theorem buildTree_of_used_nil {f : FreqTable} (h : usedSymbols f = []) : buildTree f = none := by
  rw [buildTree, h]

theorem buildTree_of_used_single {f : FreqTable} {v : Byte} (h : usedSymbols f = [v]) :
    buildTree f = some (.internal (.leaf v) (.leaf (v ^^^ 0x01))) := by
  rw [buildTree, h]

/-- Two or more symbols: the combining loop on the start queue (R184). -/
theorem buildTree_of_used_many {f : FreqTable} (h : 2 ≤ (usedSymbols f).length) :
    buildTree f = combineAll Config.N_SYM 0 (startQueue f) := by
  unfold buildTree
  split
  · next h0 => simp [h0] at h
  · next h1 => simp [h1] at h
  · rfl

/-- Settles O26: TREE_BUILD stores what `buildTree` returns, whose shape is R196's. -/
theorem treeBuildStoresTheTree : Obligations.TreeBuildStoresTheTree := by
  refine ⟨rfl, fun s => ⟨fun h0 => ?_, fun hv => ?_⟩⟩
  · rw [exec_treeBuild_none ((buildTree_eq_none _).2 h0), emptyFreqState]
    exact ⟨fun hk => by rw [if_pos hk], fun hk => by rw [if_neg (by simp [hk])]; rfl⟩
  · obtain ⟨t, ht⟩ := buildTree_some hv
    obtain ⟨hroot, -, -, hsize⟩ := buildTree_spec ht
    refine ⟨t, ht, exec_treeBuild_some ht, hroot, hsize, fun v hone => ?_, fun hmany => ?_, mem_usedSymbols _⟩
    · exact Option.some.inj (ht.symm.trans (buildTree_of_used_single hone))
    · obtain ⟨t', ht', hleaves, -⟩ := buildTree_many _ hmany
      obtain rfl := Option.some.inj (ht.symm.trans ht')
      exact ⟨hleaves, by rw [← hleaves.length_eq]; have := t.size_eq; omega⟩

/-- The ranks of a queue are distinct and below a bound, as those of the nodes made so far are (R182). -/
def RanksOk (bound : Nat) (q : List QNode) : Prop := (q.map QNode.rank).Nodup ∧ ∀ a ∈ q, a.rank < bound

theorem RanksOk.perm {n : Nat} {q q' : List QNode} (h : RanksOk n q) (hp : q'.Perm q) : RanksOk n q' :=
  ⟨(hp.map QNode.rank).nodup_iff.2 h.1, fun a ha => h.2 a (hp.mem_iff.1 ha)⟩

theorem leaves_ranksOk (f : FreqTable) (l : List Byte) (h : l.Nodup) : RanksOk 256 (l.map (leafNode f)) := by
  refine ⟨?_, fun a ha => ?_⟩
  · rw [List.map_map]
    exact h.map fun u v huv => BitVec.eq_of_toNat_eq huv
  · obtain ⟨v, -, rfl⟩ := List.mem_map.1 ha
    exact v.isLt

theorem startQueue_perm_leaves (f : FreqTable) : (startQueue f).Perm ((usedSymbols f).map (leafNode f)) :=
  startQueue_perm f (usedSymbols f)

theorem startQueue_ranksOk (f : FreqTable) : RanksOk 256 (startQueue f) :=
  (leaves_ranksOk f _ (usedSymbols_nodup f)).perm (startQueue_perm_leaves f)

/-- Leaves of distinct symbols are inserted one by one into an ordered queue. -/
theorem startQueue_sorted (f : FreqTable) : (startQueue f).Pairwise keyLt := by
  have key : ∀ l : List Byte, l.Nodup → (l.foldr (fun v q => enqueue (leafNode f v) q) []).Pairwise keyLt := by
    intro l hl
    induction l with
    | nil => exact .nil
    | cons v l ih =>
      obtain ⟨hv, hl⟩ := List.nodup_cons.1 hl
      refine enqueue_sorted _ _ (ih hl) fun y hy he => ?_
      obtain ⟨u, hu, rfl⟩ := List.mem_map.1 ((startQueue_perm f l).mem_iff.1 hy)
      exact hv (BitVec.eq_of_toNat_eq he ▸ hu)
  exact key _ (usedSymbols_nodup f)

/-- A round's node has a rank that no node of the queue has (R182). -/
theorem combine_ranksOk {k : Nat} {a b : QNode} {q : List QNode} (h : RanksOk (256 + k) (a :: b :: q)) :
    RanksOk (256 + (k + 1)) (combine k a b :: q) := by
  obtain ⟨hnodup, hlt⟩ := h
  simp only [List.map_cons, List.nodup_cons] at hnodup
  have hq : ∀ x ∈ q, x.rank < 256 + k := fun x hx => hlt x (by simp [hx])
  have hnew : (combine k a b).rank = 256 + k := rfl
  refine ⟨List.nodup_cons.2 ⟨fun hm => ?_, hnodup.2.2⟩, fun x hx => ?_⟩
  · obtain ⟨x, hx, he⟩ := List.mem_map.1 hm
    have := hq x hx
    omega
  · rcases List.mem_cons.1 hx with rfl | hx
    · omega
    · have := hq x hx
      omega

theorem enqueue_combine_sorted {k : Nat} {a b : QNode} {q : List QNode} (hs : (a :: b :: q).Pairwise keyLt)
    (h : RanksOk (256 + k) (a :: b :: q)) : (enqueue (combine k a b) q).Pairwise keyLt := by
  refine enqueue_sorted _ _ hs.of_cons.of_cons fun x hx he => ?_
  have := h.2 x (by simp [hx])
  have hnew : (combine k a b).rank = 256 + k := rfl
  omega

/-- The start queue's rounds, and no others, make the built tree. -/
theorem rounds_buildTree {f : FreqTable} {t : HTree} (h : 2 ≤ (usedSymbols f).length) (ht : buildTree f = some t)
    (u : HTree) : Rounds 0 ((usedSymbols f).map (leafNode f)) u ↔ u = t := by
  obtain ⟨hnodup, hlt⟩ := startQueue_ranksOk f
  have hrounds := (rounds_of_combineAll (startQueue_sorted f) hnodup hlt
    ((buildTree_of_used_many h).symm.trans ht)).perm (startQueue_perm_leaves f)
  exact ⟨fun hu => hu.unique hrounds (.refl _), fun hu => hu ▸ hrounds⟩

/-- Settles O27: the start queue and every round keep the order and the ranks, so the loop runs `Rounds`. -/
theorem constructionQueueIsOrdered : Obligations.ConstructionQueueIsOrdered := by
  refine ⟨fun f => ⟨startQueue_sorted f, startQueue_ranksOk f⟩, fun k a b q hs hn hlt => ?_, fun f => ?_⟩
  · have hperm := enqueue_perm (combine k a b) q
    exact ⟨hperm, enqueue_combine_sorted hs ⟨hn, hlt⟩, (combine_ranksOk ⟨hn, hlt⟩).perm hperm⟩
  · refine ⟨usedSymbols_nodup f, mem_usedSymbols f, startQueue_perm_leaves f, buildTree_of_used_nil,
      fun _ => buildTree_of_used_single, fun h => ?_⟩
    obtain ⟨t, ht, -⟩ := buildTree_many f h
    exact ⟨t, ht, rounds_buildTree h ht⟩

/-- The symbols with a count of 0 add nothing to the sum. -/
theorem sum_usedSymbols (f : FreqTable) : ((usedSymbols f).map f.count).sum = f.sum := by
  rw [FreqTable.sum, usedSymbols]
  induction symbols with
  | nil => rfl
  | cons v l ih => by_cases h : f.count v = 0 <;> simp [h, ih]

theorem queueWeight_startQueue (f : FreqTable) : queueWeight (startQueue f) = f.sum := by
  rw [queueWeight, ((startQueue_perm_leaves f).map _).sum_eq, List.map_map, ← sum_usedSymbols]
  rfl

/-- Settles O28: the loop keeps the weights of the queue together, which are the counts. -/
theorem builtTreeWeighsTotal : Obligations.BuiltTreeWeighsTotal := by
  refine ⟨fun k a b => ⟨rfl, rfl⟩, fun s t hf h ht => ?_⟩
  have hleaf : ∀ a ∈ startQueue s.freq, a.tree.weight s.freq = a.weight := fun a ha => by
    obtain ⟨v, -, rfl⟩ := List.mem_map.1 ((startQueue_perm_leaves _).mem_iff.1 ha)
    rfl
  have hloop := (buildTree_of_used_many h).symm.trans ht
  rw [combineAll_weight s.freq _ _ _ _ hleaf hloop, queueWeight_startQueue, hf.sum]

/-! ## Dictionaries -/

/-- With distinct leaf values the code of a leaf is its path (R197). -/
theorem buildDict_code_iff {t : HTree} (h : t.leaves.Nodup) (v : Byte) (p : Bits) :
    (buildDict t).code v = some p ↔ t.node p = some (.leaf v) := by
  refine ⟨buildDict_node, fun hp => ?_⟩
  obtain ⟨q, hq⟩ := Option.isSome_iff_exists.1 ((buildDict_dom t v).2 ((t.mem_leaves_iff v).2 ⟨p, hp⟩))
  have hmem : ∀ x, t.node x = some (.leaf v) → (v, x) ∈ t.paths [] := fun x hx => (t.mem_paths [] x v).2 hx
  rw [← t.paths_leaves []] at h
  have heq := List.inj_on_of_nodup_map h (hmem q (buildDict_node hq)) (hmem p hp) rfl
  rw [hq, (Prod.mk.inj heq).2]

theorem isLeaf_of_node_nil {t : HTree} {v : Byte} (h : t.node [] = some (.leaf v)) : t.isLeaf = true := by
  cases t with
  | leaf => rfl
  | internal => simp [HTree.node] at h

theorem two_le_leaves {t : HTree} (h : t.isLeaf = false) : 2 ≤ t.leaves.length := by
  cases t with
  | leaf => simp [HTree.isLeaf] at h
  | internal l r =>
    have := l.leaves_pos
    have := r.leaves_pos
    simp only [HTree.leaves, List.length_append]
    omega

theorem exec_dictBuild (s : State) :
    exec .dictBuild s = .next (if s.treeValid then normalEnd (storeDict s) else errorEnd .noTree s) := rfl

/-- Settles O33: a code is the path of a leaf, below which no path goes on. -/
theorem dictBuildStoresThePaths : Obligations.DictBuildStoresThePaths := by
  refine ⟨rfl, fun s => ⟨fun hn => ?_, fun t ht => ?_⟩, fun t v => ?_, fun t hd => ⟨?_, buildDict_dom t, ?_⟩,
    fun f t ht => ?_⟩
  · rw [exec_dictBuild, State.treeValid, hn]; rfl
  · rw [exec_dictBuild, State.treeValid, ht, storeDict, ht]; rfl
  · rw [buildDict, foldl_record, Dict.code_none, Option.or_none]
  · exact buildDict_code_iff hd
  · exact fun u v p q hp hq hne hpre => hne (buildDict_prefixFree hp hq hpre)
  · obtain ⟨hroot, hnodup, -, -⟩ := buildTree_spec ht
    refine ⟨hnodup, two_le_leaves hroot, fun v p hp => List.length_pos_iff.2 fun he => ?_⟩
    cases hroot.symm.trans (isLeaf_of_node_nil (he ▸ buildDict_node hp))

/-- The codes of a tree the store holds (R199). -/
theorem buildDict_code_le {P : Config.Params} {t : HTree} (h : t.size ≤ P.nodeCap) {v : Byte} {p : Bits}
    (hp : (buildDict t).code v = some p) : p.length ≤ P.maxCodeLen :=
  (buildDict_code_length hp).trans (t.depth_le h)

/-- Settles O34: a code is at most as long as the tree is deep, and the depth is below the number of leaves. -/
theorem codesFitTheDepthBound : Obligations.CodesFitTheDepthBound := by
  refine ⟨fun P t h => ⟨?_, t.depth_le h, fun v p => buildDict_code_le h⟩, ⟨rfl, rfl, rfl⟩,
    fun s hs => ⟨hs.cursor, fun hv v p hp => ?_⟩⟩
  · have := t.size_eq
    rw [Config.Params.maxLeaves]
    omega
  · obtain ⟨t, ht, hd⟩ := hs.dict hv
    exact buildDict_code_le (hs.fits t ht) (hd ▸ hp)

/-! ## Micro-steps of the tree commands -/

section

variable {p : PortNum} {s t : State} {k : Nat} (hk : k ≤ 1)
include hk

/-- A run with at most one access ends in one micro-step (spec/20_memory.md R72). -/
theorem exec_freqCount_of_trace (h : Trace (freqCountAct p) s k t) : exec (.freqCount p) s = .next t :=
  congrArg Host.Outcome.next (microStep_last (freqCount_bounded p) h hk)
theorem exec_treeSer_of_trace (h : Trace (treeSerAct p) s k t) : exec (.treeSer p) s = .next t :=
  congrArg Host.Outcome.next (microStep_last (treeSer_bounded p) h hk)
theorem exec_treeDeser_of_trace (h : Trace (treeDeserAct p) s k t) : exec (.treeDeser p) s = .next t :=
  congrArg Host.Outcome.next (microStep_last (treeDeser_bounded p) h hk)
theorem exec_codeEmit_of_trace {v : Byte} (h : Trace (codeEmitAct p v) s k t) : exec (.codeEmit p v) s = .next t :=
  congrArg Host.Outcome.next (microStep_last (codeEmit_bounded p v) h hk)

end

/-! ## Readers and writers in a run -/

/-- An open reader before and after it reads the first of its unread bits (R24). -/
theorem reader_reads {s : State} {p : PortNum} (hr : ReaderOk (s.reader p) (s.source p).data)
    (ho : (s.reader p).opened = true) {a b : Bits} (hu : s.unread p = a ++ b) :
    ∃ m, s = s.readAt p m ∧ (bytesBits (s.source p).data).drop m = a ++ b ∧ m ≤ 8 * (s.source p).data.length
      ∧ (s.reader p).pos = (m + 7) / 8 ∧ ReaderOk (readerAt (s.source p).data (m + a.length)) (s.source p).data
      ∧ (s.readAt p (m + a.length)).unread p = b := by
  obtain ⟨m, hm, hs, hdrop, hpos, -⟩ := reader_form hr ho
  rw [hu] at hdrop
  have hle : m + a.length ≤ 8 * (s.source p).data.length := by
    have := congrArg List.length hdrop
    rw [List.length_append, List.length_drop, bytesBits_length] at this
    omega
  exact ⟨m, hs, hdrop.symm, hm, hpos, readerAt_ok _ _ hle, (unread_readAt s p _ hle).trans (drop_of_drop hdrop.symm)⟩

/-- The bytes a run pushes are those the sink has gained. -/
theorem pushesTo_written {s : State} {w : PortNum} (bits : Bits) :
    pushesTo (s.written w).length (s.written w ++ bits).length
      = (fullBytes (s.written w ++ bits)).length - (s.sink w).data.length := by
  have := written_length s w
  have := (s.writer w).n.isLt
  rw [fullBytes_length, pushesTo]
  omega

/-- A command that stops at the first byte it completes leaves the sink as it was, and the writer open with the bits
before that byte's last (R27, R128). -/
theorem exec_refused_writer {s : State} {w : PortNum} (hw : WriterOk (s.writer w)) (ho : (s.writer w).opened = true)
    {i : Instr} {u : State} {bits : Bits} (h : exec i u = .next (errorEnd .sinkUnavailable
      (s.wrote w (s.written w ++ bits.take (7 - (s.writer w).n.val))))) :
    ∃ x, exec i u = .next (errorEnd .sinkUnavailable (s.setWriter w x)) ∧ x.opened = true ∧ WriterOk x
      ∧ (s.setWriter w x).written w = s.written w ++ bits.take (7 - (s.writer w).n.val) := by
  have hlen := written_length s w
  have hpre : (bits.take (7 - (s.writer w).n.val)).length ≤ 7 - (s.writer w).n.val := List.length_take_le _ _
  have heq := wrote_eq_setWriter (eq_wrote s w hw ho) (bits.take (7 - (s.writer w).n.val)) (by omega)
  exact ⟨_, heq ▸ h, rfl, writerAt_ok _, heq ▸ written_wrote _ _ _⟩

/-! ## FREQ_COUNT -/

theorem freqCountAct_notOpen {p : PortNum} {s : State} (hp : s.pos = .start) (hc : (s.reader p).opened = false) :
    freqCountAct p s = .ended (errorEnd .notOpen s) := by simp [freqCountAct, hp, hc]
theorem freqCountAct_start {p : PortNum} {s : State} (hp : s.pos = .start) (ho : (s.reader p).opened = true) :
    freqCountAct p s = .work ((clearFreq s).goto .count) := by simp [freqCountAct, hp, ho]
theorem freqCountAct_raised (p : PortNum) (s : State) (e : Error) :
    freqCountAct p (s.goto (.raised e)) = .ended (errorEnd e s) := rfl

/-- At the loop head with a byte left that cannot be pulled (R180). -/
theorem freqCount_trace_unavailable {p : PortNum} {s : State} (hp : s.pos = .count)
    (hl : (s.reader p).pos < (s.source p).data.length) (ha : (s.source p).avail = false) :
    Trace (freqCountAct p) s 1 (errorEnd .sourceUnavailable s) := by
  refine .access ?_ (.ended (freqCountAct_raised p s .sourceUnavailable))
  rw [freqCountAct_count p s hp, countAct, atEnd_more hl, readByte_refused hl ha]
  rfl

/-- At the loop head with no byte left: the end of the data, or EndOfStream inside the last byte (R180). -/
theorem freqCount_trace_exhausted {p : PortNum} {s : State} (hp : s.pos = .count)
    (hl : (s.source p).data.length ≤ (s.reader p).pos) : ∃ k, k ≤ 1 ∧ Trace (freqCountAct p) s k
      (if (s.reader p).cnt = 0 then normalEnd s else errorEnd .endOfStream s) := by
  have hact := freqCountAct_count p s hp
  by_cases hc : (s.reader p).cnt = 0
  · rw [countAct, atEnd, hc, decide_eq_true hl] at hact
    exact ⟨0, Nat.zero_le 1, .ended (by rw [if_pos hc]; exact hact)⟩
  · have hend : atEnd p s = false := by simp [atEnd, hc]
    rw [countAct, hend, readByte_raise (pull_exhausted hl)] at hact
    exact ⟨1, Nat.le_refl 1, .access hact (.ended (by rw [if_neg hc]; rfl))⟩

theorem exec_freqCount_exhausted {p : PortNum} {s : State} (hp : s.pos = .start) (ho : (s.reader p).opened = true)
    (hl : (s.source p).data.length ≤ (s.reader p).pos) : exec (.freqCount p) s
      = .next (if (s.reader p).cnt = 0 then normalEnd (clearFreq s) else errorEnd .endOfStream (clearFreq s)) := by
  obtain ⟨k, hk, h⟩ := freqCount_trace_exhausted (p := p) (s := (clearFreq s).goto .count) rfl (by simpa using hl)
  rw [exec_freqCount_of_trace hk (.work (freqCountAct_start hp ho) h), goto_reader, clearFreq_reader, normalEnd_goto,
    errorEnd_goto]

theorem countedAs_readAt (s : State) (p : PortNum) (xs : List Byte) (m : Nat) : (s.countedAs xs).readAt p m
    = { s.setReader p (readerAt (s.source p).data m) with freq := countsOf xs, total := xs.length } := by
  cases p <;> rfl

theorem clearFreq_eq_setReader (s : State) (p : PortNum) :
    clearFreq s = { s.setReader p (s.reader p) with freq := FreqTable.zero, total := 0 } := by
  rw [setReader_self]; rfl

/-- The run of FREQ_COUNT on an open reader whose unread bits are these bytes and fewer than eight more: its three
ends (R180, R181). The reader x and the table f are those it leaves. -/
structure CountRun (p : PortNum) (s : State) (bytes : List Byte) (rest : Bits) (x : Reader) (f : FreqTable) :
    Prop where
  opened : x.opened = true
  ok : ReaderOk x (s.source p).data
  counts : ∀ v : Byte, f.count v = (bytes.take s.params.maxLen).count v
  whole : rest = [] → bytes.length ≤ s.params.maxLen →
    EndsAfter (.freqCount p) (max 1 bytes.length) s
        (normalEnd { s.setReader p x with freq := f, total := bytes.length })
      ∧ (s.setReader p x).unread p = []
  inside : rest ≠ [] → bytes.length ≤ s.params.maxLen →
    EndsWithError (.freqCount p) .endOfStream s { s.setReader p x with freq := f, total := bytes.length }
      ∧ (s.setReader p x).unread p = rest
  tooMany : s.params.maxLen < bytes.length →
    EndsWithError (.freqCount p) .countOverflow s { s.setReader p x with freq := f, total := s.params.maxLen }
      ∧ (s.setReader p x).unread p = bytesBits (bytes.drop (s.params.maxLen + 1)) ++ rest

section OpenReader

variable {s : State} {p : PortNum} (hs : Starts (.freqCount p) s) (hr : ReaderOk (s.reader p) (s.source p).data)
  (ho : (s.reader p).opened = true)
include hs hr ho

/-- At most MAX_LEN bytes on an available source. -/
theorem countRun_fits (ha : (s.source p).avail = true) {bytes : List Byte} {rest : Bits}
    (hu : s.unread p = bytesBits bytes ++ rest) (hrest : rest.length < 8) (hlen : bytes.length ≤ s.params.maxLen) :
    ∃ x, CountRun p s bytes rest x (countsOf bytes) := by
  obtain ⟨m, hm, hd, hle, -, hok, hleft⟩ := reader_reads hr ho hu
  rw [bytesBits_length] at hok hleft
  refine ⟨readerAt (s.source p).data (m + 8 * bytes.length), rfl, hok, fun v => ?_, fun h0 _ => ⟨?_, h0 ▸ hleft⟩,
    fun hne _ => ⟨?_, hleft⟩, fun h => absurd hlen (by omega)⟩
  · rw [countsOf_count, List.take_of_length_le hlen]
  · have htrace := freqCount_trace p s hs.pos ha m bytes (by rw [hd, h0, List.append_nil]) hle hlen
    rw [← hm, countedAs_readAt] at htrace
    exact freqCount_ends hs.running htrace rfl
  · have htrace := freqCount_trace_unaligned p s hs.pos ha m bytes rest hd hne hrest hlen
    rw [← hm, countedAs_readAt] at htrace
    exact ⟨_, freqCount_ends hs.running htrace rfl⟩

/-- More than MAX_LEN bytes on an available source: the one too many is read. -/
theorem countRun_overflows (ha : (s.source p).avail = true) {bytes : List Byte} {rest : Bits}
    (hu : s.unread p = bytesBits bytes ++ rest) (hlen : s.params.maxLen < bytes.length) :
    ∃ x, CountRun p s bytes rest x (countsOf (bytes.take s.params.maxLen)) := by
  have htake : (bytes.take s.params.maxLen).length = s.params.maxLen := List.length_take_of_le (Nat.le_of_lt hlen)
  have hbits : bytesBits bytes ++ rest = bytesBits (bytes.take s.params.maxLen)
      ++ (byteBits bytes[s.params.maxLen] ++ (bytesBits (bytes.drop (s.params.maxLen + 1)) ++ rest)) := by
    conv_lhs => rw [← List.take_append_drop s.params.maxLen bytes, List.drop_eq_getElem_cons hlen]
    rw [bytesBits_append, bytesBits_cons, List.append_assoc, List.append_assoc]
  obtain ⟨m, hm, hd, -, -, hok, hleft⟩ := reader_reads hr ho ((hu.trans hbits).trans (List.append_assoc ..).symm)
  rw [List.length_append, bytesBits_length, byteBits_length, ← Nat.add_assoc] at hok hleft
  rw [List.append_assoc] at hd
  refine ⟨_, rfl, hok, countsOf_count _, fun _ h => absurd h (by omega), fun _ h => absurd h (by omega),
    fun _ => ⟨?_, hleft⟩⟩
  have htrace := freqCount_trace_overflow p s hs.pos ha m _ _ _ hd htake
  rw [← hm, countedAs_readAt, htake] at htrace
  rw [htake]
  exact ⟨_, freqCount_ends hs.running htrace rfl⟩

/-- No byte left, whether or not the source is available. -/
theorem countRun_exhausted (hl : (s.source p).data.length ≤ (s.reader p).pos) {bytes : List Byte} {rest : Bits}
    (hu : s.unread p = bytesBits bytes ++ rest) : CountRun p s bytes rest (s.reader p) FreqTable.zero := by
  have hlen := unread_length s p
  have hexec := exec_freqCount_exhausted hs.pos ho hl
  rw [clearFreq_eq_setReader s p] at hexec
  obtain rfl : bytes = [] := by
    rw [hu, List.length_append, bytesBits_length] at hlen
    have := (s.reader p).cnt.isLt
    exact List.eq_nil_of_length_eq_zero (by omega)
  rw [bytesBits_nil, List.nil_append] at hu
  have hcnt : (s.reader p).cnt = 0 ↔ rest = [] := by
    rw [← List.length_eq_zero_iff, ← hu, hlen, Fin.ext_iff, Fin.val_zero]
    omega
  refine ⟨ho, hr, fun v => by simp, fun h0 _ => ⟨?_, by rw [setReader_self, hu, h0]⟩,
    fun hne _ => ⟨⟨1, ?_⟩, by rw [setReader_self, hu]⟩, fun h => absurd h (by simp)⟩
  · rw [if_pos (hcnt.2 h0)] at hexec
    exact .single hs.running hexec rfl
  · rw [if_neg (mt hcnt.1 hne)] at hexec
    exact .single hs.running hexec rfl

end OpenReader

/-- Settles O25: the runs of FREQ_COUNT by what its reader has left, and its loop head. -/
theorem freqCountCountsTheBytesLeft : Obligations.FreqCountCountsTheBytesLeft := by
  refine ⟨⟨rfl, rfl⟩, fun r s hs => ⟨fun hc => ?_, fun hr ho => ⟨fun hu => ?_, fun hl ha => ?_,
    fun ha bytes rest hu hrest => ?_⟩, fun t _ hp => ⟨fun hl ha => ?_, fun hl => ?_⟩⟩⟩
  · exact exec_freqCount_of_trace (Nat.zero_le 1) (.ended (freqCountAct_notOpen hs.pos hc))
  · have hlen := unread_length s r
    rw [hu, List.length_nil] at hlen
    rw [exec_freqCount_exhausted hs.pos ho (by omega), if_pos (Fin.ext (by rw [Fin.val_zero]; omega))]
    rfl
  · have h := freqCount_trace_unavailable (p := r) (s := (clearFreq s).goto .count) rfl (by simpa using hl)
      (by simpa using ha)
    exact exec_freqCount_of_trace (Nat.le_refl 1) (.work (freqCountAct_start hs.pos ho) h)
  · obtain ⟨x, f, hrun⟩ : ∃ x f, CountRun r s bytes rest x f := by
      rcases ha with ha | hl
      · rcases Nat.lt_or_ge s.params.maxLen bytes.length with hlen | hlen
        · exact (countRun_overflows hs hr ho ha hu hlen).imp fun _ h => ⟨_, h⟩
        · exact (countRun_fits hs hr ho ha hu hrest hlen).imp fun _ h => ⟨_, h⟩
      · exact ⟨_, _, countRun_exhausted hs hr ho hl hu⟩
    exact ⟨x, f, hrun.opened, hrun.ok, hrun.counts, hrun.whole, hrun.inside, hrun.tooMany⟩
  · exact exec_freqCount_of_trace (Nat.le_refl 1) (freqCount_trace_unavailable hp hl ha)
  · obtain ⟨k, hk, h⟩ := freqCount_trace_exhausted hp hl
    exact exec_freqCount_of_trace hk h

/-! ## TREE_SER -/

/-- TREE_SER before its first micro-step checks its writer, then the tree (R188). -/
theorem treeSerAct_notOpen {p : PortNum} {s : State} (hp : s.pos = .start) (hc : (s.writer p).opened = false) :
    treeSerAct p s = .ended (errorEnd .notOpen s) := by simp [treeSerAct, hp, hc]
theorem treeSerAct_noTree {p : PortNum} {s : State} (hp : s.pos = .start) (ho : (s.writer p).opened = true)
    (ht : s.tree = none) : treeSerAct p s = .ended (errorEnd .noTree s) := by simp [treeSerAct, hp, ho, ht]

/-- TREE_SER at a later position, its sink unavailable and a byte still to complete (R188). -/
theorem treeSer_trace_refused_at (p : PortNum) (s : State) (ha : (s.sink p).avail = false) (todo : List SerItem)
    (done : Bits) (hl : 8 ≤ done.length % 8 + (todoBits todo).length) :
    Trace (treeSerAct p) ((s.goto (.ser todo)).wrote p done) 1
      (errorEnd .sinkUnavailable (s.wrote p (done ++ (leadMarkers todo).take (7 - done.length % 8)))) := by
  have h := path_ser_refused (treeSerAct_ser p) s ha 8 todo done (by omega) hl
  refine (h.trace (.ended ?_)).congr rfl
  simp [treeSerAct, ← wrote_goto', errorEnd_goto]

section OpenWriter

variable {s : State} {w : PortNum} (hw : WriterOk (s.writer w)) (ho : (s.writer w).opened = true)
include hw ho

/-- TREE_SER on an available sink, in terms of the bits written (R187, R188). -/
theorem treeSer_written (hr : s.running = some (.legal (.treeSer w))) (hp : s.pos = .start) {t : HTree}
    (ht : s.tree = some t) (ha : (s.sink w).avail = true) :
    EndsAfter (.treeSer w) (max 1 ((fullBytes (s.written w ++ t.ser)).length - (s.sink w).data.length)) s
      (normalEnd (s.wrote w (s.written w ++ t.ser))) := by
  have h := treeSer_trace w s hp ht ha (s.written w)
  rw [← eq_wrote s w hw ho, pushesTo_written] at h
  exact treeSer_ends hr h rfl

theorem exec_treeSer_refused (hp : s.pos = .start) {t : HTree} (ht : s.tree = some t)
    (ha : (s.sink w).avail = false) : exec (.treeSer w) s = .next (errorEnd .sinkUnavailable
      (s.wrote w (s.written w ++ t.leadMarkers.take (7 - (s.writer w).n.val)))) := by
  have h := treeSer_trace_refused w s hp ht ha (s.written w)
  rw [← eq_wrote s w hw ho, written_length_mod] at h
  exact exec_treeSer_of_trace (Nat.le_refl 1) h

theorem exec_treeSer_refused_at {todo : List SerItem} (ha : (s.sink w).avail = false)
    (hl : 8 ≤ (s.writer w).n.val + (todoBits todo).length) :
    exec (.treeSer w) (s.goto (.ser todo)) = .next (errorEnd .sinkUnavailable
      (s.wrote w (s.written w ++ (leadMarkers todo).take (7 - (s.writer w).n.val)))) := by
  have h := treeSer_trace_refused_at w s ha todo (s.written w) (by rwa [written_length_mod])
  rw [wrote_goto, ← eq_wrote s w hw ho, written_length_mod] at h
  exact exec_treeSer_of_trace (Nat.le_refl 1) h

end OpenWriter

/-- Settles O29: the bits written grow by ser(t), or by the markers that complete no byte. -/
theorem treeSerWritesTheSerializedTree : Obligations.TreeSerWritesTheSerializedTree := by
  refine ⟨⟨rfl, rfl⟩, fun w s hs hw => ⟨fun hc => ?_,
    fun ho => ⟨fun hn => ?_, fun t ht => ⟨fun ha => ?_, fun ha => ?_⟩⟩, fun todo ho ha hl => ?_⟩⟩
  · exact exec_treeSer_of_trace (Nat.zero_le 1) (.ended (treeSerAct_notOpen hs.pos hc))
  · exact exec_treeSer_of_trace (Nat.zero_le 1) (.ended (treeSerAct_noTree hs.pos ho hn))
  · refine ⟨writerAt (s.written w ++ t.ser), fullBytes (s.written w ++ t.ser), ?_, rfl, writerAt_ok _, ?_⟩
    · rw [← wrote_eq_set]; exact treeSer_written hw ho hs.running hs.pos ht ha
    · rw [← wrote_eq_set, written_wrote]
  · exact exec_refused_writer hw ho (exec_treeSer_refused hw ho hs.pos ht ha)
  · exact exec_refused_writer hw ho (exec_treeSer_refused_at hw ho ha hl)

/-! ## CODE_EMIT -/

/-- The word of CODE_EMIT is its fixed bits with the symbol below them (spec/30_encoding.md R92, R94). -/
theorem decodeCmd_codeEmit (w : PortNum) (v : Byte) :
    decodeCmd (encodeCmd (.codeEmit w 0) ||| v.setWidth 32) = .ok (.codeEmit w v) := by
  have hword : encodeCmd (.codeEmit w v) = encodeCmd (.codeEmit w 0) ||| v.setWidth 32 :=
    setWidth_append_eq_or (0x15#5 ++ 0#2 ++ w.bit) v
  rw [← hword, encodeCmd, decodeCmd_setWidth, decodeWord_encode rfl]

/-- CODE_EMIT before its first micro-step checks its writer, then the dictionary, then the code (R194). -/
theorem codeEmitAct_notOpen {p : PortNum} {v : Byte} {s : State} (hp : s.pos = .start)
    (hc : (s.writer p).opened = false) : codeEmitAct p v s = .ended (errorEnd .notOpen s) := by
  simp [codeEmitAct, hp, hc]
theorem codeEmitAct_noDict {p : PortNum} {v : Byte} {s : State} (hp : s.pos = .start)
    (ho : (s.writer p).opened = true) (hd : s.dictValid = false) :
    codeEmitAct p v s = .ended (errorEnd .noDict s) := by simp [codeEmitAct, hp, ho, hd]
theorem codeEmitAct_noCode {p : PortNum} {v : Byte} {s : State} (hp : s.pos = .start)
    (ho : (s.writer p).opened = true) (hd : s.dictValid = true) (hn : s.dict.code v = none) :
    codeEmitAct p v s = .ended (errorEnd .noCode s) := by simp [codeEmitAct, hp, ho, hd, hn]

/-- CODE_EMIT at a later position, its sink unavailable and a byte still to complete (R194). -/
theorem codeEmit_trace_refused_at (p : PortNum) (v : Byte) (s : State) (ha : (s.sink p).avail = false)
    (left done : Bits) (hl : 8 ≤ done.length % 8 + left.length) :
    Trace (codeEmitAct p v) ((s.goto (.emit left)).wrote p done) 1
      (errorEnd .sinkUnavailable (s.wrote p (done ++ left.take (7 - done.length % 8)))) := by
  have h := path_bits_refused (here := .emit) (codeEmitAct_emit p v) s ha left done hl
  refine (h.trace (.ended ?_)).congr rfl
  simp [codeEmitAct, ← wrote_goto', errorEnd_goto]

section OpenWriter

variable {s : State} {w : PortNum} (hw : WriterOk (s.writer w)) (ho : (s.writer w).opened = true)
include hw ho

/-- CODE_EMIT where every byte it completes can be pushed, in terms of the bits written (R193, R194). -/
theorem codeEmit_written {v : Byte} (hs : Starts (.codeEmit w v) s) (hd : s.dictValid = true) {code : Bits}
    (hc : s.dict.code v = some code) (ha : (s.sink w).avail = true ∨ (s.writer w).n.val + code.length < 8) :
    EndsAfter (.codeEmit w v) (max 1 ((fullBytes (s.written w ++ code)).length - (s.sink w).data.length)) s
      (normalEnd (s.wrote w (s.written w ++ code))) := by
  have h := codeEmit_trace w v s hs.pos hd hc (s.written w) (by rwa [written_length_mod])
  rw [← eq_wrote s w hw ho, pushesTo_written] at h
  exact codeEmit_ends hs.running h rfl

theorem exec_codeEmit_refused {v : Byte} (hp : s.pos = .start) (hd : s.dictValid = true) {code : Bits}
    (hc : s.dict.code v = some code) (ha : (s.sink w).avail = false) (hl : 8 ≤ (s.writer w).n.val + code.length) :
    exec (.codeEmit w v) s = .next (errorEnd .sinkUnavailable
      (s.wrote w (s.written w ++ code.take (7 - (s.writer w).n.val)))) := by
  have h := codeEmit_trace_refused w v s hp hd hc (s.written w) ha (by rwa [written_length_mod])
  rw [← eq_wrote s w hw ho, written_length_mod] at h
  exact exec_codeEmit_of_trace (Nat.le_refl 1) h

theorem exec_codeEmit_refused_at (v : Byte) {left : Bits} (ha : (s.sink w).avail = false)
    (hl : 8 ≤ (s.writer w).n.val + left.length) :
    exec (.codeEmit w v) (s.goto (.emit left)) = .next (errorEnd .sinkUnavailable
      (s.wrote w (s.written w ++ left.take (7 - (s.writer w).n.val)))) := by
  have h := codeEmit_trace_refused_at w v s ha left (s.written w) (by rwa [written_length_mod])
  rw [wrote_goto, ← eq_wrote s w hw ho, written_length_mod] at h
  exact exec_codeEmit_of_trace (Nat.le_refl 1) h

end OpenWriter

/-- Settles O35: the bits written grow by the code, or by its bits before the one that completes a byte. -/
theorem codeEmitWritesTheCode : Obligations.CodeEmitWritesTheCode := by
  refine ⟨fun v => ⟨decodeCmd_codeEmit .p0 v, decodeCmd_codeEmit .p1 v⟩, fun w v s hs hw => ⟨fun hc => ?_,
    fun ho => ⟨fun hd => ?_, fun hd hn => ?_, fun code hd hc => ⟨fun ha => ?_, fun ha hl => ?_⟩⟩,
    fun left ho ha hl => ?_⟩⟩
  · exact exec_codeEmit_of_trace (Nat.zero_le 1) (.ended (codeEmitAct_notOpen hs.pos hc))
  · exact exec_codeEmit_of_trace (Nat.zero_le 1) (.ended (codeEmitAct_noDict hs.pos ho hd))
  · exact exec_codeEmit_of_trace (Nat.zero_le 1) (.ended (codeEmitAct_noCode hs.pos ho hd hn))
  · refine ⟨writerAt (s.written w ++ code), fullBytes (s.written w ++ code), ?_, rfl, writerAt_ok _, ?_⟩
    · rw [← wrote_eq_set]; exact codeEmit_written hw ho hs hd hc ha
    · rw [← wrote_eq_set, written_wrote]
  · exact exec_refused_writer hw ho (exec_codeEmit_refused hw ho hs.pos hd hc ha hl)
  · exact exec_refused_writer hw ho (exec_codeEmit_refused_at hw ho v ha hl)

/-! ## TREE_DESER -/

theorem treeDeserAct_notOpen {p : PortNum} {s : State} (hp : s.pos = .start) (hc : (s.reader p).opened = false) :
    treeDeserAct p s = .ended (errorEnd .notOpen s) := by simp [treeDeserAct, hp, hc]
theorem treeDeserAct_start {p : PortNum} {s : State} (hp : s.pos = .start) (ho : (s.reader p).opened = true) :
    treeDeserAct p s = .work ((invalidate s).goto (.desNode [] 0)) := by simp [treeDeserAct, hp, ho]
theorem treeDeserAct_raised (p : PortNum) (s : State) (e : Error) :
    treeDeserAct p (s.goto (.raised e)) = .ended (errorEnd e s) := rfl

@[simp] theorem invalidate_unread (s : State) (p : PortNum) : (invalidate s).unread p = s.unread p := by
  cases p <;> rfl
@[simp] theorem invalidate_buffered (s : State) (p : PortNum) : (invalidate s).buffered p = s.buffered p := by
  cases p <;> rfl
theorem invalidate_setReader (s : State) (p : PortNum) (x : Reader) :
    (invalidate s).setReader p x = invalidate (s.setReader p x) := by cases p <;> rfl

/-- Settles O30: the reader moves past ser(t), a Pull for each byte of it. -/
theorem treeDeserReadsATree : Obligations.TreeDeserReadsATree := by
  refine ⟨⟨rfl, rfl⟩, fun r s hs hr => ⟨fun hc => ?_, fun ho ha t rest hsize hu => ?_⟩⟩
  · exact exec_treeDeser_of_trace (Nat.zero_le 1) (.ended (treeDeserAct_notOpen hs.pos hc))
  · obtain ⟨m, hm, hd, -, hpos, hok, hleft⟩ := reader_reads hr ho hu
    have htrace := treeDeser_trace r s hs.pos ha m t rest hd hsize
    rw [← hm, ← storeTree_readAt, ← invalidate_readAt, pullsTo, ← hpos] at htrace
    exact ⟨_, treeDeser_ends hs.running htrace rfl, rfl, hok, hleft⟩

theorem readAt_zero {s : State} {r : PortNum} (h : s.reader r = { opened := true, pos := 0, buf := 0, cnt := 0 }) :
    s.readAt r 0 = s := by
  have hr : readerAt (s.source r).data 0 = s.reader r := by rw [h]; rfl
  rw [State.readAt, hr, setReader_self]

/-- The number of bits a reader has read, from its fields (R24). -/
theorem readerAt_bits (data : List Byte) (m : Nat) :
    8 * (readerAt data m).pos - (readerAt data m).cnt.val = m := by
  simp only [readerAt]; omega

/-- Settles O32: the stream begins with ser(t), which TREE_DESER reads to its end. -/
theorem treeStreamRoundTrip : Obligations.TreeStreamRoundTrip := by
  intro r s t extra hs hsize hsrc hr
  have hd : (bytesBits (s.source r).data).drop 0
      = t.ser ++ (List.replicate ((8 - t.ser.length % 8) % 8) false ++ bytesBits extra) := by
    rw [hsrc, List.drop_zero, bytesBits_append, HTree.stream, bytesBits_packBits, List.append_assoc]
  have htrace := treeDeser_trace r s hs.pos (by rw [hsrc]) 0 t _ hd hsize
  rw [readAt_zero hr, Nat.zero_add] at htrace
  refine ⟨_, _, treeDeser_ends hs.running htrace rfl, ?_, ?_, ?_, ?_⟩
  · simpa using hs.err
  · simp [storeTree]
  · simp [storeTree, dictOf]
  · simp [readerAt_bits]

/-- TREE_DESER from s ends with error e and no tree, its reader open with these bits unread (R190). -/
def DeserEnds (r : PortNum) (s : State) (e : Error) (left : Bits) : Prop :=
  ∃ x, EndsWithError (.treeDeser r) e s (invalidate (s.setReader r x))
    ∧ x.opened = true ∧ ReaderOk x (s.source r).data ∧ (s.setReader r x).unread r = left

/-- The engine, in u, is one micro-step from the end with error e, in which the reader of s gives up n more bits. -/
def RefusedAfter (p : PortNum) (e : Error) (n : Nat) (u s : State) : Prop :=
  ∃ x k, k ≤ 1 ∧ Trace (treeDeserAct p) u k (errorEnd e (s.setReader p x))
    ∧ x.opened = (s.reader p).opened ∧ ReaderOk x (s.source p).data
    ∧ (s.setReader p x).unread p = (s.unread p).drop n

section Refused

variable {p : PortNum} {e : Error} {s : State} (hr : ReaderOk (s.reader p) (s.source p).data)

include hr in
/-- At a node, when the buffered markers fit the store and no byte can be pulled after them (R189, R307). -/
theorem refusedAfter_raise {e₀ : Error} (he : inTree e₀ = e) (hpull : pull p s = .raise e₀ s) (fs : List Frame)
    {c : Nat} (hc : c + markerCount (s.buffered p) ≤ s.params.nodeCap) :
    RefusedAfter p e (markerCount (s.buffered p)) (s.goto (.desNode fs c)) s := by
  obtain ⟨x, hpath, ho, hok, hleft⟩ :=
    path_markers_raised (treeDeserAct_node p) (treeDeserAct_leaf p) _ s fs c rfl hpull hc
  rw [he] at hpath
  exact ⟨x, 1, Nat.le_refl 1, hpath.trace (.ended (treeDeserAct_raised p _ e)), ho, hok _ hr, hleft⟩

include hr in
/-- At a node, when a buffered marker begins a node too many (R189). -/
theorem refusedAfter_tooLarge (fs : List Frame) {c : Nat} (hc : c ≤ s.params.nodeCap)
    (hm : s.params.nodeCap < c + markerCount (s.buffered p)) :
    RefusedAfter p .treeTooLarge (s.params.nodeCap - c + 1) (s.goto (.desNode fs c)) s := by
  obtain ⟨x, hpath, ho, hok, hleft⟩ := path_markers_tooLarge (treeDeserAct_node p) _ s fs c rfl hc hm
  exact ⟨x, 0, Nat.zero_le 1, hpath.trace (.ended (treeDeserAct_raised p _ _)), ho, hok _ hr, hleft⟩

/-- From the start, the tree store already empty (R190). -/
theorem RefusedAfter.of_start {n : Nat} (hp : s.pos = .start) (ho : (s.reader p).opened = true)
    (h : RefusedAfter p e n ((invalidate s).goto (.desNode [] 0)) (invalidate s)) :
    RefusedAfter p e n s (invalidate s) := by
  obtain ⟨x, k, hk, htrace, hrest⟩ := h
  exact ⟨x, k, hk, .work (treeDeserAct_start hp ho) htrace, hrest⟩

theorem RefusedAfter.ends {n : Nat} {u : State} (h : RefusedAfter p e n u s) (ho : (s.reader p).opened = true) :
    ∃ x, exec (.treeDeser p) u = .next (errorEnd e (s.setReader p x)) ∧ x.opened = true
      ∧ ReaderOk x (s.source p).data ∧ (s.setReader p x).unread p = (s.unread p).drop n := by
  obtain ⟨x, k, hk, htrace, hx, hrest⟩ := h
  exact ⟨x, exec_treeDeser_of_trace hk htrace, hx.trans ho, hrest⟩

theorem RefusedAfter.ends_start {n : Nat} (h : RefusedAfter p e n s (invalidate s)) (ho : (s.reader p).opened = true) :
    ∃ x, exec (.treeDeser p) s = .next (errorEnd e (invalidate (s.setReader p x))) ∧ x.opened = true
      ∧ ReaderOk x (s.source p).data ∧ (s.setReader p x).unread p = (s.unread p).drop n := by
  have h := h.ends (by simpa using ho)
  simp only [invalidate_setReader, invalidate_unread, invalidate_source] at h
  exact h

theorem RefusedAfter.deserEnds {n : Nat} (h : RefusedAfter p e n s (invalidate s)) (ho : (s.reader p).opened = true)
    (hrun : s.running = some (.legal (.treeDeser p))) : DeserEnds p s e ((s.unread p).drop n) := by
  obtain ⟨x, hexec, hrest⟩ := h.ends_start ho
  exact ⟨x, ⟨1, .single hrun hexec rfl⟩, hrest⟩

end Refused

/-- A source whose next Pull raises: what Deserialize makes of the error (R62, R189). -/
theorem pull_raises {p : PortNum} {s : State} {e : Error}
    (h : (e = .sourceUnavailable ∧ (s.source p).avail = false ∧ (s.reader p).pos < (s.source p).data.length)
      ∨ (e = .truncatedTree ∧ (s.source p).data.length ≤ (s.reader p).pos)) :
    ∃ e₀, inTree e₀ = e ∧ pull p s = .raise e₀ s := by
  rcases h with ⟨rfl, ha, hl⟩ | ⟨rfl, hl⟩
  · exact ⟨_, rfl, pull_refused hl ha⟩
  · exact ⟨_, rfl, pull_exhausted hl⟩

/-- At a leaf's value, when no byte can be pulled (R189). -/
theorem exec_treeDeser_leaf_raise {p : PortNum} {s : State} {e₀ : Error} {fs : List Frame} {c : Nat}
    (hp : s.pos = .desLeaf fs c) (hpull : pull p s = .raise e₀ s) :
    exec (.treeDeser p) s = .next (errorEnd (inTree e₀) s) := by
  have hact := treeDeserAct_leaf p fs c s hp
  rw [desLeafAct, readByte_raise hpull] at hact
  exact exec_treeDeser_of_trace (Nat.le_refl 1) (.access hact (.ended (treeDeserAct_raised p s (inTree e₀))))

/-- Fewer than eight bits hold no leaf, so they are the markers of open nodes without a left subtree. -/
theorem framesBits_of_short {fs : List Frame} (h : (framesBits fs).length < 8) :
    framesBits fs = List.replicate (framesSize fs) true := by
  induction fs with
  | nil => rfl
  | cons f fs ih =>
    cases f with
    | wantLeft =>
      rw [framesBits, List.length_append] at h
      rw [framesBits, ih (by omega), framesSize_cons, Frame.size, Nat.add_comm, List.replicate_succ']
    | wantRight l =>
      have := l.ser_length
      have := l.leaves_pos
      rw [framesBits, List.length_append, List.length_cons] at h
      omega

theorem markerCount_replicate (n : Nat) (q : Bits) : markerCount (List.replicate n true ++ q) = n + markerCount q := by
  induction n with
  | zero => simp
  | succ n ih => rw [List.replicate_succ, List.cons_append, markerCount, ih]; omega

/-- The three bad streams of R189, after some open nodes fs: the bits end at a marker, or inside a leaf's value, or
begin a node too many. -/
inductive BadStream (cap : Nat) (fs : List Frame) : Bits → Error → Bits → Prop where
  | noMarker (h : framesSize fs ≤ cap) : BadStream cap fs [] .truncatedTree []
  | noValue {short : Bits} (hs : short.length < 8) (h : framesSize fs < cap) :
      BadStream cap fs (false :: short) .truncatedTree short
  | tooLarge {b : Bool} {rest : Bits} (h : framesSize fs = cap) : BadStream cap fs (b :: rest) .treeTooLarge rest

section OpenReader

variable {s : State} {r : PortNum} (hs : Starts (.treeDeser r) s) (hr : ReaderOk (s.reader r) (s.source r).data)
  (ho : (s.reader r).opened = true)
include hs hr ho

/-- A trace that has read the bits a leaves those after them unread. -/
theorem deserEnds_of_trace {e : Error} {a left : Bits} (hu : s.unread r = a ++ left)
    (h : ∀ m, (bytesBits (s.source r).data).drop m = a ++ left → m ≤ 8 * (s.source r).data.length →
      ∃ k, Trace (treeDeserAct r) (s.readAt r m) k (errorEnd e ((invalidate s).readAt r (m + a.length)))) :
    DeserEnds r s e left := by
  obtain ⟨m, hm, hd, hle, -, hok, hleft⟩ := reader_reads hr ho hu
  obtain ⟨k, htrace⟩ := h m hd hle
  rw [← hm, ← invalidate_readAt] at htrace
  exact ⟨_, ⟨_, treeDeser_ends hs.running htrace rfl⟩, rfl, hok, hleft⟩

/-- A bad stream on an available source. -/
theorem BadStream.ends_avail (ha : (s.source r).avail = true) {fs : List Frame} {tail left : Bits} {e : Error}
    (hb : BadStream s.params.nodeCap fs tail e left) (hu : s.unread r = framesBits fs ++ tail) :
    DeserEnds r s e left := by
  cases hb with
  | noMarker hc =>
    exact deserEnds_of_trace hs hr ho hu fun m hd hm =>
      treeDeser_trace_noMarker r s hs.pos ha m hm fs (by rw [hd, List.append_nil]) hc
  | noValue hshort hc =>
    refine deserEnds_of_trace hs hr ho (a := framesBits fs ++ [false]) (by rw [hu, List.append_assoc]; rfl)
      fun m hd hm => ?_
    rw [List.append_assoc] at hd
    simpa [Nat.add_assoc] using treeDeser_trace_noValue r s hs.pos ha m hm fs _ hd hshort hc
  | @tooLarge b _ hc =>
    refine deserEnds_of_trace hs hr ho (a := framesBits fs ++ [b]) (by rw [hu, List.append_assoc]; rfl)
      fun m hd hm => ?_
    rw [List.append_assoc] at hd
    simpa [Nat.add_assoc] using treeDeser_trace_tooLarge r s hs.pos ha m fs b _ hd hc

/-- A bad stream with no byte left to pull: its bits are all buffered. -/
theorem BadStream.ends_exhausted (hl : (s.source r).data.length ≤ (s.reader r).pos) {fs : List Frame}
    {tail left : Bits} {e : Error} (hb : BadStream s.params.nodeCap fs tail e left)
    (hu : s.unread r = framesBits fs ++ tail) : DeserEnds r s e left := by
  have hlen := unread_length s r
  have hcnt := (s.reader r).cnt.isLt
  have hbuf : s.buffered r = s.unread r := by
    rw [unread_buffered, List.drop_eq_nil_of_le hl, bytesBits_nil, List.append_nil]
  have hframes : framesBits fs = List.replicate (framesSize fs) true :=
    framesBits_of_short (by rw [hu, List.length_append] at hlen; omega)
  have hmarkers : markerCount ((invalidate s).buffered r) = framesSize fs + markerCount tail := by
    rw [invalidate_buffered, hbuf, hu, hframes, markerCount_replicate]
  have hdrop : ∀ n, (s.unread r).drop (framesSize fs + n) = tail.drop n := fun n => by
    rw [hu, hframes, ← List.drop_drop, List.drop_left' (List.length_replicate ..)]
  have hri : ReaderOk ((invalidate s).reader r) ((invalidate s).source r).data := by simpa using hr
  have truncated : framesSize fs + markerCount tail ≤ s.params.nodeCap →
      DeserEnds r s .truncatedTree (tail.drop (markerCount tail)) := fun hc => by
    have h := refusedAfter_raise hri rfl (pull_exhausted (by simpa using hl)) [] (c := 0)
      (by rw [hmarkers, Nat.zero_add]; exact hc)
    rw [hmarkers] at h
    have hends := (h.of_start hs.pos ho).deserEnds ho hs.running
    rwa [hdrop] at hends
  cases hb with
  | noMarker hc => exact truncated hc
  | noValue _ hc => exact truncated hc
  | @tooLarge b _ hc =>
    have hpos : 1 ≤ markerCount (b :: left) := by cases b <;> simp [markerCount]
    have h := refusedAfter_tooLarge hri [] (Nat.zero_le _) (by rw [hmarkers, invalidate_params]; omega)
    rw [invalidate_params, Nat.sub_zero, ← hc] at h
    have hends := (h.of_start hs.pos ho).deserEnds ho hs.running
    rwa [hdrop 1] at hends

end OpenReader

/-- Settles O31: a bad stream by its three kinds, and the buffered markers at any node. -/
theorem badTreeStreamsAreRefused : Obligations.BadTreeStreamsAreRefused := by
  refine ⟨fun r s hs hr ho ha fs tail hu => ?_,
    fun cap stream => stream_cases cap _ [] stream (Nat.le_refl _) (Nat.zero_le _),
    fun r s _ hr ho => ⟨fun hp hm => ?_, fun fs c hp hc hm => ?_, fun e he => ⟨fun hp hm => ?_, fun fs c hp hm => ?_,
      fun fs c hp => ?_⟩⟩⟩
  · have ends {e : Error} {left : Bits} (hb : BadStream s.params.nodeCap fs tail e left) : DeserEnds r s e left :=
      ha.elim (fun ha => hb.ends_avail hs hr ho ha hu) fun hl => hb.ends_exhausted hs hr ho hl hu
    refine ⟨?_, ?_, ?_⟩
    · rintro rfl hc; exact ends (.noMarker hc)
    · rintro short rfl hshort hc; exact ends (.noValue hshort hc)
    · rintro b rest rfl hc; exact ends (.tooLarge hc)
  · exact ((refusedAfter_tooLarge (s := invalidate s) (by simpa using hr) [] (Nat.zero_le _)
      (by simpa using hm)).of_start hp ho).ends_start ho
  · exact goto_self hp ▸ (refusedAfter_tooLarge hr fs hc hm).ends ho
  · obtain ⟨e₀, he₀, hpull⟩ := pull_raises (s := invalidate s) (by simpa using he)
    exact ((refusedAfter_raise (by simpa using hr) he₀ hpull [] (by simpa using hm)).of_start hp ho).ends_start ho
  · obtain ⟨e₀, he₀, hpull⟩ := pull_raises he
    exact goto_self hp ▸ (refusedAfter_raise hr he₀ hpull fs hm).ends ho
  · obtain ⟨e₀, rfl, hpull⟩ := pull_raises he
    exact exec_treeDeser_leaf_raise hp hpull

/-! ## ENCODE -/

theorem buildTree_countsOf {input : List Byte} (h : input ≠ []) : ∃ t, buildTree (countsOf input) = some t := by
  obtain ⟨v, rest, rfl⟩ := List.exists_cons_of_ne_nil h
  exact buildTree_some ⟨v, by simp [countsOf_count]⟩

/-- Settles O42: BuildTree reads FREQ alone, and the tables and streams of an ENCODE are functions of its input. -/
theorem encodeIsDeterministic : Obligations.EncodeIsDeterministic := by
  refine ⟨fun s s' t t' hf hv h h' => ?_, fun s s' hs hs' h0 h1 h0' h1' ha hsrc hk0 hk1 hk0' hk1' hne hlen hp => ?_⟩
  · obtain ⟨u, hu⟩ := buildTree_some hv
    cases (exec_treeBuild_some hu).symm.trans h
    cases (exec_treeBuild_some (hf ▸ hu)).symm.trans h'
    rfl
  · obtain ⟨t, ht⟩ := buildTree_countsOf hne
    have htrace := encode_trace s hs.pos h0 h1 ha hk0 hk1 _ rfl hne hlen ht
    have htrace' := encode_trace s' hs'.pos h0' h1' (by rw [hsrc, ha]) hk0' hk1' s.src0.data (by rw [hsrc]) hne
      (by rw [hp]; exact hlen) ht
    exact ⟨_, _, _, encode_ends hs.running htrace rfl, encode_ends hs'.running htrace' rfl, rfl, rfl, rfl, rfl, rfl,
      rfl⟩

end Sys2Proof.Machine
end

section
/-! PROOFS. The statements about ENCODE and DECODE (spec/42_codec.md). A whole command is the trace of its engine from
acceptance to its end; the run of the host puts two of them together. -/

namespace Sys2Proof.Machine

/-! ## The ports held -/

/-- Settles O59: a move reaches a position only with the ports it holds opened, and the host and the other commands
leave a running command's ports alone. -/
theorem stepKeepsThePortsHeld : Obligations.StepKeepsThePortsHeld := by
  intro s t hs h
  exact step_keeps (fun _ _ hs => hs) (fun _ _ h => h.portsHeld) (fun _ _ _ h _ => .of_ended h.running)
    (fun _ _ _ hr h => h.portsHeld hr) hs h

/-! ## The start of a command -/

theorem encodeAct_start {s : State} (hp : s.pos = .start) : encodeAct s = encodeStart s := by simp [encodeAct, hp]
theorem decodeAct_start {s : State} (hp : s.pos = .start) : decodeAct s = decodeStart s := by simp [decodeAct, hp]

/-- ENCODE with no access left ends in one micro-step (spec/20_memory.md R72). -/
theorem exec_encode_of_trace {s t : State} (h : Trace encodeAct s 0 t) : exec .encode s = .next t :=
  congrArg Host.Outcome.next (microStep_last encode_bounded h (Nat.zero_le 1))
theorem exec_decode_of_trace {s t : State} (h : Trace decodeAct s 0 t) : exec .decode s = .next t :=
  congrArg Host.Outcome.next (microStep_last decode_bounded h (Nat.zero_le 1))

/-- Settles O38: the start check comes before any other statement and goes straight to the error end. -/
theorem codecStartChecks : Obligations.CodecStartChecks := by
  refine ⟨fun s hs ho => exec_encode_of_trace (.ended ?_), fun s hs ho => exec_decode_of_trace (.ended ?_)⟩
  · rw [encodeAct_start hs.pos, encodeStart, if_pos (by simpa using ho)]
  · rw [decodeAct_start hs.pos, decodeStart, if_pos ho]

/-! ## ENCODE -/

/-- ENCODE up to the loop head of its first pass (R250 to R252). -/
theorem encodeAct_begins {s : State} (hp : s.pos = .start) (h0 : s.w0.opened = false) (h1 : s.w1.opened = false)
    (ha : s.src0.avail = true) :
    encodeAct s = .opens ((clearFreq (s.encodeBegun.setReader .p0 .fresh)).goto .count) := by
  rw [encodeAct_start hp, encodeStart, if_neg (by simp [h0, h1]), openR, if_pos (by exact ha)]
  rfl

/-- ENCODE at the end of a first pass that has counted nothing (R253). -/
theorem encodeAct_empty {s : State} (hp : s.pos = .count) (he : atEnd .p0 s = true) (ht : s.total = 0) :
    encodeAct s = .ended (normalEnd { s.setReader .p0 .closed with empty := true }) := by
  rw [encodeAct_count s hp, countAct, if_pos he, encodeCounted, if_pos (by exact ht)]
  rfl

/-- Settles O37: the loop of the first pass is at its end when it begins. -/
theorem encodeOfEmptyInput : Obligations.EncodeOfEmptyInput := by
  intro s hs h0 h1 hsrc
  have hend : atEnd .p0 ((clearFreq (s.encodeBegun.setReader .p0 .fresh)).goto .count) = true := by
    simp [atEnd, hsrc, Reader.fresh, Reader.closed]
  exact ⟨_, exec_encode_of_trace (.opens (encodeAct_begins hs.pos h0 h1 (by rw [hsrc]))
    (.ended (encodeAct_empty rfl hend rfl))), rfl⟩

/-- The payload stream's length (R260). -/
theorem payloadStream_length (code : Byte → Bits) (input : List Byte) :
    (payloadStream code input).length = (codesOf code input).length / 8 + 1 := by
  rw [payloadStream, packBits_length, payloadBits_length]
  omega

/-- Settles O36: the trace of ENCODE, whose counts are those of the input and whose accesses are its micro-steps. -/
theorem encodeWritesBothStreams : Obligations.EncodeWritesBothStreams := by
  intro s input hs h0 h1 hsrc hk0 hk1 hne hlen
  obtain ⟨t, ht⟩ := buildTree_countsOf hne
  have htrace := encode_trace s hs.pos h0 h1 (by rw [hsrc]) hk0 hk1 input (by rw [hsrc]) hne hlen ht
  have hends := encode_ends hs.running htrace rfl
  rw [Nat.max_eq_right (by rw [payloadStream_length]; omega)] at hends
  exact ⟨countsOf input, t, _, countsOf_count input, ht, hends, rfl, payloadStream_length _ _⟩

/-! ## DECODE -/

/-- Settles O39: the trace of DECODE, whose accesses are its micro-steps. -/
theorem decodeWritesTheLeavesReached : Obligations.DecodeWritesTheLeavesReached := by
  intro s l r extra ones leaves tail u v hs h0 ha ha1 hk hsize hd hd1 hleaves htail
  have htrace := decode_trace s hs.pos h0 ha ha1 hk hs.partialCode l r extra hd hsize ones leaves tail hd1 hleaves
    ⟨u, v, htail⟩
  have hends := decode_ends hs.running htrace rfl
  rwa [Nat.max_eq_right (by simp only [HTree.ser, List.length_cons]; omega)] at hends

/-- DECODE from its first node to an error of Deserialize, at the three places a bad stream has it (R189). -/
theorem BadStream.path_decode {s : State} (ha : s.src0.avail = true) {fs : List Frame} {tail left : Bits} {e : Error}
    (hb : BadStream s.params.nodeCap fs tail e left) (hd : bytesBits s.src0.data = framesBits fs ++ tail) :
    ∃ k m, Path decodeAct ((s.decodeOpen.goto (.desNode [] 0)).readAt .p0 0) k
      ((s.decodeOpen.goto (.raised e)).readAt .p0 m) := by
  have hcap : framesSize fs ≤ s.params.nodeCap := by cases hb <;> omega
  have hframes := path_frames decodeAct_node decodeAct_leaf s.decodeOpen (by exact ha) fs 0 tail (by exact hd) hcap
  have hl := congrArg List.length hd
  rw [bytesBits_length, List.length_append] at hl
  have hrest : (bytesBits s.src0.data).drop (0 + (framesBits fs).length) = tail := by
    rw [hd, Nat.zero_add, List.drop_left]
  cases hb with
  | noMarker =>
    exact ⟨_, _, hframes.trans (path_noMarker decodeAct_node s.decodeOpen fs (by
      show _ = 8 * s.src0.data.length
      rw [hl, List.length_nil]; omega))⟩
  | @noValue short hs hc =>
    have hmarker := path_marker decodeAct_node s.decodeOpen (by exact ha) fs (by exact hrest) (by exact hc)
    refine ⟨_, _, (hframes.trans hmarker).trans (path_noValue decodeAct_leaf s.decodeOpen fs (by
      show 8 * s.src0.data.length < _
      rw [hl, List.length_cons]; omega))⟩
  | tooLarge hc =>
    exact ⟨_, _, hframes.trans (path_tooLarge decodeAct_node s.decodeOpen (by exact ha) fs (by exact hrest)
      (show s.params.nodeCap < framesSize fs + 1 by omega))⟩

/-- Settles O40: each stream's path to its error, then the error path. -/
theorem decodeRefusesLeafTreesAndUnendedPadding : Obligations.DecodeRefusesLeafTreesAndUnendedPadding := by
  intro s hs h0 ha hk
  refine ⟨fun v extra hcap hd => ?_, fun l r extra hsize ha1 hd hones => ?_, fun fs tail hd => ?_⟩
  · have htwo : max 1 (pullsTo 0 (HTree.leaf v).ser.length) = 2 := by simp [pullsTo, HTree.ser, byteBits_length]
    exact htwo ▸ decode_ends hs.running (decode_trace_leaf s hs.pos h0 ha hk hcap v extra hd) rfl
  · exact ⟨_, decode_ends hs.running (decode_trace_padding s hs.pos h0 ha ha1 hk l r extra hd hsize hones) rfl⟩
  · have ends {e : Error} {left : Bits} (hb : BadStream s.params.nodeCap fs tail e left) :
        EndsWithError .decode e s { s with
          r0 := Reader.closed, r1 := Reader.closed, w0 := Writer.closed
          tree := none, nodes := 0, dictValid := false, snk0 := { data := [], avail := true } } := by
      obtain ⟨k, m, hpath⟩ := hb.path_decode ha hd
      exact decode_badTree s hs.running hs.pos h0 ha hk hpath
    refine ⟨?_, ?_, ?_⟩
    · rintro rfl hc; exact ends (.noMarker hc)
    · rintro short rfl hshort hc; exact ends (.noValue hshort hc)
    · rintro b rest rfl hc; exact ends (.tooLarge hc)

/-! ## The phases of a running command -/

@[simp] theorem writeBit_phase (p : PortNum) (b : Bool) (s : State) : (writeBit p b s).state.phase = s.phase := by
  obtain ⟨e, h⟩ | ⟨d, w, -, h⟩ := writeBit_cases p b s <;> simp [h, Res.state]
@[simp] theorem writeByte_phase (p : PortNum) (v : Byte) (s : State) : (writeByte p v s).state.phase = s.phase := by
  obtain ⟨e, h⟩ | ⟨d, w, -, -, h⟩ := writeByte_cases p v s <;> simp [h, Res.state]
@[simp] theorem openR_phase (p : PortNum) (s : State) : (openR p s).state.phase = s.phase := by
  obtain ⟨e, h⟩ | h := openR_cases p s <;> simp [h, Res.state]
@[simp] theorem openW_phase (p : PortNum) (s : State) : (openW p s).state.phase = s.phase := by
  obtain ⟨e, h⟩ | h := openW_cases p s <;> simp [h, Res.state]
@[simp] theorem closeW_phase (p : PortNum) (s : State) : (closeW p s).state.phase = s.phase := by
  obtain ⟨d, w, -, h | ⟨-, e, h⟩⟩ := closeW_cases p s <;> simp [h, Res.state]
@[simp] theorem closeR_phase (p : PortNum) (s : State) : (closeR p s).phase = s.phase := setReader_phase s p _
@[simp] theorem Res.goto_phase {α : Type} (q : Pos) (r : Res α) : (r.goto q).phase = r.state.phase := by cases r <;> rfl

/-- An act in s ends the command, or leaves it in the phase of s or a later one (spec/10_state.md R39). -/
def Act.Advances (s : State) : Act → Prop
  | .work t => s.phase.code.toNat ≤ t.phase.code.toNat
  | .opens t => s.phase.code.toNat ≤ t.phase.code.toNat
  | .access t => s.phase.code.toNat ≤ t.phase.code.toNat
  | .ended t => t.running = none

theorem Act.advances_of {s t : State} (b : Bool) (h : s.phase.code.toNat ≤ t.phase.code.toNat) :
    (Act.of b t).Advances s := by
  cases b <;> exact h

/-- An act that leaves the phase as it is. -/
theorem Act.advances_of_eq {s t : State} (b : Bool) (h : t.phase = s.phase) : (Act.of b t).Advances s :=
  Act.advances_of b (by rw [h])

theorem advances_countAct {p : PortNum} {after : State → Act} {s : State} (ha : (after s).Advances s) :
    (countAct p after s).Advances s := by
  unfold countAct
  split
  · exact ha
  · obtain ⟨e, h⟩ | ⟨v, r, -, h⟩ := readByte_cases p s <;> simp only [h]
    · exact Act.advances_of_eq true rfl
    · refine Act.advances_of_eq true ?_
      unfold countByte
      split <;> simp

theorem advances_serAct {p : PortNum} {todo : List SerItem} {after : State → Act} {s : State}
    (ha : todo = [] → (after s).Advances s) : (serAct p todo after s).Advances s := by
  unfold serAct
  split
  · exact ha rfl
  · exact Act.advances_of_eq _ (by simp)
  · exact Act.advances_of_eq _ (by simp)
  · exact Act.advances_of_eq true (by simp)

theorem advances_emitAct {p : PortNum} {bits : Bits} {after : State → Act} {s : State}
    (ha : bits = [] → (after s).Advances s) : (emitAct p bits after s).Advances s := by
  unfold emitAct
  split
  · exact ha rfl
  · exact Act.advances_of_eq _ (by simp)

theorem advances_desNodeAct (p : PortNum) (fs : List Frame) (c : Nat) (s : State) :
    (desNodeAct p fs c s).Advances s := by
  refine Act.advances_of_eq _ ?_
  obtain ⟨e, h⟩ | ⟨b, r, -, h⟩ := readBit_cases p s <;> simp only [h]
  · rfl
  · split
    · simp
    · split <;> simp

theorem advances_desLeafAct (p : PortNum) (fs : List Frame) (c : Nat) (s : State) :
    (desLeafAct p fs c s).Advances s := by
  refine Act.advances_of_eq true ?_
  obtain ⟨e, h⟩ | ⟨v, r, -, h⟩ := readByte_cases p s <;> simp only [h]
  · rfl
  · split <;> simp

theorem advances_closeWriter (p : PortNum) (q : Pos) (s : State) : (closeWriter p q s).Advances s :=
  Act.advances_of_eq _ (by simp)

theorem advances_releaseWriter (p : PortNum) (q : Pos) (s : State) : (releaseWriter p q s).Advances s := by
  refine Act.advances_of_eq _ ?_
  obtain ⟨d, w, -, h | ⟨-, e, h⟩⟩ := closeW_cases p s <;> simp [h]

/-! ### ENCODE -/

theorem advances_encodeStart {s : State} (h : s.phase = .eCount) : (encodeStart s).Advances s := by
  unfold encodeStart
  split
  · rfl
  · obtain ⟨e, ho⟩ | ho := openR_cases .p0 s.encodeBegun <;> simp only [State.encodeBegun] at ho <;> simp only [ho] <;>
      simp [Act.Advances, h]

theorem advances_encodeCounted {s : State} (h : s.phase = .eCount) : (encodeCounted s).Advances s := by
  unfold encodeCounted
  dsimp only
  split
  · rfl
  · split <;> simp [Act.Advances, h, Phase.code]

theorem advances_encodeSerialized {s : State} (h : s.phase = .eSerTree) : (encodeSerialized s).Advances s := by
  simp [encodeSerialized, Act.Advances, h, Phase.code]

theorem advances_encodePad {bits : Bits} {s : State} (h : s.phase = .ePad) : (encodePad bits s).Advances s := by
  unfold encodePad
  split
  · exact Act.advances_of_eq _ (by simp)
  · simp [Act.Advances, h, Phase.code]

theorem advances_encodeNext {s : State} (h : s.phase = .eEmit) : (encodeNext s).Advances s := by
  unfold encodeNext
  split
  · simp [Act.Advances, h, Phase.code]
  · refine Act.advances_of_eq true ?_
    obtain ⟨e, hr⟩ | ⟨v, r, -, hr⟩ := readByte_cases .p0 s <;> simp only [hr]
    · rfl
    · split <;> simp

theorem advances_encodeAct {s : State} (h : AtPhase (.legal .encode) s.pos s.phase) : (encodeAct s).Advances s := by
  cases hp : s.pos <;> rw [hp] at h <;> simp only [encodeAct, hp]
  case start => exact advances_encodeStart h
  case count => exact advances_countAct (advances_encodeCounted h)
  case ser => exact advances_serAct fun _ => advances_encodeSerialized h
  case pad => exact advances_encodePad h
  case emit => exact advances_emitAct fun _ => advances_encodeNext h
  case closeW0 | closeW1 => exact advances_closeWriter ..
  case raised => exact Act.advances_of_eq false (by simp)
  case relW0 | relW1 => exact advances_releaseWriter ..
  case finish | errEnd => rfl
  all_goals exact h.elim

/-! ### DECODE -/

theorem advances_decodeStart {s : State} (h : s.phase = .dTree) : (decodeStart s).Advances s := by
  unfold decodeStart
  split
  · rfl
  · obtain ⟨e, ho⟩ | ho := openW_cases .p0 (s.inPhase .dTree) <;> simp only [ho]
    · exact Act.advances_of_eq false h.symm
    · obtain ⟨e, hr⟩ | hr := openR_cases .p0 ((s.inPhase .dTree).put .p0 [] .fresh) <;> simp only [hr] <;>
        exact Act.advances_of_eq false h.symm

theorem advances_decodeTreeRead {t : HTree} {c : Nat} {s : State} (h : s.phase = .dTree) :
    (decodeTreeRead t c s).Advances s := by
  unfold decodeTreeRead
  dsimp only
  split
  · exact Act.advances_of_eq false (by simp)
  · simp [Act.Advances, h, Phase.code]

theorem advances_decodeSkip {s : State} (h : s.phase = .dPad) : (decodeSkip s).Advances s := by
  unfold decodeSkip
  split
  · exact Act.advances_of_eq false rfl
  · refine Act.advances_of _ ?_
    obtain ⟨e, hr⟩ | ⟨b, r, -, hr⟩ := readBit_cases .p1 s <;> simp only [hr]
    · exact Nat.le_refl _
    · cases b <;> simp [h, Phase.code]

theorem moveCursor_phase (b : Bool) (s : State) : (moveCursor b s).phase = s.phase := by
  unfold moveCursor
  dsimp only
  split <;> rfl

theorem advances_decodeWalk {s : State} (h : s.phase = .dDecode) : (decodeWalk s).Advances s := by
  unfold decodeWalk
  split
  · simp [Act.Advances, h, Phase.code]
  · refine Act.advances_of_eq _ ?_
    obtain ⟨e, hr⟩ | ⟨b, r, -, hr⟩ := readBit_cases .p1 s <;> simp only [hr]
    · rfl
    · simp [moveCursor_phase]

theorem advances_decodeWrite (v : Byte) (s : State) : (decodeWrite v s).Advances s := by
  refine Act.advances_of_eq true ?_
  obtain ⟨e, h⟩ | ⟨d, w, -, -, h⟩ := writeByte_cases .p0 v s <;> simp [h]

theorem advances_decodeAct {s : State} (h : AtPhase (.legal .decode) s.pos s.phase) : (decodeAct s).Advances s := by
  cases hp : s.pos <;> rw [hp] at h <;> simp only [decodeAct, hp]
  case start => exact advances_decodeStart h
  case desNode => exact advances_desNodeAct ..
  case desLeaf => exact advances_desLeafAct ..
  case desDone => exact advances_decodeTreeRead h
  case skip => exact advances_decodeSkip h
  case walk => exact advances_decodeWalk h
  case write => exact advances_decodeWrite ..
  case dClose => exact Act.advances_of_eq _ (by simp)
  case raised => exact Act.advances_of_eq false (by simp)
  case relW0 => exact advances_releaseWriter ..
  case finish | errEnd => rfl
  all_goals exact h.elim

/-- Where every act of a command advances, a micro-step of it that leaves it running does. -/
theorem microStep_advances {i : Instr} {next : State → Act} (hi : actOf i = some next)
    (hadv : ∀ u, AtPhase (.legal i) u.pos u.phase → (next u).Advances u) {s t : State}
    (hr : s.running = some (.legal i)) (hs : PhaseOk s) (h : exec i s = .next t) (ht : t.running = some (.legal i)) :
    s.phase.code.toNat ≤ t.phase.code.toNat := by
  obtain ⟨size, hb, he⟩ := actOf_bounded hi
  rw [he] at h
  cases h
  refine microStep_inv
    (P := fun u => u.running = some (.legal i) ∧ PhaseOk u ∧ s.phase.code.toNat ≤ u.phase.code.toNat)
    (Q := fun u => u.running = some (.legal i) → s.phase.code.toNat ≤ u.phase.code.toNat)
    hb (fun u ⟨hur, hu, hle⟩ => ?_) ⟨hr, hs, Nat.le_refl _⟩ ht
  have hphase := (move_of_actOf hi u).phaseOk hur hu
  have hadvance := hadv u (hu _ hur)
  have hrun := keeps_running (e := effectsOf i) (by cases i <;> rfl) (actOf_keeps hi) u
  cases hn : next u <;> rw [hn] at hphase hadvance hrun
  case work v => exact ⟨(hrun v (.inl rfl)).trans hur, hphase, hle.trans hadvance⟩
  case opens v => exact ⟨⟨(hrun v (.inl rfl)).trans hur, hphase, hle.trans hadvance⟩, fun _ => hle.trans hadvance⟩
  case access v => exact ⟨⟨(hrun v (.inr rfl)).trans hur, hphase, hle.trans hadvance⟩, fun _ => hle.trans hadvance⟩
  case ended v => exact fun hv => by cases hv.symm.trans hadvance

/-- Settles O51: each position is in its phase, and what the engine does there leaves it in that phase or goes on to
a later one. -/
theorem codecPhasesAdvance : Obligations.CodecPhasesAdvance := by
  rintro s t i (rfl | rfl) hr hs h ht <;> rw [engineStep_running hr] at h
  · exact microStep_advances rfl (fun _ => advances_encodeAct) hr hs h ht
  · exact microStep_advances rfl (fun _ => advances_decodeAct) hr hs h ht

/-! ## The round trip -/

/-- A byte of the input has a code in the dictionary of the tree built from the input's counts (R254, R256). -/
theorem code_of_mem_input {input : List Byte} {f : FreqTable} {t : HTree} (hf : ∀ v : Byte, f.count v = input.count v)
    (ht : buildTree f = some t) {v : Byte} (hv : v ∈ input) : ∃ c, (buildDict t).code v = some c := by
  obtain ⟨-, -, hleaves, -⟩ := buildTree_spec ht
  have hcount : f.count v ≠ 0 := by rw [hf]; exact (List.count_pos_iff.2 hv).ne'
  exact Option.isSome_iff_exists.1 ((buildDict_dom t v).2 (hleaves v hcount))

/-- The codes of some bytes with those bytes, as DECODE meets them (R275). -/
def codedLeaves (d : Dict) (input : List Byte) : List (Bits × Byte) := input.map fun v => (d.codeOf v, v)

theorem codedLeaves_codes (d : Dict) (input : List Byte) :
    (codedLeaves d input).flatMap Prod.fst = codesOf d.codeOf input := List.flatMap_map ..

theorem codedLeaves_values (d : Dict) (input : List Byte) : (codedLeaves d input).map Prod.snd = input := by
  rw [codedLeaves, List.map_map]
  exact List.map_id input

/-- Each code leads to the leaf of its byte (R191). -/
theorem codedLeaves_node {t : HTree} {input : List Byte} (h : ∀ v ∈ input, ∃ c, (buildDict t).code v = some c) :
    ∀ e ∈ codedLeaves (buildDict t) input, t.node e.1 = some (.leaf e.2) := by
  intro e he
  obtain ⟨v, hv, rfl⟩ := List.mem_map.1 he
  obtain ⟨c, hc⟩ := h v hv
  rw [Dict.codeOf, hc]
  exact buildDict_node hc

/-- The tree stream begins with ser(t) (R102). -/
theorem bytesBits_stream (t : HTree) : ∃ extra, bytesBits t.stream = t.ser ++ extra := ⟨_, bytesBits_packBits _⟩

/-- The payload stream's bits: its padding, a zero and the codes, with nothing after them (R104). -/
theorem bytesBits_payloadStream (code : Byte → Bits) (input : List Byte) :
    bytesBits (payloadStream code input)
      = List.replicate (padCount (codesOf code input).length - 1) true ++ false :: codesOf code input := by
  have hlen := payloadBits_length code input
  rw [payloadStream, bytesBits_packBits, show (8 - (payloadBits code input).length % 8) % 8 = 0 by omega,
    List.replicate_zero, List.append_nil, payloadBits, padding, List.append_assoc]
  rfl

/-- DECODE of the streams ENCODE writes (R279): SNK0 holds the input and PARTIAL is clear. -/
theorem decode_of_encoded {s : State} {input : List Byte} {f : FreqTable} {t : HTree}
    (hf : ∀ v : Byte, f.count v = input.count v) (ht : buildTree f = some t) (hs : Starts .decode s)
    (h0 : s.w0.opened = false) (hcap : 511 ≤ s.params.nodeCap) (hsrc0 : s.src0 = { data := t.stream, avail := true })
    (hsrc1 : s.src1 = { data := payloadStream (buildDict t).codeOf input, avail := true }) (hk : s.snk0.avail = true) :
    ∃ k u, EndsAfter .decode k s u ∧ u.done = true ∧ u.err = false ∧ u.partialCode = false ∧ u.snk0.data = input := by
  obtain ⟨hroot, -, -, hsize⟩ := buildTree_spec ht
  obtain ⟨extra, hstream⟩ := bytesBits_stream t
  have hnode := codedLeaves_node fun v hv => code_of_mem_input hf ht hv
  cases t with
  | leaf v => cases hroot
  | internal l r =>
    have hends := decodeWritesTheLeavesReached s l r extra _ (codedLeaves _ input) [] l r hs h0 (by rw [hsrc0])
      (by rw [hsrc1]) hk (hsize.trans hcap) (by rw [hsrc0]; exact hstream)
      (by rw [hsrc1, codedLeaves_codes, List.append_nil]; exact bytesBits_payloadStream _ input) hnode rfl
    exact ⟨_, _, hends, rfl, hs.err, rfl, codedLeaves_values _ input⟩

/-- While no command is BUSY a source whose reader is closed is not in use (spec/20_memory.md R75). -/
theorem not_inUse_of_idle {p : PortNum} {s : State} (hb : s.busy = false) (ho : (s.reader p).opened = false) :
    ¬ s.inUse p = true := by simp [inUse_iff, codecBusy, hb, ho]

theorem setSource_withTurns (s : State) (x : List Turn) (p : PortNum) (a : Source) :
    (s.withTurns x).setSource p a = (s.setSource p a).withTurns x := by cases p <;> rfl

section HostTurns

variable {s : State} (hb : s.busy = false) (rest : List Turn)
include hb

/-- The host's turn that loads a source (spec/20_memory.md R81). -/
theorem reaches_load {p : PortNum} (ho : (s.reader p).opened = false) (data : List Byte) (avail : Bool) :
    Reaches 1 (s.withTurns (.host (.loadSource p data avail) :: rest)) ((s.setSource p { data, avail }).withTurns rest) := by
  refine .next ?_ (.refl _)
  rw [step_host, hostStep_load, if_neg (not_inUse_of_idle (s := s.withTurns rest) hb (by rwa [withTurns_reader])), setSource_withTurns]

/-- The host's turn that copies a sink to a source (R81). -/
theorem reaches_copy (p q : PortNum) (ho : (s.reader p).opened = false) :
    Reaches 1 (s.withTurns (.host (.copySink p q) :: rest))
      ((s.setSource p { s.source p with data := (s.sink q).data }).withTurns rest) := by
  refine .next ?_ (.refl _)
  rw [step_host, hostStep_copy, if_neg (not_inUse_of_idle (s := s.withTurns rest) hb (by rwa [withTurns_reader])), setSource_withTurns,
    withTurns_source, withTurns_sink]

/-- The host's turn that issues a command (spec/60_exceptions.md R303). -/
theorem reaches_cmd (c : Word) :
    Reaches 1 (s.withTurns (.host (.csrWrite 0x00 32 c) :: rest)) ((accept c s).withTurns rest) :=
  .next ((step_host ..).trans (hostStep_cmd (s := s.withTurns rest) hb c)) (.refl _)

end HostTurns

/-- The host's turns before ENCODE: it loads SRC0 and writes the command's word to CMD (R279). -/
def encodeTurns (input : List Byte) : List Turn :=
  [.host (.loadSource .p0 input true), .host (.csrWrite 0x00 32 0xC000)]

/-- The host's turns before DECODE: it copies the sinks to the sources and writes the command's word (R279). -/
def decodeTurns : List Turn :=
  [.host (.copySink .p0 .p0), .host (.copySink .p1 .p1), .host (.csrWrite 0x00 32 0xC800)]

/-- ENCODE accepted on the input loaded to SRC0. -/
def State.encodeIssued (s : State) (input : List Byte) : State :=
  accept 0xC000 (s.setSource .p0 { data := input, avail := true })

/-- DECODE accepted on the bytes of the two sinks, copied to the sources of the same number. -/
def State.decodeIssued (s : State) : State :=
  accept 0xC800 ((s.setSource .p0 { s.src0 with data := s.snk0.data }).setSource .p1 { s.src1 with data := s.snk1.data })

theorem reaches_encodeIssued {s : State} (hb : s.busy = false) (hr : ∀ p, (s.reader p).opened = false)
    (input : List Byte) (rest : List Turn) :
    Reaches 2 (s.withTurns (encodeTurns input ++ rest)) ((s.encodeIssued input).withTurns rest) :=
  .trans (j := 1) (k := 1) (reaches_load hb _ (hr .p0) input true)
    (reaches_cmd (s := s.setSource .p0 { data := input, avail := true }) hb rest _)

theorem reaches_decodeIssued {s : State} (hb : s.busy = false) (hr : ∀ p, (s.reader p).opened = false)
    (rest : List Turn) : Reaches 3 (s.withTurns (decodeTurns ++ rest)) (s.decodeIssued.withTurns rest) :=
  let copied : State := s.setSource .p0 { s.src0 with data := s.snk0.data }
  .trans (j := 1) (k := 2) (reaches_copy hb _ .p0 .p0 (hr .p0))
    (.trans (j := 1) (k := 1) (reaches_copy (s := copied) hb _ .p1 .p1 (hr .p1))
      (reaches_cmd (s := copied.setSource .p1 { s.src1 with data := s.snk1.data }) hb rest _))

/-- The host's run of R279: ENCODE of an input, then DECODE of the streams it left in the sinks. -/
theorem reaches_encode_decode {s u v : State} {j k : Nat} {input : List Byte} (hsb : s.busy = false)
    (hsr : ∀ p, (s.reader p).opened = false) (hub : u.busy = false) (hur : ∀ p, (u.reader p).opened = false)
    (hencode : EndsAfter .encode j (s.encodeIssued input) u) (hdecode : EndsAfter .decode k u.decodeIssued v) :
    Reaches (2 + (j + (3 + k))) (s.withTurns
      (encodeTurns input ++ List.replicate j Turn.engine ++ decodeTurns ++ List.replicate k Turn.engine))
      (v.withTurns []) := by
  have hlast := hdecode.reaches_turns []
  rw [List.append_nil] at hlast
  rw [List.append_assoc, List.append_assoc]
  exact (reaches_encodeIssued hsb hsr input _).trans
    ((hencode.reaches_turns _).trans ((reaches_decodeIssued hub hur _).trans hlast))

/-- Settles O41: ENCODE's end state is idle with closed readers, and its sinks hold the two streams DECODE reads. -/
theorem codecRoundTrip : Obligations.CodecRoundTrip := by
  intro s input hok hbusy _ hreader hwriter hsink ha1 hne hlen
  have hcap : 511 ≤ s.params.nodeCap := hok.holdsBuilt
  obtain ⟨f, t, u, hf, ht, hencode, hu, -⟩ := encodeWritesBothStreams (s.encodeIssued input) input (accept_starts rfl _)
    (hwriter .p0) (hwriter .p1) rfl (hsink .p0) (hsink .p1) hne hlen
  obtain ⟨k, v, hdecode, hdone, herr, hpartial, hdata⟩ := decode_of_encoded (s := u.decodeIssued) hf ht
    (accept_starts rfl _) (by rw [hu]; rfl) (by rw [hu]; exact hcap) (by rw [hu]; rfl) (by rw [hu, ← ha1]; rfl)
    (by rw [hu]; rfl)
  have hclosed : ∀ p, (u.reader p).opened = false := fun p => by
    rw [hu]
    cases p
    · rfl
    · exact hreader .p1
  have hrun := reaches_encode_decode hbusy hreader (by rw [hu]; rfl) hclosed hencode hdecode
  exact ⟨_, k, _, _, hrun, rfl, hdecode.2.1, hdone, herr, hpartial, hdata⟩

end Sys2Proof.Machine
end

section
/-! PROOFS. The statements about errors and the ends of commands (spec/60_exceptions.md): acceptance and DROP, that every
command ends and reports its end, and what an error of ENCODE or DECODE leaves. -/

namespace Sys2Proof.Machine

/-! ## Every command ends -/

/-- The positions from which command i goes on; at any other it begins (log 12). -/
def Pos.isOf (i : Instr) : Pos → Bool
  | .start => false
  | .count => match i with | .freqCount _ | .encode => true | _ => false
  | .ser _ => match i with | .treeSer _ | .encode => true | _ => false
  | .desNode _ _ | .desLeaf _ _ | .desDone _ _ => match i with | .treeDeser _ | .decode => true | _ => false
  | .emit _ => match i with | .codeEmit _ _ | .encode => true | _ => false
  | .pad _ | .closeW0 | .closeW1 | .relW1 _ => i == .encode
  | .skip | .walk | .write _ | .dClose => i == .decode
  | .finish | .relW0 _ | .errEnd _ => i == .encode || i == .decode
  | .raised _ => true

/-- The order in which commands come to their positions: no loop leads to a higher stage. -/
@[simp] def Pos.stage : Pos → Nat
  | .errEnd _ => 0
  | .relW1 _ => 1
  | .relW0 _ => 2
  | .raised _ => 3
  | .finish => 4
  | .closeW1 | .dClose => 5
  | .closeW0 => 6
  | .walk | .write _ => 7
  | .skip => 8
  | .emit _ => 9
  | .pad _ => 10
  | .desDone _ _ => 11
  | .desNode _ _ | .desLeaf _ _ => 12
  | .ser _ => 13
  | .count => 14
  | .start => 15

/-- The stage of command i at a position: the highest where it is about to begin. -/
def stageOf (i : Instr) (q : Pos) : Nat := if q.isOf i then q.stage else 15

/-- The bits the loop at this position has to write before it reads again; for DECODE, whether a byte is to be
written. -/
@[simp] def Pos.toWrite : Pos → Nat
  | .ser todo => (todoBits todo).length
  | .pad bits | .emit bits => bits.length
  | .write _ => 1
  | _ => 0

/-- The bits the two readers have left. -/
def State.toRead (s : State) : Nat := (s.unread .p0).length + (s.unread .p1).length

/-- What command i has left to do: its stages, within a stage the bits to read, and between two reads the bits to
write. -/
def effort (i : Instr) (s : State) : ℕ ×ₗ ℕ ×ₗ ℕ := toLex (stageOf i s.pos, toLex (s.toRead, s.pos.toWrite))

/-- In t command i goes on, and has less left to do than in s. -/
structure Nearer (i : Instr) (t s : State) : Prop where
  isOf : t.pos.isOf i = true
  less : effort i t < effort i s

/-- Whatever the engine does next, it ends the command or comes nearer to its end. -/
def Act.Progresses (i : Instr) (s : State) : Act → Prop
  | .work t => Nearer i t s
  | .opens t => Nearer i t s
  | .access t => Nearer i t s
  | .ended _ => True

theorem Act.progresses_of {i : Instr} {s t : State} (b : Bool) (h : Nearer i t s) : (Act.of b t).Progresses i s := by
  cases b <;> exact h

theorem effort_lt {i : Instr} {s t : State} : effort i t < effort i s ↔ stageOf i t.pos < stageOf i s.pos
    ∨ stageOf i t.pos = stageOf i s.pos
      ∧ (t.toRead < s.toRead ∨ t.toRead = s.toRead ∧ t.pos.toWrite < s.pos.toWrite) := by
  simp only [effort, Prod.Lex.toLex_lt_toLex]

theorem stageOf_isOf {i : Instr} {q : Pos} (h : q.isOf i = true) : stageOf i q = q.stage := if_pos h

theorem Pos.stage_lt_of_isOf {i : Instr} {q : Pos} (h : q.isOf i = true) : q.stage < 15 := by
  cases q <;> simp_all [Pos.isOf]

theorem Nearer.of_begin {i : Instr} {s t : State} (hs : s.pos.isOf i = false) (ht : t.pos.isOf i = true) :
    Nearer i t s := by
  refine ⟨ht, effort_lt.2 (.inl ?_)⟩
  rw [stageOf_isOf ht, stageOf, hs]
  exact Pos.stage_lt_of_isOf ht

section AtPosition

variable {i : Instr} {s t : State} {q : Pos} (hp : s.pos = q) (hq : q.isOf i = true)
include hp hq

theorem Nearer.of_stage (ht : t.pos.isOf i = true) (h : t.pos.stage < q.stage) : Nearer i t s :=
  ⟨ht, effort_lt.2 (.inl (by rwa [hp, stageOf_isOf ht, stageOf_isOf hq]))⟩

/-- Raising an error is progress at every position before Release. -/
theorem Nearer.of_raised {e : Error} (h : 3 < q.stage) (ht : t.pos = .raised e) : Nearer i t s :=
  .of_stage hp hq (by rw [ht]; rfl) (by rwa [ht])

theorem Nearer.of_read (h : t.toRead < s.toRead) (ht : t.pos.isOf i = true) (hle : t.pos.stage ≤ q.stage) :
    Nearer i t s := by
  refine ⟨ht, effort_lt.2 ?_⟩
  rw [hp, stageOf_isOf ht, stageOf_isOf hq]
  exact (Nat.lt_or_eq_of_le hle).imp id fun he => ⟨he, .inl h⟩

/-- A helper that writes, where fewer bits are to be written at the position it leads to. -/
theorem Nearer.of_write {r : Res Unit} {next : Pos} (h3 : 3 < q.stage) (hr : r.state.toRead = s.toRead)
    (hn : next.isOf i = true) (hle : next.stage ≤ q.stage) (hw : next.toWrite < q.toWrite) :
    Nearer i (r.goto next) s := by
  cases r with
  | raise e t => exact .of_raised hp hq h3 rfl
  | ok _ t =>
    refine ⟨hn, effort_lt.2 ?_⟩
    rw [hp, stageOf_isOf hq, show (Res.goto next (.ok () t)).pos = next from rfl, stageOf_isOf hn]
    exact (Nat.lt_or_eq_of_le hle).imp id fun he => ⟨he, .inr ⟨hr, hw⟩⟩

/-- A helper that leads to a later stage, or to the error path. -/
theorem Nearer.of_goto {r : Res Unit} {next : Pos} (h3 : 3 < q.stage) (hn : next.isOf i = true)
    (hlt : next.stage < q.stage) : Nearer i (r.goto next) s := by
  obtain h | ⟨e, h⟩ := Res.goto_pos next r
  · exact .of_stage hp hq (by rw [h]; exact hn) (by rw [h]; exact hlt)
  · exact .of_raised hp hq h3 h

end AtPosition

/-! ### Reading and writing -/

theorem toRead_congr {s t : State} (hr : ∀ p, t.reader p = s.reader p) (hx : ∀ p, t.source p = s.source p) :
    t.toRead = s.toRead := by simp only [State.toRead, State.unread, hr, hx]

theorem Same.toRead {e : Effects} {s t : State} (h : Same e s t) (he : ∀ p, e.reads p = false) :
    t.toRead = s.toRead :=
  toRead_congr (fun p => h.reader p (he p)) fun p => by cases p; exacts [h.src0, h.src1]

theorem toRead_setReader_lt {s : State} {p : PortNum} {r : Reader}
    (h : r.cnt.val + 8 * ((s.source p).data.length - r.pos)
      < (s.reader p).cnt.val + 8 * ((s.source p).data.length - (s.reader p).pos)) :
    (s.setReader p r).toRead < s.toRead := by
  simp only [State.toRead, unread_length]
  cases p <;> simp_all

/-- A bit read is one no longer left, pulled with seven others or buffered (spec/40_bitio.md R124). -/
theorem toRead_readBit {p : PortNum} {s t : State} {b : Bool} (h : readBit p s = .ok b t) : t.toRead < s.toRead := by
  unfold readBit at h
  split at h
  · next hc =>
    obtain ⟨e, hp⟩ | ⟨v, hv, hp⟩ := pull_cases p s <;> rw [hp] at h <;> cases h
    have := (List.getElem?_eq_some_iff.1 hv).1
    simp only [setReader_setReader, setReader_reader]
    exact toRead_setReader_lt (by rw [hc]; simp; omega)
  · next hc =>
    cases h
    have h1 : 1 ≤ (s.reader p).cnt.val := Nat.one_le_iff_ne_zero.2 fun h0 => hc (Fin.ext h0)
    refine toRead_setReader_lt (Nat.add_lt_add_right ?_ _)
    rw [Reader.spend, Fin.sub_val_of_le (Fin.le_def.2 h1)]
    exact Nat.sub_lt h1 Nat.one_pos

/-- A byte read is one pulled (R125). -/
theorem toRead_readByte {p : PortNum} {s t : State} {v : Byte} (h : readByte p s = .ok v t) : t.toRead < s.toRead := by
  unfold readByte at h
  obtain ⟨e, hp⟩ | ⟨v, hv, hp⟩ := pull_cases p s <;> rw [hp] at h <;> cases h
  have := (List.getElem?_eq_some_iff.1 hv).1
  simp only [setReader_setReader, setReader_reader]
  exact toRead_setReader_lt (by dsimp only; omega)

theorem toRead_writeBit (p : PortNum) (b : Bool) (s : State) : (writeBit p b s).state.toRead = s.toRead :=
  (same_writeBit (e := effectsOf (.wrBit p 0)) (by cases p <;> rfl) b s).toRead fun _ => rfl

theorem toRead_writeByte (p : PortNum) (v : Byte) (s : State) : (writeByte p v s).state.toRead = s.toRead :=
  (same_writeByte (e := effectsOf (.wrByte p 0)) (by cases p <;> rfl) v s).toRead fun _ => rfl

/-! ### The loops -/

theorem progresses_countAct {i : Instr} {p : PortNum} {after : State → Act} {s : State} (hp : s.pos = .count)
    (hi : Pos.count.isOf i = true) (ha : (after s).Progresses i s) : (countAct p after s).Progresses i s := by
  unfold countAct
  split
  · exact ha
  · obtain ⟨e, h⟩ | ⟨v, r, -, h⟩ := readByte_cases p s <;> simp only [h]
    · exact .of_raised hp hi (by simp) rfl
    · have hlt := toRead_readByte h
      show Nearer i (countByte v (s.setReader p r)) s
      unfold countByte
      split
      · exact .of_raised hp hi (by simp) rfl
      · exact .of_read hp hi hlt (by simp [hp, hi]) (by simp [hp])

theorem progresses_serAct {i : Instr} {p : PortNum} {todo : List SerItem} {after : State → Act} {s : State}
    (hp : s.pos = .ser todo) (hi : (Pos.ser todo).isOf i = true) (ha : todo = [] → (after s).Progresses i s) :
    (serAct p todo after s).Progresses i s := by
  have bit (b : Bool) {rest : List SerItem} (hr : (todoBits rest).length < (todoBits todo).length) :
      (Act.of (bitPushes p s) ((writeBit p b s).goto (.ser rest))).Progresses i s :=
    Act.progresses_of _ (.of_write hp hi (by simp) (toRead_writeBit ..) hi (by simp) hr)
  unfold serAct
  split
  · exact ha rfl
  · exact bit _ (by simp [todoBits, HTree.ser])
  · exact bit _ (by simp [todoBits, HTree.ser])
  · exact .of_write hp hi (by simp) (toRead_writeByte ..) hi (by simp) (by simp [todoBits, byteBits_length])

theorem progresses_emitAct {i : Instr} {p : PortNum} {bits : Bits} {after : State → Act} {s : State}
    (hp : s.pos = .emit bits) (hi : (Pos.emit bits).isOf i = true) (ha : bits = [] → (after s).Progresses i s) :
    (emitAct p bits after s).Progresses i s := by
  unfold emitAct
  split
  · exact ha rfl
  · exact Act.progresses_of _ (.of_write hp hi (by simp) (toRead_writeBit ..) hi (by simp) (by simp))

theorem progresses_desNodeAct {i : Instr} {p : PortNum} {fs : List Frame} {c : Nat} {s : State}
    (hp : s.pos = .desNode fs c) (hi : (Pos.desNode fs c).isOf i = true) : (desNodeAct p fs c s).Progresses i s := by
  refine Act.progresses_of _ ?_
  obtain ⟨e, h⟩ | ⟨b, r, -, h⟩ := readBit_cases p s <;> simp only [h]
  · exact .of_raised hp hi (by simp) rfl
  · have hlt := toRead_readBit h
    split
    · exact .of_raised hp hi (by simp) rfl
    · split <;> exact .of_read hp hi hlt hi (by simp)

theorem progresses_desLeafAct {i : Instr} {p : PortNum} {fs : List Frame} {c : Nat} {s : State}
    (hp : s.pos = .desLeaf fs c) (hi : (Pos.desLeaf fs c).isOf i = true) : (desLeafAct p fs c s).Progresses i s := by
  show Nearer i _ s
  obtain ⟨e, h⟩ | ⟨v, r, -, h⟩ := readByte_cases p s <;> simp only [h]
  · exact .of_raised hp hi (by simp) rfl
  · have hlt := toRead_readByte h
    split <;> exact .of_read hp hi hlt hi (by simp)

theorem progresses_releaseWriter {i : Instr} {p : PortNum} {q next : Pos} {s : State} (hp : s.pos = q)
    (hq : q.isOf i = true) (hn : next.isOf i = true) (hlt : next.stage < q.stage) :
    (releaseWriter p next s).Progresses i s := by
  refine Act.progresses_of _ ?_
  split <;> exact .of_stage hp hq hn hlt

/-! ### The commands -/

theorem progresses_freqCountAct (p : PortNum) (s : State) : (freqCountAct p s).Progresses (.freqCount p) s := by
  cases hp : s.pos <;> simp only [freqCountAct, hp]
  case count => exact progresses_countAct hp rfl trivial
  case raised => trivial
  all_goals
    split
    · exact .of_begin (by rw [hp]; rfl) rfl
    · trivial

theorem progresses_treeSerAct (p : PortNum) (s : State) : (treeSerAct p s).Progresses (.treeSer p) s := by
  cases hp : s.pos <;> simp only [treeSerAct, hp]
  case ser => exact progresses_serAct hp rfl fun _ => trivial
  case raised => trivial
  all_goals
    split
    · split
      · trivial
      · exact .of_begin (by rw [hp]; rfl) rfl
    · trivial

theorem progresses_treeDeserAct (p : PortNum) (s : State) : (treeDeserAct p s).Progresses (.treeDeser p) s := by
  cases hp : s.pos <;> simp only [treeDeserAct, hp]
  case desNode => exact progresses_desNodeAct hp rfl
  case desLeaf => exact progresses_desLeafAct hp rfl
  case desDone | raised => trivial
  all_goals
    split
    · exact .of_begin (by rw [hp]; rfl) rfl
    · trivial

theorem progresses_codeEmitAct (p : PortNum) (v : Byte) (s : State) :
    (codeEmitAct p v s).Progresses (.codeEmit p v) s := by
  cases hp : s.pos <;> simp only [codeEmitAct, hp]
  case emit => exact progresses_emitAct hp rfl fun _ => trivial
  case raised => trivial
  all_goals
    split
    · split
      · split
        · trivial
        · exact .of_begin (by rw [hp]; rfl) rfl
      · trivial
    · trivial

theorem progresses_encodeStart {s : State} (hs : s.pos.isOf .encode = false) :
    (encodeStart s).Progresses .encode s := by
  unfold encodeStart
  split
  · trivial
  · split <;> exact .of_begin hs rfl

theorem progresses_encodeCounted {s : State} (hp : s.pos = .count) : (encodeCounted s).Progresses .encode s := by
  unfold encodeCounted
  dsimp only
  split
  · trivial
  · split
    · exact .of_raised hp rfl (by simp) rfl
    · exact .of_goto hp rfl (by simp) rfl (by simp)

theorem progresses_encodePad {bits : Bits} {s : State} (hp : s.pos = .pad bits) :
    (encodePad bits s).Progresses .encode s := by
  unfold encodePad
  split
  · exact Act.progresses_of _ (.of_write hp rfl (by simp) (toRead_writeBit ..) rfl (by simp) (by simp))
  · exact .of_goto hp rfl (by simp) rfl (by simp)

theorem progresses_encodeNext {bits : Bits} {s : State} (hp : s.pos = .emit bits) :
    (encodeNext s).Progresses .encode s := by
  unfold encodeNext
  split
  · exact .of_stage hp rfl rfl (by simp)
  · show Nearer .encode _ s
    obtain ⟨e, h⟩ | ⟨v, r, -, h⟩ := readByte_cases .p0 s <;> simp only [h]
    · exact .of_raised hp rfl (by simp) rfl
    · have hlt := toRead_readByte h
      split
      · exact .of_raised hp rfl (by simp) rfl
      · exact .of_read hp rfl hlt rfl (by simp)

theorem progresses_encodeAct (s : State) : (encodeAct s).Progresses .encode s := by
  cases hp : s.pos <;> simp only [encodeAct, hp]
  case count => exact progresses_countAct hp rfl (progresses_encodeCounted hp)
  case ser => exact progresses_serAct hp rfl fun _ => .of_goto hp rfl (by simp) rfl (by simp)
  case pad => exact progresses_encodePad hp
  case emit => exact progresses_emitAct hp rfl fun _ => progresses_encodeNext hp
  case closeW0 | closeW1 => exact Act.progresses_of _ (.of_goto hp rfl (by simp) rfl (by simp))
  case finish | errEnd => trivial
  case raised => exact .of_stage hp rfl rfl (by simp)
  case relW0 | relW1 => exact progresses_releaseWriter hp rfl rfl (by simp)
  all_goals exact progresses_encodeStart (by rw [hp]; rfl)

theorem progresses_decodeStart {s : State} (hs : s.pos.isOf .decode = false) :
    (decodeStart s).Progresses .decode s := by
  unfold decodeStart
  split
  · trivial
  · split
    · exact .of_begin hs rfl
    · split <;> exact .of_begin hs rfl

theorem progresses_decodeTreeRead {t : HTree} {c : Nat} {s : State} (hp : s.pos = .desDone t c) :
    (decodeTreeRead t c s).Progresses .decode s := by
  unfold decodeTreeRead
  dsimp only
  split
  · exact .of_raised hp rfl (by simp) rfl
  · exact .of_goto hp rfl (by simp) rfl (by simp)

theorem progresses_decodeSkip {s : State} (hp : s.pos = .skip) : (decodeSkip s).Progresses .decode s := by
  unfold decodeSkip
  split
  · exact .of_raised hp rfl (by simp) rfl
  · refine Act.progresses_of _ ?_
    obtain ⟨e, h⟩ | ⟨b, r, -, h⟩ := readBit_cases .p1 s <;> simp only [h]
    · exact .of_raised hp rfl (by simp) rfl
    · have hlt := toRead_readBit h
      cases b <;> exact .of_read hp rfl hlt rfl (by simp)

theorem moveCursor_toRead (b : Bool) (s : State) : (moveCursor b s).toRead = s.toRead := by
  unfold moveCursor
  dsimp only
  split <;> rfl

theorem progresses_decodeWalk {s : State} (hp : s.pos = .walk) : (decodeWalk s).Progresses .decode s := by
  unfold decodeWalk
  split
  · exact .of_stage hp rfl rfl (by simp)
  · refine Act.progresses_of _ ?_
    obtain ⟨e, h⟩ | ⟨b, r, -, h⟩ := readBit_cases .p1 s <;> simp only [h]
    · exact .of_raised hp rfl (by simp) rfl
    · have hlt := (moveCursor_toRead b _).trans_lt (toRead_readBit h)
      obtain ⟨⟨v, hv⟩ | hv, -⟩ := moveCursor_pos b (s.setReader .p1 r) <;>
        exact .of_read hp rfl hlt (by rw [hv]; rfl) (by simp [hv])

theorem progresses_decodeWrite {v : Byte} {s : State} (hp : s.pos = .write v) :
    (decodeWrite v s).Progresses .decode s := by
  show Nearer .decode _ s
  have hw := Nearer.of_write (i := .decode) (next := .walk) hp rfl (by simp) (toRead_writeByte .p0 v s) rfl (by simp)
    (by simp)
  cases h : writeByte .p0 v s <;> rw [h] at hw <;> exact ⟨hw.isOf, hw.less⟩

theorem progresses_decodeAct (s : State) : (decodeAct s).Progresses .decode s := by
  cases hp : s.pos <;> simp only [decodeAct, hp]
  case desNode => exact progresses_desNodeAct hp rfl
  case desLeaf => exact progresses_desLeafAct hp rfl
  case desDone => exact progresses_decodeTreeRead hp
  case skip => exact progresses_decodeSkip hp
  case walk => exact progresses_decodeWalk hp
  case write => exact progresses_decodeWrite hp
  case dClose => exact Act.progresses_of _ (.of_goto hp rfl (by simp) rfl (by simp))
  case finish | errEnd => trivial
  case raised => exact .of_stage hp rfl rfl (by simp)
  case relW0 => exact progresses_releaseWriter hp rfl rfl (by simp)
  all_goals exact progresses_decodeStart (by rw [hp]; rfl)

theorem progresses_of_actOf {i : Instr} {next : State → Act} (hi : actOf i = some next) (s : State) :
    (next s).Progresses i s := by
  cases i <;> simp only [actOf, Option.some.injEq, reduceCtorEq] at hi <;> subst hi
  · exact progresses_freqCountAct _ s
  · exact progresses_treeSerAct _ s
  · exact progresses_treeDeserAct _ s
  · exact progresses_codeEmitAct _ _ s
  · exact progresses_encodeAct s
  · exact progresses_decodeAct s

/-! ### The end -/

/-- An engine that always comes nearer to the end of its command reaches it. -/
theorem exists_trace {i : Instr} {next : State → Act} (h : ∀ s, (next s).Progresses i s) (s : State) :
    ∃ k t, Trace next s k t := by
  induction s using WellFounded.induction (InvImage.wf (effort i) wellFounded_lt) with
  | _ s ih =>
    have hs := h s
    cases hn : next s <;> rw [hn] at hs
    case ended t => exact ⟨0, t, .ended hn⟩
    case work u =>
      obtain ⟨k, t, p⟩ := ih u hs.less
      exact ⟨k, t, .work hn p⟩
    case opens u =>
      obtain ⟨k, t, p⟩ := ih u hs.less
      exact ⟨k, t, .opens hn p⟩
    case access u =>
      obtain ⟨k, t, p⟩ := ih u hs.less
      exact ⟨k + 1, t, .access hn p⟩

theorem Trace.running {i : Instr} {next : State → Act} (hi : actOf i = some next) {s t : State} {k : Nat}
    (h : Trace next s k t) : t.running = none := by
  induction h with
  | ended h => exact actOf_ended hi h
  | inner _ _ ih | access _ _ ih => exact ih

/-- Settles O47: a command of one micro-step ends in it; the engine of any other reaches its end, since whatever it does
next leaves fewer stages, bits to read or bits to write. -/
theorem everyCommandEnds : Obligations.EveryCommandEnds := by
  refine ⟨exec_next, fun i s hr => ?_⟩
  cases hi : actOf i with
  | none =>
    obtain ⟨t, ht⟩ := exec_next i s
    exact ⟨1, t, .single hr ht (once_of_exec hi ht).running, Nat.le_refl 1⟩
  | some next =>
    obtain ⟨k, t, p⟩ := exists_trace (progresses_of_actOf hi) s
    obtain ⟨size, hb, he⟩ := actOf_bounded hi
    exact ⟨max 1 k, t, p.endsAfter hb he (keeps_running (by cases i <;> rfl) (actOf_keeps hi)) hr (p.running hi),
      Nat.le_max_left 1 k⟩

end Sys2Proof.Machine
end

section
namespace Sys2Proof.Machine

/-! ## Bytes pushed stay -/

/-- The bytes of sink SNKp in s are the first of those in t. -/
def Grows (p : PortNum) (s t : State) : Prop := (s.sink p).data <+: (t.sink p).data

theorem Grows.of_eq {p : PortNum} {s t : State} (h : t.sink p = s.sink p) : Grows p s t := by
  rw [Grows, h]

theorem Grows.of_sinks {p : PortNum} {s t : State} (h0 : t.snk0 = s.snk0) (h1 : t.snk1 = s.snk1) : Grows p s t :=
  .of_eq (by cases p; exacts [h0, h1])

theorem Grows.trans {p : PortNum} {s t u : State} (h : Grows p s t) (h' : Grows p t u) : Grows p s u :=
  List.IsPrefix.trans h h'

theorem Same.grows {e : Effects} {s t : State} (h : Same e s t) {p : PortNum} (he : e.writes p = false) : Grows p s t :=
  .of_eq (h.writer p he).2

theorem Grows.goto {α : Type} {p : PortNum} {s : State} {r : Res α} (h : Grows p s r.state) (q : Pos) :
    Grows p s (r.goto q) := by
  cases r <;> exact h.trans (.of_eq (goto_sink ..))

theorem grows_setSink_append (p q : PortNum) (v : Byte) (s : State) :
    Grows p s (s.setSink q { s.sink q with data := (s.sink q).data ++ [v] }) := by
  by_cases h : p = q
  · subst h
    rw [Grows, setSink_sink]
    exact List.prefix_append _ _
  · exact .of_eq (setSink_sink_ne _ _ h)

theorem grows_push (p q : PortNum) (v : Byte) (s : State) : Grows p s (push q v s).state := by
  obtain ⟨e, h⟩ | h := push_cases q v s <;> rw [h]
  · exact .of_eq rfl
  · exact grows_setSink_append p q v s

theorem grows_writeBit (p q : PortNum) (b : Bool) (s : State) : Grows p s (writeBit q b s).state := by
  unfold writeBit
  dsimp only
  split
  · have hg := grows_push p q ((s.writer q).place b) s
    cases h : push q ((s.writer q).place b) s <;> rw [h] at hg
    · exact hg.trans (.of_eq (setWriter_sink ..))
    · exact hg
  · exact .of_eq (setWriter_sink ..)

theorem grows_writeByte (p q : PortNum) (v : Byte) (s : State) : Grows p s (writeByte q v s).state := by
  unfold writeByte
  dsimp only
  have hg := grows_push p q ((s.writer q).acc ||| (v >>> (s.writer q).n.val)) s
  cases h : push q ((s.writer q).acc ||| (v >>> (s.writer q).n.val)) s <;> rw [h] at hg
  · exact hg.trans (.of_eq (setWriter_sink ..))
  · exact hg

theorem grows_closeW (p q : PortNum) (s : State) : Grows p s (closeW q s).state := by
  have hc : Grows p s (s.setWriter q Writer.closed) := .of_eq (setWriter_sink ..)
  unfold closeW
  split
  · dsimp only
    split
    · exact hc
    · exact hc.trans (grows_push p q _ _)
  · exact .of_eq rfl

/-- OpenW empties the sink of a closed writer only: an open one is AlreadyOpen (spec/40_bitio.md R126). -/
theorem grows_openW {p : PortNum} (q : PortNum) {s : State} (ho : (s.writer p).opened = true) :
    Grows p s (openW q s).state := by
  by_cases h : p = q
  · subst h
    rw [openW, if_pos ho]
    exact .of_eq rfl
  · obtain ⟨e, h'⟩ | h' := openW_cases q s <;> rw [h']
    · exact .of_eq rfl
    · exact .of_eq ((setWriter_sink ..).trans (setSink_sink_ne _ _ h))

/-! ### Acts -/

theorem grows_countAct {p q : PortNum} {after : State → Act} {s : State} (ha : Grows p s (after s).state) :
    Grows p s (countAct q after s).state := by
  unfold countAct
  split
  · exact ha
  · obtain ⟨e, h⟩ | ⟨v, r, -, h⟩ := readByte_cases q s <;> simp only [h]
    · exact .of_eq (goto_sink ..)
    · show Grows p s (countByte v (s.setReader q r))
      unfold countByte
      split <;> exact .of_eq (by simp)

theorem grows_serAct {p q : PortNum} {todo : List SerItem} {after : State → Act} {s : State}
    (ha : todo = [] → Grows p s (after s).state) : Grows p s (serAct q todo after s).state := by
  unfold serAct
  split
  · exact ha rfl
  · rw [Act.state_of]; exact (grows_writeBit ..).goto _
  · rw [Act.state_of]; exact (grows_writeBit ..).goto _
  · exact (grows_writeByte ..).goto _

theorem grows_emitAct {p q : PortNum} {bits : Bits} {after : State → Act} {s : State}
    (ha : bits = [] → Grows p s (after s).state) : Grows p s (emitAct q bits after s).state := by
  unfold emitAct
  split
  · exact ha rfl
  · rw [Act.state_of]; exact (grows_writeBit ..).goto _

theorem grows_closeWriter (p q : PortNum) (next : Pos) (s : State) : Grows p s (closeWriter q next s).state := by
  rw [closeWriter, Act.state_of]
  exact (grows_closeW ..).goto _

theorem grows_releaseWriter (p q : PortNum) (next : Pos) (s : State) : Grows p s (releaseWriter q next s).state := by
  have hg := grows_closeW p q s
  rw [releaseWriter, Act.state_of]
  cases h : closeW q s <;> rw [h] at hg <;> exact hg.trans (.of_eq (goto_sink ..))

theorem Act.Keeps.grows {e : Effects} {a : Act} {s : State} (h : a.Keeps e s) {p : PortNum} (he : e.writes p = false) :
    Grows p s a.state := by
  cases a <;> exact Same.grows h he

/-- The positions at which ENCODE and DECODE close their writers, and those of any error path. -/
def Pos.Ending (i : Instr) (q : Pos) : Prop := q.isOf i = true ∧ q.stage ≤ 5

theorem grows_treeSerAct (p q : PortNum) (s : State) : Grows p s (treeSerAct q s).state := by
  unfold treeSerAct
  split
  · exact grows_serAct fun _ => .of_eq rfl
  · exact .of_eq rfl
  · split
    · split <;> exact .of_eq rfl
    · exact .of_eq rfl

theorem grows_codeEmitAct (p q : PortNum) (v : Byte) (s : State) : Grows p s (codeEmitAct q v s).state := by
  unfold codeEmitAct
  split
  · exact grows_emitAct fun _ => .of_eq rfl
  · exact .of_eq rfl
  · split
    · split
      · split <;> exact .of_eq rfl
      · exact .of_eq rfl
    · exact .of_eq rfl

/-- OpenW from a state with the same sinks and open writers. -/
theorem grows_openW_of_eq {p : PortNum} (q : PortNum) {s u : State} (ho : (s.writer p).opened = true)
    (hw : u.writer p = s.writer p) (hx : u.sink p = s.sink p) : Grows p s (openW q u).state :=
  .trans (.of_eq hx) (grows_openW q (by rw [hw]; exact ho))

theorem grows_encodeStart (p : PortNum) (s : State) : Grows p s (encodeStart s).state := by
  unfold encodeStart
  split
  · exact .of_sinks rfl rfl
  · obtain ⟨e, h⟩ | h := openR_cases .p0 s.encodeBegun <;> simp only [State.encodeBegun] at h <;> simp only [h] <;>
      exact .of_sinks rfl rfl

theorem grows_encodeCounted {p : PortNum} {s : State} (ho : (s.writer p).opened = true) :
    Grows p s (encodeCounted s).state := by
  unfold encodeCounted
  dsimp only
  split
  · exact .of_sinks rfl rfl
  · split
    · exact .of_sinks rfl rfl
    · exact (grows_openW_of_eq .p0 ho (by simp [closeR]) (by simp [closeR])).goto _

theorem grows_encodeSerialized {p : PortNum} {s : State} (ho : (s.writer p).opened = true) :
    Grows p s (encodeSerialized s).state :=
  (grows_openW_of_eq .p1 ho (by cases p <;> rfl) (by cases p <;> rfl)).goto _

theorem grows_encodePad (p : PortNum) (bits : Bits) (s : State) : Grows p s (encodePad bits s).state := by
  unfold encodePad
  split
  · rw [Act.state_of]; exact (grows_writeBit ..).goto _
  · refine Grows.goto ?_ _
    obtain ⟨e, h⟩ | h := openR_cases .p0 (s.inPhase .eEmit) <;> rw [h] <;> exact .of_sinks rfl rfl

theorem grows_encodeNext (p : PortNum) (s : State) : Grows p s (encodeNext s).state := by
  unfold encodeNext
  split
  · exact .of_sinks rfl rfl
  · obtain ⟨e, h⟩ | ⟨v, r, -, h⟩ := readByte_cases .p0 s <;> simp only [h]
    · exact .of_eq (goto_sink ..)
    · split <;> exact .of_sinks rfl rfl

theorem grows_encodeAct {p : PortNum} {s : State} (h : (s.writer p).opened = true ∨ s.pos.Ending .encode) :
    Grows p s (encodeAct s).state := by
  have ho (hs : ¬ s.pos.stage ≤ 5) : (s.writer p).opened = true := h.resolve_right fun he => hs he.2
  cases hp : s.pos <;> rw [hp] at ho <;> simp only [encodeAct, hp]
  case count => exact grows_countAct (grows_encodeCounted (ho (by simp)))
  case ser => exact grows_serAct fun _ => grows_encodeSerialized (ho (by simp))
  case pad => exact grows_encodePad ..
  case emit => exact grows_emitAct fun _ => grows_encodeNext ..
  case closeW0 | closeW1 => exact grows_closeWriter ..
  case finish | errEnd => exact .of_sinks rfl rfl
  case raised => exact .of_sinks rfl rfl
  case relW0 | relW1 => exact grows_releaseWriter ..
  all_goals exact grows_encodeStart ..

theorem grows_decodeStart {p : PortNum} {s : State} (ho : (s.writer p).opened = true) :
    Grows p s (decodeStart s).state := by
  unfold decodeStart
  split
  · exact .of_sinks rfl rfl
  · have hg := grows_openW_of_eq .p0 (u := s.inPhase .dTree) ho (by simp) (by simp)
    cases h : openW .p0 (s.inPhase .dTree) with
    | raise e t => rw [h] at hg; exact hg.trans (.of_eq (goto_sink ..))
    | ok a t =>
      rw [h] at hg
      obtain ⟨e, h'⟩ | h' := openR_cases .p0 t <;> simp only [h'] <;> exact Grows.trans hg (.of_sinks rfl rfl)

theorem grows_decodeTreeRead (p : PortNum) (t : HTree) (c : Nat) (s : State) :
    Grows p s (decodeTreeRead t c s).state := by
  unfold decodeTreeRead
  dsimp only
  split
  · exact .of_sinks rfl rfl
  · obtain ⟨e, h⟩ | h := openR_cases .p1 ((closeR .p0 (storeTree t c s)).inPhase .dPad) <;> rw [h] <;>
      exact .of_sinks rfl rfl

theorem grows_decodeSkip (p : PortNum) (s : State) : Grows p s (decodeSkip s).state := by
  unfold decodeSkip
  split
  · exact .of_eq (goto_sink ..)
  · rw [Act.state_of]
    obtain ⟨e, h⟩ | ⟨b, r, -, h⟩ := readBit_cases .p1 s <;> simp only [h]
    · exact .of_eq (goto_sink ..)
    · cases b <;> exact .of_sinks rfl rfl

theorem moveCursor_sink (b : Bool) (s : State) (p : PortNum) : (moveCursor b s).sink p = s.sink p := by
  unfold moveCursor
  dsimp only
  split <;> simp

theorem grows_decodeWalk (p : PortNum) (s : State) : Grows p s (decodeWalk s).state := by
  unfold decodeWalk
  split
  · exact .of_sinks rfl rfl
  · rw [Act.state_of]
    obtain ⟨e, h⟩ | ⟨b, r, -, h⟩ := readBit_cases .p1 s <;> simp only [h]
    · exact .of_eq (goto_sink ..)
    · exact .of_eq (by simp [moveCursor_sink])

theorem grows_decodeWrite (p : PortNum) (v : Byte) (s : State) : Grows p s (decodeWrite v s).state := by
  have hg := grows_writeByte p .p0 v s
  show Grows p s _
  unfold decodeWrite
  cases h : writeByte .p0 v s <;> rw [h] at hg <;> exact hg.trans (.of_eq (by simp [Act.state, Res.state]))

theorem grows_decodeAct {p : PortNum} {s : State} (h : (s.writer p).opened = true ∨ s.pos.Ending .decode) :
    Grows p s (decodeAct s).state := by
  cases hp : s.pos <;> simp only [decodeAct, hp]
  case desNode => exact (keeps_desNodeAct (e := effectsOf (.treeDeser .p0)) rfl ..).grows rfl
  case desLeaf => exact (keeps_desLeafAct (e := effectsOf (.treeDeser .p0)) rfl ..).grows rfl
  case desDone => exact grows_decodeTreeRead ..
  case skip => exact grows_decodeSkip ..
  case walk => exact grows_decodeWalk ..
  case write => exact grows_decodeWrite ..
  case dClose => exact .trans (.of_sinks rfl rfl) (grows_closeWriter p .p0 .finish (closeR .p1 s))
  case finish | errEnd => exact .of_sinks rfl rfl
  case raised => exact .of_sinks rfl rfl
  case relW0 => exact grows_releaseWriter ..
  all_goals exact grows_decodeStart (h.resolve_right fun he => by simp [Pos.Ending, hp, Pos.isOf] at he)

theorem grows_of_actOf {i : Instr} {next : State → Act} (hi : actOf i = some next) {p : PortNum} {s : State}
    (h : (s.writer p).opened = true ∨ s.pos.Ending i) : Grows p s (next s).state := by
  cases i <;> simp only [actOf, Option.some.injEq, reduceCtorEq] at hi <;> subst hi
  · exact (keeps_freqCount _ s).grows rfl
  · exact grows_treeSerAct ..
  · exact (keeps_treeDeser _ s).grows rfl
  · exact grows_codeEmitAct ..
  · exact grows_encodeAct h
  · exact grows_decodeAct h

/-- A writer stays open until the command closes it at its end or on its error path. -/
theorem Move.opened {i : Instr} {s t : State} (h : Move i s t) {p : PortNum} (ho : (s.writer p).opened = true) :
    (t.writer p).opened = true ∨ t.pos.stage ≤ 5 := by
  cases h with
  | serializes _ d _ _ hw | emits _ d _ _ hw | encodeWritesPad _ d _ hw | decodeWrites d _ hw =>
    have := (hw.sameOpen d).writer p
    left
    simpa [this] using ho
  | encodeNoClose | encodeClosesW0 | encodeClosesW1 | encodeReleasesW0 | encodeReleasesW1 | decodeNoClose
  | decodeCloses | decodeReleasesW0 => exact .inr (by simp)
  | encodeBuilds | encodePads | decodeNoSource | decodeBegins =>
    left
    cases p <;> simp_all [Writer.fresh]
  | _ => exact .inl (by cases p <;> simpa using ho)

/-- A command that ends does not go back, so it goes on ending. -/
theorem Nearer.ending {i : Instr} {s t : State} (h : Nearer i t s) (hs : s.pos.Ending i) : t.pos.Ending i := by
  refine ⟨h.isOf, Nat.le_trans ?_ hs.2⟩
  have hlt := effort_lt.1 h.less
  rw [stageOf_isOf h.isOf, stageOf_isOf hs.1] at hlt
  exact hlt.elim Nat.le_of_lt fun he => he.1.le

/-- Whatever the engine does next, a writer that is open stays so or the command has come to its end. -/
theorem opened_or_ending {i : Instr} {next : State → Act} (hi : actOf i = some next) {p : PortNum} {s t : State}
    (ht : (next s).state = t) (hn : Nearer i t s) (h : (s.writer p).opened = true ∨ s.pos.Ending i) :
    (t.writer p).opened = true ∨ t.pos.Ending i := by
  obtain ho | he := h
  · exact ((ht ▸ move_of_actOf hi s : Move i s t).opened ho).imp id fun h => ⟨hn.isOf, h⟩
  · exact .inr (hn.ending he)

theorem microStep_grows {i : Instr} {next : State → Act} (hi : actOf i = some next) {p : PortNum} {s : State}
    (ho : (s.writer p).opened = true) : Grows p s (microStep next s) := by
  obtain ⟨size, hb, -⟩ := actOf_bounded hi
  refine microStep_inv (P := fun u => Grows p s u ∧ ((u.writer p).opened = true ∨ u.pos.Ending i)) hb
    (fun u ⟨hg, hu⟩ => ?_) ⟨.of_eq rfl, .inl ho⟩
  have hgrows := hg.trans (grows_of_actOf hi hu)
  have hnear := progresses_of_actOf hi u
  cases hn : next u <;> rw [hn] at hgrows hnear
  case work v => exact ⟨hgrows, opened_or_ending hi (by rw [hn]; rfl) hnear hu⟩
  case opens v => exact ⟨⟨hgrows, opened_or_ending hi (by rw [hn]; rfl) hnear hu⟩, hgrows⟩
  case access v => exact ⟨⟨hgrows, opened_or_ending hi (by rw [hn]; rfl) hnear hu⟩, hgrows⟩
  case ended v => exact hgrows

theorem grows_endAs {p : PortNum} {r : Res Unit} {s : State} (h : Grows p s r.state) :
    Grows p s (endAs (fun _ => id) r) := by
  cases r <;> exact h.trans (.of_sinks rfl rfl)

theorem grows_onOpenWriter {p q : PortNum} {f : State → Res Unit} {s : State} (h : Grows p s (f s).state) :
    Grows p s (onOpenWriter q f s).state := by
  rw [onOpenWriter]
  split
  · exact h
  · exact .of_eq rfl

theorem exec_grows {i : Instr} {s t : State} (h : exec i s = .next t) {p : PortNum} (ho : (s.writer p).opened = true) :
    Grows p s t := by
  cases hi : actOf i with
  | some next =>
    obtain ⟨-, -, he⟩ := actOf_bounded hi
    rw [he] at h
    cases h
    exact microStep_grows hi ho
  | none =>
    cases i <;> simp only [actOf, reduceCtorEq] at hi
    case wrOpen w => cases h; exact grows_endAs (grows_openW w ho)
    case wrClose w => cases h; exact grows_endAs (grows_closeW p w s)
    case wrBit w b => cases h; exact grows_endAs (grows_onOpenWriter (grows_writeBit ..))
    case wrByte w v => cases h; exact grows_endAs (grows_onOpenWriter (grows_writeByte ..))
    all_goals exact (exec_same h).grows rfl

/-- Settles O50: no command opens, and so empties, a sink's writer it has found open; what it writes and flushes is put
after the bytes there. -/
theorem pushedBytesStay : Obligations.PushedBytesStay := by
  intro s t p h ho
  unfold engineStep at h
  split at h
  · cases h; exact List.prefix_rfl
  · cases h; exact Grows.of_sinks rfl rfl
  · exact exec_grows h ho

end Sys2Proof.Machine
end

section
namespace Sys2Proof.Machine

/-! ## Acceptance -/

/-- Settles O6: a CMD write while BUSY = 0 is `accept`, and an illegal command's micro-step is the error end. -/
theorem commandAcceptance : Obligations.CommandAcceptance := by
  intro c s hb
  refine ⟨accept c s, hostStep_cmd hb c, rfl, fun i hi => ?_, fun e he => ?_⟩
  · simp only [accept, commandOf_ok hi, true_and]
    cases i <;> rfl
  · exact ⟨congrArg some (commandOf_error he), congrArg Command.firstPhase (commandOf_error he),
      engineStep_illegal he s⟩

/-- A CSR write clears DROP only as a CTRL write with SOFT_RESET or CLR_DROP (spec/10_state.md R42). -/
theorem csrWrite_drop {o : Nat} {c : Word} {s t : State} (h : csrWrite o c s = some t) (hd : s.drop = true) :
    t.drop = true ∨ (o = 0x10 ∧ (c.getLsbD 0 = true ∨ c.getLsbD 1 = true)) := by
  unfold csrWrite at h
  split at h <;> cases h
  · unfold writeCmd
    split
    · exact .inl rfl
    · exact .inl hd
  · exact .inl hd
  · exact .inl hd
  · exact .inl hd
  · unfold writeCtrl
    split
    · next h0 => exact .inr ⟨rfl, .inl h0⟩
    · split
      · next h1 => exact .inr ⟨rfl, .inr h1⟩
      · exact .inl hd

/-- No other step of the host but a platform reset clears DROP. -/
theorem hostStep_drop {h : HostStep} {s t : State} (hs : hostStep h s = .next t) (hd : s.drop = true) :
    t.drop = true ∨ h = .platformReset
      ∨ ∃ c, h = .csrWrite 0x10 32 c ∧ (c.getLsbD 0 = true ∨ c.getLsbD 1 = true) := by
  cases h <;> simp only [hostStep] at hs
  case csrWrite o w c =>
    split at hs
    · next hw =>
      split at hs <;> cases hs
      next hu =>
      obtain hu | ⟨ho, hc⟩ := csrWrite_drop hu hd
      · exact .inl hu
      · exact .inr (.inr ⟨c, by rw [ho, hw], hc⟩)
    · cases hs
  case platformReset => exact .inr (.inl rfl)
  case csrRead =>
    split at hs
    · split at hs <;> cases hs
      exact .inl hd
    · cases hs
  case loadSource | copySink =>
    split at hs <;> cases hs
    exact .inl (by simpa using hd)
  case setSourceAvail | setSinkAvail | readSink =>
    cases hs
    exact .inl (by simpa using hd)

theorem engineStep_drop {s t : State} (h : engineStep s = .next t) : t.drop = s.drop := by
  unfold engineStep at h
  split at h
  · cases h; rfl
  · cases h; rfl
  · exact (exec_same h).drop

/-- Settles O7: DROP is no effect of a command, and only three of the host's steps write it. -/
theorem busyWriteIsDropped : Obligations.BusyWriteIsDropped := by
  refine ⟨fun c s hb => congrArg Host.Outcome.next (if_pos hb), fun s t h hd => ?_, fun c s hb => ?_⟩
  · unfold step at h
    split at h
    · exact .inl ((engineStep_drop h).trans hd)
    · exact .inl ((engineStep_drop h).trans hd)
    · next x rest hx =>
      obtain h | rfl | ⟨c, rfl, hc⟩ := hostStep_drop h hd
      · exact .inl h
      · exact .inr (.inl ⟨rest, hx⟩)
      · exact .inr (.inr ⟨c, rest, hx, hc⟩)
  · exact ⟨accept c s, hostStep_cmd hb c, rfl, nofun⟩

/-! ## How a command ends -/

/-- Every value of ERRCODE but 0 is the code of an error (spec/60_exceptions.md R301). -/
theorem exists_error_code : ∀ b : BitVec 4, b ≠ 0 → ∃ e : Error, e.code = b := by
  have key : ∀ b : BitVec 4, b ≠ 0 → ∃ e ∈ [Error.sourceUnavailable, .sinkUnavailable, .truncatedTree,
      .malformedPadding, .endOfStream, .illegalCommand, .notOpen, .alreadyOpen, .noTree, .noDict, .noCode, .emptyFreq, .treeTooLarge,
      .degenerateTree, .countOverflow], e.code = b := by decide
  intro b hb
  obtain ⟨e, -, he⟩ := key b hb
  exact ⟨e, he⟩

theorem Once.done {s t : State} (h : Once s t) : t.done = true := by cases h <;> rfl

/-- A move that does not leave the command running ends it with DONE (R305, R306). -/
theorem Move.done {i : Instr} {s t : State} (h : Move i s t) (ht : t.running = none) (hr : s.running ≠ none) :
    t.done = true := by
  cases h with
  | ends | fails | treeDeserStores | encodeEmpty => rfl
  | _ => exact absurd ht (by simpa using hr)

/-- The engine leaves a running command running, or ends it with DONE. -/
theorem engineStep_ends {s t : State} {c : Command} (hr : s.running = some c) (h : engineStep s = .next t) :
    t.running = some c ∨ t.running = none ∧ t.done = true := by
  obtain rfl | ⟨-, h⟩ | ⟨i, next, hi, hi', h⟩ := engineStep_cases h
  · exact .inl hr
  · exact .inr ⟨h.running, h.done⟩
  · rw [hi'] at hr
    cases hr
    obtain ht | ht := actOf_running hi h
    · exact .inl (ht.trans hi')
    · exact .inr ⟨ht, exec_keeps (P := fun u => u.running = none → u.done = true) hi
        (fun u v hu hm _ hv => hm.done hv (by simp [hu])) hi' (fun hn => by simp [hi'] at hn) h ht⟩

/-- The engine's turn keeps STATUS (O57). -/
theorem StatusOk.of_engineStep {s t : State} (hs : StatusOk s) (h : engineStep s = .next t) : StatusOk t :=
  stepKeepsStatus (s.withTurns (.engine :: s.turns)) t (hs.withTurns _) h

/-- Settles O48: STATUS is kept, and at an end it says DONE, and an error exactly where ERRCODE is not 0. -/
theorem everyEndIsReported : Obligations.EveryEndIsReported := by
  intro s t c hs hr h
  have ht := hs.of_engineStep h
  obtain hc | ⟨hn, hdone⟩ := engineStep_ends hr h
  · have hbusy : t.busy = true := by rw [ht.busyIff, hc]; rfl
    exact .inl ⟨hc, hbusy, (ht.busyClear hbusy).1⟩
  · have hbusy : t.busy = false := by rw [ht.busyIff, hn]; rfl
    refine .inr ⟨hn, hbusy, hdone, ht.idleIff.2 hbusy, ?_⟩
    cases he : t.err
    · exact .inl ⟨rfl, ht.errCode.2 he⟩
    · obtain ⟨e, hcode⟩ := exists_error_code t.errcode fun h0 => by simp [ht.errCode.1 h0] at he
      have clear {b : Bool} (hb : b = true → t.err = false) : b = false := by
        cases b
        · rfl
        · exact absurd (hb rfl) (by simp [he])
      have hvalid := clear ht.validOk
      exact .inr ⟨e, rfl, hcode.symm, hvalid, ht.valueOk hvalid, clear ht.emptyOk, clear ht.partialOk⟩

end Sys2Proof.Machine
end

section
namespace Sys2Proof.Machine

/-! ## The ports a codec command leaves -/

/-- Where ENCODE ends its readers and writers are closed, but for AlreadyOpen, which it raises only as it begins. -/
theorem encodeAct_ended {s t : State} (hh : Holds s .encode) (h : encodeAct s = .ended t) :
    (t = errorEnd .alreadyOpen s ∧ s.pos.isOf .encode = false)
      ∨ (t.r0.opened = false ∧ t.w0.opened = false ∧ t.w1.opened = false) := by
  have start (h : encodeStart s = .ended t) : t = errorEnd .alreadyOpen s := by
    unfold encodeStart at h
    split at h
    · cases h; rfl
    · split at h <;> cases h
  cases hp : s.pos <;> simp only [Holds, EncodeHolds, hp] at hh <;> simp only [encodeAct, hp] at h
  case count =>
    unfold countAct at h
    split at h
    · simp only [encodeCounted] at h
      split at h
      · cases h; exact .inr ⟨rfl, hh.2⟩
      · split at h <;> cases h
    · split at h <;> cases h
  case ser =>
    unfold serAct at h
    split at h
    · cases h
    · exact absurd h Act.of_ne_ended
    · exact absurd h Act.of_ne_ended
    · cases h
  case pad =>
    unfold encodePad at h
    split at h
    · exact absurd h Act.of_ne_ended
    · cases h
  case emit =>
    unfold emitAct at h
    split at h
    · unfold encodeNext at h
      split at h <;> cases h
    · exact absurd h Act.of_ne_ended
  case closeW0 | closeW1 | relW0 | relW1 => exact absurd h Act.of_ne_ended
  case finish => cases h; exact .inr ⟨hh.1, hh.2.1, hh.2.2.1⟩
  case errEnd => cases h; exact .inr hh
  case raised => cases h
  all_goals exact .inl ⟨start h, rfl⟩

/-- The same for DECODE. -/
theorem decodeAct_ended {s t : State} (hh : Holds s .decode) (h : decodeAct s = .ended t) :
    (t = errorEnd .alreadyOpen s ∧ s.pos.isOf .decode = false)
      ∨ (t.r0.opened = false ∧ t.r1.opened = false ∧ t.w0.opened = false) := by
  have start (h : decodeStart s = .ended t) : t = errorEnd .alreadyOpen s := by
    unfold decodeStart at h
    split at h
    · cases h; rfl
    · split at h
      · cases h
      · split at h <;> cases h
  cases hp : s.pos <;> simp only [Holds, DecodeHolds, hp] at hh <;> simp only [decodeAct, hp] at h
  case finish | errEnd => cases h; exact .inr hh
  case desNode | relW0 | dClose => exact absurd h Act.of_ne_ended
  case desLeaf | write | raised => cases h
  case desDone =>
    simp only [decodeTreeRead] at h
    split at h <;> cases h
  case skip =>
    unfold decodeSkip at h
    split at h
    · cases h
    · exact absurd h Act.of_ne_ended
  case walk =>
    unfold decodeWalk at h
    split at h
    · cases h
    · exact absurd h Act.of_ne_ended
  all_goals exact .inl ⟨start h, rfl⟩

/-- A command that closes its ports wherever it ends has closed them when a micro-step has ended it, but for an
AlreadyOpen that the micro-step begins with. -/
theorem closed_of_exec {i : Instr} {next : State → Act} (hi : actOf i = some next) {Closed : State → Prop}
    (hend : ∀ {u v}, Holds u i → next u = .ended v →
      (v = errorEnd .alreadyOpen u ∧ u.pos.isOf i = false) ∨ Closed v)
    {s t : State} (hs : PortsHeld s) (hr : s.running = some (.legal i)) (h : exec i s = .next t)
    (ht : t.running = none) : t = errorEnd .alreadyOpen s ∨ Closed t := by
  obtain ⟨size, hb, he⟩ := actOf_bounded hi
  rw [he] at h
  cases h
  refine microStep_inv
    (P := fun u => u.running = some (.legal i) ∧ Holds u i ∧ (u = s ∨ u.pos.isOf i = true))
    (Q := fun u => u.running = none → u = errorEnd .alreadyOpen s ∨ Closed u)
    hb (fun u ⟨hur, hh, hu⟩ => ?_) ⟨hr, hs i hr, .inl rfl⟩ ht
  have hholds := (move_of_actOf hi u).holds hh
  have hnear := progresses_of_actOf hi u
  have hrun := keeps_running (e := effectsOf i) (by cases i <;> rfl) (actOf_keeps hi) u
  have goes {v : State} (hv : v.running = u.running) : v.running = some (.legal i)
      ∧ (v.running = none → v = errorEnd .alreadyOpen s ∨ Closed v) :=
    ⟨hv.trans hur, fun hn => by rw [hv, hur] at hn; cases hn⟩
  cases hn : next u <;> rw [hn] at hholds hnear hrun
  case work v => exact ⟨(goes (hrun v (.inl rfl))).1, hholds, .inr hnear.isOf⟩
  case opens v =>
    obtain ⟨hv, hq⟩ := goes (hrun v (.inl rfl))
    exact ⟨⟨hv, hholds, .inr hnear.isOf⟩, hq⟩
  case access v =>
    obtain ⟨hv, hq⟩ := goes (hrun v (.inr rfl))
    exact ⟨⟨hv, hholds, .inr hnear.isOf⟩, hq⟩
  case ended v =>
    intro _
    obtain ⟨hv, hnot⟩ | hc := hend hh hn
    · obtain rfl | hu := hu
      · exact .inl hv
      · rw [hnot] at hu; cases hu
    · exact .inr hc

/-- Settles O43: each position of ENCODE and DECODE holds open what `Holds` says, and they end only where that is none
of their ports, or at their start check. -/
theorem codecEndsWithItsPortsClosed : Obligations.CodecEndsWithItsPortsClosed := by
  intro s t hs h ht
  refine ⟨fun hr => ?_, fun hr => ?_⟩ <;> rw [engineStep_running hr] at h
  · exact closed_of_exec (i := .encode) rfl encodeAct_ended hs hr h ht
  · exact closed_of_exec (i := .decode) rfl decodeAct_ended hs hr h ht

/-! ## Release -/

/-- The positions of the error path for e after its first step (spec/60_exceptions.md R312). -/
def Pos.Releasing (i : Instr) (e : Error) (q : Pos) : Prop :=
  q = .relW0 e ∨ q = .errEnd e ∨ (i = .encode ∧ q = .relW1 e)

/-- From s the command has gone on along the error path for e. -/
structure GoesOn (i : Instr) (e : Error) (s t : State) : Prop where
  running : t.running = s.running
  phase : t.phase = s.phase
  busy : t.busy = s.busy
  pos : t.pos.Releasing i e

theorem GoesOn.trans {i : Instr} {e : Error} {s t u : State} (h : GoesOn i e s t) (h' : GoesOn i e t u) :
    GoesOn i e s u :=
  ⟨h'.running.trans h.running, h'.phase.trans h.phase, h'.busy.trans h.busy, h'.pos⟩

theorem post_releaseWriter {i : Instr} {e : Error} {p : PortNum} {q : Pos} {s : State} {Q : State → Prop}
    (hq : q.Releasing i e) (hQ : ∀ t, GoesOn i e s t → Q t) : (releaseWriter p q s).Post (GoesOn i e s) Q := by
  have h : GoesOn i e s ((flushed p s).goto q) := ⟨by cases p <;> rfl, by cases p <;> rfl, by cases p <;> rfl, hq⟩
  rw [releaseWriter_eq]
  exact Act.post_of _ h (hQ _ h)

/-- ENCODE's error path goes on, or ends the command with its error (R306, R313). -/
theorem encodeAct_releases {e : Error} {s : State} (h : s.pos = .raised e ∨ s.pos.Releasing .encode e) :
    (encodeAct s).Post (GoesOn .encode e s) (fun t => GoesOn .encode e s t ∨ t = errorEnd e s) := by
  obtain hp | hp | hp | ⟨-, hp⟩ := h <;> simp only [encodeAct, hp]
  · exact ⟨rfl, rfl, rfl, .inl rfl⟩
  · exact post_releaseWriter (.inr (.inr ⟨rfl, rfl⟩)) fun _ => .inl
  · exact .inr rfl
  · exact post_releaseWriter (.inr (.inl rfl)) fun _ => .inl

theorem decodeAct_releases {e : Error} {s : State} (h : s.pos = .raised e ∨ s.pos.Releasing .decode e) :
    (decodeAct s).Post (GoesOn .decode e s) (fun t => GoesOn .decode e s t ∨ t = errorEnd e s) := by
  obtain hp | hp | hp | ⟨hi, -⟩ := h
  case inr.inr.inr => cases hi
  all_goals simp only [decodeAct, hp]
  · exact ⟨rfl, rfl, rfl, .inl rfl⟩
  · exact post_releaseWriter (.inr (.inl rfl)) fun _ => .inl
  · exact .inr rfl

/-- A micro-step on the error path for e. -/
theorem exec_releases {i : Instr} {next : State → Act} (hi : actOf i = some next) {e : Error}
    (hnext : ∀ u, u.pos = .raised e ∨ u.pos.Releasing i e →
      (next u).Post (GoesOn i e u) (fun t => GoesOn i e u t ∨ t = errorEnd e u))
    {s t : State} (hs : s.pos = .raised e ∨ s.pos.Releasing i e) (h : exec i s = .next t) :
    GoesOn i e s t ∨ ∃ u, t = errorEnd e u := by
  obtain ⟨size, hb, he⟩ := actOf_bounded hi
  rw [he] at h
  cases h
  refine microStep_inv (P := fun u => u = s ∨ GoesOn i e s u) (Q := fun v => GoesOn i e s v ∨ ∃ u, v = errorEnd e u)
    hb (fun u hu => ?_) (.inl rfl)
  have hpost := hnext u (by
    obtain rfl | hu := hu
    · exact hs
    · exact .inr hu.pos)
  have goes {v : State} (hv : GoesOn i e u v) : GoesOn i e s v := by
    obtain rfl | hu := hu
    · exact hv
    · exact hu.trans hv
  cases hn : next u <;> rw [hn] at hpost
  case work v => exact .inr (goes hpost)
  case opens v => exact ⟨.inr (goes hpost.1), .inl (goes hpost.1)⟩
  case access v => exact ⟨.inr (goes hpost.1), .inl (goes hpost.1)⟩
  case ended v => exact hpost.imp goes fun hv => ⟨u, hv⟩

/-- Settles O44: the trace from the raised error to the end, and each step of it. -/
theorem releaseKeepsTheFirstError : Obligations.ReleaseKeepsTheFirstError := by
  refine ⟨fun s e hp => ⟨fun hr => ?_, fun hr => ?_⟩, fun s t i e hi hr hp h => ?_⟩
  · exact encode_ends hr (goto_self hp ▸ encode_release s e) rfl
  · exact decode_ends hr (goto_self hp ▸ decode_release s e) rfl
  · have key : GoesOn i e s t ∨ ∃ u, t = errorEnd e u := by
      obtain rfl | rfl := hi
      · exact exec_releases rfl (fun _ => encodeAct_releases) hp h
      · exact exec_releases rfl (fun _ => decodeAct_releases) hp h
    obtain hg | ⟨u, rfl⟩ := key
    · exact .inr ⟨hg.running.trans hr, hg.phase, hg.busy, hg.pos⟩
    · exact .inl ⟨rfl, rfl, rfl, rfl, rfl⟩

end Sys2Proof.Machine
end

section
namespace Sys2Proof.Machine

/-! ## How a failure ends a codec command -/

/-- The engine goes on from s to error e, and Release leaves from there what it leaves from t. -/
def Fails (next : State → Act) (released : State → State) (e : Error) (s t : State) : Prop :=
  ∃ k u, Path next s k (u.goto (.raised e)) ∧ errorEnd e (released u) = errorEnd e (released t)

theorem Fails.after {next : State → Act} {released : State → State} {e : Error} {s u t : State} {k : Nat}
    (h : Fails next released e u t) (p : Path next s k u) : Fails next released e s t := by
  obtain ⟨j, v, path, hv⟩ := h
  exact ⟨_, v, p.trans path, hv⟩

theorem Fails.opening {next : State → Act} {released : State → State} {e : Error} {s u t : State}
    (h : next s = .opens (u.goto (.raised e))) (hu : errorEnd e (released u) = errorEnd e (released t)) :
    Fails next released e s t := ⟨_, u, .opens h (.refl _), hu⟩

theorem Fails.accessing {next : State → Act} {released : State → State} {e : Error} {s u t : State}
    (h : next s = .access (u.goto (.raised e))) (hu : errorEnd e (released u) = errorEnd e (released t)) :
    Fails next released e s t := ⟨_, u, .access h (.refl _), hu⟩

theorem Fails.working {next : State → Act} {released : State → State} {e : Error} {s u t : State}
    (h : next s = .work (u.goto (.raised e))) (hu : errorEnd e (released u) = errorEnd e (released t)) :
    Fails next released e s t := ⟨_, u, .work h (.refl _), hu⟩

theorem Fails.encode_ends {s₀ s t : State} {e : Error} (hr : s₀.running = some (.legal .encode))
    (hs : EngineGets encodeAct s₀ s) (h : Fails encodeAct releasedEncode e s t) :
    EndsWithError .encode e s₀ (releasedEncode t) := by
  obtain ⟨_, path⟩ := hs.path
  obtain ⟨_, u, rest, hu⟩ := h
  exact encode_raised hr (path.trans rest) hu

theorem Fails.decode_ends {s₀ s t : State} {e : Error} (hr : s₀.running = some (.legal .decode))
    (hs : EngineGets decodeAct s₀ s) (h : Fails decodeAct releasedDecode e s t) :
    EndsWithError .decode e s₀ (releasedDecode t) := by
  obtain ⟨_, path⟩ := hs.path
  obtain ⟨_, u, rest, hu⟩ := h
  exact decode_raised hr (path.trans rest) hu

/-! ## ENCODE's failures, where it comes to them -/

/-- R251: R0 is not opened for the first pass. -/
theorem encode_open_fails {s : State} (hp : s.pos = .start) (h0 : s.w0.opened = false) (h1 : s.w1.opened = false)
    (ha : s.src0.avail = false) :
    Fails encodeAct releasedEncode .sourceUnavailable s { s with padBits := 0 } := by
  refine .opening (u := { s with padBits := 0 }.inPhase .eCount) ?_ rfl
  rw [encodeAct_start hp, encodeStart, if_neg (by simp [h0, h1]), openR_refused (by exact ha)]

/-- R180: a byte of the first pass is not pulled. -/
theorem count_pull_fails {s : State} (hp : s.pos = .count) (hl : s.r0.pos < s.src0.data.length)
    (ha : s.src0.avail = false) : Fails encodeAct releasedEncode .sourceUnavailable s s := by
  refine .accessing (u := s) ?_ rfl
  rw [encodeAct_count s hp, countAct, atEnd_more (by exact hl), readByte_refused (by exact hl) (by exact ha)]
  rfl

/-- R180: the byte after MAX_LEN. -/
theorem count_overflows {s : State} (hp : s.pos = .count) (hl : s.r0.pos < s.src0.data.length)
    (ha : s.src0.avail = true) (ht : s.total = s.params.maxLen) :
    Fails encodeAct releasedEncode .countOverflow s s := by
  obtain ⟨v, x, hx⟩ := readByte_pulled (p := .p0) (s := s) hl ha
  refine .accessing (u := s.setReader .p0 x) ?_ (by rw [releasedEncode_setReader])
  rw [encodeAct_count s hp, countAct, atEnd_more (by exact hl), hx]
  exact congrArg Act.access (if_pos ht)

/-- R255: W0 is not opened. -/
theorem tree_open_fails {s : State} {t : HTree} (hp : s.pos = .count) (hend : atEnd .p0 s = true) (ht : s.total ≠ 0)
    (hb : buildTree s.freq = some t) (ho : s.w0.opened = false) (ha : s.snk0.avail = false) :
    Fails encodeAct releasedEncode .sinkUnavailable s
      { s with tree := some t, nodes := BitVec.ofNat 10 t.size, dictValid := false } := by
  refine .opening (u := (storeTree t t.size (invalidate ((closeR .p0 s).inPhase .eBuild))).inPhase .eSerTree) ?_ rfl
  rw [encodeAct_count s hp, countAct, if_pos hend, encodeCounted, if_neg (by exact ht)]
  simp only [show buildTree (invalidate ((closeR .p0 s).inPhase .eBuild)).freq = some t from hb]
  rw [openW_refused (by exact ho) (by exact ha)]
  rfl

/-- Bits accepted since the last byte pushed are lost with a sink that is not available. -/
theorem Fails.push_refused {s : State} {p : PortNum} {bits : Bits} (ho : (s.writer p).opened = true)
    (hw : WriterOk (s.writer p)) (ha : (s.sink p).avail = false)
    (path : Path encodeAct s 1 ((s.goto (.raised .sinkUnavailable)).wrote p
      (s.written p ++ bits.take (7 - (s.written p).length % 8)))) :
    Fails encodeAct releasedEncode .sinkUnavailable s s := by
  rw [wrote_goto] at path
  refine ⟨_, _, path, congrArg _ (releasedEncode_wrote ho hw ha _ ?_)⟩
  rw [List.length_take]
  omega

/-- R255: a byte of the tree stream is not pushed. -/
theorem tree_push_fails {s : State} {todo : List SerItem} (hp : s.pos = .ser todo) (ho : s.w0.opened = true)
    (hw : WriterOk s.w0) (ha : s.snk0.avail = false) (hn : 8 ≤ s.w0.n.val + (todoBits todo).length) :
    Fails encodeAct releasedEncode .sinkUnavailable s s := by
  have hlen : (s.written .p0).length = 8 * s.snk0.data.length + s.w0.n.val := written_length s .p0
  have path := path_ser_refused encodeAct_ser s ha 8 todo (s.written .p0) (by omega) (by omega)
  rw [goto_self hp, ← eq_wrote s .p0 hw ho] at path
  exact .push_refused (p := .p0) ho hw ha path

/-- R257, R258: a byte of the padding or of a code is not pushed. -/
theorem payload_push_fails {s : State} {bits : Bits} {here : Bits → Pos}
    (hnext : ∀ b rest t, t.pos = here (b :: rest) →
      encodeAct t = Act.of (bitPushes .p1 t) ((writeBit .p1 b t).goto (here rest)))
    (hp : s.pos = here bits) (ho : s.w1.opened = true) (hw : WriterOk s.w1) (ha : s.snk1.avail = false)
    (hn : 8 ≤ s.w1.n.val + bits.length) :
    Fails encodeAct releasedEncode .sinkUnavailable s s := by
  have hlen : (s.written .p1).length = 8 * s.snk1.data.length + s.w1.n.val := written_length s .p1
  have path := path_bits_refused hnext s ha bits (s.written .p1) (by omega)
  rw [goto_self hp, ← eq_wrote s .p1 hw ho] at path
  exact .push_refused (p := .p1) ho hw ha path

/-- ENCODE with the tree serialized builds the dictionary and opens W1 for the padding (R256, R257). -/
theorem encodeAct_serialized {s : State} {t : HTree} (hp : s.pos = .ser []) (ht : s.tree = some t) :
    encodeAct s = .opens ((openW .p1 ((padReady t s).inPhase .ePad)).goto
      (.pad (padding (totalBits s.freq (buildDict t))))) := by
  have h : encodeAct s = encodeSerialized s := by simp [encodeAct, hp, serAct]
  rw [h]
  cases s
  cases ht
  rfl

/-- R256: W1 is not opened. -/
theorem payload_open_fails {s : State} {t : HTree} (hp : s.pos = .ser []) (ht : s.tree = some t)
    (ho : s.w1.opened = false) (ha : s.snk1.avail = false) :
    Fails encodeAct releasedEncode .sinkUnavailable s (padReady t s) := by
  refine .opening (u := (padReady t s).inPhase .ePad) ?_ rfl
  rw [encodeAct_serialized hp ht, openW_refused (by exact ho) (by exact ha)]
  rfl

/-- R259: the tree stream's last byte is not pushed. -/
theorem close_push_fails {s : State} (hp : s.pos = .closeW0) (ho : s.w0.opened = true) (hn : s.w0.n ≠ 0)
    (ha : s.snk0.avail = false) : Fails encodeAct releasedEncode .sinkUnavailable s s := by
  have hlost : flushed .p0 ((s.setWriter .p0 .closed).setReader .p0 .closed)
      = flushed .p0 (s.setReader .p0 .closed) := by
    simp [flushed, State.setSink, State.setWriter, State.setReader, State.sink, State.writer, Writer.closed, ha, ho]
  refine .accessing (u := s.setWriter .p0 .closed) ?_ (congrArg (errorEnd _ <| flushed .p1 ·) hlost)
  have h : encodeAct s = closeWriter .p0 .closeW1 s := by simp [encodeAct, hp]
  rw [h, closeWriter, closeW_pending (p := .p0) ho hn, push_refused _ (by exact ha)]
  exact if_pos (by simp [closePushes, State.writer, ho, hn])

/-! ## ENCODE's failures after bits that complete no byte -/

/-- Bits that complete no byte are accepted, and the engine goes past them (R128, R72). -/
theorem path_accepted {s u : State} {bits : Bits} {here : Bits → Pos}
    (hnext : ∀ b rest t, t.pos = here (b :: rest) →
      encodeAct t = Act.of (bitPushes .p1 t) ((writeBit .p1 b t).goto (here rest)))
    (hp : s.pos = here bits) (hn : s.w1.n.val + bits.length < 8) (hu : writeBits .p1 bits s = .ok () u) :
    Path encodeAct s 0 (u.goto (here [])) ∧ ∃ x, u = s.setWriter .p1 x := by
  obtain ⟨x, hw, hx⟩ := bits_accepted bits s.w1 hn
  have path := hx encodeAct here hnext s rfl
  rw [goto_self hp] at path
  cases (hw s rfl).symm.trans hu
  exact ⟨path, x, rfl⟩

theorem encodeAct_emitted (u : State) : encodeAct (u.goto (.emit [])) = encodeNext (u.goto (.emit [])) := rfl

/-- R258: a byte of the second pass is not pulled. -/
theorem emit_pull_fails {u : State} (hl : u.r0.pos < u.src0.data.length) (ha : u.src0.avail = false) :
    Fails encodeAct releasedEncode .sourceUnavailable (u.goto (.emit [])) u := by
  refine .accessing (u := u) ?_ rfl
  rw [encodeAct_emitted, encodeNext, atEnd_more (by exact hl), readByte_refused (by exact hl) (by exact ha)]
  rfl

/-- R258: a byte of the second pass has no code. -/
theorem emit_code_fails {u : State} {v : Byte} {rest : Bits} (hl : u.r0.pos < u.src0.data.length)
    (ha : u.src0.avail = true) (hr : ReaderOk u.r0 u.src0.data) (ho : u.r0.opened = true)
    (hv : u.unread .p0 = byteBits v ++ rest) (hc : u.dict.code v = none) :
    Fails encodeAct releasedEncode .noCode (u.goto (.emit [])) u := by
  obtain ⟨x, hx, -⟩ := readByte_of_unread_append (s := u.goto (.emit [])) (p := .p0) hr ho hv ha
  refine .accessing (u := u.setReader .p0 x) ?_ (by rw [releasedEncode_setReader])
  rw [encodeAct_emitted, encodeNext, atEnd_more (by exact hl), hx]
  simp only [Bool.false_eq_true, if_false, setReader_dict, goto_dict, hc]
  rfl

/-- R259: at the end of the second pass the tree stream's last byte is not pushed. -/
theorem emit_close_fails {u : State} (hend : atEnd .p0 u = true) (ho : u.w0.opened = true) (hn : u.w0.n ≠ 0)
    (ha : u.snk0.avail = false) : Fails encodeAct releasedEncode .sinkUnavailable (u.goto (.emit [])) u := by
  let c := ((closeR .p0 u).inPhase .eClose).goto .closeW0
  have hstep : encodeAct (u.goto (.emit [])) = .work c := by
    rw [encodeAct_emitted, encodeNext, if_pos (by exact hend)]
    rfl
  exact Fails.after (close_push_fails (s := c) rfl ho hn ha) (.work hstep (.refl c))

/-- R257, R258: with its padding accepted, ENCODE opens R0 again and takes the first byte of the second pass. -/
theorem pad_reopen {s₀ s u : State} {bits : Bits} (hr : s₀.running = some (.legal .encode))
    (hs : EngineGets encodeAct s₀ s) (hp : s.pos = .pad bits) (hn : s.w1.n.val + bits.length < 8)
    (hu : writeBits .p1 bits s = .ok () u) :
    (s.src0.avail = false → EndsWithError .encode .sourceUnavailable s₀ (releasedEncode u))
      ∧ ∀ v rest, s.src0.avail = true → s.src0.data = v :: rest → s.dict.code v = none →
        EndsWithError .encode .noCode s₀ (releasedEncode u) := by
  obtain ⟨_, hpath⟩ := hs.path
  obtain ⟨path, x, rfl⟩ := path_accepted encodeAct_pad hp hn hu
  exact encode_reopen hr (hpath.trans path)

theorem openW_payload {s : State} (ho : s.w1.opened = false) (ha : s.snk1.avail = true) :
    openW .p1 s = .ok () { s with
      w1 := { opened := true, acc := 0, n := 0 }, snk1 := { data := [], avail := true } } := by
  rw [openW, if_neg (by simpa using ho), if_pos (by exact ha), ← ha]
  rfl

/-- R256 to R258: the same from the end of the tree stream, with fewer than eight bits of padding. -/
theorem serialized_reopen {s₀ s u : State} {t : HTree} (hr : s₀.running = some (.legal .encode))
    (hs : EngineGets encodeAct s₀ s) (hp : s.pos = .ser []) (ht : s.tree = some t) (ho : s.w1.opened = false)
    (ha : s.snk1.avail = true) (hn : padCount (totalBits s.freq (buildDict t)) < 8)
    (hu : writeBits .p1 (padding (totalBits s.freq (buildDict t))) { padReady t s with
      w1 := { opened := true, acc := 0, n := 0 }, snk1 := { data := [], avail := true } } = .ok () u) :
    (s.src0.avail = false → EndsWithError .encode .sourceUnavailable s₀ (releasedEncode u))
      ∧ ∀ v rest, s.src0.avail = true → s.src0.data = v :: rest → (buildDict t).code v = none →
        EndsWithError .encode .noCode s₀ (releasedEncode u) := by
  obtain ⟨_, hpath⟩ := hs.path
  obtain ⟨x, hw, path⟩ := bits_accepted (p := .p1) (padding (totalBits s.freq (buildDict t)))
    { opened := true, acc := 0, n := 0 } (by rw [padding_length]; simpa using hn)
  cases (hw _ rfl).symm.trans hu
  have hstep := encodeAct_serialized hp ht
  rw [openW_payload (by exact ho) (by exact ha)] at hstep
  exact encode_reopen hr (hpath.trans (.opens hstep (path encodeAct .pad encodeAct_pad _ rfl)))

/-- Settles O45: each access, open and check that can fail is a path from s to a raised error, and Release follows. -/
theorem encodeErrorsKeepWhatWasDone : Obligations.EncodeErrorsKeepWhatWasDone := by
  intro s₀ s hr hs
  have ends {e : Error} {t : State} (h : Fails encodeAct releasedEncode e s t) := h.encode_ends hr hs
  refine ⟨fun hst h0 h1 ha => ends (encode_open_fails hst.pos h0 h1 ha),
    fun hp hl => ⟨fun ha => ends (count_pull_fails hp hl ha), fun ha ht => ends (count_overflows hp hl ha ht)⟩,
    fun t hp hend ht hb ho ha => ends (tree_open_fails hp hend ht hb ho ha),
    fun todo hp ho hw ha hn => ends (tree_push_fails hp ho hw ha hn),
    fun t hp ht ho => ⟨fun ha => ends (payload_open_fails hp ht ho ha),
      fun ha u hn hu => serialized_reopen hr hs hp ht ho ha hn hu⟩,
    fun bits hp ho hw ha hn => ends (hp.elim (payload_push_fails encodeAct_pad · ho hw ha hn)
      (payload_push_fails encodeAct_emit · ho hw ha hn)),
    fun bits u hn hu => ⟨fun hp => pad_reopen hr hs hp hn hu, fun hp hl => ?_, fun hp hend ho hn0 ha => ?_⟩,
    fun hp ho hn ha => ends (close_push_fails hp ho hn ha)⟩
  all_goals obtain ⟨path, x, rfl⟩ := path_accepted encodeAct_emit hp hn hu
  · refine ⟨fun ha => ends ((emit_pull_fails (u := s.setWriter .p1 x) hl ha).after path), ?_⟩
    intro v rest ha hrd hopen hv hc
    exact ends ((emit_code_fails (u := s.setWriter .p1 x) hl ha hrd hopen hv hc).after path)
  · exact ends ((emit_close_fails (u := s.setWriter .p1 x) hend ho hn0 ha).after path)

end Sys2Proof.Machine
end

section
namespace Sys2Proof.Machine

/-! ## DECODE's failures in the tree stream -/

/-- R270: W0 is not opened. -/
theorem decode_openW_fails {s : State} (hp : s.pos = .start) (h0 : s.w0.opened = false) (ha : s.snk0.avail = false) :
    Fails decodeAct releasedDecode .sinkUnavailable s s := by
  refine .opening (u := s.inPhase .dTree) ?_ rfl
  rw [decodeAct_start hp, decodeStart, if_neg (by simp [h0]), openW_refused (by exact h0) (by exact ha)]

/-- R270: with W0 opened, R0 is not. -/
theorem decode_openR_fails {s : State} (hp : s.pos = .start) (h0 : s.w0.opened = false) (hk : s.snk0.avail = true)
    (ha : s.src0.avail = false) : Fails decodeAct releasedDecode .sourceUnavailable s
      { s with w0 := Writer.closed, snk0 := { data := [], avail := true } } := by
  refine .opening (u := (s.inPhase .dTree).wrote .p0 (bytesBits [])) ?_ ?_
  · rw [decodeAct_start hp, decodeStart, if_neg (by simp [h0]), openW_closed _ _ (by exact h0) (by exact hk)]
    simp only
    rw [openR_refused (by rw [wrote_source]; exact ha)]
    rfl
  · rw [releasedDecode_wrote, releasedDecode, flushed_closed (by rfl), ← hk]
    rfl

/-- R189: the value of a leaf, or the marker after those buffered, is not pulled. -/
theorem tree_pull_fails {s : State} {fs : List Frame} {c : Nat} {e : Error} (hpull : pull .p0 s = .raise e s)
    (hp : s.pos = .desLeaf fs c ∨ (s.pos = .desNode fs c ∧ c + markerCount (s.buffered .p0) ≤ s.params.nodeCap)) :
    Fails decodeAct releasedDecode (inTree e) s s := by
  rcases hp with hp | ⟨hp, hc⟩
  · refine .accessing (u := s) ?_ rfl
    rw [decodeAct_leaf fs c s hp, desLeafAct, readByte_raise hpull]
  · obtain ⟨x, path, -⟩ := path_markers_raised decodeAct_node decodeAct_leaf _ s fs c rfl hpull hc
    rw [goto_self hp] at path
    exact ⟨_, _, path, by rw [releasedDecode_setReader]⟩

/-- R189: a node too many, its marker among those buffered. -/
theorem marker_tooLarge {s : State} {fs : List Frame} {c : Nat} (hp : s.pos = .desNode fs c)
    (hc : c ≤ s.params.nodeCap) (hm : s.params.nodeCap < c + markerCount (s.buffered .p0)) :
    Fails decodeAct releasedDecode .treeTooLarge s s := by
  obtain ⟨x, path, -⟩ := path_markers_tooLarge decodeAct_node _ s fs c rfl hc hm
  rw [goto_self hp] at path
  exact ⟨_, _, path, by rw [releasedDecode_setReader]⟩

/-- A bit of a byte that ReadBit can pull (R124). -/
theorem readBit_pulled {p : PortNum} {s : State} (hc : (s.reader p).cnt = 0)
    (hl : (s.reader p).pos < (s.source p).data.length) (h : (s.source p).avail = true) :
    ∃ b x, readBit p s = .ok b (s.setReader p x) := by
  simp [readBit, hc, pull, List.getElem?_eq_getElem hl, h]

/-- R189: a node too many, its marker the first bit of the byte pulled after the markers buffered. -/
theorem marker_pulled_tooLarge {s : State} {fs : List Frame} {c : Nat} (hp : s.pos = .desNode fs c)
    (hc : c + (s.buffered .p0).length = s.params.nodeCap) (hones : ∀ b ∈ s.buffered .p0, b = true)
    (hl : s.r0.pos < s.src0.data.length) (ha : s.src0.avail = true) :
    Fails decodeAct releasedDecode .treeTooLarge s s := by
  obtain ⟨x, gs, path, -, -, hx, hr⟩ := path_markers_ones (p := .p0) decodeAct_node _ s fs c []
    (by rw [List.append_nil]; exact List.eq_replicate_of_mem hones) hc.le
  rw [goto_self hp, hc] at path
  let u := (s.setReader .p0 x).goto (.desNode gs s.params.nodeCap)
  have hz : (u.reader .p0).cnt = 0 := buffered_nil hr
  have hl' : (u.reader .p0).pos < (u.source .p0).data.length := by show x.pos < _; rw [hx]; exact hl
  obtain ⟨b, y, hb⟩ := readBit_pulled hz hl' (by exact ha)
  refine Fails.after (u := u) (.accessing (u := s.setReader .p0 y) ?_ (by rw [releasedDecode_setReader])) path
  rw [decodeAct_node gs _ u rfl, desNodeAct, hb, bitPulls, hz]
  exact congrArg Act.access (if_pos (Nat.lt_succ_self _))

/-- R273: the tree is a single leaf. -/
theorem tree_degenerate {s : State} {t : HTree} {c : Nat} (hp : s.pos = .desDone t c) (ht : t.isLeaf = true) :
    Fails decodeAct releasedDecode .degenerateTree s { s with tree := some t, nodes := BitVec.ofNat 10 c } := by
  refine .working (u := closeR .p0 (storeTree t c s)) ?_ rfl
  have h : decodeAct s = decodeTreeRead t c s := by simp [decodeAct, hp]
  rw [h, decodeTreeRead, if_pos ht]

/-- DECODE with a tree of more than one node opens R1 for the padding (R273, R274). -/
theorem decodeAct_treeRead {s : State} {t : HTree} {c : Nat} (hp : s.pos = .desDone t c) (ht : t.isLeaf = false) :
    decodeAct s = .opens ((openR .p1 ((closeR .p0 (storeTree t c s)).inPhase .dPad)).goto .skip) := by
  have h : decodeAct s = decodeTreeRead t c s := by simp [decodeAct, hp]
  rw [h, decodeTreeRead, if_neg (by simp [ht])]

/-- R273: R1 is not opened. -/
theorem payload_openR_fails {s : State} {t : HTree} {c : Nat} (hp : s.pos = .desDone t c) (ht : t.isLeaf = false)
    (ha : s.src1.avail = false) :
    Fails decodeAct releasedDecode .sourceUnavailable s { s with tree := some t, nodes := BitVec.ofNat 10 c } := by
  refine .opening (u := (closeR .p0 (storeTree t c s)).inPhase .dPad) ?_ rfl
  rw [decodeAct_treeRead hp ht, openR_refused (by exact ha)]
  rfl

theorem atEnd_exhausted {p : PortNum} {s : State} (hc : (s.reader p).cnt = 0)
    (hl : (s.source p).data.length ≤ (s.reader p).pos) : atEnd p s = true := by
  simp [atEnd, hc, hl]

/-- R274: DECODE at the end of the payload while it skips the padding. -/
theorem skip_ended {s : State} (hp : s.pos = .skip) (hend : atEnd .p1 s = true) :
    Fails decodeAct releasedDecode .malformedPadding s s := by
  refine .working (u := s) ?_ rfl
  have h : decodeAct s = decodeSkip s := by simp [decodeAct, hp]
  rw [h, decodeSkip, if_pos hend]

/-- R274: the payload stream is empty. -/
theorem payload_empty {s : State} {t : HTree} {c : Nat} (hp : s.pos = .desDone t c) (ht : t.isLeaf = false)
    (ha : s.src1.avail = true) (hd : s.src1.data = []) :
    Fails decodeAct releasedDecode .malformedPadding s { s with tree := some t, nodes := BitVec.ofNat 10 c } := by
  let u := (((closeR .p0 (storeTree t c s)).inPhase .dPad).readAt .p1 0).goto .skip
  have hstep : decodeAct s = .opens u := by
    rw [decodeAct_treeRead hp ht, openR_avail _ _ (by exact ha)]
    rfl
  have hend : atEnd .p1 u = true := atEnd_exhausted rfl (by show s.src1.data.length ≤ 0; rw [hd]; exact le_rfl)
  obtain ⟨k, v, path, hv⟩ := skip_ended (s := u) rfl hend
  exact ⟨_, v, .opens hstep path, hv⟩

/-! ## DECODE's failures in the payload stream -/

/-- The padding's ones that are buffered are skipped; R1's next bit is to be pulled, or there is none (R274). -/
theorem path_skip_ones {s : State} (hp : s.pos = .skip) (hones : ∀ b ∈ s.buffered .p1, b = true) :
    ∃ x : Reader, Path decodeAct s 0 ((s.setReader .p1 x).goto .skip) ∧ x.pos = s.r1.pos ∧ x.cnt = 0 := by
  obtain ⟨x, path, hx, hr⟩ := path_skip_buffered (s.buffered .p1).length [] s
    (by rw [List.append_nil]; exact List.eq_replicate_of_mem hones)
  rw [goto_self hp] at path
  exact ⟨x, path, hx, buffered_nil hr⟩

/-- R274: a byte of the padding is not pulled. -/
theorem skip_pull_fails {s : State} (hp : s.pos = .skip) (hones : ∀ b ∈ s.buffered .p1, b = true)
    (hl : s.r1.pos < s.src1.data.length) (ha : s.src1.avail = false) :
    Fails decodeAct releasedDecode .sourceUnavailable s s := by
  obtain ⟨x, path, hx, hz⟩ := path_skip_ones hp hones
  let u := (s.setReader .p1 x).goto .skip
  have hl' : (u.reader .p1).pos < (u.source .p1).data.length := by show x.pos < _; rw [hx]; exact hl
  refine Fails.after (u := u) (.accessing (u := s.setReader .p1 x) ?_ (by rw [releasedDecode_setReader])) path
  have h : decodeAct u = decodeSkip u := rfl
  rw [h, decodeSkip, atEnd_more hl', readBit_refused (by exact hz) hl' (by exact ha), bitPulls,
    show (u.reader .p1).cnt = 0 from hz]
  rfl

/-- R274: the payload ends in its padding. -/
theorem skip_all_fails {s : State} (hp : s.pos = .skip) (hones : ∀ b ∈ s.buffered .p1, b = true)
    (hl : s.src1.data.length ≤ s.r1.pos) : Fails decodeAct releasedDecode .malformedPadding s s := by
  obtain ⟨x, path, hx, hz⟩ := path_skip_ones hp hones
  let u := (s.setReader .p1 x).goto .skip
  have hend : atEnd .p1 u = true := atEnd_exhausted hz (by show _ ≤ x.pos; rw [hx]; exact hl)
  exact (skip_ended (s := u) rfl hend).after path

/-- R275: a byte of the payload is not pulled, the bits buffered before it reaching no leaf. -/
theorem walk_pull_fails {s : State} (hp : s.pos = .walk) (ha : s.src1.avail = false)
    (hl : s.r1.pos < s.src1.data.length)
    (hno : ∀ pre v, pre <+: s.buffered .p1 → pre ≠ [] →
      s.tree.bind (HTree.node · (s.cursor ++ pre)) ≠ some (.leaf v)) :
    Fails decodeAct releasedDecode .sourceUnavailable s { s with cursor := s.cursor ++ s.buffered .p1 } := by
  obtain ⟨x, path⟩ := path_walk_refused _ s rfl ha hl hno
  rw [goto_self hp] at path
  exact ⟨_, _, path, rfl⟩

/-- R275: a decoded byte is not pushed, buffered bits reaching its leaf. -/
theorem walk_push_fails {s : State} {t : HTree} {pre rest : Bits} {v : Byte} (hp : s.pos = .walk) (ht : s.tree = some t)
    (hne : pre ≠ []) (ha : s.snk0.avail = false) (hb : s.buffered .p1 = pre ++ rest)
    (hn : t.node (s.cursor ++ pre) = some (.leaf v)) :
    Fails decodeAct releasedDecode .sinkUnavailable s { s with cursor := s.cursor ++ pre } := by
  obtain ⟨x, path⟩ := path_leaf_refused pre rest s hne hb ht hn ha
  rw [goto_self hp] at path
  exact ⟨_, _, path, rfl⟩

/-- Release after the padding and a walk: the readers and PHASE are given up, the cursor stays where it stood. -/
theorem errorEnd_walked (s : State) (x y : Reader) (c : Bits) (e : Error) :
    errorEnd e (releasedDecode
        (((((s.setReader .p1 x).setCursor []).inPhase .dDecode).setReader .p1 y).setCursor c))
      = errorEnd e (releasedDecode (s.setCursor c)) := by
  simp only [releasedDecode_setCursor, releasedDecode_setReader, releasedDecode_inPhase]
  rfl

/-- The same, the bits before it ending the padding (R274). -/
theorem skip_walk_pull_fails {s : State} {ones : Nat} {code : Bits} (hp : s.pos = .skip)
    (ha : s.src1.avail = false) (hl : s.r1.pos < s.src1.data.length)
    (hb : s.buffered .p1 = List.replicate ones true ++ false :: code)
    (hno : ∀ pre v, pre <+: code → pre ≠ [] → s.tree.bind (HTree.node · pre) ≠ some (.leaf v)) :
    Fails decodeAct releasedDecode .sourceUnavailable s { s with cursor := code } := by
  obtain ⟨x, path, hx, hr⟩ := path_skip_ended ones code s hb
  rw [goto_self hp] at path
  obtain ⟨y, rest⟩ := path_walk_refused code (((s.setReader .p1 x).setCursor []).inPhase .dDecode) hr ha
    (by show x.pos < _; rw [hx]; exact hl) hno
  exact ⟨_, _, path.trans rest, errorEnd_walked s x y code _⟩

/-- R275: a decoded byte is not pushed, its leaf reached by bits buffered after the end of the padding. -/
theorem skip_walk_push_fails {s : State} {t : HTree} {ones : Nat} {pre rest : Bits} {v : Byte} (hp : s.pos = .skip)
    (ht : s.tree = some t) (hne : pre ≠ []) (ha : s.snk0.avail = false)
    (hb : s.buffered .p1 = List.replicate ones true ++ false :: (pre ++ rest)) (hn : t.node pre = some (.leaf v)) :
    Fails decodeAct releasedDecode .sinkUnavailable s { s with cursor := pre } := by
  obtain ⟨x, path, -, hr⟩ := path_skip_ended ones (pre ++ rest) s hb
  rw [goto_self hp] at path
  obtain ⟨y, leaf⟩ := path_leaf_refused pre rest (((s.setReader .p1 x).setCursor []).inPhase .dDecode)
    hne hr ht hn ha
  exact ⟨_, _, path.trans leaf, errorEnd_walked s x y pre _⟩

/-- R275: the decoded byte is not pushed. -/
theorem write_push_fails {s : State} {v : Byte} (hp : s.pos = .write v) (ha : s.snk0.avail = false) :
    Fails decodeAct releasedDecode .sinkUnavailable s s := by
  refine .accessing (u := s) ?_ rfl
  have h : decodeAct s = decodeWrite v s := by simp [decodeAct, hp]
  rw [h, decodeWrite, writeByte_refused _ _ _ (by exact ha)]

/-- Settles O46: each open, Pull, Push and check that can fail is a path from s to a raised error, and Release
follows. -/
theorem decodeErrorsKeepWhatWasDone : Obligations.DecodeErrorsKeepWhatWasDone := by
  intro s₀ s hr hs
  have ends {e : Error} {t : State} (h : Fails decodeAct releasedDecode e s t) := h.decode_ends hr hs
  refine ⟨fun hst h0 => ⟨fun ha => ends (decode_openW_fails hst.pos h0 ha),
      fun hk ha => ends (decode_openR_fails hst.pos h0 hk ha)⟩,
    fun fs c hp => ⟨fun hl ha => ends (tree_pull_fails (pull_refused hl ha) hp),
      fun hl => ends (tree_pull_fails (pull_exhausted hl) hp)⟩,
    fun fs c hp hc htoo => ends (htoo.elim (marker_tooLarge hp hc)
      fun ⟨hn, hones, hl, ha⟩ => marker_pulled_tooLarge hp hn hones hl ha),
    fun t c hp => ⟨fun ht => ends (tree_degenerate hp ht), fun ht ha => ends (payload_openR_fails hp ht ha),
      fun ht ha hd => ends (payload_empty hp ht ha hd)⟩,
    fun hp hones => ⟨fun hl ha => ends (skip_pull_fails hp hones hl ha),
      fun hl => ends (skip_all_fails hp hones hl)⟩,
    fun ha hl => ⟨fun ones code hp hb hno => ends (skip_walk_pull_fails hp ha hl hb hno),
      fun hp hno => ends (walk_pull_fails hp ha hl hno)⟩,
    fun t pre rest v ht hne ha => ⟨fun ones hp hb hn => ends (skip_walk_push_fails hp ht hne ha hb hn),
      fun hp hb hn => ends (walk_push_fails hp ht hne ha hb hn)⟩,
    fun v hp ha => ends (write_push_fails hp ha)⟩

end Sys2Proof.Machine
end
